-- ==== Sys2Proof/Word.lean ====
section
/-! DEFINITION. The word types of the Quitre MXQ-2480: register words, bytes, and the 32 lanes of a warp. -/

namespace Sys2Proof

/-- A scalar register, an address or an instruction word (R200, R216). -/
abbrev Word := BitVec 64

/-- One lane of a vector register, or a 32-bit special register (R283). -/
abbrev W32 := BitVec 32

/-- A byte of memory. -/
abbrev Byte := BitVec 8

/-- One vector register: 32 lanes of 32 bits (R4, R283). -/
abbrev Lanes := Vector (BitVec 32) 32

/-- A sparse table: the listed keys, each once; every other key holds the table's default. -/
abbrev AMap (α : Type) := List (Nat × α)

end Sys2Proof
end

