-- ==== Sys2Proof/Syntax.lean ====
section
/-! DEFINITION. The instruction set as syntax: one constructor of `Instr` for each row of the opcode table.
A row with an encoding carries its format's fields; a row without one (a completion, an arrival, an outside
event) carries none: its operands stand in the state's `ev`, put there by the step that runs it, and its comment
names the fields of `ev` it reads. -/

namespace Sys2Proof

/-- Data types of R219; code 0xF names none. -/
inductive DT where
  | i8 | n8 | i16 | n16 | i32 | n32 | i64 | n64 | f32 | f16 | bf16 | e4m3 | e5m2 | q4 | b32
  deriving DecidableEq, Repr

/-- Scopes of R154. -/
inductive Scope where
  | warp | core | quad | die | device | system
  deriving DecidableEq, Repr

/-- Ordering qualifiers of R156. -/
inductive Ord2 where
  | relaxed | acq | rel | acqrel
  deriving DecidableEq, Repr

/-- Cache hints of Format M (R211). -/
inductive Hint where
  | normal | stream | retain
  deriving DecidableEq, Repr

/-- Branch hints of Format BR (R212). -/
inductive BrHint where
  | none | likely | unlikely | uniform
  deriving DecidableEq, Repr

/-- Condition codes of R210. -/
inductive CC where
  | eq | ne | lt | le | gt | ge | un
  deriving DecidableEq, Repr

/-- The three units of the matrix queue (R345). -/
inductive CubeUnit where
  | load | compute | tile
  deriving DecidableEq, Repr

/-- The classes of CTXCTL.ACKS (R456, R457), from bit 24 up. -/
inductive EngClass where
  | warps | cube | copy | gather | pergola | plane | kiosk | collective
  deriving DecidableEq, Repr

/-- A clause header (R201). -/
structure Hdr where
  len : BitVec 4
  wait : BitVec 12
  fa : BitVec 4
  fav : Bool
  fb : BitVec 4
  fbv : Bool
  deriving DecidableEq, Repr

/-- Format A (R209). `i` selects the immediate; `ext` and the modifiers are zero in the short form. -/
structure FmtA where
  long : Bool
  dt : DT
  d : BitVec 6
  a : BitVec 6
  b : BitVec 6
  c : BitVec 6
  cc : BitVec 3
  i : Bool
  imm16 : BitVec 16
  modA : BitVec 12
  modB : BitVec 12
  modC : BitVec 12
  ext : BitVec 28
  deriving DecidableEq, Repr

/-- Format M (R211). -/
structure FmtM where
  long : Bool
  dt : DT
  d : BitVec 6
  a : BitVec 6
  b : BitVec 6
  scope : Scope
  ord : Ord2
  hint : Hint
  nosplit : Bool
  voff : Bool
  ofs : BitVec 16
  modA : BitVec 12
  ext : BitVec 28
  deriving DecidableEq, Repr

/-- Format BR (R212). -/
structure FmtBR where
  hint : BrHint
  s : BitVec 6
  v : BitVec 6
  cc : BitVec 3
  ofs : BitVec 32
  deriving DecidableEq, Repr

/-- Format E (R213); `imm64` is zero in the short form. -/
structure FmtE where
  long : Bool
  d : BitVec 6
  a : BitVec 6
  b : BitVec 6
  c : BitVec 6
  q : BitVec 4
  prio : BitVec 3
  imm20 : BitVec 20
  imm64 : BitVec 64
  deriving DecidableEq, Repr

/-- Format G (R214); `col` is the AXIS bit. -/
structure FmtG where
  col : Bool
  sel : BitVec 2
  in1 : BitVec 10
  in2 : BitVec 10
  in3 : BitVec 10
  out : BitVec 10
  deriving DecidableEq, Repr

/-- The read-modify-write operations of R310. -/
inductive AtomOp where
  | add | min | max | and | or | xor | xchg | cas | fadd
  deriving DecidableEq, Repr

/-- What an access from outside the device asks for (R39, R140, R477). -/
inductive OutOp where
  | load | store | atom (op : AtomOp) (dt : DT)
  deriving DecidableEq, Repr

/-- One piece of a peer or host access: a peer piece names an aperture offset, a host piece a physical address. `bytes2` is the
new value of a compare-exchange. -/
structure OutReq where
  op : OutOp
  addr : Nat
  bytes : List Byte
  bytes2 : List Byte := []
  deriving DecidableEq, Repr

/-- A Jexmer flit as it is received (R478): its sequence number, acknowledgement and flow tag, and a
payload of at most 240 bytes. -/
structure Flit where
  seq : BitVec 16
  ack : BitVec 16
  flow : Nat
  crcOk : Bool
  payload : List OutReq
  deriving DecidableEq, Repr

/-- One physical core's sensor readings in °C, with those of the four band current sensors and a mask of the current sensors
found faulty (R473). -/
structure CoreReading where
  phys : Nat
  t0 : Int
  t1 : Int
  current : List Nat
  cfault : BitVec 4
  deriving DecidableEq, Repr

/-- One sampling of the sensors (R473). -/
abbrev Sample := List CoreReading

/-- A boot image: its bytes, its ML-DSA-44 signature and public key, and its security version (R481). -/
structure Image where
  bytes : List Byte
  signature : List Byte
  pubKey : List Byte
  version : Nat
  deriving DecidableEq, Repr

/-- Why an instruction word could not be fetched (R200): the cause and detail of R447, and the PEER field. -/
structure FetchFault where
  cause : BitVec 8
  detail : BitVec 8
  faddr : BitVec 64
  deriving DecidableEq, Repr

/-- The instructions, completions and events of the opcode table, one constructor a row. -/
inductive Instr where
  /-- CLAUSE_HEADER (R205): A clause header adds its instructions' counts to flags A and B, then holds the warp until the unflagged count is zero and every WAIT flag is clear. -/
  | clauseHeader (f : Hdr)
  /-- ADD (R261): Scalar integer add at the width of DT, written sign- or zero-extended. -/
  | add (f : FmtA)
  /-- SUB (R261): Scalar integer subtract at the width of DT. -/
  | sub (f : FmtA)
  /-- MUL (R261): Scalar integer multiply, keeping the low w bits. -/
  | mul (f : FmtA)
  /-- MULHI (R261): Scalar upper half of the exact 2w-bit product. -/
  | mulhi (f : FmtA)
  /-- MIN (R261): Scalar integer minimum. -/
  | min (f : FmtA)
  /-- MAX (R261): Scalar integer maximum. -/
  | max (f : FmtA)
  /-- DIV (R262): Scalar integer division rounded toward zero, with defined results for zero divisors and overflow. -/
  | div (f : FmtA)
  /-- REM (R262): Scalar integer remainder, with defined results for zero divisors and overflow. -/
  | rem (f : FmtA)
  /-- AND (R261): Scalar bitwise AND. -/
  | and (f : FmtA)
  /-- OR (R261): Scalar bitwise OR. -/
  | or (f : FmtA)
  /-- XOR (R261): Scalar bitwise XOR. -/
  | xor (f : FmtA)
  /-- ANDN (R261): Scalar AND with the complement of the second operand. -/
  | andn (f : FmtA)
  /-- SHL (R261): Scalar shift left by the second operand modulo w. -/
  | shl (f : FmtA)
  /-- SHR (R261): Scalar arithmetic or logical shift right by the second operand modulo w. -/
  | shr (f : FmtA)
  /-- ROT (R261): Scalar rotate right by the second operand modulo w. -/
  | rot (f : FmtA)
  /-- POPC (R261): Scalar population count. -/
  | popc (f : FmtA)
  /-- CLZ (R261): Scalar count of leading zero bits within w bits. -/
  | clz (f : FmtA)
  /-- BFX (R261): Scalar bit-field extract. -/
  | bfx (f : FmtA)
  /-- BFI (R261): Scalar bit-field insert from s[C]. -/
  | bfi (f : FmtA)
  /-- SETC (R263): Scalar compare that writes 1 or 0 under the condition code. -/
  | setc (f : FmtA)
  /-- SEL (R263): Scalar select of s[A] or s[B] according to s[C]. -/
  | sel (f : FmtA)
  /-- MOV (R264): Scalar register move at the width of DT. -/
  | mov (f : FmtA)
  /-- MOVI (R264): Move of a sign-extended immediate into a scalar register. -/
  | movi (f : FmtA)
  /-- MFSR (R265): Read of a special register into a scalar register. -/
  | mfsr (f : FmtA)
  /-- MTSR (R267): Write of a scalar register into a writable special register such as em, nmode, spillbase, spilllen or tlerr. -/
  | mtsr (f : FmtA)
  /-- MFV (R265): Move of one lane of a vector register into a scalar register. -/
  | mfv (f : FmtA)
  /-- MTV (R265): Broadcast of a scalar register into the active lanes of a vector register. -/
  | mtv (f : FmtA)
  /-- FADD (R268): Scalar float add with one rounding. -/
  | fadd (f : FmtA)
  /-- FSUB (R268): Scalar float subtract with one rounding. -/
  | fsub (f : FmtA)
  /-- FMUL (R268): Scalar float multiply with one rounding. -/
  | fmul (f : FmtA)
  /-- FFMA (R268): Scalar fused multiply-add with one rounding. -/
  | ffma (f : FmtA)
  /-- FCVT (R268): Scalar conversion between number types. -/
  | fcvt (f : FmtA)
  /-- BRA (R270): Unconditional branch to a clause header. -/
  | bra (f : FmtBR)
  /-- BRS (R270): Branch on a scalar compared with zero. -/
  | brs (f : FmtBR)
  /-- BRV (R271): Divergent vector branch that records its pending mask and target in a scalar register pair. -/
  | brv (f : FmtBR)
  /-- JOIN (R272): Switches to the side of a divergence not yet run, or restores the mask and falls through; acts as a core-scope fence. -/
  | join (f : FmtBR)
  /-- BRANY (R270): Branch taken when the condition holds in some active lane. -/
  | brany (f : FmtBR)
  /-- BRALL (R270): Branch taken when the condition holds in every active lane. -/
  | brall (f : FmtBR)
  /-- CALL (R274): Writes the link, advances the register window by F and spills positions if needed. -/
  | call (f : FmtBR)
  /-- RET (R275): Retreats the register window, fills positions if needed and returns to the link target. -/
  | ret (f : FmtBR)
  /-- NOP (R278): No operation. -/
  | nop (f : FmtA)
  /-- WAITF (R278): Holds the warp until the named flags, or the unflagged count, are clear. -/
  | waitf (f : FmtA)
  /-- REGION (R279): Holds outstanding results, advances regctr, sets regpc and records the Pergola tail. -/
  | region (f : FmtA)
  /-- EXIT (R273): Retires the active lanes and ends the warp when no live lane remains. -/
  | exit (f : FmtA)
  /-- WAITT (R280): Waits until a timeline counter reaches a value, then acquires the operations it numbers. -/
  | waitt (f : FmtE)
  /-- TLADV (R182): Raises a software timeline counter as a core-scope release. -/
  | tladv (f : FmtE)
  /-- WAITV (R281): Deschedules the warp until a memory word meets a comparison, optionally acquiring. -/
  | waitv (cc : CC) (f : FmtM)
  /-- VADD_FLOAT (R286): Lane-wise float add. -/
  | vaddFloat (f : FmtA)
  /-- VSUB_FLOAT (R286): Lane-wise float subtract. -/
  | vsubFloat (f : FmtA)
  /-- VMUL_FLOAT (R286): Lane-wise float multiply. -/
  | vmulFloat (f : FmtA)
  /-- VFMA (R286): Lane-wise fused multiply-add with one rounding. -/
  | vfma (f : FmtA)
  /-- VMAX_FLOAT (R286): Lane-wise float maximum. -/
  | vmaxFloat (f : FmtA)
  /-- VMIN_FLOAT (R286): Lane-wise float minimum. -/
  | vminFloat (f : FmtA)
  /-- VABS_FLOAT (R286): Lane-wise float absolute value. -/
  | vabsFloat (f : FmtA)
  /-- VSETC_FLOAT (R286): Lane-wise float compare giving all-ones or zero. -/
  | vsetcFloat (f : FmtA)
  /-- VADD_INT (R288): Lane-wise integer add with narrow saturation under nmode. -/
  | vaddInt (f : FmtA)
  /-- VSUB_INT (R288): Lane-wise integer subtract. -/
  | vsubInt (f : FmtA)
  /-- VMUL_INT (R288): Lane-wise integer multiply. -/
  | vmulInt (f : FmtA)
  /-- VMAD (R288): Lane-wise integer multiply-add. -/
  | vmad (f : FmtA)
  /-- VMAX_INT (R287): Lane-wise integer maximum. -/
  | vmaxInt (f : FmtA)
  /-- VMIN_INT (R287): Lane-wise integer minimum. -/
  | vminInt (f : FmtA)
  /-- VABS_INT (R288): Lane-wise signed integer absolute value. -/
  | vabsInt (f : FmtA)
  /-- VSETC_INT (R287): Lane-wise integer compare giving all-ones or zero. -/
  | vsetcInt (f : FmtA)
  /-- VMULHI (R287): Lane-wise upper half of the exact integer product. -/
  | vmulhi (f : FmtA)
  /-- VAND (R289): Lane-wise bitwise AND. -/
  | vand (f : FmtA)
  /-- VOR (R289): Lane-wise bitwise OR. -/
  | vor (f : FmtA)
  /-- VXOR (R289): Lane-wise bitwise XOR. -/
  | vxor (f : FmtA)
  /-- VNOT (R289): Lane-wise bitwise NOT. -/
  | vnot (f : FmtA)
  /-- VSHL (R289): Lane-wise shift left per element. -/
  | vshl (f : FmtA)
  /-- VSHR (R289): Lane-wise shift right per element. -/
  | vshr (f : FmtA)
  /-- VPOPC (R289): Lane-wise population count. -/
  | vpopc (f : FmtA)
  /-- VCLZ (R289): Lane-wise count of leading zeros. -/
  | vclz (f : FmtA)
  /-- VBFX (R289): Lane-wise bit-field extract. -/
  | vbfx (f : FmtA)
  /-- VBFI (R289): Lane-wise bit-field insert. -/
  | vbfi (f : FmtA)
  /-- VSEL (R289): Lane-wise bitwise select. -/
  | vsel (f : FmtA)
  /-- VMOV (R289): Lane-wise move through a source modifier. -/
  | vmov (f : FmtA)
  /-- VMOVI (R289): Move of an immediate into each active lane. -/
  | vmovi (f : FmtA)
  /-- VCVT (R291): Float-to-float conversion of one element. -/
  | vcvt (f : FmtA)
  /-- VCVTI (R291): Float-to-integer conversion of one element. -/
  | vcvti (f : FmtA)
  /-- VCVTF (R291): Integer-to-float conversion of one element. -/
  | vcvtf (f : FmtA)
  /-- VPACK (R292): Rounds two FP32 values into packed elements. -/
  | vpack (f : FmtA)
  /-- VUNPK (R292): Widens two packed elements exactly to FP32. -/
  | vunpk (f : FmtA)
  /-- VQ4ENC (R294): Encodes each lane's value into one q4 code under a scale byte. -/
  | vq4enc (f : FmtA)
  /-- VQ4DEC (R295): Decodes one q4 code to FP32. -/
  | vq4dec (f : FmtA)
  /-- VQ4SCL (R293): Chooses a q4 block scale byte from the active lanes. -/
  | vq4scl (f : FmtA)
  /-- VEXP2 (R296): Correctly rounded base-2 exponential. -/
  | vexp2 (f : FmtA)
  /-- VLOG2 (R296): Correctly rounded base-2 logarithm. -/
  | vlog2 (f : FmtA)
  /-- VRCP (R296): Correctly rounded reciprocal. -/
  | vrcp (f : FmtA)
  /-- VRSQ (R296): Correctly rounded reciprocal square root. -/
  | vrsq (f : FmtA)
  /-- VTANH (R296): Correctly rounded hyperbolic tangent. -/
  | vtanh (f : FmtA)
  /-- VPERM (R298): Each active lane reads the lane named by an index. -/
  | vperm (f : FmtA)
  /-- VBCAST (R298): Broadcast of the lowest active lane. -/
  | vbcast (f : FmtA)
  /-- VANY (R299): Vote that some active lane holds a nonzero value. -/
  | vany (f : FmtA)
  /-- VALL (R299): Vote that every active lane holds a nonzero value. -/
  | vall (f : FmtA)
  /-- VBALLOT (R299): Mask of the active lanes holding a nonzero value. -/
  | vballot (f : FmtA)
  /-- VMATCH (R299): Mask of the active lanes whose operand equals the lane's own. -/
  | vmatch (f : FmtA)
  /-- VREDADD (R300): Butterfly sum reduction over the active lanes. -/
  | vredadd (f : FmtA)
  /-- VREDMAX (R300): Maximum reduction over the active lanes. -/
  | vredmax (f : FmtA)
  /-- VREDMIN (R300): Minimum reduction over the active lanes. -/
  | vredmin (f : FmtA)
  /-- VSCANADD (R300): Inclusive or exclusive prefix sum. -/
  | vscanadd (f : FmtA)
  /-- VSCANMAX (R300): Inclusive or exclusive prefix maximum. -/
  | vscanmax (f : FmtA)
  /-- VFREXP (R301): Splits a float into significand and exponent. -/
  | vfrexp (f : FmtA)
  /-- VLDEXP (R302): Scales floats by an exact power of two. -/
  | vldexp (f : FmtA)
  /-- VEXPMAX (R303): Maximum of an integer exponent and the ceiling of a float. -/
  | vexpmax (f : FmtA)
  /-- LD_G (R309): Per-lane load of one element after the address, translation and presence checks. -/
  | ldG (f : FmtM)
  /-- LD_G2 (R309): Per-lane 8-byte load. -/
  | ldG2 (f : FmtM)
  /-- LD_G4 (R309): Per-lane 16-byte load. -/
  | ldG4 (f : FmtM)
  /-- ST_G (R309): Per-lane store of one element. -/
  | stG (f : FmtM)
  /-- ST_G2 (R309): Per-lane 8-byte store. -/
  | stG2 (f : FmtM)
  /-- ST_G4 (R309): Per-lane 16-byte store. -/
  | stG4 (f : FmtM)
  /-- ATOM_ADD (R310): Atomic integer add at the home. -/
  | atomAdd (f : FmtM)
  /-- ATOM_MIN (R310): Atomic minimum. -/
  | atomMin (f : FmtM)
  /-- ATOM_MAX (R310): Atomic maximum. -/
  | atomMax (f : FmtM)
  /-- ATOM_AND (R310): Atomic AND. -/
  | atomAnd (f : FmtM)
  /-- ATOM_OR (R310): Atomic OR. -/
  | atomOr (f : FmtM)
  /-- ATOM_XOR (R310): Atomic XOR. -/
  | atomXor (f : FmtM)
  /-- ATOM_XCHG (R310): Atomic exchange. -/
  | atomXchg (f : FmtM)
  /-- ATOM_CAS (R310): Atomic compare-and-swap. -/
  | atomCas (f : FmtM)
  /-- ATOM_FADD (R310): Atomic FP32 add rounded with RNE. -/
  | atomFadd (f : FmtM)
  /-- ATOMO_ADD (R312): Ordered atomic add in ticket order. -/
  | atomoAdd (f : FmtM)
  /-- ATOMO_XCHG (R312): Ordered atomic exchange in ticket order. -/
  | atomoXchg (f : FmtM)
  /-- ATOMO_OR (R312): Ordered atomic OR in ticket order. -/
  | atomoOr (f : FmtM)
  /-- ATOMO_MAX (R312): Ordered atomic maximum in ticket order. -/
  | atomoMax (f : FmtM)
  /-- FENCE (R160): Acquire, release or acq-rel fence at a scope. -/
  | fence (f : FmtM)
  /-- PFENCE (R193): Waits for the warp's writes and in-flight fills, then discards the core's path caches. -/
  | pfence (f : FmtM)
  /-- PREF (R314): Prefetches lines into L2 and L1 without faulting. -/
  | pref (f : FmtM)
  /-- WBACK (R315): Releases at device scope, writes dirty lines back to memory and waits for them. -/
  | wback (f : FmtM)
  /-- COPY (R317): Queues a linear copy, numbers it on its queue's counter and clears the presence of scratchpad destination lines. -/
  | copy (f : FmtE)
  /-- COPY2D (R317): Queues a strided two-dimensional copy. -/
  | copy2d (f : FmtE)
  /-- COPYKB (R108): Queues a kernel-boundary copy into a die's weight store, in system mode only. -/
  | copykb (f : FmtE)
  /-- GATHER (R318): Reads the index list, checks every element and queues an indexed gather. -/
  | gather (f : FmtE)
  /-- TLBI_PG (R319): Starts an invalidation of a page range of one context. -/
  | tlbiPg (f : FmtE)
  /-- TLBI_CTX (R319): Starts an invalidation of one context. -/
  | tlbiCtx (f : FmtE)
  /-- TLBI_SR (R319): Starts an invalidation of a system-half range. -/
  | tlbiSr (f : FmtE)
  /-- TLBI_SYS (R319): Starts an invalidation of all untagged entries. -/
  | tlbiSys (f : FmtE)
  /-- TLBI_ALL (R319): Starts an invalidation of every entry. -/
  | tlbiAll (f : FmtE)
  /-- TLBISYNC (R320): Holds the warp until its started invalidations complete. -/
  | tlbisync (f : FmtE)
  /-- BAR_ARRIVE (R321): Counts an arrival at a barrier phase as a quad-scope release and returns the phase. -/
  | barArrive (f : FmtE)
  /-- BAR_WAIT (R321): Waits until the barrier phase passes the given value, then acquires. -/
  | barWait (f : FmtE)
  /-- BAR_SYNC (R321): Arrives at a barrier, then waits on the phase just written. -/
  | barSync (f : FmtE)
  /-- KRUN (R323): Checks a Kiosk descriptor, queues the run on its channel's Kiosk and numbers it on tl8. -/
  | krun (f : FmtE)
  /-- KRD (R324): Reports the state, channel and queue position of a Kiosk run. -/
  | krd (f : FmtE)
  /-- COLL (R326): Checks a collective descriptor and issues the participant's command, numbering it on tl9. -/
  | coll (f : FmtE)
  /-- KPUSH (R126): Kiosk mask push that ANDs a comparison into each bank's mask. -/
  | kpush (f : FmtA)
  /-- KELSE (R126): Kiosk mask else. -/
  | kelse (f : FmtA)
  /-- KPOP (R126): Kiosk mask pop. -/
  | kpop (f : FmtA)
  /-- KREAD (R328): Kiosk all-bank read-out of one accumulator register to the destination range. -/
  | kread (f : FmtA)
  /-- KIOSK_COLUMN_READ (R123): A Kiosk column read loads one column word of a stripe into c in every lane. -/
  | kioskColumnRead (f : FmtM)
  /-- KIOSK_VADD (R124): Kiosk lane-wise FP32 add. -/
  | kioskVadd (f : FmtA)
  /-- KIOSK_VSUB (R124): Kiosk lane-wise FP32 subtract. -/
  | kioskVsub (f : FmtA)
  /-- KIOSK_VMUL (R124): Kiosk lane-wise FP32 multiply. -/
  | kioskVmul (f : FmtA)
  /-- KIOSK_VFMA (R124): Kiosk lane-wise FP32 fused multiply-add. -/
  | kioskVfma (f : FmtA)
  /-- KIOSK_VMAX (R124): Kiosk lane-wise FP32 maximum. -/
  | kioskVmax (f : FmtA)
  /-- KIOSK_VMIN (R124): Kiosk lane-wise FP32 minimum. -/
  | kioskVmin (f : FmtA)
  /-- KIOSK_VMOV (R123): Kiosk move into k0 to k3. -/
  | kioskVmov (f : FmtA)
  /-- KIOSK_ADD (R235): Kiosk scalar add. -/
  | kioskAdd (f : FmtA)
  /-- KIOSK_SUB (R235): Kiosk scalar subtract. -/
  | kioskSub (f : FmtA)
  /-- KIOSK_SETC (R235): Kiosk scalar compare. -/
  | kioskSetc (f : FmtA)
  /-- KIOSK_MOVI (R235): Kiosk scalar move-immediate. -/
  | kioskMovi (f : FmtA)
  /-- KIOSK_BRA (R123): Kiosk unconditional branch. -/
  | kioskBra (f : FmtBR)
  /-- KIOSK_BRS (R123): Kiosk conditional branch on a scalar. -/
  | kioskBrs (f : FmtBR)
  /-- KIOSK_EXIT (R133): Kiosk exit ends the run, writes the completion record and completes the run for tl8. -/
  | kioskExit (f : FmtA)
  /-- CLDB (R355): Queues a load of a stationary set's B plane. -/
  | cldb (f : FmtE)
  /-- CLDG (R355): Queues a load of a stationary set's KJ gate plane. -/
  | cldg (f : FmtE)
  /-- CLDK (R355): Queues a load of a stationary set's K vector. -/
  | cldk (f : FmtE)
  /-- CMAC3 (R357): Queues a three-operand cube contraction into accumulator tiles. -/
  | cmac3 (f : FmtE)
  /-- CMAC (R357): Queues a two-operand cube contraction. -/
  | cmac (f : FmtE)
  /-- CSHIFT (R358): Queues a read of one tile row into a vector register, optionally clearing it. -/
  | cshift (f : FmtE)
  /-- CDRAIN (R358): Queues a drain of a tile into the accumulator store. -/
  | cdrain (f : FmtE)
  /-- CZERO (R358): Queues the zeroing of tiles. -/
  | czero (f : FmtE)
  /-- CSHAPE (R359): Writes ashape after checks. -/
  | cshape (f : FmtE)
  /-- CELOG (R359): Returns one cube error log entry. -/
  | celog (f : FmtE)
  /-- CECLR (R359): Clears cerr and empties the log. -/
  | ceclr (f : FmtE)
  /-- TLEAF (R371): Creates a LEAF node over a memory rectangle. -/
  | tleaf (f : FmtE)
  /-- TCONTRACT (R372): Creates a CONTRACT node, checked against the legality table. -/
  | tcontract (f : FmtE)
  /-- TEWISE (R371): Creates an element-wise node. -/
  | tewise (f : FmtE)
  /-- TROWRED (R371): Creates a row-reduction node. -/
  | trowred (f : FmtE)
  /-- TMAP (R371): Creates an index-map node. -/
  | tmap (f : FmtE)
  /-- TCAST (R371): Creates a cast node. -/
  | tcast (f : FmtE)
  /-- TFORCE (R389): Demands a rectangle of a node resident in its home buffer and waits for the evaluation. -/
  | tforce (f : FmtE)
  /-- TSTORE (R390): Demands a rectangle and writes it to memory. -/
  | tstore (f : FmtE)
  /-- TSNAP (R391): Copies a LEAF's bytes to a new base and moves its guarded range. -/
  | tsnap (f : FmtE)
  /-- TMODE (R392): Sets the warp's Pergola mode and quotas. -/
  | tmode (f : FmtE)
  /-- TDROP (R393): Drops a node. -/
  | tdrop (f : FmtE)
  /-- TQUERY (R394): Reports node table usage or a node's state. -/
  | tquery (f : FmtE)
  /-- LPNOR (R398): Two-input NOR gate in every selected line of a logic plane. -/
  | lpnor (f : FmtG)
  /-- LPNORTRI (R398): Three-input NOR gate in every selected line. -/
  | lpnortri (f : FmtG)
  /-- LPNOT (R398): NOT gate in every selected line. -/
  | lpnot (f : FmtG)
  /-- LPINIT (R398): Sets the output cell to 1 in every selected line. -/
  | lpinit (f : FmtG)
  /-- LPRDV (R412): Reads a plane line into a vector register. -/
  | lprdv (f : FmtA)
  /-- LPWRV (R412): Writes a plane line from a vector register. -/
  | lpwrv (f : FmtA)
  /-- LPCNT (R412): Returns a physical line's budget and write counter. -/
  | lpcnt (f : FmtA)
  /-- LPREMAP (R403): Rotates the map entries of a pool of lines. -/
  | lpremap (f : FmtA)
  /-- LPBUDGET (R412): Lowers a physical line's write budget. -/
  | lpbudget (f : FmtA)
  /-- LPSEL_VECTOR (R412): Loads a selection register from a vector register. -/
  | lpselVector (f : FmtA)
  /-- LPSEL_MEMORY (R412): Loads a selection register from 128 bytes of memory through the plane-read path. -/
  | lpselMemory (f : FmtA)
  /-- LPSTAT (R407): Returns the non-volatile plane status word. -/
  | lpstat (f : FmtA)
  /-- LPSTAT_CLR (R407): Returns the plane status word and clears CUT. -/
  | lpstatClr (f : FmtA)
  /-- LPSTAT_ISS (R412): Returns the context's tl7 issue count. -/
  | lpstatIss (f : FmtA)
  /-- GLAUNCH (R438): Launches a child grid from a launch record as a device-scope release. -/
  | glaunch (f : FmtE)
  /-- GWAIT (R439): Waits until a grid instance retires, then acquires. -/
  | gwait (f : FmtE)
  /-- PHEND (R421): Ends a warp's phase, records carried registers, frees nodes and registers. -/
  | phend (f : FmtE)
  /-- MIGPT (R441): Marks a migration point and holds the warp while a migration request stands. -/
  | migpt (f : FmtE)
  /-- TQPUSH (R442): Pushes an entry at the bottom of a task deque. -/
  | tqpush (f : FmtE)
  /-- TQPOP (R442): Removes the bottom entry, skipping cancelled ones, waiting while the deque is empty. -/
  | tqpop (f : FmtE)
  /-- TQPOP_NW (R442): Removes the bottom entry, or returns 0 at once when the deque is empty. -/
  | tqpopNw (f : FmtE)
  /-- TQSTEAL (R442): Removes the top entry, or returns 0. -/
  | tqsteal (f : FmtE)
  /-- CANCEL (R443): Adds an instance to the context's cancel table. -/
  | cancel (f : FmtE)
  /-- CANCEL_CLR (R443): Removes an instance from the cancel table. -/
  | cancelClr (f : FmtE)
  /-- GINST (R444): Returns the grid instance, depth, role and phase. -/
  | ginst (f : FmtE)
  /-- YIELD (R444): Makes the warp not ready for up to 64 cycles. -/
  | yield (f : FmtE)
  /-- TRAP (R454): Enters the handler with a software-trap cause. -/
  | trap (f : FmtBR)
  /-- TRET (R454): Returns from the handler to user mode, rolling back Pergola state when the target is regpc. -/
  | tret (f : FmtBR)
  /-- BRK (R454): Stops the context under DBG, or enters the handler with a breakpoint cause. -/
  | brk (f : FmtBR)
  /-- MFSYS (R455): Reads a system special register. -/
  | mfsys (f : FmtA)
  /-- MTSYS (R455): Writes a system special register. -/
  | mtsys (f : FmtA)
  /-- CTXSAVE (R455): Writes the warp's user state to a save area. -/
  | ctxsave (f : FmtA)
  /-- CTXREST (R455): Reads the warp's user state back from a save area. -/
  | ctxrest (f : FmtA)
  /-- PREACK (R459): Acknowledges a cooperative pre-emption and saves the warp at tpc. -/
  | preack (f : FmtA)
  /-- ILLEGAL_INSTRUCTION (R233): Execution reaches a word whose major or FN this manual does not assign, or a Kiosk-only or header major in instruction position, and it takes the illegal-instruction trap. -/
  | illegalInstruction (sub : BitVec 8)
  /-- INSTRUCTION_FETCH_FAULT (R200): An instruction whose word cannot be fetched, by translation, permission or a window, faults when execution reaches it. -/
  | instructionFetchFault (flt : FetchFault)
  /-- RESULT_ARRIVE (R205): An A- or B-class register result arrives and subtracts one from its flag's count or from the unflagged count. Operands: x = warp, y = k. -/
  | resultArrive
  /-- WAITV_EVALUATE (R281): Re-evaluates a waitv condition after a write to the word's line is performed at its home. Operands: x = warp. -/
  | waitvEvaluate
  /-- WAITV_PERIODIC_EVAL (R281): Re-evaluates a waitv condition once 4,096 cycles have passed since the last evaluation. Operands: x = warp. -/
  | waitvPeriodicEval
  /-- HELD_ACCESS_PERFORM (R81): An access held for presence is performed once every line it touches is present. Operands: x = warp; or nums = the place of a release that has waited for ordered lanes (R158). -/
  | heldAccessPerform
  /-- ATOMO_LANE_ARRIVE (R167): An ordered-atomic lane arriving at its home slice is performed, buffered or performed as stale, and buffered lanes whose turn follows are drained. Operands: x = k. -/
  | atomoLaneArrive
  /-- ATOMO_RETRY (R168): Lanes refused for lack of buffer entries are retried when a NEXT in the slice advances. Operands: x = warp. -/
  | atomoRetry
  /-- COPY_RETRY (R187): A copy refused because 48 copies were in flight is retried when a copy of the core completes. Operands: x = warp. -/
  | copyRetry
  /-- TRACKED_WRITE_DELIVER (R80): A tracked engine write finishes its bytes in a scratchpad line and lowers the line's outstanding count. Operands: x = core, y = op, z = line. -/
  | trackedWriteDeliver
  /-- COPY_COMPLETE (R195): A copy has written every destination byte and its queue's counter may advance. Operands: x = core, y = op. -/
  | copyComplete
  /-- GATHER_COMPLETE (R195): A gather has written every element and tl4 may advance. Operands: x = core, y = op. -/
  | gatherComplete
  /-- INVALIDATION_COMPLETE (R76): An invalidation completes once no cache holds a removed entry and every access through one has been performed. Operands: x = k. -/
  | invalidationComplete
  /-- WALK_COMPLETE (R62): A table walk finishes its reads and returns a leaf or a translation fault. Operands: x = die, y = k. -/
  | walkComplete
  /-- WALK_QUEUED_START (R70): A miss that waited because 512 walks were outstanding starts when a walk finishes. Operands: x = die. -/
  | walkQueuedStart
  /-- KRUN_RETRY (R130): A krun refused by a full Kiosk launch queue is retried when an entry frees. Operands: x = warp. -/
  | krunRetry
  /-- COLLECTIVE_MATCH (R326): Once all ranks of one GROUP and SEQ have issued, the collective runs, or fails with a data error if the descriptors disagree. Operands: v = group, g = seq. -/
  | collectiveMatch
  /-- COLLECTIVE_COMPLETE (R199): The collective's results are written at every destination and each participant's number completes. Operands: v = group, g = seq. -/
  | collectiveComplete
  /-- KIOSK_RUN_START (R131): A Kiosk starts the next queued run of a resident context, reading program, parameters and scalars. Operands: x = ch. -/
  | kioskRunStart
  /-- KIOSK_REFRESH_PAUSE (R136): The controller pauses a run at a boundary to issue postponed refreshes before the allowance is passed. Operands: x = ch. -/
  | kioskRefreshPause
  /-- KIOSK_OPEN_ROW_ACCESS (R137): An ordinary access reaches a bank whose row a Kiosk holds open and is served at once or made to wait. Operands: x = ch, y = offset, wr = wr. -/
  | kioskOpenRowAccess
  /-- KIOSK_ACCESS_WAIT_TIMEOUT (R137): The oldest waiting ordinary access reaches 250 ns and the run pauses to serve it. Operands: x = ch. -/
  | kioskAccessWaitTimeout
  /-- KIOSK_ROW_LIMIT (R138): An open row would pass its 1 µs mark, so the run pauses to close and reopen it. Operands: x = ch. -/
  | kioskRowLimit
  /-- MATRIX_QUEUE_RETRY (R344): A cube command refused by a full matrix queue is retried when an entry frees. Operands: x = warp. -/
  | matrixQueueRetry
  /-- MATRIX_DISPATCH (R346): A free unit takes the eligible entry of highest effective priority. Operands: x = core, unit = unit. -/
  | matrixDispatch
  /-- MATRIX_PRIORITY_AGE (R346): A waiting entry's effective priority rises by one for each full 4,096 cycles of waiting. Operands: x = core, y = k. -/
  | matrixPriorityAge
  /-- CUBE_KSTEP_BOUNDARY (R347): At a k-step boundary the stage-2 update lands and the running entry may be suspended for a higher-priority one. Operands: x = core. -/
  | cubeKstepBoundary
  /-- CUBE_RETIRE (R195): A cube entry retires and may advance tl5. Operands: x = core, y = k. -/
  | cubeRetire
  /-- BAND_POWER_UP (R337): A powered-off band becomes powered and the operations that use it may proceed. Operands: x = core, y = band. -/
  | bandPowerUp
  /-- BAND_POWER_OFF (R337): The core powers off a band that no queued or running operation uses. Operands: x = core, y = band. -/
  | bandPowerOff
  /-- PERGOLA_EVAL_COMPLETE (R196): The demanded rectangle is resident, or an evaluation fault is delivered at the demanding instruction, and tl6 advances. Operands: x = warp. -/
  | pergolaEvalComplete
  /-- TMODE_RETRY (R362): A tmode refused for lack of free table entries is retried when entries free. Operands: x = warp. -/
  | tmodeRetry
  /-- PLANE_QUEUE_RETRY (R399): A plane instruction refused by a full plane queue is retried when an entry frees. Operands: x = warp. -/
  | planeQueueRetry
  /-- PLANE_ENTRY_PERFORM (R197): The plane performs the next queued entry, updating cells and counters, and tl7 may advance. Operands: x = core. -/
  | planeEntryPerform
  /-- GLAUNCH_RETRY (R419): A glaunch refused because 4,096 grids are unretired is retried when a grid retires. Operands: x = warp. -/
  | glaunchRetry
  /-- PHASE_DISPATCH (R421): When every non-exited warp is phase-waiting, the next phase is dispatched and warps restored from their records. Operands: x = block. -/
  | phaseDispatch
  /-- CANCEL_COMPLETE (R432): Every deque applies the new cancel table and the holding warp continues. Operands: x = ctx. -/
  | cancelComplete
  /-- YIELD_EXPIRE (R444): The 64 cycles of a yield pass and the warp is ready again. Operands: x = warp. -/
  | yieldExpire
  /-- WAIT_RESUME (R434): A warp in a scheduler-visible wait is resumed once its condition holds. Operands: x = warp. -/
  | waitResume
  /-- ROUND_COMMIT (R173): A deterministic round commits its held writes and commands in warp order once every warp has ended its quantum. Operands: x = grid. -/
  | roundCommit
  /-- ADMIT_ATTEMPT (R423): The Bandstand tries to reserve a core group for a cluster and commits or releases the grants. Operands: x = die, y = grid, z = cluster. -/
  | admitAttempt
  /-- ADMIT_BACKOFF_EXPIRE (R423): An admission back-off wait ends and the cluster tries again. Operands: x = die, y = grid, z = cluster. -/
  | admitBackoffExpire
  /-- PARK_BLOCK (R424): A parkable block is saved to the park area and its cores freed. Operands: x = block. -/
  | parkBlock
  /-- UNPARK_BLOCK (R424): A parked block whose wait is satisfied is restored on its logical cores. Operands: x = block. -/
  | unparkBlock
  /-- GRID_SUBMIT (R418): A launch record is read whole, checked and either rejected or made a grid awaiting admission. Operands: x = ctx, v = addr. -/
  | gridSubmit
  /-- DOORBELL_NOTIFY (R463): A write to a doorbell page adds units to the slot's PEND, overflowing into the memory count. Operands: x = slot, y = ctx, z = n. -/
  | doorbellNotify
  /-- UQ_MAP (R464): A write of MAPPED = 1 maps the user queue and moves waiting units from the memory count into PEND. Operands: x = slot, v = v. -/
  | uqMap
  /-- UQ_UNMAP (R464): A write of MAPPED = 0 adds PEND to the memory count and clears PEND. Operands: x = slot, v = v. -/
  | uqUnmap
  /-- UQ_CONSUME_UNIT (R465): The queue scheduler reads the next ring entry, advances RD and submits the launch record it names. Operands: x = slot. -/
  | uqConsumeUnit
  /-- CTXSLOT_WRITE (R427): A write to a context slot sets its residency and weight, resetting its PASS when it becomes weighted. Operands: x = core, y = slot, v = v. -/
  | ctxslotWrite
  /-- CTXCTL_PREQ (R457): A pre-emption request sets ACKS and starts stopping every class that holds the context's work. Operands: x = ctx. -/
  | ctxctlPreq
  /-- PREEMPT_CLASS_STOP (R457): A class stops at its boundary, saves its state and clears its ACKS bit; DONE sets when ACKS reaches 0. Operands: x = ctx, cls = cls. -/
  | preemptClassStop
  /-- COOP_PREEMPT_ENTRY (R459): Under CO, a warp reaching its next clause boundary enters the handler with a pre-empt cause. Operands: x = warp. -/
  | coopPreemptEntry
  /-- PREACK_TIMEOUT (R459): A warp that has not issued preack within 100 µs is stopped. Operands: x = warp. -/
  | preackTimeout
  /-- CTXCTL_RESUME (R456): Restores a saved context and makes it resident. Operands: x = ctx. -/
  | ctxctlResume
  /-- CTXCTL_KILL (R462): Stops every agent of the context and drops its incomplete operations. Operands: x = ctx. -/
  | ctxctlKill
  /-- SLICE_EXPIRE (R461): A context's effective slice expires while another context waits for the core. Operands: x = ctx. -/
  | sliceExpire
  /-- MIGRATION (R467): All warps of the core reach a migration point and the logical core moves to an idle physical core. Operands: x = core, y = target. -/
  | migration
  /-- MIGRATION_LAPSE (R441): A migration request lapses when the warps do not all reach a point within 100 µs. Operands: x = core. -/
  | migrationLapse
  /-- WSREF_WRITE (R111): A write of SHIFT is accepted while LOCK is 0 and awaits the next frame boundary. Operands: x = die, v = v. -/
  | wsrefWrite
  /-- WS_REFRESH_SHIFT_APPLY (R111): At the first frame boundary after the write, the new SHIFT governs refresh. Operands: x = die. -/
  | wsRefreshShiftApply
  /-- WS_REFRESH_SLOT (R109): A 512-cycle slot ends, stalled reads of the refreshed bank group proceed and the next group refreshes. Operands: x = die. -/
  | wsRefreshSlot
  /-- HBMREQ_WRITE (R118): A write of a requested HBM5 state starts or supersedes a retraining of the stack. Operands: x = stack, v = v. -/
  | hbmreqWrite
  /-- HBM_GROUP_RETRAIN_DONE (R114): A channel group finishes its 10 µs retraining, its stalled accesses proceed and the next group starts. Operands: x = stack. -/
  | hbmGroupRetrainDone
  /-- ROOT_WRITE (R49): A write to ROOTU or ROOTS, discarded if its base lies outside HBM5, governs later walks. Operands: ctx = ctx, v = v. -/
  | rootWrite
  /-- INBOUND_ENTRY_WRITE (R42): A write to an inbound segment entry takes effect whole for later peer accesses. Operands: x = e, v = v. -/
  | inboundEntryWrite
  /-- FABRIC_NUMBER_ASSIGN (R40): Fabric bring-up assigns the device's peer number and sets DEVNUM.SET. Operands: x = n. -/
  | fabricNumberAssign
  /-- PEER_ACCESS_ARRIVE (R140): A peer access piece arrives at its target, is resolved through the inbound table and performed at the home slice, or returns a peer error. Operands: req = req. -/
  | peerAccessArrive
  /-- PEER_NO_ROUTE_TIMEOUT (R141): A peer access that has found no route for 100 ms faults as peer-access. Operands: x = warp, or nums = an engine's core, operation and line, or the place of a kept release. -/
  | peerNoRouteTimeout
  /-- HOST_ACCESS (R477): A RoCE v2 request from the host on a front port is served. Operands: req = req. -/
  | hostAccess
  /-- FLIT_RECEIVE (R478): A Jexmer flit is received, checked by CRC and delivered in sequence exactly once. Operands: x = port, flit = flit. -/
  | flitReceive
  /-- LINK_TRAIN_START (R479): A port in DOWN periodically enters TRAIN. Operands: x = port. -/
  | linkTrainStart
  /-- LINK_TRAIN_RESULT (R479): Training ends with the port UP, DEGRADED, or DOWN after three failures. Operands: x = port, y = lanes. -/
  | linkTrainResult
  /-- LINK_RETRAIN_ENTER (R479): Loss of lock or more than 16 CRC failures within 1 ms sends the port to RETRAIN and reroutes traffic. Operands: x = port. -/
  | linkRetrainEnter
  /-- PEER_PORT_DISABLE (R480): A write of DIS = 1 takes a peer port out of service. Operands: x = port. -/
  | peerPortDisable
  /-- QVF_WRITE (R470): A write of a quad's requested step starts or supersedes a voltage and frequency ramp. Operands: x = quad, v = v. -/
  | qvfWrite
  /-- VF_RAMP_SEGMENT (R469): A 1 µs ramp segment completes, moving one frequency step or up to 10 mV of voltage. Operands: x = quad. -/
  | vfRampSegment
  /-- DROOP_DETECT (R471): The input falls below 95 %, cadence is forced to 16 and every quad is asked for its droop step. -/
  | droopDetect
  /-- DROOP_END (R471): The input has stayed above 95 % for 100 µs, DROOP clears and the quads are asked for their steps again. -/
  | droopEnd
  /-- CADENCE_STEP (R471): After a droop, CAD falls by 1 each µs towards CADBASE. Operands: x = core. -/
  | cadenceStep
  /-- POWER_LOSS (R472): The input falls below 75 %, or a droop passes 10 ms, and firmware pre-empts every resident context. -/
  | powerLoss
  /-- POWER_RECOVER (R472): The input recovers during hold-up and firmware resumes every context. -/
  | powerRecover
  /-- POWER_HOLDUP_EXPIRE (R472): The hold-up runs out and the module powers down, cutting any plane entry in progress. -/
  | powerHoldupExpire
  /-- SENSOR_SAMPLE (R473): The sensors are sampled every 10 µs, faults are declared and thermal limits applied. Operands: sample = smp. -/
  | sensorSample
  /-- POWER_ON_RESET (R46): Power-on reset sets the core map to identity and starts the boot path. -/
  | powerOnReset
  /-- BOOT_STAGE_CHECK (R481): A boot stage verifies the next image's digest, signature and version, extends the measurement, and falls back to slot B or recovery on failure. Operands: image = img. -/
  | bootStageCheck
  /-- RECOVERY_IMAGE (R481): In recovery mode, an image arrives on the management VLAN. Operands: image = img. -/
  | recoveryImage
  /-- SELF_TEST (R483): The standard or extended self-test begins, and at its second event ends: it excludes faulty cores and swaps in spares. Operands: nums = faulty, where it begins. -/
  | selfTest
  /-- SHOCK_RECORD (R483): The shock logger records a shock above 10 g while the module is unpowered. Operands: x = milliG. -/
  | shockRecord
  /-- ATTESTATION_REQUEST (R482): An attestation request is answered with a signature over the measurement and nonce. Operands: nonce = nonce. -/
  | attestationRequest
  /-- BVCTL_FREEZE (R485): A write of FREEZE stops every clock of the four compute dies. -/
  | bvctlFreeze
  /-- JTAG_FREEZE (R485): The IEEE 1149.1 FREEZE instruction freezes the dies. -/
  | jtagFreeze
  /-- BVCTL_THAW (R486): A write of THAW restarts the clocks of frozen dies. -/
  | bvctlThaw
  /-- BELVEDERE_READOUT (R486): Read-out of the architectural state of the frozen dies, changing nothing. -/
  | belvedereReadout
  /-- REGISTER_WRITE (R37): A write to a device register with no behaviour of its own updates its writable fields or is discarded whole. Operands: v = addr, x = size, g = v. -/
  | registerWrite
  /-- KIOSK_ILLEGAL_INSTRUCTION (R123): A Kiosk run reaches a word outside its executable subset, including a clause header, and stops as illegal-instruction. -/
  | kioskIllegalInstruction
  /-- BANK_REFRESH_DUE (R136): A per-bank refresh of the capacity tier falls due and is either issued or postponed, raising the bank's postponed count. Operands: x = ch, y = bank. -/
  | bankRefreshDue
  /-- PEER_PORT_ENABLE (R480): A write of DIS = 0 to a disabled peer port returns it to service and takes it out of the DISABLED state. Operands: x = port. -/
  | peerPortEnable
  deriving DecidableEq, Repr

end Sys2Proof
end

