-- ==== Sys2Proof/Machine/Encoding.lean ====
section
/-! DEFINITION. The encoding tables: which major and FN each instruction has (R228 to R232), and which fields,
types and codes its entry permits (R208 to R220 and the entries). The decoder, the encoder and the
well-formedness check all read these tables. -/

namespace Sys2Proof

/-- The data type behind a code of R219. -/
def DT.ofCode (c : BitVec 4) : Option DT :=
  match c.toNat with
  | 0 => some .i8 | 1 => some .n8 | 2 => some .i16 | 3 => some .n16 | 4 => some .i32 | 5 => some .n32
  | 6 => some .i64 | 7 => some .n64 | 8 => some .f32 | 9 => some .f16 | 10 => some .bf16 | 11 => some .e4m3
  | 12 => some .e5m2 | 13 => some .q4 | 14 => some .b32 | _ => none

/-- The code of a data type (R219). -/
def DT.code : DT → BitVec 4
  | .i8 => 0 | .n8 => 1 | .i16 => 2 | .n16 => 3 | .i32 => 4 | .n32 => 5 | .i64 => 6 | .n64 => 7
  | .f32 => 8 | .f16 => 9 | .bf16 => 10 | .e4m3 => 11 | .e5m2 => 12 | .q4 => 13 | .b32 => 14

/-- Element width in bits (R219, R284). -/
def DT.width : DT → Nat
  | .i8 | .n8 | .e4m3 | .e5m2 => 8
  | .i16 | .n16 | .f16 | .bf16 => 16
  | .i32 | .n32 | .f32 | .b32 => 32
  | .i64 | .n64 => 64
  | .q4 => 4

/-- Elements a lane register holds (R284). -/
def DT.elems : DT → Nat
  | .i8 | .n8 | .e4m3 | .e5m2 => 4
  | .i16 | .n16 | .f16 | .bf16 => 2
  | .q4 => 8
  | _ => 1

def DT.is64 (t : DT) : Bool := t = .i64 || t = .n64
def DT.isFloat : DT → Bool
  | .f32 | .f16 | .bf16 | .e4m3 | .e5m2 => true
  | _ => false
def DT.isInt : DT → Bool
  | .i8 | .n8 | .i16 | .n16 | .i32 | .n32 | .i64 | .n64 => true
  | _ => false
def DT.signed : DT → Bool
  | .i8 | .i16 | .i32 | .i64 => true
  | _ => false

/-- The scope behind a code of R154. -/
def Scope.ofCode (c : BitVec 3) : Option Scope :=
  match c.toNat with
  | 0 => some .warp | 1 => some .core | 2 => some .quad | 3 => some .die | 4 => some .device | 5 => some .system
  | _ => none
def Scope.code : Scope → BitVec 3
  | .warp => 0 | .core => 1 | .quad => 2 | .die => 3 | .device => 4 | .system => 5
/-- Whether a scope is at least as wide as another. -/
def Scope.ge (a b : Scope) : Bool := b.code.toNat ≤ a.code.toNat

/-- The ORD field (R156). -/
def Ord2.ofCode (c : BitVec 2) : Ord2 :=
  if c = 0 then .relaxed else if c = 1 then .acq else if c = 2 then .rel else .acqrel
def Ord2.code : Ord2 → BitVec 2
  | .relaxed => 0 | .acq => 1 | .rel => 2 | .acqrel => 3

/-- The HINT field of Format M (R211); 11 names none. -/
def Hint.ofCode (c : BitVec 2) : Option Hint :=
  if c = 0 then some .normal else if c = 1 then some .stream else if c = 2 then some .retain else none
def Hint.code : Hint → BitVec 2
  | .normal => 0 | .stream => 1 | .retain => 2

/-- The HINT field of Format BR (R212). -/
def BrHint.ofCode (c : BitVec 2) : BrHint :=
  if c = 0 then .none else if c = 1 then .likely else if c = 2 then .unlikely else .uniform
def BrHint.code : BrHint → BitVec 2
  | .none => 0 | .likely => 1 | .unlikely => 2 | .uniform => 3

/-- The code of a condition (R210). -/
def CC.code : CC → BitVec 3
  | .eq => 0 | .ne => 1 | .lt => 2 | .le => 3 | .gt => 4 | .ge => 5 | .un => 6

/-- The condition behind a code of R210. -/
def CC.ofCode (c : BitVec 3) : Option CC :=
  match c.toNat with
  | 0 => some .eq | 1 => some .ne | 2 => some .lt | 3 => some .le | 4 => some .gt | 5 => some .ge | 6 => some .un
  | _ => none

end Sys2Proof

namespace Sys2Proof.Machine

open Sys2Proof

/-- How an entry uses a register field (R216). -/
inductive Use where
  | none | s | v
  deriving DecidableEq, Repr

/-- Whether the B operand may be the immediate (R209). -/
inductive ImmUse where
  | never | opt | req
  deriving DecidableEq, Repr

/-- What the CC/RO field carries (R210): zero (reported at step 9), unused (step 5), an override, a condition, or the F / 8 of call (R274). -/
inductive CcUse where
  | zero | unused | ro | roNotF32 | cmpF | cmpI | cmpDt | callF
  deriving DecidableEq, Repr

/-- What a Format A entry permits. `imm16` and `imm16I` are the IMM16 bits it uses with I = 0 and I = 1;
`pd` to `pc` mark fields that name a pair when DT has 64 bits; `dts` empty means DT is unused. -/
structure SpecA where
  d : Use := .none
  a : Use := .none
  b : Use := .none
  c : Use := .none
  imm : ImmUse := .never
  imm16 : BitVec 16 := 0
  imm16I : BitVec 16 := 0xFFFF
  dts : List DT := []
  cc : CcUse := .zero
  mods : Bool := true
  pd : Bool := false
  pa : Bool := false
  pb : Bool := false
  pc : Bool := false
  longOk : Bool := true
  deriving DecidableEq, Repr

/-- The kinds of access that R156 tells apart. -/
inductive OrdUse where
  | load | store | atomic | fence | none
  deriving DecidableEq, Repr

/-- What a Format M entry permits; `align` is the multiple that D must be for the DT. -/
structure SpecM where
  d : Use := .v
  dts : List DT := []
  offs : Bool := true
  voff : Bool := true
  scope : Bool := true
  ord : OrdUse
  hint : Bool := false
  nosplit : Bool := false
  align : DT → Nat := fun dt => if dt = .i64 ∨ dt = .n64 then 2 else 1

/-- How an entry uses Q: unused (a nonzero value is step 5 or step 9), or a range. -/
inductive QUse where
  | none5 | none9 | range (lo hi : Nat)
  deriving DecidableEq, Repr

/-- What a Format E entry permits; `imm20` is the mask of the bits it uses. -/
structure SpecE where
  d : Use := .none
  a : Use := .none
  b : Use := .none
  c : Use := .none
  long : Bool := false
  q : QUse := .none5
  prio : Bool := false
  imm20 : BitVec 20 := 0
  deriving DecidableEq, Repr

/-- What a Format BR entry permits. -/
structure SpecBR where
  s : Bool := false
  sEven : Bool := false
  v : Use := .none
  cc : CcUse := .unused
  hint : Bool := true
  ofs : BitVec 32 := 0xFFFFFFFF
  deriving DecidableEq, Repr

def intDTs : List DT := [.i8, .n8, .i16, .n16, .i32, .n32, .i64, .n64]
def f3DTs : List DT := [.f32, .f16, .bf16]
def f5DTs : List DT := [.f32, .f16, .bf16, .e4m3, .e5m2]
def w4DTs : List DT := [.i32, .n32, .i64, .n64]
def memDTs : List DT := [.i8, .n8, .i16, .n16, .i32, .n32, .i64, .n64, .f32, .f16, .bf16, .e4m3, .e5m2, .b32]
def bw3DTs : List DT := [.b32, .i64, .n64]

/-- Scalar two-operand arithmetic (R260). -/
def sBin : SpecA := { d := .s, a := .s, b := .s, imm := .opt, dts := intDTs }
/-- Scalar unary (R260). -/
def sUn : SpecA := { d := .s, a := .s, dts := intDTs }
/-- Scalar float (R268). -/
def sF : SpecA := { d := .s, a := .s, b := .s, imm := .opt, dts := f3DTs, cc := .ro }
/-- Vector two-operand over the given types (R283). -/
def vBin (dts : List DT) (cc : CcUse) : SpecA :=
  { d := .v, a := .v, b := .v, imm := .opt, dts := dts, cc := cc, pd := true, pa := true, pb := true }
/-- Vector three-operand (R283). -/
def vTri (dts : List DT) (cc : CcUse) : SpecA := { vBin dts cc with c := .v, pc := true }
/-- Vector unary (R283). -/
def vUn (dts : List DT) (cc : CcUse) : SpecA := { d := .v, a := .v, dts := dts, cc := cc, pd := true, pa := true }
/-- Control words of 0x28 (R278): every field but IMM16 zero. -/
def ctlA (m : BitVec 16) (long : Bool) : SpecA := { imm16 := m, cc := .unused, longOk := long }
/-- Plane words of 0xB4 (R412). -/
def plA (s : SpecA) : SpecA := { s with dts := [.b32], longOk := false, mods := false }
/-- System words of 0xD4 (R455). -/
def sysA (s : SpecA) : SpecA := { s with dts := [.n64], cc := .unused, longOk := false }
/-- Loads, stores and atomics (R308, R310, R312). -/
def ldM (dts : List DT) (al : DT → Nat) : SpecM :=
  { dts := dts, ord := .load, hint := true, nosplit := true, align := al }
def stM (dts : List DT) (al : DT → Nat) : SpecM := { dts := dts, ord := .store, hint := true, align := al }
def atM (dts : List DT) : SpecM := { dts := dts, ord := .atomic }
def aoM (dts : List DT) : SpecM := { dts := dts, ord := .atomic, align := fun _ => 4 }
def pair64 : DT → Nat := fun dt => if dt = .i64 ∨ dt = .n64 then 2 else 1

/-- An instruction seen through its encoding: format, major, FN, the entry's permissions and the fields.
A `k` shape is a word of a Kiosk program; an event has no word. -/
inductive Shape where
  | a (major fn : Nat) (sp : SpecA) (f : FmtA)
  | m (major fn : Nat) (sp : SpecM) (f : FmtM)
  | e (major fn : Nat) (sp : SpecE) (f : FmtE)
  | br (major : Nat) (sp : SpecBR) (f : FmtBR)
  | g (major : Nat) (inputs : Nat) (f : FmtG)
  | ka (major fn : Nat) (f : FmtA)
  | km (major fn : Nat) (f : FmtM)
  | kbr (major : Nat) (f : FmtBR)
  | hdr (f : Hdr)
  | event

/-- The encoding of each instruction: R228 to R232 and the entries of its chapter. -/
def shapeOf : Instr → Shape
  | .clauseHeader f => .hdr f
  | .resultArrive => .event
  | .add f => .a 0x00 0 sBin f
  | .sub f => .a 0x00 1 sBin f
  | .mul f => .a 0x00 2 sBin f
  | .mulhi f => .a 0x00 3 sBin f
  | .min f => .a 0x00 4 sBin f
  | .max f => .a 0x00 5 sBin f
  | .div f => .a 0x00 6 sBin f
  | .rem f => .a 0x00 7 sBin f
  | .and f => .a 0x01 0 sBin f
  | .or f => .a 0x01 1 sBin f
  | .xor f => .a 0x01 2 sBin f
  | .andn f => .a 0x01 3 sBin f
  | .shl f => .a 0x01 4 sBin f
  | .shr f => .a 0x01 5 sBin f
  | .rot f => .a 0x01 6 sBin f
  | .popc f => .a 0x01 7 sUn f
  | .clz f => .a 0x01 8 sUn f
  | .bfx f => .a 0x01 9 sBin f
  | .bfi f => .a 0x01 10 { sBin with c := .s } f
  | .setc f => .a 0x02 0 { sBin with dts := intDTs ++ f3DTs, cc := .cmpDt } f
  | .sel f => .a 0x02 1 { sBin with dts := [.n64], c := .s } f
  | .mov f => .a 0x03 0 { sUn with cc := .unused } f
  | .movi f => .a 0x03 1 { d := .s, imm := .req, dts := intDTs, cc := .unused } f
  | .mfsr f => .a 0x03 2 { d := .s, imm16 := 0xFF, dts := [.n64], cc := .unused } f
  | .mtsr f => .a 0x03 3 { a := .s, imm16 := 0xFF, dts := [.n64], cc := .unused } f
  | .mfv f => .a 0x03 4 { d := .s, a := .v, b := .s, imm := .opt, dts := [.b32, .i32, .i64, .n64], mods := false, pa := true, cc := .unused } f
  | .mtv f => .a 0x03 5 { d := .v, a := .s, dts := bw3DTs, pd := true, cc := .unused } f
  | .fadd f => .a 0x04 0 sF f
  | .fsub f => .a 0x04 1 sF f
  | .fmul f => .a 0x04 2 sF f
  | .ffma f => .a 0x04 3 { sF with c := .s } f
  | .fcvt f => .a 0x04 4 { d := .s, a := .s, imm16 := 0xF, dts := intDTs ++ f5DTs, cc := .ro } f
  | .bra f => .br 0x20 { } f
  | .brs f => .br 0x21 { s := true, cc := .cmpI } f
  | .brv f => .br 0x22 { s := true, sEven := true, v := .v, cc := .cmpI } f
  | .join f => .br 0x23 { s := true, sEven := true, hint := false, ofs := 0 } f
  | .brany f => .br 0x24 { v := .v, cc := .cmpI } f
  | .brall f => .br 0x25 { v := .v, cc := .cmpI } f
  | .call f => .br 0x26 { s := true, v := .s, cc := .callF, hint := false } f
  | .ret f => .br 0x27 { s := true, hint := false, ofs := 0 } f
  | .nop f => .a 0x28 0 (ctlA 0 true) f
  | .waitf f => .a 0x28 1 (ctlA 0xFFF true) f
  | .region f => .a 0x28 2 (ctlA 0 true) f
  | .exit f => .a 0x28 3 (ctlA 0 false) f
  | .waitt f => .e 0x29 0 { a := .s, q := .range 0 15, imm20 := 0xFFFFF } f
  | .tladv f => .e 0x29 1 { a := .s, q := .range 10 15 } f
  | .waitv cc f => .m 0x2A cc.code.toNat { d := .s, dts := w4DTs, voff := false, ord := .load, align := fun _ => 1 } f
  | .waitvEvaluate => .event
  | .waitvPeriodicEval => .event
  | .vaddFloat f => .a 0x30 0 (vBin f3DTs .ro) f
  | .vsubFloat f => .a 0x30 1 (vBin f3DTs .ro) f
  | .vmulFloat f => .a 0x30 2 (vBin f3DTs .ro) f
  | .vfma f => .a 0x30 3 (vTri f3DTs .ro) f
  | .vmaxFloat f => .a 0x30 4 (vBin f3DTs .zero) f
  | .vminFloat f => .a 0x30 5 (vBin f3DTs .zero) f
  | .vabsFloat f => .a 0x30 6 (vUn f3DTs .zero) f
  | .vsetcFloat f => .a 0x30 7 (vBin f3DTs .cmpF) f
  | .vaddInt f => .a 0x31 0 (vBin intDTs .zero) f
  | .vsubInt f => .a 0x31 1 (vBin intDTs .zero) f
  | .vmulInt f => .a 0x31 2 (vBin intDTs .zero) f
  | .vmad f => .a 0x31 3 (vTri intDTs .zero) f
  | .vmaxInt f => .a 0x31 4 (vBin intDTs .zero) f
  | .vminInt f => .a 0x31 5 (vBin intDTs .zero) f
  | .vabsInt f => .a 0x31 6 (vUn [.i8, .i16, .i32, .i64] .zero) f
  | .vsetcInt f => .a 0x31 7 (vBin intDTs .cmpI) f
  | .vmulhi f => .a 0x31 8 (vBin intDTs .zero) f
  | .vand f => .a 0x32 0 (vBin [.b32] .zero) f
  | .vor f => .a 0x32 1 (vBin [.b32] .zero) f
  | .vxor f => .a 0x32 2 (vBin [.b32] .zero) f
  | .vnot f => .a 0x32 3 (vUn [.b32] .zero) f
  | .vshl f => .a 0x32 4 (vBin intDTs .zero) f
  | .vshr f => .a 0x32 5 (vBin intDTs .zero) f
  | .vpopc f => .a 0x32 6 (vUn [.b32] .zero) f
  | .vclz f => .a 0x32 7 (vUn [.b32] .zero) f
  | .vbfx f => .a 0x32 8 (vBin [.i32, .n32] .zero) f
  | .vbfi f => .a 0x32 9 (vTri [.i32, .n32] .zero) f
  | .vsel f => .a 0x32 10 (vTri [.b32] .zero) f
  | .vmov f => .a 0x32 11 (vUn bw3DTs .zero) f
  | .vmovi f => .a 0x32 12 { d := .v, imm := .req, dts := [.b32] } f
  | .vcvt f => .a 0x33 0 { vUn f5DTs .ro with imm16 := 0xFF } f
  | .vcvti f => .a 0x33 1 { vUn intDTs .ro with imm16 := 0xFF, pa := false } f
  | .vcvtf f => .a 0x33 2 { vUn f5DTs .ro with imm16 := 0xFF } f
  | .vpack f => .a 0x33 3 { vBin [.f16, .bf16, .e4m3, .e5m2] .ro with imm := .never, imm16 := 1 } f
  | .vunpk f => .a 0x33 4 { vUn [.f16, .bf16, .e4m3, .e5m2] .zero with imm16 := 1 } f
  | .vq4enc f => .a 0x33 5 { vBin [.q4] .ro with imm := .never, imm16 := 7 } f
  | .vq4dec f => .a 0x33 6 { vBin [.f32] .zero with imm := .never, imm16 := 7 } f
  | .vq4scl f => .a 0x33 7 { vUn [.q4] .zero with imm16 := 3 } f
  | .vexp2 f => .a 0x34 0 (vUn f3DTs .roNotF32) f
  | .vlog2 f => .a 0x34 1 (vUn f3DTs .roNotF32) f
  | .vrcp f => .a 0x34 2 (vUn f3DTs .roNotF32) f
  | .vrsq f => .a 0x34 3 (vUn f3DTs .roNotF32) f
  | .vtanh f => .a 0x34 4 (vUn f3DTs .roNotF32) f
  | .vperm f => .a 0x60 0 { vBin bw3DTs .zero with pb := false } f
  | .vbcast f => .a 0x60 1 (vUn bw3DTs .zero) f
  | .vany f => .a 0x61 0 (vUn [.b32] .zero) f
  | .vall f => .a 0x61 1 (vUn [.b32] .zero) f
  | .vballot f => .a 0x61 2 (vUn [.b32] .zero) f
  | .vmatch f => .a 0x61 3 { vUn [.b32, .n64] .zero with pd := false } f
  | .vredadd f => .a 0x62 0 (vUn (f3DTs ++ w4DTs) .zero) f
  | .vredmax f => .a 0x62 1 (vUn (f3DTs ++ w4DTs) .zero) f
  | .vredmin f => .a 0x62 2 (vUn (f3DTs ++ w4DTs) .zero) f
  | .vscanadd f => .a 0x62 3 { vUn (f3DTs ++ w4DTs) .zero with imm16 := 1 } f
  | .vscanmax f => .a 0x62 4 { vUn (f3DTs ++ w4DTs) .zero with imm16 := 1 } f
  | .vfrexp f => .a 0x63 0 (vUn [.f32] .zero) f
  | .vldexp f => .a 0x63 1 (vBin f3DTs .zero) f
  | .vexpmax f => .a 0x63 2 { vBin [.f32] .zero with imm := .never } f
  | .ldG f => .m 0x70 0 (ldM memDTs pair64) f
  | .ldG2 f => .m 0x70 1 (ldM [.b32] fun _ => 2) f
  | .ldG4 f => .m 0x70 2 (ldM [.b32] fun _ => 4) f
  | .stG f => .m 0x71 0 (stM memDTs pair64) f
  | .stG2 f => .m 0x71 1 (stM [.b32] fun _ => 2) f
  | .stG4 f => .m 0x71 2 (stM [.b32] fun _ => 4) f
  | .heldAccessPerform => .event
  | .atomAdd f => .m 0x72 0 (atM w4DTs) f
  | .atomMin f => .m 0x72 1 (atM w4DTs) f
  | .atomMax f => .m 0x72 2 (atM w4DTs) f
  | .atomAnd f => .m 0x72 3 (atM [.b32, .n64]) f
  | .atomOr f => .m 0x72 4 (atM [.b32, .n64]) f
  | .atomXor f => .m 0x72 5 (atM [.b32, .n64]) f
  | .atomXchg f => .m 0x72 6 (atM [.b32, .n64]) f
  | .atomCas f => .m 0x72 7 { atM [.b32, .n64] with align := fun dt => if dt = .n64 then 4 else 2 } f
  | .atomFadd f => .m 0x72 8 (atM [.f32]) f
  | .atomoAdd f => .m 0x73 0 (aoM w4DTs) f
  | .atomoXchg f => .m 0x73 1 (aoM [.b32, .n64]) f
  | .atomoOr f => .m 0x73 2 (aoM [.b32, .n64]) f
  | .atomoMax f => .m 0x73 3 (aoM w4DTs) f
  | .atomoLaneArrive => .event
  | .atomoRetry => .event
  | .fence f => .m 0x74 0 { d := .none, offs := false, voff := false, ord := .fence } f
  | .pfence f => .m 0x74 1 { d := .none, offs := false, voff := false, scope := false, ord := .none } f
  | .pref f => .m 0x74 2 { d := .none, scope := false, ord := .none, hint := true } f
  | .wback f => .m 0x74 3 { d := .none, scope := false, ord := .none } f
  | .copy f => .e 0x75 0 { d := .s, a := .s, b := .s, c := .s, q := .range 0 3, prio := true } f
  | .copy2d f => .e 0x75 1 { d := .s, a := .s, b := .s, c := .s, long := true, q := .range 0 3, prio := true } f
  | .copykb f => .e 0x75 2 { d := .s, a := .s, b := .s, c := .s, q := .range 0 3, prio := true } f
  | .copyRetry => .event
  | .gather f => .e 0x76 0 { d := .s, a := .s, b := .s, c := .s, q := .none9, prio := true, imm20 := 0xFFFFF } f
  | .trackedWriteDeliver => .event
  | .copyComplete => .event
  | .gatherComplete => .event
  | .tlbiPg f => .e 0x77 0 { a := .s, b := .s, c := .s } f
  | .tlbiCtx f => .e 0x77 1 { a := .s } f
  | .tlbiSr f => .e 0x77 2 { b := .s, c := .s } f
  | .tlbiSys f => .e 0x77 3 {  } f
  | .tlbiAll f => .e 0x77 4 {  } f
  | .tlbisync f => .e 0x77 5 {  } f
  | .invalidationComplete => .event
  | .walkComplete => .event
  | .walkQueuedStart => .event
  | .barArrive f => .e 0x78 0 { d := .s, q := .range 0 15, imm20 := 0xFFFF } f
  | .barWait f => .e 0x78 1 { a := .s, q := .range 0 15 } f
  | .barSync f => .e 0x78 2 { d := .s, q := .range 0 15, imm20 := 0xFFFF } f
  | .krun f => .e 0x79 0 { d := .s, a := .s } f
  | .krunRetry => .event
  | .krd f => .e 0x79 1 { d := .s, a := .s } f
  | .coll f => .e 0x7A 0 { d := .s, a := .s, prio := true } f
  | .collectiveMatch => .event
  | .collectiveComplete => .event
  | .kpush f => .ka 0xB8 0 f
  | .kelse f => .ka 0xB9 0 f
  | .kpop f => .ka 0xBA 0 f
  | .kread f => .ka 0xBB 0 f
  | .kioskRunStart => .event
  | .kioskColumnRead f => .km 0x70 0 f
  | .kioskVadd f => .ka 0x30 0 f
  | .kioskVsub f => .ka 0x30 1 f
  | .kioskVmul f => .ka 0x30 2 f
  | .kioskVfma f => .ka 0x30 3 f
  | .kioskVmax f => .ka 0x30 4 f
  | .kioskVmin f => .ka 0x30 5 f
  | .kioskVmov f => .ka 0x32 11 f
  | .kioskAdd f => .ka 0x00 0 f
  | .kioskSub f => .ka 0x00 1 f
  | .kioskSetc f => .ka 0x02 0 f
  | .kioskMovi f => .ka 0x03 1 f
  | .kioskBra f => .kbr 0x20 f
  | .kioskBrs f => .kbr 0x21 f
  | .kioskExit f => .ka 0x28 3 f
  | .kioskRefreshPause => .event
  | .kioskOpenRowAccess => .event
  | .kioskAccessWaitTimeout => .event
  | .kioskRowLimit => .event
  | .cldb f => .e 0x90 0 { d := .s, a := .s, b := .s, c := .s, q := .none9, prio := true, imm20 := 0xFC7FF } f
  | .cldg f => .e 0x90 1 { d := .s, a := .s, b := .s, q := .none9, prio := true, imm20 := 0xF87FF } f
  | .cldk f => .e 0x90 2 { d := .s, a := .s, q := .none9, prio := true, imm20 := 0xF87FF } f
  | .cmac3 f => .e 0x90 3 { d := .s, a := .s, b := .s, c := .s, long := true, q := .none9, prio := true } f
  | .cmac f => .e 0x90 4 { d := .s, a := .s, c := .s, long := true, q := .none9, prio := true } f
  | .cshift f => .e 0x90 5 { d := .s, c := .v, q := .none9, prio := true, imm20 := 0x1FF } f
  | .cdrain f => .e 0x90 6 { d := .s, a := .s, q := .none9, prio := true, imm20 := 0xF } f
  | .czero f => .e 0x90 7 { d := .s, q := .none9, prio := true, imm20 := 0xFF } f
  | .cshape f => .e 0x90 8 { a := .s, q := .none9 } f
  | .celog f => .e 0x90 9 { d := .s, a := .s, q := .none9 } f
  | .ceclr f => .e 0x90 10 { q := .none9 } f
  | .matrixQueueRetry => .event
  | .matrixDispatch => .event
  | .matrixPriorityAge => .event
  | .cubeKstepBoundary => .event
  | .cubeRetire => .event
  | .bandPowerUp => .event
  | .bandPowerOff => .event
  | .tleaf f => .e 0xA0 0 { d := .s, a := .s } f
  | .tcontract f => .e 0xA0 1 { d := .s, a := .s, b := .s, c := .s } f
  | .tewise f => .e 0xA0 2 { d := .s, a := .s, b := .s } f
  | .trowred f => .e 0xA0 3 { d := .s, a := .s, b := .s } f
  | .tmap f => .e 0xA0 4 { d := .s, a := .s, b := .s } f
  | .tcast f => .e 0xA0 5 { d := .s, a := .s, b := .s } f
  | .tforce f => .e 0xA1 0 { d := .s, a := .s, b := .s } f
  | .tstore f => .e 0xA1 1 { d := .s, a := .s, b := .s, c := .s, long := true } f
  | .pergolaEvalComplete => .event
  | .tsnap f => .e 0xA1 2 { d := .s, a := .s, b := .s } f
  | .tmode f => .e 0xA1 3 { a := .s } f
  | .tmodeRetry => .event
  | .tdrop f => .e 0xA1 4 { a := .s } f
  | .tquery f => .e 0xA1 5 { d := .s, a := .s } f
  | .lpnor f => .g 0xB0 2 f
  | .lpnortri f => .g 0xB1 3 f
  | .lpnot f => .g 0xB2 1 f
  | .lpinit f => .g 0xB3 0 f
  | .lprdv f => .a 0xB4 0 (plA { d := .v, a := .s, imm := .opt, imm16 := 0x8000, imm16I := 0x83FF }) f
  | .lpwrv f => .a 0xB4 1 (plA { d := .v, a := .s, imm := .opt, imm16 := 0x8000, imm16I := 0x83FF }) f
  | .lpcnt f => .a 0xB4 2 (plA { d := .s, a := .s, imm := .opt, imm16 := 0x8000, imm16I := 0x83FF }) f
  | .lpremap f => .a 0xB4 3 (plA { imm16 := 0x8003 }) f
  | .lpbudget f => .a 0xB4 4 (plA { a := .s, b := .s, imm16 := 0x8000 }) f
  | .lpselVector f => .a 0xB4 5 (plA { d := .s, a := .v }) f
  | .lpselMemory f => .a 0xB4 5 (plA { d := .s, a := .s, imm := .req }) f
  | .lpstat f => .a 0xB4 6 (plA { d := .s }) f
  | .lpstatClr f => .a 0xB4 6 (plA { d := .s, imm16 := 1 }) f
  | .lpstatIss f => .a 0xB4 6 (plA { d := .s, imm16 := 2 }) f
  | .planeQueueRetry => .event
  | .planeEntryPerform => .event
  | .glaunch f => .e 0xC0 0 { d := .s, a := .s, q := .none9 } f
  | .glaunchRetry => .event
  | .gwait f => .e 0xC0 1 { a := .s, q := .none9 } f
  | .phend f => .e 0xC0 2 { q := .none9 } f
  | .phaseDispatch => .event
  | .migpt f => .e 0xC0 3 { q := .none9 } f
  | .tqpush f => .e 0xC1 0 { d := .s, a := .s, q := .range 0 15 } f
  | .tqpop f => .e 0xC1 1 { d := .s, q := .range 0 15 } f
  | .tqpopNw f => .e 0xC1 1 { d := .s, q := .range 0 15, imm20 := 1 } f
  | .tqsteal f => .e 0xC1 2 { d := .s, q := .range 0 15 } f
  | .cancel f => .e 0xC1 3 { a := .s, q := .none9 } f
  | .cancelClr f => .e 0xC1 3 { a := .s, q := .none9, imm20 := 1 } f
  | .cancelComplete => .event
  | .ginst f => .e 0xC2 0 { d := .s, q := .none9 } f
  | .yield f => .e 0xC2 1 { q := .none9 } f
  | .yieldExpire => .event
  | .trap f => .br 0xD0 { hint := false, ofs := 0xFFFF } f
  | .tret f => .br 0xD1 { s := true, hint := false, ofs := 0 } f
  | .brk f => .br 0xD2 { hint := false, ofs := 0xFFFF } f
  | .mfsys f => .a 0xD4 0 (sysA { d := .s, imm16 := 0xFF }) f
  | .mtsys f => .a 0xD4 1 (sysA { a := .s, imm16 := 0xFF }) f
  | .ctxsave f => .a 0xD4 2 (sysA { a := .s }) f
  | .ctxrest f => .a 0xD4 3 (sysA { a := .s }) f
  | .preack f => .a 0xD4 4 (sysA { }) f
  | .waitResume => .event
  | .roundCommit => .event
  | .admitAttempt => .event
  | .admitBackoffExpire => .event
  | .parkBlock => .event
  | .unparkBlock => .event
  | .gridSubmit => .event
  | .doorbellNotify => .event
  | .uqMap => .event
  | .uqUnmap => .event
  | .uqConsumeUnit => .event
  | .ctxslotWrite => .event
  | .ctxctlPreq => .event
  | .preemptClassStop => .event
  | .coopPreemptEntry => .event
  | .preackTimeout => .event
  | .ctxctlResume => .event
  | .ctxctlKill => .event
  | .sliceExpire => .event
  | .migration => .event
  | .migrationLapse => .event
  | .wsrefWrite => .event
  | .wsRefreshShiftApply => .event
  | .wsRefreshSlot => .event
  | .hbmreqWrite => .event
  | .hbmGroupRetrainDone => .event
  | .rootWrite => .event
  | .inboundEntryWrite => .event
  | .fabricNumberAssign => .event
  | .peerAccessArrive => .event
  | .peerNoRouteTimeout => .event
  | .hostAccess => .event
  | .flitReceive => .event
  | .linkTrainStart => .event
  | .linkTrainResult => .event
  | .linkRetrainEnter => .event
  | .peerPortDisable => .event
  | .qvfWrite => .event
  | .vfRampSegment => .event
  | .droopDetect => .event
  | .droopEnd => .event
  | .cadenceStep => .event
  | .powerLoss => .event
  | .powerRecover => .event
  | .powerHoldupExpire => .event
  | .sensorSample => .event
  | .powerOnReset => .event
  | .bootStageCheck => .event
  | .recoveryImage => .event
  | .selfTest => .event
  | .shockRecord => .event
  | .attestationRequest => .event
  | .bvctlFreeze => .event
  | .jtagFreeze => .event
  | .bvctlThaw => .event
  | .belvedereReadout => .event
  | .registerWrite => .event
  | .illegalInstruction _ => .event
  | .instructionFetchFault _ => .event
  | .kioskIllegalInstruction => .event
  | .bankRefreshDue => .event
  | .peerPortEnable => .event

/-- Readable special registers of R266. -/
def srReadable (n : Nat) : Bool := n ≤ 0x24 || (0x28 ≤ n && n ≤ 0x2D)
/-- Writable special registers of R266: em, nmode, tlerr, spillbase, spilllen. -/
def srWritable (n : Nat) : Bool := n = 0 || n = 2 || n = 0xF || n = 0x20 || n = 0x21
/-- System special registers of R453; tstat is read-only. -/
def sysReadable (n : Nat) : Bool := n ≤ 5
def sysWritable (n : Nat) : Bool := n ≤ 5 && n ≠ 3

/-- Whether a source modifier is a defined encoding (R217). -/
def modOk (m : BitVec 12) : Bool :=
  let cls := (m.extractLsb' 9 3).toNat
  let seg := (m.extractLsb' 6 3).toNat
  let dist := (m.extractLsb' 1 5).toNat
  decide (cls ≤ 4) && decide (seg ≤ 5) && (cls != 0 || (seg == 0 && dist == 0)) && (cls != 4 || dist == 0)

def modNeg (m : BitVec 12) : Bool := m.getLsbD 0
/-- Identity class, with or without NEG (R122, R217). -/
def modIdentity (m : BitVec 12) : Bool := m.extractLsb' 1 11 = 0

/-- A vector field within the window (R215). -/
def vOk (r : BitVec 6) : Bool := r.toNat < 48
def even (r : BitVec 6) : Bool := !r.getLsbD 0

/-- A register field is fine at step 7: a vector number below 48, even where it names a pair. -/
def regOk (u : Use) (pair : Bool) (r : BitVec 6) : Bool :=
  match u with
  | .v => vOk r && (!pair || even r)
  | _ => true

/-- The immediate of Format A (R209): IMM16, or EXT:IMM16 in the long form, sign-extended. -/
def immA (f : FmtA) : BitVec 64 :=
  if f.long then ((f.ext ++ f.imm16 : BitVec 44)).signExtend 64 else f.imm16.signExtend 64

/-- The offset of Format M (R211). -/
def ofsM (f : FmtM) : BitVec 64 :=
  if f.long then ((f.ext ++ f.ofs : BitVec 44)).signExtend 64 else f.ofs.signExtend 64

end Sys2Proof.Machine
end

