-- ==== Sys2Proof/Machine/Float.lean ====
section
/-! DEFINITION. Number formats, exact values and the one rounding function (R236 to R248), the correctly rounded
special functions (R249), and exponent scaling (R250). -/

namespace Sys2Proof.Machine

open Sys2Proof

/-- Rounding modes of R245. -/
inductive RMode where
  | rne | rtz | rdn | rup | rna | sr
  deriving DecidableEq, Repr

/-- A floating format (R238): exponent and fraction widths, and whether it has infinities. -/
structure FFmt where
  ew : Nat
  fw : Nat
  hasInf : Bool
  deriving DecidableEq, Repr

/-- The format of a float type; other types take FP32's. -/
def fmtOf : DT → FFmt
  | .f16 => { ew := 5, fw := 10, hasInf := true }
  | .bf16 => { ew := 8, fw := 7, hasInf := true }
  | .e4m3 => { ew := 4, fw := 3, hasInf := false }
  | .e5m2 => { ew := 5, fw := 2, hasInf := true }
  | _ => { ew := 8, fw := 23, hasInf := true }

def FFmt.bias (f : FFmt) : Nat := 2 ^ (f.ew - 1) - 1
/-- The exponent of the unit in the last place of a subnormal. -/
def FFmt.emin (f : FFmt) : Int := 1 - (f.bias : Int) - (f.fw : Int)
def FFmt.expMax (f : FFmt) : Nat := 2 ^ f.ew - 1
/-- The canonical NaN (R238). -/
def FFmt.nan (f : FFmt) : Nat :=
  if f.hasInf then f.expMax * 2 ^ f.fw + 2 ^ (f.fw - 1) else 0x7F
/-- The code of +∞. -/
def FFmt.inf (f : FFmt) : Nat := f.expMax * 2 ^ f.fw
/-- The code of the largest finite value (R238). -/
def FFmt.maxFin (f : FFmt) : Nat := if f.hasInf then f.expMax * 2 ^ f.fw - 1 else 0x7E
def FFmt.signBit (f : FFmt) : Nat := 2 ^ (f.ew + f.fw)

/-- A float's exact value: finite values are (−1)^neg × m × 2^e. -/
inductive FVal where
  | nan
  | inf (neg : Bool)
  | fin (neg : Bool) (m : Nat) (e : Int)
  deriving DecidableEq, Repr

/-- The value of a code (R238). -/
def decodeF (f : FFmt) (bits : Nat) : FVal :=
  let neg := bits / f.signBit % 2 = 1
  let ex := bits / 2 ^ f.fw % 2 ^ f.ew
  let fr := bits % 2 ^ f.fw
  if ex = f.expMax ∧ f.hasInf then (if fr = 0 then .inf neg else .nan)
  else if ex = f.expMax ∧ fr = 2 ^ f.fw - 1 then .nan
  else if ex = 0 then .fin neg fr f.emin
  else .fin neg (2 ^ f.fw + fr) (f.emin + (ex : Int) - 1)

/-- Number of bits of a natural number. -/
def bitLen (n : Nat) : Nat := if n = 0 then 0 else Nat.log2 n + 1

/-- A rounding in force: its mode, SAT, and the generator's value where the mode draws one (R244, R248). -/
structure RCtl where
  mode : RMode
  sat : Bool
  u : Nat
  deriving DecidableEq, Repr

/-- Whether the magnitude hi + (rem + δ) / 2^sh moves away from zero; `more` says δ > 0 (R245, R248). -/
def roundsUp (c : RCtl) (neg : Bool) (hi rem sh : Nat) (more : Bool) : Bool :=
  let inexact := rem ≠ 0 ∨ more = true
  if ¬ inexact then false
  else match c.mode with
    | .rtz => false
    | .rdn => neg
    | .rup => !neg
    | .rna => decide (2 ^ sh ≤ 2 * rem)
    | .rne => decide (2 ^ sh < 2 * rem) || (decide (2 ^ sh = 2 * rem) && (more || decide (hi % 2 = 1)))
    | .sr =>
      -- the fraction of the way from the lower to the higher neighbour, which for a negative value is the
      -- complement of the magnitude's fraction (R248)
      let num := rem * 2 ^ 32
      let fl := num / 2 ^ sh
      if neg then
        let exactNum := decide (num % 2 ^ sh = 0) && !more
        let up := if exactNum then 2 ^ 32 - fl else 2 ^ 32 - fl - 1
        !(decide (c.u < up))
      else decide (c.u < fl)

/-- A rounded magnitude before range checks: n × 2^q. -/
def roundMag (f : FFmt) (c : RCtl) (neg : Bool) (m : Nat) (e : Int) (more : Bool) : Nat × Int :=
  let q := max f.emin (e + (bitLen m : Int) - (f.fw + 1 : Int))
  if q ≤ e ∧ more = false then (m * 2 ^ (e - q).toNat, q)
  else
    let sh := (q - e).toNat
    let hi := m / 2 ^ sh
    let rem := m % 2 ^ sh
    (if roundsUp c neg hi rem sh more then hi + 1 else hi, q)

/-- The code of a rounded magnitude, with the overflow rules of R246. -/
def packF (f : FFmt) (sat : Bool) (neg : Bool) (n : Nat) (q : Int) : Nat :=
  let s := if neg then f.signBit else 0
  let (n, q) := if n = 2 ^ (f.fw + 1) then (2 ^ f.fw, q + 1) else (n, q)
  let code := if n < 2 ^ f.fw then n else ((q - f.emin).toNat + 1) * 2 ^ f.fw + (n - 2 ^ f.fw)
  if code ≤ f.maxFin then s + code
  else if sat then s + f.maxFin
  else if f.hasInf then s + f.inf else f.nan

/-- An exact value, or one known to lie just above the magnitude given (`more`), rounded once (R239, R244 to R246).
Infinity stays infinite in a format that has infinities, whatever SAT; into E4M3 it follows R246. -/
def narrowMore (f : FFmt) (c : RCtl) (x : FVal) (more : Bool) : Nat :=
  match x with
  | .nan => f.nan
  | .inf neg =>
    let s := if neg then f.signBit else 0
    if f.hasInf then s + f.inf else if c.sat then s + f.maxFin else f.nan
  | .fin neg m e =>
    if m = 0 ∧ more = false then (if neg then f.signBit else 0)
    else
      let (n, q) := roundMag f c neg m e more
      packF f c.sat neg n q

/-- An exact value rounded once. -/
def narrow (f : FFmt) (c : RCtl) (x : FVal) : Nat := narrowMore f c x false

def rne : RCtl := { mode := .rne, sat := false, u := 0 }

/-! ## Exact arithmetic -/

def FVal.neg : FVal → FVal
  | .nan => .nan
  | .inf s => .inf (!s)
  | .fin s m e => .fin (!s) m e

def FVal.isNan : FVal → Bool
  | .nan => true
  | _ => false

/-- The sign bit of a term (false for a NaN). -/
def FVal.sgn : FVal → Bool
  | .nan => false
  | .inf s => s
  | .fin s _ _ => s

def FVal.isZero : FVal → Bool
  | .fin _ m _ => m = 0
  | _ => false

/-- The exact product; ∞ × 0 is NaN. -/
def mulF (a b : FVal) : FVal :=
  match a, b with
  | .nan, _ => .nan
  | _, .nan => .nan
  | .inf s, .inf t => .inf (s != t)
  | .inf s, .fin t m _ => if m = 0 then .nan else .inf (s != t)
  | .fin t m _, .inf s => if m = 0 then .nan else .inf (s != t)
  | .fin s m e, .fin t n g => .fin (s != t) (m * n) (e + g)

/-- The least exponent among finite terms. -/
def minExp : List FVal → Int → Int
  | [], e => e
  | .fin _ m g :: r, e => minExp r (if m = 0 then e else min e g)
  | _ :: r, e => minExp r e

/-- The signed sum of finite terms in units of 2^e, where e is at most every term's exponent. -/
def sumAt (e : Int) : List FVal → Int
  | [] => 0
  | .fin s m g :: r =>
    let v : Int := (m : Int) * ((2 ^ (g - e).toNat : Nat) : Int)
    (if s then -v else v) + sumAt e r
  | _ :: r => sumAt e r

def anyNan (l : List FVal) : Bool := l.any FVal.isNan
def hasInf (s : Bool) (l : List FVal) : Bool := l.any fun x => decide (x = .inf s)

/-- The exact sum of terms, with the signed zero of R239: `rdn` says that the rounding in force is RDN. -/
def sumF (rdn : Bool) (l : List FVal) : FVal :=
  if anyNan l || (hasInf true l && hasInf false l) then .nan
  else if hasInf true l then .inf true
  else if hasInf false l then .inf false
  else
    let e := minExp l 0
    let t := sumAt e l
    if t = 0 then
      let allNeg := l.all FVal.sgn
      let anyNeg := l.any FVal.sgn
      .fin (allNeg || (anyNeg && rdn)) 0 0
    else .fin (decide (t < 0)) t.natAbs e

/-- Comparison of two values that are not NaN, as −1, 0 or 1; zeros are equal. -/
def cmpF (a b : FVal) : Int :=
  match a, b with
  | .inf s, .inf t => if s = t then 0 else if s then -1 else 1
  | .inf s, _ => if s then -1 else 1
  | _, .inf t => if t then 1 else -1
  | a, b =>
    let e := minExp [a, b] 0
    let d := sumAt e [a] - sumAt e [b]
    if d < 0 then -1 else if d = 0 then 0 else 1

/-- Compare under a condition of R210, for values with at least one NaN or none. -/
def compareF (cc : CC) (a b : FVal) : Bool :=
  if a.isNan || b.isNan then decide (cc = .ne ∨ cc = .un)
  else
    let d := cmpF a b
    match cc with
    | .eq => decide (d = 0) | .ne => decide (d ≠ 0) | .lt => decide (d < 0) | .le => decide (d ≤ 0)
    | .gt => decide (0 < d) | .ge => decide (0 ≤ d) | .un => false

/-- Compare of integers under R210. -/
def compareI (cc : CC) (a b : Int) : Bool :=
  match cc with
  | .eq => decide (a = b) | .ne => decide (a ≠ b) | .lt => decide (a < b) | .le => decide (a ≤ b)
  | .gt => decide (b < a) | .ge => decide (b ≤ a) | .un => false

/-- Maximum or minimum with −0 below +0 and NaN for any NaN, as a choice between the operands (R286). -/
def pickF (wantMax : Bool) (a b : FVal) : FVal :=
  if a.isNan || b.isNan then .nan
  else
    let d := cmpF a b
    let aSmaller := decide (d < 0) || (decide (d = 0) && a.sgn && !b.sgn)
    if aSmaller = wantMax then b else a

/-! ## Conversions to and from integers -/

/-- An integer as a value. -/
def intF (v : Int) : FVal := .fin (decide (v < 0)) v.natAbs 0

/-- The integer a finite value rounds to. -/
def roundInt (c : RCtl) (neg : Bool) (m : Nat) (e : Int) : Int :=
  let n :=
    if 0 ≤ e then m * 2 ^ e.toNat
    else
      let sh := (-e).toNat
      let hi := m / 2 ^ sh
      if roundsUp c neg hi (m % 2 ^ sh) sh false then hi + 1 else hi
  if neg then -(n : Int) else (n : Int)

/-- A float converted to an integer type of width `w`, as its low w bits (R246). -/
def toIntBits (c : RCtl) (signed : Bool) (w : Nat) (x : FVal) : Nat :=
  let lo : Int := if signed then -(2 ^ (w - 1) : Int) else 0
  let hi : Int := if signed then 2 ^ (w - 1) - 1 else 2 ^ w - 1
  let wrap (v : Int) : Nat := (v % (2 ^ w : Int)).toNat
  match x with
  | .nan => 0
  | .inf neg => wrap (if neg then lo else hi)
  | .fin neg m e =>
    let v := roundInt c neg m e
    if v < lo then wrap (if c.sat then lo else v)
    else if hi < v then wrap (if c.sat then hi else v)
    else wrap v

/-! ## Special functions (R249) -/

/-- Bits of working precision. (DESIGN CHOICE, log 24) -/
def specP : Nat := 250

/-- Σ over k of z^(2k+1) / (2k+1) in fixed point: `t` is z^(2k+1), `z2` is z². -/
def atanhLoop (z2 : Nat) : Nat → Nat → Nat → Nat → Nat
  | 0, _, _, acc => acc
  | n + 1, t, k, acc => atanhLoop z2 n (t * z2 / 2 ^ specP) (k + 2) (acc + t / k)

/-- atanh of a fixed-point argument of at most 1/3. -/
def atanhFix (z : Nat) : Nat := atanhLoop (z * z / 2 ^ specP) 90 z 1 0

/-- ln 2 in fixed point: 2 atanh(1/3). -/
def ln2Fix : Nat := 2 * atanhFix (2 ^ specP / 3)

/-- Σ r^k / k! in fixed point. -/
def expLoop (r : Nat) : Nat → Nat → Nat → Nat → Nat
  | 0, _, _, acc => acc
  | n + 1, t, k, acc => expLoop r n (t * r / 2 ^ specP / k) (k + 1) (acc + t)

/-- e^r for 0 ≤ r < 1 in fixed point. -/
def expFix (r : Nat) : Nat := expLoop r 70 (2 ^ specP) 1 0

/-- The square root of n rounded down, one result bit a step. -/
def isqrtLoop (n : Nat) : Nat → Nat → Nat
  | 0, r => r
  | k + 1, r =>
    let c := r + 2 ^ k
    isqrtLoop n k (if c * c ≤ n then c else r)

def isqrt (n : Nat) : Nat := isqrtLoop n (bitLen n / 2 + 1) 0

/-- A special function's value: a code-independent exact value, or a magnitude truncated with `more`. -/
abbrev SVal := FVal × Bool

/-- A value in fixed point with its noise bits dropped. -/
def fixVal (neg : Bool) (n : Nat) (scale : Int) : SVal := (.fin neg (n / 2 ^ 24) (scale - (specP : Int) + 24), true)

/-- 2^x. -/
def sExp2 (x : FVal) : SVal :=
  match x with
  | .nan => (.nan, false)
  | .inf neg => (if neg then .fin false 0 0 else .inf false, false)
  | .fin neg m e =>
    if m = 0 then (.fin false 1 0, false)
    else if 12 < e + (bitLen m : Int) then
      (if neg then (.fin false 1 (-100000), true) else (.fin false (2 ^ 300) 100000, true))
    else
      let fx := m * 2 ^ (e + specP).toNat
      let v : Int := if neg then -(fx : Int) else (fx : Int)
      let i := v / (2 ^ specP : Int)
      let f := (v % (2 ^ specP : Int)).toNat
      if f = 0 then (.fin false 1 i, false) else fixVal false (expFix (f * ln2Fix / 2 ^ specP)) i

/-- log2 x. -/
def sLog2 (x : FVal) : SVal :=
  match x with
  | .nan => (.nan, false)
  | .inf neg => (if neg then .nan else .inf false, false)
  | .fin neg m e =>
    if m = 0 then (.inf true, false)
    else if neg then (.nan, false)
    else
      let k : Int := e + (bitLen m : Int) - 1
      let y := m * 2 ^ specP / 2 ^ (bitLen m - 1)
      let one := 2 ^ specP
      if y = one then (intF k, false)
      else
        let lnY := 2 * atanhFix ((y - one) * 2 ^ specP / (y + one))
        let t : Int := k * (2 ^ specP : Int) + ((lnY * 2 ^ specP / ln2Fix : Nat) : Int)
        fixVal (decide (t < 0)) t.natAbs 0

/-- 1 / x. -/
def sRcp (x : FVal) : SVal :=
  match x with
  | .nan => (.nan, false)
  | .inf neg => (.fin neg 0 0, false)
  | .fin neg m e =>
    if m = 0 then (.inf neg, false)
    else
      let k := bitLen m + 100
      (.fin neg (2 ^ k / m) (-e - (k : Int)), decide (2 ^ k % m ≠ 0))

/-- 1 / √x. -/
def sRsq (x : FVal) : SVal :=
  match x with
  | .nan => (.nan, false)
  | .inf neg => (if neg then .nan else .fin false 0 0, false)
  | .fin neg m e =>
    if m = 0 then (.inf neg, false)
    else if neg then (.nan, false)
    else
      let m2 := if e % 2 = 0 then m else 2 * m
      let e2 := if e % 2 = 0 then e else e - 1
      let k := bitLen m2 + 100
      let r := isqrt (2 ^ (2 * k) / m2)
      (.fin false r (-(e2 / 2) - (k : Int)), decide (r * r * m2 ≠ 2 ^ (2 * k)))

/-- tanh x. -/
def sTanh (x : FVal) : SVal :=
  match x with
  | .nan => (.nan, false)
  | .inf neg => (.fin neg 1 0, false)
  | .fin neg m e =>
    if m = 0 then (.fin neg 0 0, false)
    else
      let top : Int := e + (bitLen m : Int)
      if 5 < top then (.fin neg (2 ^ 200 - 1) (-200), true)
      else if top < -40 then (.fin neg (m * 2 ^ 200 - 1) (e - 200), true)
      else
        let t := m * 2 ^ (e + specP + 1).toNat
        let k := t / ln2Fix
        let ex := expFix (t - k * ln2Fix) * 2 ^ k
        let one := 2 ^ specP
        fixVal neg ((ex - one) * 2 ^ specP / (ex + one)) 0

/-- The special functions of major 0x34. -/
inductive SFun where
  | exp2 | log2 | rcp | rsq | tanh
  deriving DecidableEq, Repr

def specialF : SFun → FVal → SVal
  | .exp2 => sExp2 | .log2 => sLog2 | .rcp => sRcp | .rsq => sRsq | .tanh => sTanh

/-- A special function's result in a format: an exact infinity stays infinite (R249), all else rounds once. -/
def specialBits (fn : SFun) (f : FFmt) (c : RCtl) (x : FVal) : Nat :=
  narrowMore f c (specialF fn x).1 (specialF fn x).2

/-! ## Exponent scaling (R250) -/

/-- x × 2^k truncated toward zero, with R250's result above the largest finite value: infinity for FP32, the slot's
SAT for the packed formats. -/
def scaleF (f : FFmt) (sat : Bool) (x : FVal) (k : Int) : Nat :=
  match x with
  | .fin neg m e =>
    if m = 0 then narrow f rne x
    else
      let (n, q) := roundMag f { mode := .rtz, sat := sat, u := 0 } neg m (e + k) false
      packF f sat neg n q
  | x => narrow f rne x

end Sys2Proof.Machine
end

