-- ==== Sys2Proof/Machine/Legality.lean ====
section
/-! DEFINITION. Which encodings an entry permits: the checks of R220, steps 5 to 9, with the subcodes of the
chapters' tables (R304, R329, R361, R395, R413, R445) and the Kiosk forms of R235. -/

namespace Sys2Proof.Machine

open Sys2Proof

/-- What the raw bits hold that no field of a parsed instruction can: a reserved bit, or a code with no name. -/
structure RawFlags where
  res : Bool := false
  badDt : Bool := false
  badScope : Bool := false
  badHint : Bool := false
  deriving DecidableEq, Repr

/-- The first check that fails, as its step number. -/
def firstFail : List (Nat × Bool) → Option Nat
  | [] => none
  | (n, bad) :: rest => if bad then some n else firstFail rest

/-- Step 9 for the CC/RO field (R210, R304). -/
def ccOk (u : CcUse) (cc : BitVec 3) (dt : DT) : Bool :=
  match u with
  | .zero => cc == 0
  | .unused => true
  | .ro => cc != 7
  | .roNotF32 => cc != 7 && (dt != .f32 || cc == 0)
  | .cmpF => cc != 7
  | .cmpI => cc != 6 && cc != 7
  | .cmpDt => if dt.isFloat then cc != 7 else cc != 6 && cc != 7
  | .callF => cc != 0 && cc != 6 && cc != 7

/-- Step 5 of Format A: reserved and unused fields (R208, R209, R304). (DEDUCED, log 20) -/
def bad5A (sp : SpecA) (f : FmtA) (raw : RawFlags) : Bool :=
  raw.res
  || (f.i && (sp.imm == .never || f.b != 0)) || (!f.i && (sp.imm == .req || f.ext != 0))
  || (sp.d == .none && f.d != 0) || (sp.a == .none && f.a != 0)
  || (sp.b == .none && f.b != 0) || (sp.c == .none && f.c != 0)
  || (f.imm16 &&& ~~~(if f.i then sp.imm16I else sp.imm16)) != 0
  || (sp.dts.isEmpty && (f.dt != .i8 || raw.badDt))
  || (sp.cc == .unused && f.cc != 0)
  || (f.long && !sp.longOk)
  || (f.modA != 0 && (sp.a != .v || !sp.mods))
  || (f.modB != 0 && (sp.b != .v || !sp.mods || f.i))
  || (f.modC != 0 && (sp.c != .v || !sp.mods))
  || (!f.long && (f.modA != 0 || f.modB != 0 || f.modC != 0 || f.ext != 0))

/-- Step 7 of Format A: vector registers and pairs (R215). -/
def bad7A (sp : SpecA) (f : FmtA) : Bool :=
  let w := f.dt.is64
  !(regOk sp.d (sp.pd && w) f.d && regOk sp.a (sp.pa && w) f.a
    && regOk (if f.i then .none else sp.b) (sp.pb && w) f.b && regOk sp.c (sp.pc && w) f.c)

/-- Whether an element index is below its type's element count (R290). -/
def elemOk (t : Option DT) (k : Nat) : Bool :=
  match t with
  | some t => decide (k < t.elems)
  | none => true

/-- The source type of a conversion (R290, R268). -/
def srcT (f : FmtA) : Option DT := DT.ofCode (f.imm16.extractLsb' 0 4)
def selt (f : FmtA) : Nat := (f.imm16.extractLsb' 4 2).toNat
def delt (f : FmtA) : Nat := (f.imm16.extractLsb' 6 2).toNat

def srcIn (f : FmtA) (l : List DT) : Bool :=
  match srcT f with
  | some t => l.contains t
  | none => false

/-- A source of a conversion that occupies a pair needs an even field (R215). -/
def srcPairOk (f : FmtA) : Bool :=
  match srcT f with
  | some t => !t.is64 || even f.a
  | none => true

/-- IMM64 fields of cmac3 and cmac (R356). -/
def mAstr (f : FmtE) : Nat := (f.imm64.extractLsb' 48 16).toNat
def mGstr (f : FmtE) : Nat := (f.imm64.extractLsb' 32 16).toNat
def mFA (f : FmtE) : Option DT := DT.ofCode (f.imm64.extractLsb' 28 4)
def mFG (f : FmtE) : Option DT := DT.ofCode (f.imm64.extractLsb' 24 4)
def mOri (f : FmtE) : Nat := (f.imm64.extractLsb' 22 2).toNat
def mSet (f : FmtE) : Nat := (f.imm64.extractLsb' 21 1).toNat
def mZA (f : FmtE) : Bool := f.imm64.getLsbD 20
def mRS (f : FmtE) : Bool := f.imm64.getLsbD 19
def mT0 (f : FmtE) : Nat := (f.imm64.extractLsb' 16 3).toNat
def mNT (f : FmtE) : Nat := (f.imm64.extractLsb' 13 3).toNat + 1

/-- IMM20 fields of cldb, cldg and cldk (R355). -/
def lFmt (f : FmtE) : Option DT := DT.ofCode (f.imm20.extractLsb' 16 4)
def lSet (f : FmtE) : Nat := (f.imm20.extractLsb' 15 1).toNat
def lWS (f : FmtE) : Bool := f.imm20.getLsbD 14
def lK (f : FmtE) : Nat := (f.imm20.extractLsb' 0 11).toNat

def planeFmts : List DT := [.bf16, .f16, .e4m3, .e5m2]

/-- Element size in bytes of a plane format; a q4 element counts as 1 (R355, R356). -/
def planeSize : Option DT → Nat
  | some .bf16 | some .f16 => 2
  | _ => 1

def fmtIn (t : Option DT) (l : List DT) : Bool :=
  match t with
  | some t => l.contains t
  | none => false

/-- Field values that an entry bars at step 5 beyond R208. -/
def extra5 : Instr → Bool
  | .mfsr f => !srReadable (f.imm16.extractLsb' 0 8).toNat
  | .mtsr f => !srWritable (f.imm16.extractLsb' 0 8).toNat
  | .mfsys f => !sysReadable (f.imm16.extractLsb' 0 8).toNat
  | .mtsys f => !sysWritable (f.imm16.extractLsb' 0 8).toNat
  | .vcvt f | .vcvti f | .vcvtf f => !elemOk (srcT f) (selt f) || !elemOk (some f.dt) (delt f)
  | .vpack f | .vunpk f => f.imm16.getLsbD 0 && f.dt.width == 16
  | .call f => f.ofs != 0 && f.v != 0
  | .lprdv f | .lpwrv f | .lpcnt f => f.i && f.a != 0
  | .gather f => f.imm20.getLsbD 19
  | .tstore f => f.imm64.extractLsb' 32 32 != 0
  | .cldb f =>
    let k := lK f
    let unit := if lFmt f == some .q4 then 32 else 8
    decide (k < 8) || decide (1024 < k) || k % unit != 0 || (!lWS f && f.c != 0)
  | .cldg f | .cldk f => let k := lK f; decide (k < 8) || decide (1024 < k) || k % 8 != 0
  | .cmac3 f =>
    f.imm64.extractLsb' 0 13 != 0 || decide (mT0 f + mNT f > 8) || mOri f == 3
    || (mRS f && mFA f == some .q4) || (!mRS f && f.c != 0) || mAstr f % planeSize (mFA f) != 0
    || (if mOri f == 0 then mGstr f % planeSize (mFG f) != 0
        else f.b != 0 || mGstr f != 0 || f.imm64.extractLsb' 24 4 != 0)
  | .cmac f =>
    f.imm64.extractLsb' 0 13 != 0 || decide (mT0 f + mNT f > 8) || mOri f != 0
    || (mRS f && mFA f == some .q4) || (!mRS f && f.c != 0) || mAstr f % planeSize (mFA f) != 0
    || mGstr f != 0 || f.imm64.extractLsb' 24 4 != 0
  | _ => false

/-- Types barred at step 6 beyond the DT field. -/
def extra6 : Instr → Bool
  | .fcvt f => !srcIn f (intDTs ++ f5DTs)
  | .vcvt f => !srcIn f f5DTs
  | .vcvti f => !srcIn f f5DTs
  | .vcvtf f => !srcIn f intDTs
  | .cldb f => !fmtIn (lFmt f) (.q4 :: planeFmts)
  | .cldg f | .cldk f => !fmtIn (lFmt f) planeFmts
  | .cmac3 f => !fmtIn (mFA f) (.q4 :: planeFmts) || (mOri f == 0 && !fmtIn (mFG f) planeFmts)
  | .cmac f => !fmtIn (mFA f) (.q4 :: planeFmts)
  | _ => false

/-- Registers barred at step 7 beyond R215. -/
def extra7 : Instr → Bool
  | .vcvt f | .vcvti f | .vcvtf f => !srcPairOk f
  | .vunpk f | .vfrexp f => !even f.d
  | .lpselVector f | .lpselMemory f => decide (3 < f.d.toNat)
  | _ => false

/-- Modifiers barred at step 8 beyond R217: NEG where no negation is admitted (R218). -/
def extra8 : Instr → Bool
  | .vq4enc f => modNeg f.modB
  | .vq4dec f => modNeg f.modA || modNeg f.modB
  | _ => false

/-- Steps 5 to 9 for a Format A instruction. -/
def violA (i : Instr) (sp : SpecA) (f : FmtA) (raw : RawFlags) : Option Nat :=
  firstFail
    [ (5, bad5A sp f raw || extra5 i),
      (6, !sp.dts.isEmpty && (raw.badDt || !sp.dts.contains f.dt) || extra6 i),
      (7, bad7A sp f || extra7 i),
      (8, !(modOk f.modA && modOk f.modB && modOk f.modC) || extra8 i),
      (9, !ccOk sp.cc f.cc f.dt) ]

/-- Whether an ORD value is legal for a kind of access (R156). -/
def ordOk (u : OrdUse) (o : Ord2) : Bool :=
  match u with
  | .load => o == .relaxed || o == .acq
  | .store => o == .relaxed || o == .rel
  | .atomic => true
  | .fence => o != .relaxed
  | .none => true

/-- Steps 5 to 9 for a Format M instruction (R211, R329). -/
def violM (sp : SpecM) (f : FmtM) (raw : RawFlags) : Option Nat :=
  firstFail
    [ (5, raw.res || (sp.dts.isEmpty && (f.dt != .i8 || raw.badDt)) || (sp.d == .none && f.d != 0)
          || (!sp.offs && (f.b != 0 || f.ofs != 0 || f.ext != 0))
          || (!sp.voff && f.voff) || (!f.voff && f.a != 0)
          || (!sp.scope && (f.scope != .warp || raw.badScope)) || (sp.ord == .none && f.ord != .relaxed)
          || (!sp.hint && (f.hint != .normal || raw.badHint)) || (!sp.nosplit && f.nosplit)
          || (!f.long && (f.modA != 0 || f.ext != 0)) || (!(sp.offs && sp.voff) && f.modA != 0)),
      (6, !sp.dts.isEmpty && (raw.badDt || !sp.dts.contains f.dt)),
      (7, (sp.d == .v && (!vOk f.d || f.d.toNat % sp.align f.dt != 0)) || (f.voff && !vOk f.a)),
      (8, !modOk f.modA || (!f.voff && f.modA != 0)),
      (9, raw.badScope || raw.badHint || !ordOk sp.ord f.ord) ]

/-- Steps 5 to 9 for a Format E instruction (R213). -/
def violE (i : Instr) (sp : SpecE) (f : FmtE) (raw : RawFlags) : Option Nat :=
  firstFail
    [ (5, raw.res || (sp.d == .none && f.d != 0) || (sp.a == .none && f.a != 0) || (sp.b == .none && f.b != 0)
          || (sp.c == .none && f.c != 0) || f.long != sp.long || (!sp.prio && f.prio != 0)
          || (f.imm20 &&& ~~~sp.imm20) != 0 || (sp.q == .none5 && f.q != 0)
          || (!f.long && f.imm64 != 0) || extra5 i),
      (6, extra6 i),
      (7, sp.c == .v && !vOk f.c),
      (9, match sp.q with
          | .none5 => false
          | .none9 => f.q != 0
          | .range lo hi => decide (f.q.toNat < lo) || decide (hi < f.q.toNat)) ]

/-- Steps 5 to 9 for a Format BR instruction (R212). -/
def violBR (i : Instr) (sp : SpecBR) (f : FmtBR) (raw : RawFlags) : Option Nat :=
  firstFail
    [ (5, raw.res || (!sp.s && f.s != 0) || (sp.v == .none && f.v != 0) || (sp.cc == .unused && f.cc != 0)
          || (!sp.hint && f.hint != .none) || (f.ofs &&& ~~~sp.ofs) != 0 || extra5 i),
      (7, (sp.sEven && !even f.s) || (sp.v == .v && !vOk f.v)),
      (9, !ccOk sp.cc f.cc .i32) ]

/-- Step 5 for a Format G gate with the given number of inputs (R214). -/
def violG (inputs : Nat) (f : FmtG) (raw : RawFlags) : Option Nat :=
  firstFail
    [ (5, raw.res || (decide (inputs < 1) && f.in1 != 0) || (decide (inputs < 2) && f.in2 != 0)
          || (decide (inputs < 3) && f.in3 != 0)) ]

/-- A Kiosk vector field and a Kiosk scalar field (R122). -/
def kvOk (r : BitVec 6) : Bool := decide (r.toNat ≤ 12)
def kdOk (r : BitVec 6) : Bool := decide (r.toNat ≤ 3)
def ksOk (r : BitVec 6) : Bool := decide (r.toNat ≤ 7)

/-- The immediate form of a Kiosk word: I = 1 leaves B and MOD_B zero, I = 0 leaves IMM16 and EXT zero. -/
def kImmOk (f : FmtA) (bOk : Bool) : Bool :=
  if f.i then f.b == 0 && f.modB == 0 else f.imm16 == 0 && f.ext == 0 && bOk

/-- A short form has no word 2; identity class is required of every modifier (R235). -/
def kLongOk (f : FmtA) : Bool :=
  modIdentity f.modA && modIdentity f.modB && modIdentity f.modC
  && (f.long || (f.modA == 0 && f.modB == 0 && f.modC == 0 && f.ext == 0))

/-- Two- and three-source arithmetic of R235. -/
def kArithOk (three : Bool) (f : FmtA) : Bool :=
  f.dt == .f32 && f.cc == 0 && kdOk f.d && kvOk f.a && kImmOk f (kvOk f.b) && kLongOk f
  && (if three then kvOk f.c else f.c == 0 && f.modC == 0)

/-- Scalar words of R235: fields 0 to 7, no modifier. -/
def kScalarOk (f : FmtA) (ccTop : Nat) : Bool :=
  f.dt.is64 && decide (f.cc.toNat ≤ ccTop) && ksOk f.d && ksOk f.a && kImmOk f (ksOk f.b) && f.c == 0
  && kLongOk f && f.modA == 0 && f.modB == 0 && f.modC == 0

/-- A word whose fields other than MAJOR and FN are zero. -/
def kZero (f : FmtA) : Bool :=
  f.dt == .i8 && f.d == 0 && f.a == 0 && f.b == 0 && f.c == 0 && f.cc == 0 && !f.i && f.imm16 == 0 && !f.long
  && f.modA == 0 && f.modB == 0 && f.modC == 0 && f.ext == 0

/-- The forms a Kiosk executes (R123, R235). A branch hint is no operand there, and R235 names only S and V of bra and brs: every
HINT is accepted; kpush and kread, which the core lacks, take the long form too. (DESIGN CHOICE, log 78) -/
def kioskOk : Instr → Bool
  | .kioskVadd f | .kioskVsub f | .kioskVmul f | .kioskVmax f | .kioskVmin f => kArithOk false f
  | .kioskVfma f => kArithOk true f
  | .kioskVmov f =>
    f.dt == .b32 && f.cc == 0 && kdOk f.d && kvOk f.a && f.b == 0 && f.c == 0 && !f.i && f.imm16 == 0 && f.ext == 0
    && kLongOk f && f.modB == 0 && f.modC == 0
  | .kioskColumnRead f =>
    f.dt == .bf16 && f.d == 12 && f.voff && ksOk f.a && ksOk f.b && f.scope == .warp && f.ord == .relaxed
    && f.hint == .normal && !f.nosplit && f.ofs == 0 && !f.long && f.modA == 0 && f.ext == 0
  | .kioskAdd f | .kioskSub f => kScalarOk f 0
  | .kioskSetc f => kScalarOk f 5
  | .kioskMovi f =>
    f.dt.is64 && f.cc == 0 && ksOk f.d && f.a == 0 && f.b == 0 && f.c == 0 && f.i && kLongOk f
    && f.modA == 0 && f.modB == 0 && f.modC == 0
  | .kioskBra f => f.s == 0 && f.v == 0 && f.cc == 0
  | .kioskBrs f => ksOk f.s && f.v == 0 && decide (f.cc.toNat ≤ 5)
  | .kioskExit f => kZero f
  | .kpush f =>
    f.dt == .f32 && f.cc != 7 && f.d == 0 && kvOk f.a && kvOk f.b && f.c == 0 && !f.i && f.imm16 == 0 && f.ext == 0
    && kLongOk f && f.modC == 0
  | .kelse f | .kpop f => kZero f
  | .kread f =>
    (f.dt == .bf16 || f.dt == .f32) && f.d == 0 && f.c == 0 && f.cc == 0 && kdOk f.a && kImmOk f (ksOk f.b)
    && kLongOk f && f.modA == 0 && f.modB == 0 && f.modC == 0
  | _ => false

/-- Step 1 of R220 for a header (R201). -/
def hdrOk (f : Hdr) : Bool :=
  f.len != 0
  && (if f.fav then decide (f.fa.toNat ≤ 11) else f.fa == 0)
  && (if f.fbv then decide (f.fb.toNat ≤ 11) else f.fb == 0)

/-- The first of steps 1 and 5 to 9 of R220 that an instruction fails; step 2 for a Kiosk word outside R235.
(DEDUCED, log 19) -/
def violation (i : Instr) (raw : RawFlags) : Option Nat :=
  match shapeOf i with
  | .hdr f => if hdrOk f && !raw.res then none else some 1
  | .a _ _ sp f => violA i sp f raw
  | .m _ _ sp f => violM sp f raw
  | .e _ _ sp f => violE i sp f raw
  | .br _ sp f => violBR i sp f raw
  | .g _ n f => violG n f raw
  | .ka _ _ _ | .km _ _ _ | .kbr _ _ =>
    if kioskOk i && !raw.res && !raw.badDt && !raw.badScope && !raw.badHint then none else some 2
  | .event => none

/-- Whether the fields that select an instruction among those that share a code select this one: a waitv's condition has
an FN (R281); NW and CLR of R442 and R443, CLR and ISS of R412. -/
def selects : Instr → Bool
  | .waitv cc _ => cc != .un
  | .tqpopNw f | .cancelClr f => f.imm20.getLsbD 0
  | .lpstatClr f => f.imm16.extractLsb' 0 2 == 1
  | .lpstatIss f => f.imm16.extractLsb' 0 2 == 2
  | _ => true

/-- A well-formed instruction: it passes every check of R220 on its own fields. -/
def wellFormed (i : Instr) : Bool := (violation i {}).isNone && selects i

end Sys2Proof.Machine
end

