-- ==== Sys2Proof/WellFormed.lean ====
section
/-! DEFINITION. Well-formed instructions: those whose fields their entries permit. -/

namespace Sys2Proof

/-- An instruction that every check of R220 passes. Events carry no word and are always well-formed. -/
def Instr.wf (i : Instr) : Bool := Machine.wellFormed i

/-- An instruction that has a word of its own (a core's or a Kiosk's). -/
def Instr.encodable (i : Instr) : Bool :=
  match Machine.shapeOf i with
  | .event => false
  | _ => true

end Sys2Proof
end

