-- ==== Sys2Proof/Decode.lean ====
section
/-! DEFINITION. The decoder of R200 to R235, total on any words, and the encoder from the same tables. -/

namespace Sys2Proof

open Machine

/-- 0xB4 FN 5: I selects the memory form of lpsel (R412). -/
def pickLpsel (f : FmtA) : Instr := if f.i then .lpselMemory f else .lpselVector f
/-- 0xB4 FN 6: CLR and ISS in IMM16[1:0] (R412). -/
def pickLpstat (f : FmtA) : Instr :=
  if f.imm16.extractLsb' 0 2 = 1 then .lpstatClr f else if f.imm16.extractLsb' 0 2 = 2 then .lpstatIss f else .lpstat f
/-- 0xC1 FN 1: NW in IMM20[0] (R442). -/
def pickTqpop (f : FmtE) : Instr := if f.imm20.getLsbD 0 then .tqpopNw f else .tqpop f
/-- 0xC1 FN 3: CLR in IMM20[0] (R443). -/
def pickCancel (f : FmtE) : Instr := if f.imm20.getLsbD 0 then .cancelClr f else .cancel f

/-- Format A majors of R228 to R232, by FN. -/
def coreA (major : Nat) : List (FmtA → Instr) :=
  match major with
  | 0x00 => [.add, .sub, .mul, .mulhi, .min, .max, .div, .rem]
  | 0x01 => [.and, .or, .xor, .andn, .shl, .shr, .rot, .popc, .clz, .bfx, .bfi]
  | 0x02 => [.setc, .sel]
  | 0x03 => [.mov, .movi, .mfsr, .mtsr, .mfv, .mtv]
  | 0x04 => [.fadd, .fsub, .fmul, .ffma, .fcvt]
  | 0x28 => [.nop, .waitf, .region, .exit]
  | 0x30 => [.vaddFloat, .vsubFloat, .vmulFloat, .vfma, .vmaxFloat, .vminFloat, .vabsFloat, .vsetcFloat]
  | 0x31 => [.vaddInt, .vsubInt, .vmulInt, .vmad, .vmaxInt, .vminInt, .vabsInt, .vsetcInt, .vmulhi]
  | 0x32 => [.vand, .vor, .vxor, .vnot, .vshl, .vshr, .vpopc, .vclz, .vbfx, .vbfi, .vsel, .vmov, .vmovi]
  | 0x33 => [.vcvt, .vcvti, .vcvtf, .vpack, .vunpk, .vq4enc, .vq4dec, .vq4scl]
  | 0x34 => [.vexp2, .vlog2, .vrcp, .vrsq, .vtanh]
  | 0x60 => [.vperm, .vbcast]
  | 0x61 => [.vany, .vall, .vballot, .vmatch]
  | 0x62 => [.vredadd, .vredmax, .vredmin, .vscanadd, .vscanmax]
  | 0x63 => [.vfrexp, .vldexp, .vexpmax]
  | 0xB4 => [.lprdv, .lpwrv, .lpcnt, .lpremap, .lpbudget, pickLpsel, pickLpstat]
  | 0xD4 => [.mfsys, .mtsys, .ctxsave, .ctxrest, .preack]
  | _ => []

/-- Format M majors (R228, R230); the FN of 0x2A is the condition (R228). -/
def coreM (major : Nat) : List (FmtM → Instr) :=
  match major with
  | 0x2A => [.waitv .eq, .waitv .ne, .waitv .lt, .waitv .le, .waitv .gt, .waitv .ge]
  | 0x70 => [.ldG, .ldG2, .ldG4]
  | 0x71 => [.stG, .stG2, .stG4]
  | 0x72 => [.atomAdd, .atomMin, .atomMax, .atomAnd, .atomOr, .atomXor, .atomXchg, .atomCas, .atomFadd]
  | 0x73 => [.atomoAdd, .atomoXchg, .atomoOr, .atomoMax]
  | 0x74 => [.fence, .pfence, .pref, .wback]
  | _ => []

/-- Format E majors (R228 to R232). -/
def coreE (major : Nat) : List (FmtE → Instr) :=
  match major with
  | 0x29 => [.waitt, .tladv]
  | 0x75 => [.copy, .copy2d, .copykb]
  | 0x76 => [.gather]
  | 0x77 => [.tlbiPg, .tlbiCtx, .tlbiSr, .tlbiSys, .tlbiAll, .tlbisync]
  | 0x78 => [.barArrive, .barWait, .barSync]
  | 0x79 => [.krun, .krd]
  | 0x7A => [.coll]
  | 0x90 => [.cldb, .cldg, .cldk, .cmac3, .cmac, .cshift, .cdrain, .czero, .cshape, .celog, .ceclr]
  | 0xA0 => [.tleaf, .tcontract, .tewise, .trowred, .tmap, .tcast]
  | 0xA1 => [.tforce, .tstore, .tsnap, .tmode, .tdrop, .tquery]
  | 0xC0 => [.glaunch, .gwait, .phend, .migpt]
  | 0xC1 => [.tqpush, pickTqpop, .tqsteal, pickCancel]
  | 0xC2 => [.ginst, .yield]
  | _ => []

/-- Format BR majors (R228, R232). -/
def coreBR (major : Nat) : Option (FmtBR → Instr) :=
  match major with
  | 0x20 => some .bra
  | 0x21 => some .brs
  | 0x22 => some .brv
  | 0x23 => some .join
  | 0x24 => some .brany
  | 0x25 => some .brall
  | 0x26 => some .call
  | 0x27 => some .ret
  | 0xD0 => some .trap
  | 0xD1 => some .tret
  | 0xD2 => some .brk
  | _ => none

/-- Format G majors (R231). -/
def coreG (major : Nat) : Option (FmtG → Instr) :=
  match major with
  | 0xB0 => some .lpnor
  | 0xB1 => some .lpnortri
  | 0xB2 => some .lpnot
  | 0xB3 => some .lpinit
  | _ => none


/-- Format A codes of the Kiosk subset (R235). -/
def kioskA (major fn : Nat) : Option (FmtA → Instr) :=
  match major, fn with
  | 0x00, 0 => some .kioskAdd
  | 0x00, 1 => some .kioskSub
  | 0x02, 0 => some .kioskSetc
  | 0x03, 1 => some .kioskMovi
  | 0x28, 3 => some .kioskExit
  | 0x30, 0 => some .kioskVadd
  | 0x30, 1 => some .kioskVsub
  | 0x30, 2 => some .kioskVmul
  | 0x30, 3 => some .kioskVfma
  | 0x30, 4 => some .kioskVmax
  | 0x30, 5 => some .kioskVmin
  | 0x32, 11 => some .kioskVmov
  | 0xB8, 0 => some .kpush
  | 0xB9, 0 => some .kelse
  | 0xBA, 0 => some .kpop
  | 0xBB, 0 => some .kread
  | _, _ => none

/-- The column read (R235). -/
def kioskM (major fn : Nat) : Option (FmtM → Instr) :=
  match major, fn with
  | 0x70, 0 => some .kioskColumnRead
  | _, _ => none

/-- The branches of the Kiosk subset (R235). -/
def kioskBR (major : Nat) : Option (FmtBR → Instr) :=
  match major with
  | 0x20 => some .kioskBra
  | 0x21 => some .kioskBrs
  | _ => none

/-- The major opcode (R208). -/
def majorOf (w : Word) : Nat := (w.extractLsb' 56 8).toNat
/-- The L bit (R208). -/
def longOf (w : Word) : Bool := w.getLsbD 55
/-- The FN field of formats A, M and E. -/
def fnOf (w : Word) : Nat := (w.extractLsb' 51 4).toNat

/-- The words of a Format A instruction (R209). -/
def parseA (w0 w1 : Word) : FmtA × RawFlags :=
  let long := longOf w0
  let dt := DT.ofCode (w0.extractLsb' 47 4)
  ({ long := long, dt := dt.getD .i8, d := w0.extractLsb' 41 6, a := w0.extractLsb' 35 6, b := w0.extractLsb' 29 6,
     c := w0.extractLsb' 23 6, cc := w0.extractLsb' 20 3, i := w0.getLsbD 19, imm16 := w0.extractLsb' 0 16,
     modA := if long then w1.extractLsb' 52 12 else 0, modB := if long then w1.extractLsb' 40 12 else 0,
     modC := if long then w1.extractLsb' 28 12 else 0, ext := if long then w1.extractLsb' 0 28 else 0 },
   { res := w0.extractLsb' 16 3 != 0, badDt := dt.isNone })

/-- The words of a Format M instruction (R211). -/
def parseM (w0 w1 : Word) : FmtM × RawFlags :=
  let long := longOf w0
  let dt := DT.ofCode (w0.extractLsb' 47 4)
  let scope := Scope.ofCode (w0.extractLsb' 26 3)
  let hint := Hint.ofCode (w0.extractLsb' 22 2)
  ({ long := long, dt := dt.getD .i8, d := w0.extractLsb' 41 6, a := w0.extractLsb' 35 6, b := w0.extractLsb' 29 6,
     scope := scope.getD .warp, ord := Ord2.ofCode (w0.extractLsb' 24 2), hint := hint.getD .normal,
     nosplit := w0.getLsbD 21, voff := w0.getLsbD 20, ofs := w0.extractLsb' 0 16,
     modA := if long then w1.extractLsb' 52 12 else 0, ext := if long then w1.extractLsb' 0 28 else 0 },
   { res := w0.extractLsb' 16 4 != 0 || (long && w1.extractLsb' 28 24 != 0), badDt := dt.isNone,
     badScope := scope.isNone, badHint := hint.isNone })

/-- The words of a Format E instruction (R213). -/
def parseE (w0 w1 : Word) : FmtE × RawFlags :=
  let long := longOf w0
  ({ long := long, d := w0.extractLsb' 45 6, a := w0.extractLsb' 39 6, b := w0.extractLsb' 33 6,
     c := w0.extractLsb' 27 6, q := w0.extractLsb' 23 4, prio := w0.extractLsb' 20 3, imm20 := w0.extractLsb' 0 20,
     imm64 := if long then w1 else 0 }, {})

/-- The word of a Format BR instruction (R212). -/
def parseBR (w0 : Word) : FmtBR × RawFlags :=
  ({ hint := BrHint.ofCode (w0.extractLsb' 53 2), s := w0.extractLsb' 47 6, v := w0.extractLsb' 41 6,
     cc := w0.extractLsb' 38 3, ofs := w0.extractLsb' 0 32 }, { res := w0.extractLsb' 32 6 != 0 })

/-- The word of a Format G instruction (R214). -/
def parseG (w0 : Word) : FmtG × RawFlags :=
  ({ col := w0.getLsbD 54, sel := w0.extractLsb' 52 2, in1 := w0.extractLsb' 42 10, in2 := w0.extractLsb' 32 10,
     in3 := w0.extractLsb' 22 10, out := w0.extractLsb' 12 10 }, { res := w0.extractLsb' 0 12 != 0 })

/-- A clause header's fields (R201). -/
def parseHdr (w0 : Word) : Hdr × RawFlags :=
  ({ len := w0.extractLsb' 54 4, wait := w0.extractLsb' 42 12, fa := w0.extractLsb' 38 4, fav := w0.getLsbD 37,
     fb := w0.extractLsb' 33 4, fbv := w0.getLsbD 32 }, { res := w0.extractLsb' 0 32 != 0 })

/-- Whether a word's MARK makes it a header (R201, R203). -/
def isHeader (w : Word) : Bool := w.extractLsb' 58 6 == 0x3F

/-- A major whose instructions transfer control (R202). -/
def transferMajor (m : Nat) : Bool := (decide (0x20 ≤ m) && decide (m ≤ 0x27)) || (decide (0xD0 ≤ m) && decide (m ≤ 0xD3))

/-- The format of an assigned core major, with the number of FN codes it assigns (R228 to R232). -/
inductive MajorKind where
  | a (n : Nat) | m (n : Nat) | e (n : Nat) | br | g | none
  deriving DecidableEq, Repr

/-- The kind of a core major. -/
def majorKind (m : Nat) : MajorKind :=
  if !(coreA m).isEmpty then .a (coreA m).length
  else if !(coreM m).isEmpty then .m (coreM m).length
  else if !(coreE m).isEmpty then .e (coreE m).length
  else if (coreBR m).isSome then .br
  else if (coreG m).isSome then .g
  else .none

/-- Steps 2 to 4 of R220 for a word in instruction position: `room` words of the clause are left, this one among
them, and `first` says that it opens the clause. -/
def prelude (w0 : Word) (room : Nat) (first : Bool) : Option Nat :=
  let m := majorOf w0
  let fn := fnOf w0
  match majorKind m with
  | .none => some 2
  | .br => if longOf w0 || decide (room ≠ 1) then some 4 else none
  | .g => if longOf w0 then some 4 else none
  | .a n =>
    if n ≤ fn then some 3
    else if (longOf w0 && decide (room < 2)) || (m == 0x28 && fn == 2 && !first) then some 4 else none
  | .m n => if n ≤ fn then some 3 else if longOf w0 && decide (room < 2) then some 4 else none
  | .e n =>
    if n ≤ fn then some 3
    else if (longOf w0 && decide (room < 2)) || (m == 0xC0 && fn == 2 && decide (room ≠ if longOf w0 then 2 else 1)) then some 4 else none

/-- The instruction that the words name, before the checks of steps 5 to 9. -/
def parseCore (w0 w1 : Word) : Option (Instr × RawFlags) :=
  let m := majorOf w0
  let fn := fnOf w0
  match majorKind m with
  | .none => none
  | .br => (coreBR m).map fun k => (k (parseBR w0).1, (parseBR w0).2)
  | .g => (coreG m).map fun k => (k (parseG w0).1, (parseG w0).2)
  | .a _ => (coreA m)[fn]?.map fun k => (k (parseA w0 w1).1, (parseA w0 w1).2)
  | .m _ => (coreM m)[fn]?.map fun k => (k (parseM w0 w1).1, (parseM w0 w1).2)
  | .e _ => (coreE m)[fn]?.map fun k => (k (parseE w0 w1).1, (parseE w0 w1).2)

/-- The nine steps of R220 for a word in instruction position, with its second word where it has one; a failure
carries the subcode. Privilege (R233) is checked when the instruction runs. -/
def decodeCore (w0 w1 : Word) (room : Nat) (first : Bool) : Except Nat Instr :=
  match prelude w0 room first with
  | some n => .error n
  | none =>
    match parseCore w0 w1 with
    | none => .error 2
    | some (i, raw) =>
      match violation i raw with
      | some n => .error n
      | none => .ok i

/-- Step 1 of R220 for a word in header position. -/
def decodeHeader (w : Word) : Except Nat Instr :=
  if isHeader w then
    match violation (.clauseHeader (parseHdr w).1) (parseHdr w).2 with
    | some n => .error n
    | none => .ok (.clauseHeader (parseHdr w).1)
  else .error 1

/-- The decoder of a Kiosk program (R123, R235): `room` words of the program are left. -/
def decodeKiosk (w0 w1 : Word) (room : Nat) : Option Instr :=
  let m := majorOf w0
  let fn := fnOf w0
  let cand : Option (Instr × RawFlags) :=
    match kioskBR m with
    | some k => if longOf w0 then none else some (k (parseBR w0).1, (parseBR w0).2)
    | none =>
      match kioskA m fn with
      | some k => some (k (parseA w0 w1).1, (parseA w0 w1).2)
      | none => (kioskM m fn).map fun k => (k (parseM w0 w1).1, (parseM w0 w1).2)
  match cand with
  | none => none
  | some (i, raw) =>
    if longOf w0 && decide (room < 2) then none
    else match violation i raw with
      | some _ => none
      | none => some i

/-- Words of an instruction. -/
def Instr.length (i : Instr) : Nat :=
  match shapeOf i with
  | .a _ _ _ f | .ka _ _ f => if f.long then 2 else 1
  | .m _ _ _ f | .km _ _ f => if f.long then 2 else 1
  | .e _ _ _ f => if f.long then 2 else 1
  | .br _ _ _ | .kbr _ _ | .g _ _ _ | .hdr _ => 1
  | .event => 0

/-- One bit as a field. -/
def bit1 (b : Bool) : BitVec 1 := if b then 1 else 0

/-- Words of Format A (R209). -/
def encodeA (major fn : Nat) (f : FmtA) : List Word :=
  let w0 : Word := BitVec.ofNat 8 major ++ bit1 f.long ++ BitVec.ofNat 4 fn ++ f.dt.code ++ f.d ++ f.a ++ f.b ++ f.c
    ++ f.cc ++ bit1 f.i ++ 0#3 ++ f.imm16
  let w1 : Word := f.modA ++ f.modB ++ f.modC ++ f.ext
  if f.long then [w0, w1] else [w0]

/-- Words of Format M (R211). -/
def encodeM (major fn : Nat) (f : FmtM) : List Word :=
  let w0 : Word := BitVec.ofNat 8 major ++ bit1 f.long ++ BitVec.ofNat 4 fn ++ f.dt.code ++ f.d ++ f.a ++ f.b
    ++ f.scope.code ++ f.ord.code ++ f.hint.code ++ bit1 f.nosplit ++ bit1 f.voff ++ 0#4 ++ f.ofs
  let w1 : Word := f.modA ++ 0#24 ++ f.ext
  if f.long then [w0, w1] else [w0]

/-- Words of Format E (R213). -/
def encodeE (major fn : Nat) (f : FmtE) : List Word :=
  let w0 : Word := BitVec.ofNat 8 major ++ bit1 f.long ++ BitVec.ofNat 4 fn ++ f.d ++ f.a ++ f.b ++ f.c ++ f.q
    ++ f.prio ++ f.imm20
  if f.long then [w0, f.imm64] else [w0]

/-- The word of Format BR (R212). -/
def encodeBR (major : Nat) (f : FmtBR) : List Word :=
  let w0 : Word := BitVec.ofNat 8 major ++ 0#1 ++ f.hint.code ++ f.s ++ f.v ++ f.cc ++ 0#6 ++ f.ofs
  [w0]

/-- The word of Format G (R214). -/
def encodeG (major : Nat) (f : FmtG) : List Word :=
  let w0 : Word := BitVec.ofNat 8 major ++ 0#1 ++ bit1 f.col ++ f.sel ++ f.in1 ++ f.in2 ++ f.in3 ++ f.out ++ 0#12
  [w0]

/-- The word of a header (R201). -/
def encodeHdr (f : Hdr) : List Word :=
  let w0 : Word := 0x3F#6 ++ f.len ++ f.wait ++ f.fa ++ bit1 f.fav ++ f.fb ++ bit1 f.fbv ++ 0#32
  [w0]

/-- The words of an instruction; none for an event. -/
def encode (i : Instr) : List Word :=
  match shapeOf i with
  | .a m fn _ f | .ka m fn f => encodeA m fn f
  | .m m fn _ f | .km m fn f => encodeM m fn f
  | .e m fn _ f => encodeE m fn f
  | .br m _ f | .kbr m f => encodeBR m f
  | .g m _ f => encodeG m f
  | .hdr f => encodeHdr f
  | .event => []

/-- The eight bytes of a word as memory holds them, lowest address first (R200). -/
def wordBytes (w : Word) : List Byte :=
  [w.extractLsb' 0 8, w.extractLsb' 8 8, w.extractLsb' 16 8, w.extractLsb' 24 8,
   w.extractLsb' 32 8, w.extractLsb' 40 8, w.extractLsb' 48 8, w.extractLsb' 56 8]

/-- The word that eight bytes hold, little-endian (R200). -/
def bytesWord (b : List Byte) : Word :=
  match b with
  | [b0, b1, b2, b3, b4, b5, b6, b7] => b7 ++ b6 ++ b5 ++ b4 ++ b3 ++ b2 ++ b1 ++ b0
  | _ => 0

/-- Decoding from bytes in whichever position the first word can stand: a header, a core instruction placed as its
kind requires, else a Kiosk word. (DESIGN CHOICE, log 18) -/
def decodeBytes (b : List Byte) : Option Instr :=
  let w0 := bytesWord (b.take 8)
  let w1 := bytesWord ((b.drop 8).take 8)
  let room := if longOf w0 then 2 else 1
  if isHeader w0 then (decodeHeader w0).toOption
  else
    match decodeCore w0 w1 room true with
    | .ok i => some i
    | .error _ => decodeKiosk w0 w1 room

/-- The host's view of the decoder: the instruction whose bits are `w`, first word lowest. -/
def decodeTableWord (_nbits w : Nat) : Option Instr :=
  decodeBytes (wordBytes (BitVec.ofNat 64 w) ++ wordBytes (BitVec.ofNat 64 (w / 2 ^ 64)))

end Sys2Proof
end

