-- ==== Sys2Proof/Config.lean ====
section
/-! DEFINITION. What an implementation fixes and the spec leaves open, and the free values. None has a body, so no
proof rests on a value of it. -/

namespace Sys2Proof.Config

/-- A register value the spec calls unspecified: an element of the `n`-th free value (R274, R376). (DESIGN
CHOICE, log 5) -/
opaque freeLane (n lane : Nat) : BitVec 32

/-- A free choice among values or orders the spec allows: the `n`-th free number (R143, R406, R462). (DESIGN
CHOICE, log 5) -/
opaque freeNat (n : Nat) : Nat

/-- The fused security version (R484). (DESIGN CHOICE, log 15) -/
opaque svn : BitVec 32

/-- The SHA3-256 digest of the boot key fused into the I/O die (R481). (DESIGN CHOICE, log 15) -/
opaque fusedKey : BitVec 256

/-- The quad voltage, in units of 5 mV, at which a frequency step runs (R469, R470). (DESIGN CHOICE, log 15) -/
opaque volts (step : Nat) : BitVec 8

/-- The refresh postponement allowance of the configured capacity-tier memory (R139). (DESIGN CHOICE, log 15) -/
opaque allow : BitVec 8

/-- The ML-DSA-44 signature by the device identity key, which the I/O die keeps (R482). (DESIGN CHOICE, log 15) -/
opaque mlDsaSign (digest : BitVec 256) : List (BitVec 8)

/-- The physically adjacent cores of a physical core, from the die's sensor map in the boot flash (R473).
(DESIGN CHOICE, log 15) -/
opaque adjacent (phys : Nat) : List Nat

/-- The rated maximum current of a band, which replaces a faulty sensor's reading (R473). (DESIGN CHOICE, log 15) -/
opaque bandRated : Nat

/-- The step of the admission generator, which the spec seeds and does not define (R423). (DESIGN CHOICE, log 15) -/
opaque admitNext (g : BitVec 32) : BitVec 32

/-- The peer devices that the fabric reaches through a port (R39, R141). (DESIGN CHOICE, log 15) -/
opaque peersOf (port : Nat) : List Nat

/-- Bytes that a context's array state on a core, and a node of its Pergola table, add to S of R461. (DESIGN
CHOICE, log 15) -/
opaque arrayBytes : Nat
opaque nodeBytes : Nat

end Sys2Proof.Config
end

