-- ==== Sys2Proof/Machine/State.lean ====
section
/-! DEFINITION. The state of the whole device as plain data, and its value after reset. Tables are sparse: an
unlisted key holds the default its comment names. The model's own fields (the agenda, the free-value counter, the
agents in turn) stand last. -/

namespace Sys2Proof.Machine

open Sys2Proof

/-- Reasons for which the model stops. -/
inductive Fault where
  /-- Raised by an instruction that acts for a warp when `cur` names none. Safe: the hardware issues only for warps. -/
  | noWarp
  /-- Raised by a Kiosk instruction when channel `kcur` has no run. Safe: a Kiosk executes only within a run. -/
  | noRun
  /-- Raised by an event that names no agent, operation or wait for which it could happen. Safe: nothing happens
  on hardware in such a state. -/
  | noSuchEvent
  /-- Raised by the step when no warp is ready and no event is due. Safe: the device would idle. -/
  | idle
  deriving DecidableEq, Repr

/-- Reasons for which the model has no meaning to give. -/
inductive Refusal where
  /-- Raised for an instruction the model gives no meaning. Safe. -/
  | notModelled (mnemonic : String)
  deriving DecidableEq, Repr

/-! ## Registers, results and accesses of a warp -/

/-- One register that an arriving result writes: a scalar, or the masked lanes of a stack position. -/
inductive RegWrite where
  | s (r : Nat) (v : Word)
  | v (pos : Nat) (mask : W32) (val : Lanes)
  deriving DecidableEq, Repr

/-- An outstanding A- or B-class result (R205): the flag it counts under, whether its value is known, and the
token by which the operation that owes it finds it. `fixed` is the scalar register of a fixed-class result that a kept release still
owes: no flag counts it (R158). -/
structure Pend where
  tok : Nat
  flag : Option Nat
  ready : Bool
  writes : List RegWrite
  fixed : Option Nat := none
  deriving DecidableEq, Repr

/-- Which store of R146 a byte lives in. -/
inductive LocKind where
  | cached | cap | uncached | peer | scratch | acc | weight | const | reg
  deriving DecidableEq, Repr

/-- What an access does. -/
inductive AccKind where
  | load | store | atom (op : AtomOp) | atomo (op : AtomOp)
  deriving DecidableEq, Repr

/-- One active lane of a checked and translated access: its bytes lie at `pa`; `data` holds a store's bytes or an
atomic's operand, `data2` the new value of a compare-exchange. -/
structure LaneAcc where
  lane : Nat
  va : Word
  pa : Nat
  kind : LocKind
  data : List Byte
  data2 : List Byte
  ticket : Word
  deriving DecidableEq, Repr

/-- An access after all its checks (R307): what remains is to perform it. `d` is the stack position of D. -/
structure Access where
  kind : AccKind
  dt : DT
  size : Nat
  scope : Scope
  ord : Ord2
  d : Nat
  lanes : List LaneAcc
  ipc : Word
  tok : Nat
  deriving DecidableEq, Repr

/-! ## Engine operations -/

/-- A piece of a copy or gather: `len` bytes within one destination line, with the effective addresses of its first bytes. -/
structure Piece where
  src : Nat
  skind : LocKind
  dst : Nat
  dkind : LocKind
  len : Nat
  sva : Word := 0
  dva : Word := 0
  deriving DecidableEq, Repr

/-- A range of effective addresses, for the overlap and guard checks (R188, R383). -/
structure Rng where
  base : Word
  row : Nat
  stride : Nat
  rows : Nat
  deriving DecidableEq, Repr

/-- A copy or gather in flight: its counter and number, the warp, instruction and token that issued it, the pieces not yet
delivered, the dies whose weight stores a kernel-boundary copy writes, and the scratchpad lines whose count it left when a new block was
placed on them (R78); `told` while a piece without a route or turned away has been reported to the warp (R141). -/
structure MemOp where
  seq : Nat
  ctx : Nat
  warp : Nat
  ipc : Word
  tok : Nat
  tl : Nat
  num : Nat
  gather : Bool
  kb : Bool
  pieces : List Piece
  dst : List Rng
  err : Bool
  kbDies : List Nat
  dead : List (Nat × Nat)
  told : Bool := false
  deriving DecidableEq, Repr

/-- A translated range of an operand plane: where byte `off` of the command's own address space lies. -/
structure Xlat where
  va : Word
  pa : Nat
  kind : LocKind
  len : Nat
  deriving DecidableEq, Repr

/-- Orientation of a cube operation's gate (R333). -/
inductive Ori where
  | none | ik | kj | k
  deriving DecidableEq, Repr

/-- What a matrix-queue entry does (R354). -/
inductive CubeCmd where
  | ldb (set : Nat) (fmt : DT) (k : Nat) (src : Word) (stride : Nat) (scale : Option Word)
  | ldg (set : Nat) (fmt : DT) (k : Nat) (src : Word) (stride : Nat)
  | ldk (set : Nat) (fmt : DT) (k : Nat) (src : Word)
  | mac (ori : Ori) (set : Nat) (fa fg : DT) (a g : Word) (astr gstr : Nat) (rs : Option Word) (za : Bool) (t0 nt : Nat)
  | shift (tile row : Nat) (clr : Bool) (mask : W32) (pos : Nat)
  | drain (tile : Nat) (dst : Nat) (clr : Bool)
  | zero (mask : BitVec 8)
  | eval (tiles : BitVec 8) (set : Bool)
  deriving DecidableEq, Repr

/-- The state of a matrix-queue entry. -/
inductive CubeSt where
  | queued | running | suspended | done
  deriving DecidableEq, Repr

/-- An entry of the matrix queue (R344 to R347); `wait` is the cycles it has waited up to `since`, `born` the cycle of its issue,
`step` its completed k-steps or rows of a drain, `sc` holds the scale bytes its slabs brought, `tok` is its owed result. -/
structure CubeEnt where
  seq : Nat
  ctx : Nat
  warp : Nat
  num : Nat
  cmd : CubeCmd
  prio : Nat
  wait : Nat
  since : Word
  born : Word
  st : CubeSt
  step : Nat
  ashape : W32
  xl : List Xlat
  sc : List Nat
  tok : Nat
  deriving DecidableEq, Repr

/-- A stationary plane: its format, K and elements in row-major order of (k, j), as raw codes; for q4, codes and
the scale bytes of its blocks, block b of column j at index j × (K / 32) + b. -/
structure Plane where
  fmt : DT
  k : Nat
  elems : List Nat
  scales : List Nat
  deriving DecidableEq, Repr

/-- A stationary set (R335). -/
structure StSet where
  b : Option Plane
  wscale : Option (List Nat)
  g : Option Plane
  kv : Option Plane
  deriving DecidableEq, Repr

/-- The array state that belongs to one context (R335, R349): sparse tiles (unlisted elements +0.0; element
(t, i, j) at key t × 1024 + i × 32 + j) and the two sets. -/
structure ArrayState where
  tiles : AMap W32
  set0 : StSet
  set1 : StSet
  deriving DecidableEq, Repr

/-- What a plane entry does (R398, R412). -/
inductive PlaneCmd where
  | gate (inputs : Nat) (col : Bool) (sel : Nat) (in1 in2 in3 out : Nat)
  | init (col : Bool) (sel : Nat) (out : Nat)
  | rdv (col : Bool) (line : Nat) (mask : W32) (pos : Nat)
  | wrv (col : Bool) (line : Nat) (mask : W32) (val : Lanes)
  | cnt (col : Bool) (line : Nat) (d : Nat)
  | remap (col : Bool) (sel : Nat)
  | budget (col : Bool) (line : Nat) (v : W32)
  | selV (sel : Nat) (bits : BitVec 1024)
  | selM (sel : Nat) (pa : Nat) (kind : LocKind)
  | stat (clr : Bool) (d : Nat)
  | statIss (d : Nat)
  deriving DecidableEq, Repr

/-- An entry of the plane queue (R399). -/
structure PlaneEnt where
  seq : Nat
  ctx : Nat
  warp : Nat
  num : Nat
  cmd : PlaneCmd
  tok : Nat
  deriving DecidableEq, Repr

/-- A Kiosk launch (R128) after its checks: physical places of its ranges, and of its descriptor, whose scalars are read
when the run starts (R131). -/
structure KRun where
  seq : Nat
  ctx : Nat
  warp : Nat
  tok : Nat
  core : Nat
  num : Nat
  ch : Nat
  prog : List Xlat
  plen : Nat
  src : Nat
  slen : Nat
  param : List Xlat
  dst : List Xlat
  dstVa : Word
  dlen : Nat
  recd : List Xlat
  recVa : Word
  desc : List Xlat
  deriving DecidableEq, Repr

/-- A collective command after its checks (R325, R326). That of another device's participant holds its source bytes. -/
structure CollCmd where
  ctx : Nat
  warp : Nat
  tok : Nat
  core : Nat
  num : Nat
  seqNo : Nat
  op : Nat
  fmt : DT
  rnd : Nat
  count : Nat
  npart : Nat
  rank : Nat
  root : Nat
  group : Word
  sq : Word
  src : List Xlat
  srcVa : Word
  dst : List Xlat
  dstVa : Word
  dead : List (Nat × Nat)
  remote : Option (List Byte)
  deriving DecidableEq, Repr

/-- A launch record's fields (R417). -/
structure Role where
  entry : Word
  warps : Nat
  regs : Nat
  deriving DecidableEq, Repr

structure LaunchRec where
  entry : Word
  gx : Nat
  gy : Nat
  gz : Nat
  shape : Nat
  det : Bool
  persist : Bool
  phased : Bool
  threads : Nat
  scratch : Nat
  accT : Nat
  regs : Nat
  carry : Nat
  bpc : Nat
  splen : Nat
  param : Word
  cbase : Nat
  clen : Nat
  spill : Word
  roles : List Role
  deriving DecidableEq, Repr

/-! ## Pergola -/

/-- The kinds of R371 by their FN. -/
inductive NodeKind where
  | leaf | contract | ewise | rowred | map | cast
  deriving DecidableEq, Repr

/-- A descriptor's fields (R366). -/
structure NodeDesc where
  haddr : Word
  hstr : Nat
  rows : Nat
  cols : Nat
  fmt : DT
  op : Nat
  qdir : Bool
  padv : W32
  saddr : Word
  waddr : Word
  klen : Nat
  maps : List Word
  deriving DecidableEq, Repr

/-- A node (R362 to R373). `made` is the creating kind, `kind` changes to leaf at a conversion; `ord` is its
creation number in the warp; `dropNew` marks a drop since the warp's last region. `inputs` names input nodes by IDX. In a
deterministic round, `unwritten` marks a converted node whose bytes the warp still holds (R386). -/
structure Node where
  idx : Nat
  gen : Nat
  made : NodeKind
  kind : NodeKind
  desc : NodeDesc
  inputs : List Nat
  dropped : Bool
  dropNew : Bool
  slot : W32
  ashape : W32
  pc : Word
  regctr : Word
  ord : Nat
  ranges : Nat
  unwritten : Bool := false
  deriving DecidableEq, Repr

/-- The fields of tmode (R392). -/
structure TMode where
  ltiles : BitVec 8
  lset : Bool
  eprio : Nat
  strict : Bool
  trapovf : Bool
  ecnt : Nat
  ebase : Nat
  rq : Nat
  nq : Nat
  deriving DecidableEq, Repr

/-- A warp's part of the Pergola table: nodes in creation order, GEN by IDX (unlisted 1), one more than the newest node's
place in the device's order of creation (R384), and PTAIL (R382). -/
structure Perg where
  nodes : List Node
  gens : AMap Nat
  created : Nat
  ptail : Nat
  deriving DecidableEq, Repr

/-- What a demanding instruction still has to do once its evaluation completes (R196, R376). -/
inductive Demand where
  | force (node : Nat) (r0 c0 rows cols d : Nat)
  | store (node : Nat) (r0 c0 rows cols : Nat) (dst : Word) (stride : Nat) (xl : List Xlat) (d : Nat)
  deriving DecidableEq, Repr

/-! ## Commands and waits -/

/-- An engine command after its issue checks (R341, R316, R326): accepting it numbers it and queues it. -/
inductive CmdBody where
  | copy (q : Nat) (kb : Bool) (pieces : List Piece) (dst : List Rng)
  | gather (pieces : List Piece) (dst : List Rng)
  | cube (c : CubeCmd) (prio : Nat) (ashape : W32) (xl : List Xlat)
  | plane (p : PlaneCmd)
  | krun (r : KRun)
  | coll (c : CollCmd)
  | glaunch (r : LaunchRec)
  | tmode (v : Word)
  deriving DecidableEq, Repr

/-- A command with its destination register, its place and the token of its owed result. -/
structure Cmd where
  body : CmdBody
  d : Nat
  ipc : Word
  tok : Nat
  deriving DecidableEq, Repr

/-- Bytes of a materialisation, at their place. -/
structure MatW where
  kind : LocKind
  pa : Nat
  data : List Byte
  deriving DecidableEq, Repr

/-- What a held demand still owes: its number, which the commit gives it, in register `d`, and the cube errors of its evaluation,
which are logged under that number; `full` where the log overflowed (R195, R353). -/
structure Owed where
  tok : Nat
  d : Nat
  log : List Word
  full : Bool
  deriving DecidableEq, Repr

/-- A write or command of a deterministic round, held until its commit (R172, R173, R430); `overlap` is a copy whose ranges met those
of an incomplete one at the commit, `still` where they met at the end of that cycle too (R188). A materialisation that changes a node names its handle: of
a node converted, or of a LEAF that a snapshot moves, with the base that it left; `tab` is the warp's node table and mode as an
instruction of the round left them (R386, R392). (DESIGN CHOICE, log 10) -/
inductive HeldOp where
  | acc (a : Access)
  | cmd (c : Cmd)
  | overlap (c : Cmd) (still : Bool)
  | tladv (k : Nat) (v : Word)
  | barArrive (sync : Bool) (b n d : Nat) (ipc : Word)
  | tqpush (q : Nat) (v : Word) (d : Nat)
  | cancel (clr : Bool) (inst : Nat) (ipc : Word)
  | phend
  | pfence
  | mat (l : List MatW) (rngs : List Rng) (lines : List (Nat × Nat)) (owed : Option Owed) (whole : Bool) (ipc : Word)
      (node : Option (Nat × Option Word))
  | tab (p : Perg) (m : TMode)
  | wback (pas : List Nat)
  deriving DecidableEq, Repr

/-- A recorded waitv (R281). -/
structure WaitvRec where
  cc : CC
  dt : DT
  size : Nat
  cmp : Word
  va : Word
  pa : Nat
  kind : LocKind
  ord : Ord2
  scope : Scope
  last : Word
  ipc : Word
  deriving DecidableEq, Repr

/-- What a warp waits for; `run` when for nothing. `ordered` waits for a lane of an ordered atomic of its own to be performed
(R152, R157, R160). `overlap` is a copy whose ranges meet those of an incomplete one, until its cycle ends (R188); `slots` an
instruction whose materialisations need an entry of the matrix queue for a contraction of warp `k` (R376). `present` waits whole
for places, the first without a route at `va`. -/
inductive Wait where
  | run
  | header (m : BitVec 12)
  | flags (m : BitVec 12)
  | results
  | held (a : Access)
  | present (pas : List Nat) (va : Word) (store : Bool)
  | ordered
  | refused (c : Cmd)
  | waitt (k : Nat) (n : Word)
  | waitv (r : WaitvRec)
  | bar (b : Nat) (ph : Word)
  | gwait (inst : Nat)
  | migpt
  | overlap (q : Nat) (dst : List Rng)
  | slots (k : Nat) (ashape : W32)
  | tqpop (kind q d tok : Nat)
  | tlbisync
  | cancel (clr : Bool) (inst : Nat)
  | eval (dm : Demand) (num tok seq : Nat) (lines : List (Nat × Nat))
  | yield
  | peer (a : Access)
  | commit
  deriving DecidableEq, Repr

/-- Whether a warp takes part in issue. -/
inductive Status where
  | live | phaseWait | exited | halted | stopped | parked
  deriving DecidableEq, Repr

/-- A fault as WriteRecord takes it (R446, R447). -/
structure Trap where
  cause : BitVec 8
  detail : BitVec 8 := 0
  index : BitVec 16 := 0
  elem : Bool := false
  late : Bool := false
  peer : BitVec 2 := 0
  faddr : Word := 0
  fnode : Word := 0
  fnpc : Word := 0
  fnreg : Word := 0
  deriving DecidableEq, Repr

/-- The clause a warp is in (R202, R205): words left (0 at a header), the flags of its results, and how many A- and
B-class results its header counted that no instruction has issued yet. -/
structure Clause where
  left : Nat
  first : Bool
  hdr : Word
  fa : Option Nat
  fb : Option Nat
  owedA : Nat
  owedB : Nat
  deriving DecidableEq, Repr

/-- A warp. Unlisted stack positions hold zero lanes; a call writes free values to its callee's new positions. `split`
holds the flag A of the load at which the warp split into waves, until it rejoins (R96, R98); `credit` lists the entries of the
matrix queue that have run for contractions which the warp's instruction has still to evaluate, each with the tiles and set lent to
it, `creditAt` the place of that instruction where it is to issue again (R376). `base` is the node table and mode as the round began, once it has changed them (R386). -/
structure Warp where
  ctx : Nat
  core : Nat
  grid : Nat
  cluster : Nat
  block : Nat
  role : Nat
  wid : Nat
  rank : Nat
  bid : Vector W32 3
  sys : Bool
  s : Vector Word 64
  shadow : Vector Word 8
  v : AMap Lanes
  winbase : Nat
  lo : Nat
  budget : Nat
  em : W32
  lm : W32
  nmode : W32
  regctr : Word
  regpc : Word
  ashape : W32
  spillbase : Word
  spilllen : Word
  spillcnt : Word
  hintmiss : Word
  sel : Vector (BitVec 1024) 4
  gens : Vector W32 32
  gs : W32
  flags : Vector Nat 12
  unfl : Nat
  clause : Clause
  pend : List Pend
  pc : Word
  ipc : Word
  fcause : Word
  faddr : Word
  fpc : Word
  fnode : Word
  fnpc : Word
  fnreg : Word
  tpc : Word
  tem : W32
  tstat : Word
  tmode : TMode
  perg : Perg
  wait : Wait
  status : Status
  det : Bool
  held : List HeldOp
  base : Option (Perg × TMode)
  qend : Bool
  retired : Nat
  tlSeen : Vector Word 10
  preacked : Bool
  split : Option (Option Nat)
  credit : List (BitVec 8 × Bool)
  creditAt : Option (Nat × Word)
  stamp : Nat
  deriving DecidableEq, Repr

/-! ## Cores -/

/-- A cached leaf translation (R55, R67): the page's virtual base and size, its tag (none for untagged), the
physical base and the leaf's bits, and for the D rule of R60 where its entry lies and the values of its entries as the
walker left them (one, or a group's sixteen). -/
structure Tlb where
  tag : Option Nat
  sysHalf : Bool
  vbase : Nat
  size : Nat
  pbase : Nat
  ty : BitVec 2
  r : Bool
  w : Bool
  x : Bool
  dirty : Bool
  level : Nat
  entry : Nat
  group : Bool
  vals : List Nat
  deriving DecidableEq, Repr

/-- A cached table entry (R69): its tag, the level it was read at, the address prefix down to that level, and the
next table. -/
structure Wce where
  tag : Option Nat
  level : Nat
  key : Nat
  table : Nat
  deriving DecidableEq, Repr

/-- A context slot of a core (R426, R427); `next` is a WEIGHT written in the cycle, in effect from its end. -/
structure Slot where
  valid : Bool
  weight : BitVec 4
  next : Option (BitVec 4)
  ctx : BitVec 8
  pass : W32
  deriving DecidableEq, Repr

/-- A line copy: its number (physical address / 128) and bytes. -/
abbrev Copies := List (Nat × List Byte)

/-- A logical core (unlisted cores hold `Core.init`). `target` is where a migration in progress goes; `bandv` gives each band's
voltage in steps of 5 mV below its quad's (R468). Its scratchpad and accumulator store lie in memory at their
aliases (R34); `absent` gives each line's outstanding tracked writes (unlisted 0: present). -/
structure Core where
  absent : AMap Nat
  l1 : Copies
  cc : Copies
  tc : Copies
  gc : Copies
  pr : Copies
  splits : W32
  tlb : List Tlb
  ops : List MemOp
  cq : List CubeEnt
  owner : Option Nat
  array : ArrayState
  saved : AMap ArrayState
  bands : BitVec 4
  pq : List PlaneEnt
  slots : Vector Slot 8
  picks : Nat
  vpicks : Nat
  spicks : Nat
  pickedWarps : List Nat
  migreq : Bool
  moving : Bool
  target : BitVec 6
  bandv : Vector (BitVec 8) 4
  phys : BitVec 6
  cad : BitVec 5
  droop : Bool
  deriving DecidableEq, Repr

/-- An error-log entry (R353) is a 64-bit word. The per-context part of a core (R176 to R178, R183, R352): completed
values and issue counts, numbers completed out of order, numbers dropped (R462), the error registers,
the cycle in which the first error was recorded, and the channel of each Kiosk run by its number (R324). -/
structure TlSet where
  done : Vector Word 16
  issued : Vector Word 10
  early : List (Nat × Nat)
  dropped : List (Nat × Nat)
  tlerr : Word
  errAt : Word
  cerr : W32
  log : List Word
  kch : AMap Nat
  deriving DecidableEq, Repr

/-- A physical core's logic plane (R396, R401, R402, R407). Unlisted cells are 0, unlisted counters 0, unlisted
budgets 0xFFFFFFFF, unlisted map entries the identity. Line keys are axis × 1024 + line, cells row × 1024 + column. -/
structure LPlane where
  cells : AMap Bool
  rowmap : AMap Nat
  colmap : AMap Nat
  cnt : AMap W32
  bud : AMap W32
  status : Word
  deriving DecidableEq, Repr

/-! ## Contexts, grids, blocks -/

/-- A context (unlisted contexts hold `Ctx.init`); `kill` while a KILL stops it (R462). `ctl` holds the programmed and sticky bits of CTXCTL. -/
structure Ctx where
  tvec : Word
  seed : Word
  tdata : Word
  rootu : Word
  minres : BitVec 16
  slice : BitVec 16
  acks : BitVec 8
  brk : Bool
  halt : Bool
  done : Bool
  dbg : Bool
  co : Bool
  res : Bool
  preq : Bool
  kill : Bool
  saveb : Word
  grids : Nat
  cancels : List Nat
  pendCancel : List (Nat × Bool × Nat)
  deriving DecidableEq, Repr

/-- A barrier of a cluster (R321): arrivals, expected count, phase. -/
structure Bar where
  arrived : Nat
  who : List Nat
  expect : Nat
  ph : Word
  deriving DecidableEq, Repr

/-- A cluster: its grid and position, the cores it holds once admitted, its barriers (unlisted: zero). -/
structure Cluster where
  grid : Nat
  cx : Nat
  cy : Nat
  cz : Nat
  rank : Nat
  cores : List Nat
  admitted : Bool
  released : Bool
  attempt : Nat
  backoff : Option Nat
  bars : AMap Bar
  deriving DecidableEq, Repr

/-- A block: per core of its cluster its scratchpad base, and accumulator base in tiles (R414); those of a parked one lie
outside every core (R424). -/
structure Block where
  cluster : Nat
  rank : Nat
  sbase : List (Nat × Nat)
  abase : List (Nat × Nat)
  phase : Nat
  nextPhase : Bool
  parked : Bool
  freed : Bool
  deriving DecidableEq, Repr

/-- A grid (R414, R419); `committing` while the commit of its round holds part way (R488). -/
structure Grid where
  ctx : Nat
  inst : Nat
  depth : Nat
  parent : Option Nat
  recd : LaunchRec
  retired : Bool
  round : Nat
  committing : Bool
  deriving DecidableEq, Repr

/-! ## Kiosks, collectives, walks -/

/-- The run a Kiosk executes (R121): k0 to k3 of the 512 lanes and c (unlisted lanes +0.0), p0 to p7, masks and mask
stacks by bank, scalars, program words. -/
structure KState where
  run : KRun
  k : Vector (AMap W32) 4
  p : Vector Lanes 8
  c : AMap W32
  masks : Vector W32 16
  mstack : List (Vector W32 16)
  s : Vector Word 8
  pc : Nat
  prog : List Word
  retired : Nat
  derr : Nat
  dataErr : Bool
  paused : Bool
  preempted : Bool
  deriving DecidableEq, Repr

/-- A Kiosk and its channel's banks (R130, R136 to R139): open stripe rows by bank with their age class, postponed
refreshes by bank, waiting ordinary accesses (offset and byte for a write). -/
structure Kiosk where
  queue : List KRun
  run : Option KState
  saved : List KState
  openRow : AMap Nat
  postponed : AMap Nat
  waiting : List (Nat × Option Byte)
  pauses : W32
  postmax : BitVec 8
  cause : BitVec 4
  deriving DecidableEq, Repr

/-- An asynchronous walk, started by a prefetch (R70, R314), with the root it began under (R49). Walks of one page in one
context are one walk with several attached misses. -/
structure Walk where
  core : Nat
  ctx : Nat
  va : Word
  root : Word
  started : Bool
  fill : Bool
  deriving DecidableEq, Repr

/-- The five invalidation scopes of R75. -/
inductive InvScope where
  | page (ctx : Nat) (start : Word) (len : Nat)
  | ctx (c : Nat)
  | sysRange (start : Word) (len : Nat)
  | sysAll
  | all
  deriving DecidableEq, Repr

/-- An invalidation that a warp has started and that has not completed (R76). Once its entries are removed, `before` holds
the token below which accesses may have been translated through them, `untagged` whether one was untagged, and `gone` the base and
size of the untagged leaves that it took out. -/
structure Inval where
  warp : Nat
  scope : InvScope
  before : Option Nat
  untagged : Bool
  gone : List (Nat × Nat) := []
  deriving DecidableEq, Repr

/-- A lane of an ordered atomic that is not yet performed (R167, R168): on its way to its slice, buffered there (`arrived`),
or refused, with the slice's count of advances of NEXT at that time; `fenced` once its warp has passed a release fence (R160). -/
structure OrdBuf where
  slice : Nat
  warp : Nat
  acc : Access
  lane : LaneAcc
  arrived : Bool
  refused : Option Nat
  fenced : Bool := false
  deriving DecidableEq, Repr

/-- What a release of warp `warp` does once the ordered lanes that precede it are performed (R158): an access, a counter
raised by TLADV, a launch, an arrival at barrier `b`, or a push onto a deque, these two with the register they answer in. -/
inductive RelOp where
  | acc (a : Access)
  | tladv (k : Nat) (v : Word)
  | cmd (c : Cmd)
  | arrive (b n d : Nat) (ipc : Word)
  | push (q : Nat) (v : Word) (d : Nat)
  deriving DecidableEq, Repr

/-- A release that waits for the ordered lanes and the releases of its warp with lower tokens; the warp goes on meanwhile
(R158). `fenced` once its warp has passed a release fence (R160). -/
structure RelBuf where
  warp : Nat
  tok : Nat
  op : RelOp
  fenced : Bool := false
  deriving DecidableEq, Repr

/-- An HBM5 stack (R113 to R118): the state of each group, the groups still to retrain in their order (R114, R116), the group
retraining with the state it started towards, the newest target, and the counts. -/
structure Hbm where
  gstate : Vector (BitVec 2) 4
  todo : List Nat
  cur : Option (Nat × BitVec 2)
  target : BitVec 2
  reached : Bool
  super : BitVec 8
  pcount : W32
  deriving DecidableEq, Repr

/-- A quad's power domain (R468 to R470): its register's fields, the newest target step, the voltage and frequency that the
ramp segment in progress ends at, and how much of a cycle of its own clock has passed, in steps of 28 (R3). -/
structure Qvf where
  seg : Option (BitVec 8 × BitVec 5)
  phase : Nat
  super : BitVec 8
  curv : BitVec 8
  curf : BitVec 5
  ramp : Bool
  cadbase : BitVec 5
  droopf : BitVec 5
  reqf : BitVec 5
  target : BitVec 5
  deriving DecidableEq, Repr

/-- A push of the cycle in progress (R433): deque, core, wid, warp and result register. -/
structure Push where
  q : Nat
  core : Nat
  wid : Nat
  warp : Nat
  d : Nat
  deriving DecidableEq, Repr

/-- A quad: its TLB, deques (bottom first; unlisted empty) with the pushes of the cycle, grants TQCFG (unlisted 0). -/
structure Quad where
  tlb : List Tlb
  deques : AMap (List Word)
  pushes : List Push
  tqcfg : AMap Word
  qvf : Qvf
  deriving DecidableEq, Repr

/-- A die (R69, R70, R111, R423, R425). -/
structure Die where
  wcache : List Wce
  walks : List Walk
  shift : BitVec 6
  shiftPend : Option (BitVec 6 × Word)
  parkcfg : Word
  gen : W32
  deriving DecidableEq, Repr

/-- The states of a peer port (R479). -/
inductive PortSt where
  | down | train | up | degraded | retrain | disabled
  deriving DecidableEq, Repr

/-- A flit in a port's replay buffer: sequence number, flow, pieces, and whether it has been replayed (R478, R479). -/
structure Sent where
  seq : BitVec 16
  flow : Nat
  payload : List OutReq
  replayed : Bool
  deriving DecidableEq, Repr

/-- A peer port (R478 to R480), with the next sequence number it expects, the flits it has sent that are not yet acknowledged,
the next number it sends, and its failed trainings. -/
structure Port where
  sent : List Sent
  sendSeq : BitVec 16
  st : PortSt
  lanes : BitVec 4
  dis : Bool
  replay : W32
  retrains : BitVec 16
  fails : Nat
  nextSeq : BitVec 16
  deriving DecidableEq, Repr

/-- A physical core's sensors (R473 to R475): the readings in use (none before the first sample; currents by band), the last
samples of each thermal sensor, faults, limits in force. -/
structure Sens where
  current : List Nat
  t0 : Option Int
  t1 : Option Int
  same0 : Nat
  same1 : Nat
  med0 : Int
  med1 : Int
  raw0 : Int
  raw1 : Int
  tfault : BitVec 2
  cfault : BitVec 4
  events : BitVec 16
  throt : Bool
  migreq : Bool
  noNew : Bool
  deriving DecidableEq, Repr

/-- A user queue slot (R463); `last` is the QADDR it was last mapped at (R464). -/
structure Uq where
  pend : BitVec 16
  ctx : BitVec 8
  mapped : Bool
  qaddr : Word
  last : Option Word
  deriving DecidableEq, Repr

/-- What firmware logs to the boot flash (R473, R474): a thermal sensor or a current sensor declared faulty, by physical core
and number, and a shutdown. -/
inductive FlashLog where
  | thermal (phys i : Nat)
  | current (phys band : Nat)
  | shutdown
  deriving DecidableEq, Repr

/-- The boot path (R481 to R484), with the log in its flash. -/
structure Boot where
  svn : W32
  stage : BitVec 8
  cause : BitVec 8
  die : BitVec 2
  stext : Bool
  shock : Bool
  slot : Bool
  ready : Bool
  m : BitVec 256
  recovery : Bool
  shocks : List Nat
  flash : List FlashLog
  answer : List Byte
  deriving DecidableEq, Repr

/-- Supply conditions (R471, R472); `rails` while the compute rails are off (R474). -/
structure Supply where
  droop : Bool
  holdup : Bool
  off : Bool
  rails : Bool
  stopped : List Nat
  deriving DecidableEq, Repr

/-! ## Choices of the agenda -/

/-- The operands of an event: each event's comment in Syntax names the fields it reads. -/
structure EvArg where
  x : Nat := 0
  y : Nat := 0
  z : Nat := 0
  v : Word := 0
  g : Word := 0
  wr : Option Byte := none
  ctx : Option Nat := none
  unit : CubeUnit := .load
  cls : EngClass := .warps
  req : OutReq := { op := .load, addr := 0, bytes := [] }
  flit : Flit := { seq := 0, ack := 0, flow := 0, crcOk := true, payload := [] }
  sample : Sample := []
  image : Image := { bytes := [], signature := [], pubKey := [], version := 0 }
  nums : List Nat := []
  nonce : BitVec 256 := 0
  deriving DecidableEq, Repr

/-- Which store an eviction takes a line or entry from. -/
inductive Store where
  | l1 | const | tile | gather | plane | tlb
  deriving DecidableEq, Repr

/-- What the device does next: a pick of a core, an instruction of a Kiosk, an event, a cycle boundary, or a move
that the spec leaves to the hardware (a replacement, an error, a line written back). -/
inductive Choice where
  | issue (core : Nat)
  | kiosk (ch : Nat)
  | event (i : Instr) (a : EvArg)
  | cycle
  | evict (core : Nat) (st : Store) (line : Nat)
  | evictQuad (quad k : Nat)
  | evictWalk (die k : Nat)
  | clean (line : Nat)
  | error (line : Nat)
  | recover (line : Nat)
  | peerSegment (seg : Nat) (shut : BitVec 2)
  | collective (c : CollCmd) (src : List Byte)
  | bandLevel (core band : Nat) (below : BitVec 8)
  | send (port flow : Nat) (payload : List OutReq)
  | resend (port : Nat)
  | spillTile (warp idx tr tc : Nat)
  deriving DecidableEq, Repr

/-- The device. `peerShut` holds, by 1 GiB segment of the other devices' apertures, which accesses their inbound tables
turn away: bit 0 loads, bit 1 stores (unlisted: none). `gleaves` holds base and size of the untagged leaves of the user half that
have entered a TLB and that no invalidation has taken since (R76). -/
structure State where
  mem : List Host.Cell
  poison : List Nat
  l2dirty : Copies
  warps : AMap Warp
  cores : AMap Core
  tls : AMap TlSet
  quads : AMap Quad
  dies : AMap Die
  planes : AMap LPlane
  ctxs : AMap Ctx
  grids : AMap Grid
  clusters : AMap Cluster
  blocks : AMap Block
  kiosks : AMap Kiosk
  colls : List CollCmd
  matched : List (Word × Word)
  invals : List Inval
  gleaves : List (Nat × Nat)
  ordbuf : List OrdBuf
  rels : List RelBuf
  stale : AMap W32
  nexts : AMap Nat
  roots : Word
  devnum : W32
  inbound : AMap Word
  hbm : AMap Hbm
  lpown : AMap Word
  uq : AMap Uq
  sens : AMap Sens
  thcfg : W32
  ports : AMap Port
  reachable : List Nat
  peerMem : List Host.Cell
  peerShut : AMap (BitVec 2)
  boot : Boot
  faulty : List Nat
  bvctl : W32
  supply : Supply
  clock : Word
  answers : List (Option (List Byte))
  nextId : Nat
  seq : Nat
  free : Nat
  served : Nat
  agenda : List Choice
  cur : Nat
  kcur : Nat
  ev : EvArg
  deriving DecidableEq, Repr

/-! ## Defaults and reset -/

def StSet.absent : StSet := { b := none, wscale := none, g := none, kv := none }
/-- A context's first array state: sets absent, tiles +0.0 (R335). -/
def ArrayState.init : ArrayState := { tiles := [], set0 := .absent, set1 := .absent }

def Slot.init : Slot := { valid := false, weight := 0, next := none, ctx := 0, pass := 0 }

/-- A core after reset: nothing cached, queues empty, CAD 1 and DROOP 0 (R338), PHYS n mod 32 (R45, R46).
(DESIGN CHOICE, log 12) -/
def Core.init (n : Nat) : Core :=
  { absent := [], l1 := [], cc := [], tc := [], gc := [], pr := [], splits := 0, tlb := [], ops := [], cq := []
    owner := none, array := .init, saved := [], bands := 0xF, pq := [], slots := .replicate 8 .init
    picks := 0, vpicks := 0, spicks := 0, pickedWarps := [], migreq := false, moving := false
    target := 0, bandv := .replicate 4 0, phys := BitVec.ofNat 6 (n % 32), cad := 1, droop := false }

/-- The counters of a context when it is created (R178, R183, R352). -/
def TlSet.init : TlSet :=
  { done := .replicate 16 0, issued := .replicate 10 0, early := [], dropped := [], tlerr := 0, errAt := 0, cerr := 0, log := []
    kch := [] }

/-- A plane that no entry has written. (DESIGN CHOICE, log 14) -/
def LPlane.init : LPlane := { cells := [], rowmap := [], colmap := [], cnt := [], bud := [], status := 0 }

/-- QVF at reset (R470); CURV reads the level of step 28, a configured value. -/
def Qvf.init (curv : BitVec 8) : Qvf :=
  { seg := none, phase := 0, super := 0, curv := curv, curf := 28, ramp := false, cadbase := 1, droopf := 14, reqf := 28, target := 28 }

/-- The die's generator, seeded from the die number (R423). (DESIGN CHOICE, log 16) -/
def Die.init (d : Nat) : Die :=
  { wcache := [], walks := [], shift := 0, shiftPend := none, parkcfg := 0, gen := BitVec.ofNat 32 (d + 1) }

/-- A context's registers at reset (R48, R453, R456). -/
def Ctx.init : Ctx :=
  { tvec := 0, seed := 0, tdata := 0, rootu := 0, minres := 0, slice := 0, acks := 0, brk := false, halt := false
    done := false, dbg := false, co := false, res := false, preq := false, kill := false, saveb := 0, grids := 0, cancels := []
    pendCancel := [] }

def Kiosk.init : Kiosk :=
  { queue := [], run := none, saved := [], openRow := [], postponed := [], waiting := [], pauses := 0, postmax := 0
    cause := 0 }

/-- Every group in F0 (R113). -/
def Hbm.init : Hbm :=
  { gstate := .replicate 4 0, todo := [], cur := none, target := 0, reached := false, super := 0, pcount := 0 }

def Port.init : Port :=
  { sent := [], sendSeq := 0, st := .down, lanes := 0, dis := false, replay := 0, retrains := 0, fails := 0, nextSeq := 0 }

def Sens.init : Sens :=
  { current := [], t0 := none, t1 := none, same0 := 0, same1 := 0, med0 := 0, med1 := 0, raw0 := 0, raw1 := 0, tfault := 0, cfault := 0
    events := 0, throt := false, migreq := false, noNew := false }

def Uq.init : Uq := { pend := 0, ctx := 0, mapped := false, qaddr := 0, last := none }

/-- BOOTST at reset (R484); SVN is fused, 0 on a part with none fused. -/
def Boot.init (svn : W32) : Boot :=
  { svn := svn, stage := 0, cause := 0, die := 0, stext := false, shock := false, slot := false, ready := false, m := 0
    recovery := false, shocks := [], flash := [], answer := [] }

/-- TMODE when a warp starts (R362, R392). -/
def TMode.init : TMode :=
  { ltiles := 0, lset := false, eprio := 0, strict := false, trapovf := false, ecnt := 0, ebase := 0, rq := 0, nq := 0 }

def Perg.init : Perg := { nodes := [], gens := [], created := 0, ptail := 0 }

/-- A warp outside any clause: its next word is a header. -/
def Clause.init : Clause := { left := 0, first := false, hdr := 0, fa := none, fb := none, owedA := 0, owedB := 0 }

/-- The device right after reset: no memory cell listed, no context, grid or warp, every register at the value its
rule gives (MIGT 95, R476), the model's own fields at zero. (DESIGN CHOICE, log 12) -/
def State.reset : State :=
  { mem := [], poison := [], l2dirty := [], warps := [], cores := [], tls := [], quads := [], dies := [], planes := []
    ctxs := [], grids := [], clusters := [], blocks := [], kiosks := [], colls := [], matched := [], invals := [], gleaves := []
    ordbuf := [], rels := [], stale := [], nexts := [], roots := 0, devnum := 0, inbound := [], hbm := [], lpown := [], uq := [], sens := []
    thcfg := 95, ports := [], reachable := [], peerMem := [], peerShut := [], boot := .init Config.svn, faulty := [], bvctl := 0
    supply := { droop := false, holdup := false, off := false, rails := false, stopped := [] }, clock := 0, answers := [], nextId := 1
    seq := 0, free := 0, served := 0, agenda := [], cur := 0, kcur := 0, ev := {} }

end Sys2Proof.Machine
end

