-- ==== Sys2Proof/Machine/Table.lean ====
section
/-! DEFINITION. Sparse tables and the byte memory: reading, writing, the canonical form. -/

namespace Sys2Proof.Machine

open Sys2Proof

/-- The entry a table lists for a key. -/
def tget {α : Type} : AMap α → Nat → Option α
  | [], _ => none
  | (k, v) :: r, n => if k = n then some v else tget r n

/-- A table's value at a key, or its default. -/
def tgetD {α : Type} (m : AMap α) (n : Nat) (d : α) : α := (tget m n).getD d

/-- The table with one entry set; keys stay in rising order. -/
def tset {α : Type} : AMap α → Nat → α → AMap α
  | [], n, v => [(n, v)]
  | (k, x) :: r, n, v => if k = n then (n, v) :: r else if n < k then (n, v) :: (k, x) :: r else (k, x) :: tset r n v

/-- The table without a key. -/
def tdel {α : Type} (m : AMap α) (n : Nat) : AMap α := m.filter fun p => p.1 != n

/-- What a byte of memory that nothing has written reads as. (DESIGN CHOICE, log 3) -/
def unlistedByte : Byte := 0

/-- A byte of memory. -/
def memRead (m : List Host.Cell) (a : Nat) : Byte :=
  match m with
  | [] => unlistedByte
  | (k, b) :: r => if k = a then b else memRead r a

/-- Memory with one byte written, in canonical form: writing what an unlisted address reads as removes the entry. -/
def memWrite (m : List Host.Cell) (a : Nat) (b : Byte) : List Host.Cell :=
  match m with
  | [] => if b = unlistedByte then [] else [(a, b)]
  | (k, x) :: r =>
    if k = a then (if b = unlistedByte then r else (a, b) :: r)
    else if a < k then (if b = unlistedByte then (k, x) :: r else (a, b) :: (k, x) :: r)
    else (k, x) :: memWrite r a b

/-- Addresses strictly rising above a bound, and no entry equal to what an unlisted address reads as. -/
def memSorted : Option Nat → List Host.Cell → Bool
  | _, [] => true
  | lo, (k, b) :: r => (match lo with | none => true | some l => decide (l < k)) && b != unlistedByte && memSorted (some k) r

/-- The canonical form of memory. -/
def Memory.wf (m : List Host.Cell) : Bool := memSorted none m

/-- The `n` bytes from an address up. -/
def memReadN (m : List Host.Cell) (a : Nat) : Nat → List Byte
  | 0 => []
  | n + 1 => memRead m a :: memReadN m (a + 1) n

/-- Memory with bytes written from an address up. -/
def memWriteN (m : List Host.Cell) (a : Nat) : List Byte → List Host.Cell
  | [] => m
  | b :: r => memWriteN (memWrite m a b) (a + 1) r

/-- The cells of `n` bytes of a function from its place `i` up, at an address and up. -/
def fillCells (f : Nat → Byte) : Nat → Nat → Nat → List Host.Cell
  | _, _, 0 => []
  | a, i, n + 1 => if f i = unlistedByte then fillCells f (a + 1) (i + 1) n else (a, f i) :: fillCells f (a + 1) (i + 1) n

/-- Memory with `n` bytes from an address up given by a function. -/
def memFill (m : List Host.Cell) (a n : Nat) (f : Nat → Byte) : List Host.Cell :=
  m.filter (fun c => decide (c.1 < a)) ++ (fillCells f a 0 n ++ m.filter fun c => decide (a + n ≤ c.1))

/-- Memory with `n` bytes from an address up at zero. -/
def memZeroN (m : List Host.Cell) (a n : Nat) : List Host.Cell := m.filter fun c => c.1 < a || a + n ≤ c.1

/-- The natural number of little-endian bytes. -/
def bytesNat : List Byte → Nat
  | [] => 0
  | b :: r => b.toNat + 256 * bytesNat r

/-- The `n` little-endian bytes of a number. -/
def natBytes : Nat → Nat → List Byte
  | 0, _ => []
  | n + 1, v => BitVec.ofNat 8 v :: natBytes n (v / 256)

/-- Numbers from `a` up. -/
def countFrom (a : Nat) : Nat → List Nat
  | 0 => []
  | n + 1 => a :: countFrom (a + 1) n

/-- The 128-byte line of an address (R94, R102). -/
def lineOf (a : Nat) : Nat := a / 128

/-- A signed number as an n-bit pattern. -/
def bitsOfInt (n : Nat) (v : Int) : BitVec n := BitVec.ofInt n v

/-- All lanes from a function. -/
def lanesOf (f : Nat → W32) : Lanes := Vector.ofFn fun i => f i.val
def lanesZero : Lanes := Vector.replicate 32 0
/-- One lane of a register; lane numbers are taken modulo 32. -/
def laneGet (v : Lanes) (l : Nat) : W32 := v.get ⟨l % 32, Nat.mod_lt _ (by decide)⟩
/-- A bit of a lane mask. -/
def maskBit (m : W32) (l : Nat) : Bool := m.getLsbD l
/-- The masked lanes of `new`, the other lanes of `old`. -/
def laneMerge (m : W32) (old new : Lanes) : Lanes := lanesOf fun l => if maskBit m l then laneGet new l else laneGet old l
/-- The lanes set in a mask, ascending. -/
def lanesIn (m : W32) : List Nat := (countFrom 0 32).filter fun l => maskBit m l
/-- The mask of lanes that satisfy a condition. -/
def maskOf (f : Nat → Bool) : W32 :=
  BitVec.ofNat 32 ((countFrom 0 32).foldl (fun acc l => if f l then acc + 2 ^ l else acc) 0)

/-- The first error of a list of checks, in order. -/
def eachE {α β ε : Type} (f : α → Except ε β) : List α → Except ε (List β)
  | [] => .ok []
  | a :: r => match f a with
    | .error e => .error e
    | .ok b => match eachE f r with
      | .error e => .error e
      | .ok bs => .ok (b :: bs)

/-- A state threaded through a list, stopping at the first error. -/
def foldE {α σ ε : Type} (f : σ → α → Except ε σ) (s : σ) : List α → Except ε σ
  | [] => .ok s
  | a :: r => match f s a with
    | .error e => .error e
    | .ok s' => foldE f s' r

end Sys2Proof.Machine
end

