-- ==== Sys2Proof/Machine/Ops.lean ====
section
/-! DEFINITION. The named operations over agents and registers: the warp in turn, registers and the vector window,
outstanding results, and taking and leaving an exception. -/

namespace Sys2Proof.Machine

open Sys2Proof

/-- What one instruction answers. -/
abbrev Out := Host.Outcome State Fault Refusal

/-! ## Agents -/

def State.warp? (s : State) (k : Nat) : Option Warp := tget s.warps k
def State.setWarp (s : State) (k : Nat) (w : Warp) : State := { s with warps := tset s.warps k w }
def State.core (s : State) (n : Nat) : Core := tgetD s.cores n (Core.init n)
def State.setCore (s : State) (n : Nat) (c : Core) : State := { s with cores := tset s.cores n c }
/-- The counters of a context on a core (R176). -/
def tlKey (ctx core : Nat) : Nat := ctx * 128 + core
def State.tl (s : State) (ctx core : Nat) : TlSet := tgetD s.tls (tlKey ctx core) TlSet.init
def State.setTl (s : State) (ctx core : Nat) (t : TlSet) : State := { s with tls := tset s.tls (tlKey ctx core) t }
def State.ctx (s : State) (n : Nat) : Ctx := tgetD s.ctxs n Ctx.init
def State.setCtx (s : State) (n : Nat) (c : Ctx) : State := { s with ctxs := tset s.ctxs n c }
def State.quad (s : State) (n : Nat) : Quad :=
  tgetD s.quads n { tlb := [], deques := [], pushes := [], tqcfg := [], qvf := Qvf.init (Config.volts 28) }
def State.setQuad (s : State) (n : Nat) (q : Quad) : State := { s with quads := tset s.quads n q }
def State.die (s : State) (n : Nat) : Die := tgetD s.dies n (Die.init n)
def State.setDie (s : State) (n : Nat) (d : Die) : State := { s with dies := tset s.dies n d }
def State.kiosk (s : State) (ch : Nat) : Kiosk := tgetD s.kiosks ch Kiosk.init
def State.setKiosk (s : State) (ch : Nat) (k : Kiosk) : State := { s with kiosks := tset s.kiosks ch k }
/-- The device-wide physical number of the core behind a logical core (R43). -/
def State.physOf (s : State) (core : Nat) : Nat := core / 32 * 34 + (s.core core).phys.toNat
def State.plane (s : State) (core : Nat) : LPlane := tgetD s.planes (s.physOf core) LPlane.init
def State.setPlane (s : State) (core : Nat) (p : LPlane) : State := { s with planes := tset s.planes (s.physOf core) p }
def State.hbmOf (s : State) (n : Nat) : Hbm := tgetD s.hbm n Hbm.init
def State.portOf (s : State) (n : Nat) : Port := tgetD s.ports n Port.init
def State.sensOf (s : State) (n : Nat) : Sens := tgetD s.sens n Sens.init
def State.uqOf (s : State) (n : Nat) : Uq := tgetD s.uq n Uq.init
/-- The warp in turn. -/
def State.curWarp (s : State) : Option Warp := s.warp? s.cur

def quadOf (core : Nat) : Nat := core / 4
def dieOf (core : Nat) : Nat := core / 32

def Warp.grid? (s : State) (w : Warp) : Option Grid := tget s.grids w.grid
def Warp.cluster? (s : State) (w : Warp) : Option Cluster := tget s.clusters w.cluster
def Warp.block? (s : State) (w : Warp) : Option Block := tget s.blocks w.block

/-! ## Free values -/

/-- A value the spec leaves open for 32 lanes, and the counter moved on. (DESIGN CHOICE, log 5) -/
def State.freeLanes (s : State) : Lanes × State := (lanesOf fun l => Config.freeLane s.free l, { s with free := s.free + 1 })
def State.freeNat (s : State) : Nat × State := (Config.freeNat s.free, { s with free := s.free + 1 })

/-! ## Registers -/

/-- Scalar register (R216). -/
def Warp.getS (w : Warp) (r : BitVec 6) : Word := w.s.get r.toFin
def Warp.setS (w : Warp) (r : BitVec 6) (v : Word) : Warp := { w with s := w.s.set r.toNat v r.isLt }
/-- Stack position of a register of the window (R274). -/
def Warp.pos (w : Warp) (r : BitVec 6) : Nat := w.winbase + r.toNat
def Warp.vAt (w : Warp) (pos : Nat) : Lanes := tgetD w.v pos lanesZero
def Warp.setVAt (w : Warp) (pos : Nat) (x : Lanes) : Warp := { w with v := tset w.v pos x }
def Warp.getV (w : Warp) (r : BitVec 6) : Lanes := w.vAt (w.pos r)
/-- The lanes of a mask take a new value; the others keep theirs (R283). -/
def Warp.mergeVAt (w : Warp) (mask : W32) (pos : Nat) (x : Lanes) : Warp :=
  w.setVAt pos (laneMerge mask (w.vAt pos) x)

/-- A register write of an arriving result. -/
def Warp.applyWrite (w : Warp) : RegWrite → Warp
  | .s r v => w.setS (BitVec.ofNat 6 r) v
  | .v p m x => w.mergeVAt m p x

def Warp.applyWrites (w : Warp) (l : List RegWrite) : Warp := l.foldl Warp.applyWrite w

/-! ## Outstanding results (R204, R205, R207) -/

/-- Flag f of the twelve. -/
def Warp.flagCount (w : Warp) (f : Nat) : Nat := w.flags.get ⟨f % 12, Nat.mod_lt _ (by decide)⟩
def Warp.setFlag (w : Warp) (f n : Nat) : Warp := { w with flags := w.flags.set (f % 12) n (Nat.mod_lt _ (by decide)) }

/-- Adds to a flag's count, or to the unflagged count. -/
def Warp.owe (w : Warp) (flag : Option Nat) (n : Nat) : Warp :=
  match flag with
  | some f => w.setFlag f (w.flagCount f + n)
  | none => { w with unfl := w.unfl + n }

/-- Subtracts one arriving result from its count. -/
def Warp.paid (w : Warp) (flag : Option Nat) : Warp :=
  match flag with
  | some f => w.setFlag f (w.flagCount f - 1)
  | none => { w with unfl := w.unfl - 1 }

/-- Whether a flag, or the unflagged count, is clear: a count that still includes an instruction of the clause that has not
issued is pending too (R205). -/
def Warp.flagClear (w : Warp) (f : Nat) : Bool := w.flagCount f == 0
def Warp.unflClear (w : Warp) : Bool := w.unfl == 0

/-- An A-class instruction issues: its result is outstanding under flag A (R204, R205). One that its header did not
count, since the warp was stopped in between, counts now (R207). -/
def Warp.oweA (w : Warp) (tok : Nat) (ready : Bool) (l : List RegWrite) : Warp :=
  let w := if w.clause.owedA = 0 then w.owe w.clause.fa 1 else w
  { w with clause := { w.clause with owedA := w.clause.owedA - 1 }
           pend := w.pend ++ [{ tok := tok, flag := w.clause.fa, ready := ready, writes := l }] }

/-- A B-class instruction issues: its result is outstanding under flag B. -/
def Warp.oweB (w : Warp) (tok : Nat) (ready : Bool) (l : List RegWrite) : Warp :=
  let w := if w.clause.owedB = 0 then w.owe w.clause.fb 1 else w
  { w with clause := { w.clause with owedB := w.clause.owedB - 1 }
           pend := w.pend ++ [{ tok := tok, flag := w.clause.fb, ready := ready, writes := l }] }

/-- A B-class instruction whose result counts as arrived at once (R283). -/
def Warp.noResultB (w : Warp) : Warp :=
  if w.clause.owedB = 0 then w
  else { w.paid w.clause.fb with clause := { w.clause with owedB := w.clause.owedB - 1 } }

/-- An A-class instruction whose result counts as arrived at once (R305). -/
def Warp.noResultA (w : Warp) : Warp :=
  if w.clause.owedA = 0 then w
  else { w.paid w.clause.fa with clause := { w.clause with owedA := w.clause.owedA - 1 } }

/-- The value of an outstanding result becomes known. -/
def Warp.fill (w : Warp) (tok : Nat) (l : List RegWrite) : Warp :=
  { w with pend := w.pend.map fun p => if p.tok = tok then { p with ready := true, writes := p.writes ++ l } else p }

/-- A fixed-class result that a kept release of the warp will bring: no flag counts it, and the register is interlocked (R158). -/
def Warp.oweFixed (w : Warp) (tok d : Nat) : Warp :=
  { w with pend := w.pend ++ [{ tok := tok, flag := none, ready := false, writes := [], fixed := some d }] }

/-- A result is outstanding no more. -/
def Warp.unowe (w : Warp) (p : Pend) : Warp := if p.fixed.isSome then w else w.paid p.flag

/-- The value of an outstanding result becomes known and is delivered in the same step, so that a counter advanced by that
step finds it there (R195). -/
def Warp.settle (w : Warp) (tok : Nat) (l : List RegWrite) : Warp :=
  match w.pend.find? fun p => p.tok = tok with
  | some p => { (w.unowe p).applyWrites (p.writes ++ l) with pend := w.pend.filter fun p => p.tok != tok }
  | none => w

/-- A result that no one will deliver any more is forgotten (R462). -/
def Warp.forget (w : Warp) (tok : Nat) : Warp :=
  match w.pend.find? fun p => p.tok = tok with
  | some p => { w.unowe p with pend := w.pend.filter fun p => p.tok != tok }
  | none => w

/-- One ready result arrives, whole: a read before the covering wait sees the value before it or the result, where R206 lets each
lane and each register of a pair be seen so on its own. (DESIGN CHOICE, log 76) -/
def Warp.arrive (w : Warp) (p : Pend) (rest : List Pend) : Warp :=
  { (w.paid p.flag).applyWrites p.writes with pend := rest }

/-- Every ready result arrives. -/
def Warp.deliver (w : Warp) : Warp :=
  { (w.pend.filter fun p => p.ready).foldl (fun w p => (w.paid p.flag).applyWrites p.writes) w with
      pend := w.pend.filter fun p => !p.ready }

def Warp.allReady (w : Warp) : Bool := w.pend.all fun p => p.ready

/-- HoldResults: every outstanding result arrives, and every flag and the unflagged count become zero (R207). -/
def Warp.holdResults (w : Warp) : Warp :=
  let w := w.pend.foldl (fun w p => w.applyWrites p.writes) w
  { w with pend := [], flags := Vector.replicate 12 0, unfl := 0
           clause := { w.clause with owedA := 0, owedB := 0 } }

/-- A fresh token. -/
def State.token (s : State) : Nat × State := (s.nextId, { s with nextId := s.nextId + 1 })

/-! ## Lines, their copies and their home -/

def bitN (v k : Nat) : Bool := decide (v / 2 ^ k % 2 = 1)
def fieldN (v lo n : Nat) : Nat := v / 2 ^ lo % 2 ^ n

/-- A line's copy in a cache. -/
def copyGet (l : Copies) (line : Nat) : Option (List Byte) := (l.find? fun p => p.1 = line).map Prod.snd
/-- A line's copy put in place of any older one. -/
def copyPut (l : Copies) (line : Nat) (b : List Byte) : Copies := (line, b) :: l.filter fun p => p.1 != line
/-- A line as it stands at its home. -/
def State.lineBytes (s : State) (line : Nat) : List Byte := memReadN s.mem (line * 128) 128
/-- Bytes of a line's copy. -/
def lineSlice (b : List Byte) (pa n : Nat) : List Byte := (b.drop (pa % 128)).take n
/-- A copy with bytes written over it. -/
def lineWrite (b : List Byte) (pa : Nat) (d : List Byte) : List Byte :=
  b.take (pa % 128) ++ d ++ b.drop (pa % 128 + d.length)

/-- A copy put in a cache of `n` lines: past its size the line filled longest ago is replaced. (DESIGN CHOICE, log 60) -/
def copyFill (n : Nat) (l : Copies) (line : Nat) (b : List Byte) : Copies := (copyPut l line b).take n

/-- The home slice of a line, over the device (R102). -/
def homeSlice (pa : Nat) : Nat :=
  (fieldN pa 7 2 ^^^ fieldN pa 15 2) * 16 + (fieldN pa 9 4 ^^^ fieldN pa 17 4)

/-- A dirty line of L2 whose data an uncorrectable error has destroyed (R104). -/
def State.lost (s : State) (line : Nat) : Bool := s.poison.contains line && (copyGet s.l2dirty line).isSome

/-- Whether memory's own copy of a line behind L2 holds an uncorrectable error: the mark of a lost dirty line is L2's. -/
def State.dramBad (s : State) (line : Nat) : Bool := s.poison.contains line && !s.lost line

/-- The dirty lines of a slice once one more joins them: with 4 MiB of them, the one that became dirty longest ago is
written to memory (R102). (DESIGN CHOICE, log 60) -/
def State.makeSlot (s : State) (slice : Nat) : Copies :=
  let mine := s.l2dirty.filter fun p => homeSlice (p.1 * 128) == slice
  if mine.length < 32768 then s.l2dirty
  else match mine.reverse.find? fun p => !s.lost p.1 with
    | some p => s.l2dirty.filter fun q => q.1 != p.1
    | none => s.l2dirty

/-- A line becomes dirty in its home slice: memory's own bytes are kept behind it (R102, R131). -/
def State.dirtyLine (s : State) (line : Nat) : State :=
  if (copyGet s.l2dirty line).isSome then s
  else { s with l2dirty := (line, s.lineBytes line) :: s.makeSlot (homeSlice (line * 128)) }

/-- Bytes in memory behind L2: a line dirty in L2 shows its old ones. -/
def State.dramRead (s : State) (pa n : Nat) : List Byte :=
  match copyGet s.l2dirty (lineOf pa) with
  | some b => lineSlice b pa n
  | none => memReadN s.mem pa n

/-- Bytes written in memory behind L2, within one line. -/
def State.dramWrite (s : State) (pa : Nat) (b : List Byte) : State :=
  match copyGet s.l2dirty (lineOf pa) with
  | some old => { s with l2dirty := copyPut s.l2dirty (lineOf pa) (lineWrite old pa b) }
  | none => { s with mem := memWriteN s.mem pa b }

/-- Bytes within one line written at their home: in L2, whose line becomes dirty, in the HBM5 channel for a device-uncached
place (R146), or in a core. -/
def State.putHome (s : State) (kind : LocKind) (pa : Nat) (b : List Byte) : State :=
  match kind with
  | .uncached => s.dramWrite pa b
  | .cached | .cap =>
    let s := if b ≠ [] then s.dirtyLine (lineOf pa) else s
    { s with mem := memWriteN s.mem pa b }
  | _ => { s with mem := memWriteN s.mem pa b }

/-! ## Fault causes (R448) -/

namespace Cause
abbrev illegalInstruction : BitVec 8 := 0x01
abbrev illegalOperand : BitVec 8 := 0x02
abbrev illegalTarget : BitVec 8 := 0x03
abbrev softwareTrap : BitVec 8 := 0x04
abbrev breakpoint : BitVec 8 := 0x05
abbrev preEmpt : BitVec 8 := 0x06
abbrev canonical : BitVec 8 := 0x10
abbrev privilege : BitVec 8 := 0x11
abbrev windowStraddle : BitVec 8 := 0x12
abbrev windowRange : BitVec 8 := 0x13
abbrev windowPermission : BitVec 8 := 0x14
abbrev remoteSlot : BitVec 8 := 0x15
abbrev alignment : BitVec 8 := 0x16
abbrev physicalHole : BitVec 8 := 0x17
abbrev registerAccess : BitVec 8 := 0x18
abbrev scope : BitVec 8 := 0x19
abbrev orderedAddress : BitVec 8 := 0x1A
abbrev notPresent : BitVec 8 := 0x20
abbrev reservedBit : BitVec 8 := 0x21
abbrev tableAddress : BitVec 8 := 0x22
abbrev contiguity : BitVec 8 := 0x23
abbrev typeMismatch : BitVec 8 := 0x24
abbrev permission : BitVec 8 := 0x25
abbrev uncorrectableData : BitVec 8 := 0x28
abbrev peerAccess : BitVec 8 := 0x29
abbrev copyOverlap : BitVec 8 := 0x30
abbrev weightStoreBusy : BitVec 8 := 0x31
abbrev kioskRange : BitVec 8 := 0x32
abbrev spillExhausted : BitVec 8 := 0x33
abbrev operationDropped : BitVec 8 := 0x34
abbrev shape : BitVec 8 := 0x38
abbrev operandType : BitVec 8 := 0x39
abbrev nodeIndex : BitVec 8 := 0x40
abbrev nodeHandle : BitVec 8 := 0x41
abbrev pergolaFull : BitVec 8 := 0x42
abbrev pergolaSpace : BitVec 8 := 0x43
abbrev aliasGuard : BitVec 8 := 0x44
abbrev planeWear : BitVec 8 := 0x48
abbrev planeAccess : BitVec 8 := 0x49
abbrev barrierCount : BitVec 8 := 0x50
abbrev launchDepth : BitVec 8 := 0x51
abbrev launchLeader : BitVec 8 := 0x52
abbrev queueAccess : BitVec 8 := 0x53
abbrev cancelFull : BitVec 8 := 0x54
abbrev launchRecord : BitVec 8 := 0x55
end Cause

/-- The illegal-operand trap. -/
def Trap.operand : Trap := { cause := Cause.illegalOperand }
/-- A fault of an address. -/
def Trap.addr (cause : BitVec 8) (lane : Nat) (va : Word) : Trap :=
  { cause := cause, index := BitVec.ofNat 16 lane, faddr := va }

/-- fcause (R447). -/
def fcauseOf (t : Trap) : Word :=
  0#16 ++ t.peer ++ bit1 t.late ++ bit1 t.elem ++ 0#4 ++ t.index ++ t.detail ++ 0#8 ++ t.cause

/-- WriteRecord: all six registers, unused fields zero (R446). -/
def Warp.writeRecord (w : Warp) (t : Trap) (pc : Word) : Warp :=
  { w with fcause := fcauseOf t, faddr := t.faddr, fpc := pc, fnode := t.fnode, fnpc := t.fnpc, fnreg := t.fnreg }

/-- Swap of s56 to s63 with the shadow bank (R450). -/
def Warp.swapShadow (w : Warp) : Warp :=
  { w with s := Vector.ofFn fun i => if h : 56 ≤ i.val then w.shadow.get ⟨i.val - 56, by omega⟩ else w.s.get i
           shadow := Vector.ofFn fun i => w.s.get ⟨i.val + 56, by omega⟩ }

def sumNat (l : List Nat) : Nat := l.foldl (· + ·) 0

/-! ## Stopping a context -/

/-- The classes that hold work of a context (R457). -/
def State.classesOf (s : State) (c : Nat) : BitVec 8 :=
  let b (x : Bool) (k : Nat) : Nat := if x then 2 ^ k else 0
  let live := s.warps.any fun p => p.2.ctx = c && (p.2.status = .live || p.2.status = .phaseWait || p.2.status = .halted)
  BitVec.ofNat 8
    (b live 0 + b (s.cores.any fun p => p.2.cq.any fun e => e.ctx = c) 1
      + b (s.cores.any fun p => p.2.ops.any fun o => o.ctx = c && !o.gather) 2
      + b (s.cores.any fun p => p.2.ops.any fun o => o.ctx = c && o.gather) 3
      + b (s.warps.any fun p => p.2.ctx = c && (match p.2.wait with | .eval .. => true | _ => false)) 4
      + b (s.cores.any fun p => p.2.pq.any fun e => e.ctx = c) 5
      + b (s.kiosks.any fun p =>
          p.2.queue.any (fun r => r.ctx = c) || p.2.saved.any (fun r => r.run.ctx = c) || (match p.2.run with | some r => r.run.ctx = c | none => false)) 6
      + b (s.colls.any fun x => x.ctx = c) 7)

/-- Stopping of a context begins: ACKS takes the classes that hold its work; with none, DONE and RES change at once
(R457). -/
def State.requestStop (s : State) (c : Nat) : State :=
  let x := s.ctx c
  let acks := s.classesOf c
  if x.done || x.preq then s
  else if acks = 0 then s.setCtx c { x with acks := 0, done := true, res := false, preq := false }
  else s.setCtx c { x with acks := acks, preq := true }

/-- A halted context is stopped as by a pre-emption and sets HALT (R450). (DEDUCED, log 54) -/
def State.haltCtx (s : State) (c : Nat) : State := (s.setCtx c { s.ctx c with halt := true }).requestStop c

/-! ## Branch targets (R203) -/

/-- Whether a target that could be fetched is a clause header: aligned, and marked. -/
def headerTarget (va : Word) (w : Option Word) : Bool :=
  va.toNat % 8 == 0 && (match w with | some x => isHeader x | none => true)

/-! ## Belvedere trigger (R485, R487) -/

def State.frozen (s : State) : Bool := s.bvctl.getLsbD 3

/-- A fault whose CAUSE equals TRIG freezes the dies when ARM = 1. -/
def State.trigger (s : State) (cause : BitVec 8) : State :=
  if s.bvctl.getLsbD 0 && s.bvctl.extractLsb' 8 8 == cause && !s.frozen then { s with bvctl := s.bvctl ||| 8 } else s

/-! ## Taking an exception and returning from it (R450, R454) -/

/-- Where a trap returns: regpc after a fault, the next header after trap, brk and pre-empt. -/
inductive TrapKind where
  | fault
  | resume (next : Word)
  deriving DecidableEq, Repr

/-- Whether the instruction in turn is a clause header, which is no retired instruction. -/
def Warp.atHeader (w : Warp) : Bool := w.clause.first && w.clause.left == 0

/-- The instruction in turn does not retire: a deterministic quantum does not count it (R171). -/
def Warp.unretire (w : Warp) : Warp := if w.atHeader then w else { w with retired := w.retired - 1, qend := false }

/-- The warp stands before the instruction in turn again and waits. -/
def Warp.rewind (w : Warp) (wt : Wait) : Warp :=
  { w with pc := w.ipc, wait := wt, clause :=
      if w.atHeader then w.clause
      else { w.clause with left := w.clause.left + (w.pc - w.ipc).toNat / 8, first := w.ipc == w.clause.hdr + 8 } }

/-- The instruction in turn has not happened: the warp waits and issues it again. -/
def Warp.redo (w : Warp) (wt : Wait) : Warp := w.unretire.rewind wt

/-- The registers of TrapEntry, after every outstanding result has arrived. -/
def Warp.enter (w : Warp) (t : Trap) (k : TrapKind) (tvec : Word) : Warp :=
  let w := w.holdResults.writeRecord t w.ipc
  let w := { w with tem := w.em
                    tpc := (match k with | .fault => w.regpc | .resume n => n)
                    tstat := (if w.regctr = 0 then 0 else 1) ||| (if t.cause = Cause.preEmpt then 2 else 0) }
  { w.swapShadow with sys := true, em := w.lm, pc := tvec, clause := .init, wait := .run, split := none }

/-- TrapEntry: the handler is entered, or the context is halted when it has none, when its vector is no clause header,
or when the warp is already in system mode; a halted warp stands at the instruction. A result still owed by an engine is
waited for first, and the instruction then runs again. `tvw` is the word at tvec, where it could be fetched. -/
def State.trapEntry (s : State) (k : Nat) (w : Warp) (t : Trap) (kind : TrapKind) (tvw : Option Word) : State :=
  if ¬ w.allReady then s.setWarp k (match kind with | .fault => w.rewind .results | .resume _ => w.redo .results)
  else
    let s := s.trigger t.cause
    let tvec := (s.ctx w.ctx).tvec
    if w.sys || tvec == 0 || !headerTarget tvec tvw then
      (s.setWarp k { ((w.holdResults.writeRecord t w.ipc).rewind .run) with status := .halted }).haltCtx w.ctx
    else s.setWarp k (w.enter t kind tvec)

/-- The return of tret once its target is accepted (R454). -/
def Warp.leave (w : Warp) (target : Word) : Warp :=
  { w.swapShadow with em := w.tem &&& w.lm, sys := false, pc := target, clause := .init }

/-! ## Numbering (R177) -/

/-- The completed value raised over numbers that completed early. -/
def raiseDone : Nat → Word → List Nat → Word
  | 0, d, _ => d
  | n + 1, d, l => if l.contains (d.toNat + 1) then raiseDone n (d + 1) l else d

/-- The completed value of a counter. -/
def TlSet.doneOf (t : TlSet) (k : Nat) : Word := t.done.get ⟨k % 16, Nat.mod_lt _ (by decide)⟩
def TlSet.issuedOf (t : TlSet) (k : Nat) : Word := t.issued.get ⟨k % 10, Nat.mod_lt _ (by decide)⟩
def TlSet.setDone (t : TlSet) (k : Nat) (v : Word) : TlSet :=
  { t with done := t.done.set (k % 16) v (Nat.mod_lt _ (by decide)) }

/-- The next number of an engine counter. -/
def State.number (s : State) (ctx core k : Nat) : Nat × State :=
  let t := s.tl ctx core
  let n := t.issuedOf k + 1
  (n.toNat, s.setTl ctx core { t with issued := t.issued.set (k % 10) n (Nat.mod_lt _ (by decide)) })

/-- Operation `n` of counter `k` completes: the completed value is the greatest n with 1 to n all complete. -/
def TlSet.complete (t : TlSet) (k n : Nat) : TlSet :=
  let early := (k, n) :: t.early
  let mine := (early.filter fun p => p.1 = k).map Prod.snd
  let d := raiseDone early.length (t.doneOf k) mine
  { t.setDone k d with early := early.filter fun p => p.1 != k || decide (d.toNat < p.2) }

def State.complete (s : State) (ctx core k n : Nat) : State := s.setTl ctx core ((s.tl ctx core).complete k n)

/-- A software counter raised (R180). -/
def State.raiseTl (s : State) (ctx core k : Nat) (v : Word) : State :=
  let t := s.tl ctx core
  if t.doneOf k < v then s.setTl ctx core (t.setDone k v) else s

/-- Whether a data error is the one that FIRSTTL and FIRSTOP record: no other since ERR was zero, or one of a higher counter in
the same cycle (R183). -/
def TlSet.recordsError (t : TlSet) (now : Word) (k : Nat) : Bool :=
  t.tlerr.extractLsb' 0 16 == 0 || (t.errAt == now && decide (k < (t.tlerr.extractLsb' 36 4).toNat))

/-- A data error of a completing operation (R183). -/
def TlSet.dataError (t : TlSet) (now : Word) (k n : Nat) : TlSet :=
  let err := t.tlerr.extractLsb' 0 16 ||| BitVec.ofNat 16 (2 ^ k)
  if t.recordsError now k then
    { t with tlerr := BitVec.ofNat 24 n ++ BitVec.ofNat 4 k ++ 0#20 ++ err, errAt := now }
  else { t with tlerr := t.tlerr.extractLsb' 16 48 ++ err }

def State.dataError (s : State) (ctx core k n : Nat) : State := s.setTl ctx core ((s.tl ctx core).dataError s.clock k n)

end Sys2Proof.Machine
end

