-- ==== Sys2Proof/Machine/Translate.lean ====
section
/-! DEFINITION. Address classes and windows (R10 to R29), the physical map (R30 to R37), the table walk and its
caches (R48 to R72), and the resolution of an access to the place of its bytes (R19, R20, R64). -/

namespace Sys2Proof.Machine

open Sys2Proof

/-! ## Virtual addresses -/

/-- Address classes of R18. -/
inductive VClass where
  | sysHalf | user | scratchWin | accWin | weightWin | constWin
  deriving DecidableEq, Repr

/-- Bits [63:57] all equal bit [56] (R10). -/
def canonical (va : Word) : Bool := decide (va.toNat < 2 ^ 56) || decide (2 ^ 64 - 2 ^ 56 ≤ va.toNat)

/-- The class of a canonical address (R16 to R18). -/
def vclass (va : Word) : VClass :=
  let a := va.toNat
  if 2 ^ 56 ≤ a then .sysHalf
  else if a < 0x00FFFFFC00000000 then .user
  else if a < 0x00FFFFFD00000000 then .scratchWin
  else if a < 0x00FFFFFE00000000 then .accWin
  else if a < 0x00FFFFFF00000000 then .weightWin
  else .constWin

/-- Offset within a window. -/
def winOff (va : Word) : Nat := va.toNat % 2 ^ 32

/-- What an access needs of a leaf (R57). -/
inductive Need where
  | load | store | atomic | fetch
  deriving DecidableEq, Repr

def Need.writes : Need → Bool
  | .store | .atomic => true
  | _ => false
def Need.reads : Need → Bool
  | .load | .atomic => true
  | _ => false

/-- The agent an address is resolved for: a warp's context, core, mode, cluster and block; `operand` where it is an operand of
the cube array or of a Pergola node, whose leaf type is judged in place of the place behind it (R342, R367). -/
structure Who where
  ctx : Nat
  core : Nat
  sys : Bool
  cluster : Nat
  block : Nat
  grid : Nat
  operand : Bool := false
  deriving DecidableEq, Repr

def Warp.who (w : Warp) : Who :=
  { ctx := w.ctx, core := w.core, sys := w.sys, cluster := w.cluster, block := w.block, grid := w.grid }

/-! ## The physical map -/

def hbmTop : Nat := 0x00C000000000
def inHbm (pa : Nat) : Bool := decide (pa < hbmTop)
def capBase : Nat := 0x020000000000
def wsBase : Nat := 0x040000000000
def spBase : Nat := 0x050000000000
def acBase : Nat := 0x050100000000
def regBase : Nat := 0x060000000000
/-- Alias bases of R34. -/
def wsAlias (die : Nat) : Nat := wsBase + die * 0x20000000
def spAlias (core : Nat) : Nat := spBase + core * 0x100000
def acAlias (core : Nat) : Nat := acBase + core * 0x400000

/-- Regions of R30. -/
inductive Region where
  | hbm | cap | ws | sp | ac | regs | peer | none
  deriving DecidableEq, Repr

def regionOf (pa : Nat) : Region :=
  if pa < hbmTop then .hbm
  else if capBase ≤ pa ∧ pa < wsBase then .cap
  else if wsBase ≤ pa ∧ pa < wsBase + 0x80000000 then .ws
  else if spBase ≤ pa ∧ pa < spBase + 0x8000000 then .sp
  else if acBase ≤ pa ∧ pa < acBase + 0x20000000 then .ac
  else if regBase ≤ pa ∧ pa < regBase + 0x100000000 then .regs
  else if 2 ^ 51 ≤ pa ∧ pa < 2 ^ 52 then .peer
  else .none

/-- Whether a memory type may map a region (R30, R31). -/
def typeOk (ty : BitVec 2) (r : Region) : Bool :=
  match r with
  | .hbm => ty == 0 || ty == 3
  | .cap => ty == 1
  | .ws | .sp | .ac | .regs => ty == 3
  | .peer => ty == 2
  | .none => false

/-- Whether a byte lies in a region marked system mode only (R30, R36). -/
def sysOnly (pa : Nat) : Bool :=
  match regionOf pa with
  | .ws | .sp | .ac => true
  | .regs => decide (pa < regBase + 0x80000000) || decide (regBase + 0x80000000 + 64 * 0x1000 ≤ pa)
  | _ => false

/-- Where a byte of a region lives (R146), for a leaf of the given type. -/
def kindOf (ty : BitVec 2) (pa : Nat) : LocKind :=
  match regionOf pa with
  | .hbm => if ty == 0 then .cached else .uncached
  | .cap => .cap
  | .ws => .weight
  | .sp => .scratch
  | .ac => .acc
  | .regs => .reg
  | _ => .peer

/-! ## Device registers (R36, R37) -/

/-- The device registers of the register maps. -/
inductive RegId where
  | devnum | coreMap (n : Nat) | rootu (c : Nat) | roots | inbound (e : Nat) | hbmst (k : Nat) | hbmreq (k : Nat)
  | kstat (c : Nat) | lpown (n : Nat) | tqcfg (i : Nat) | ctxslot (n j : Nat) | ctxctl (c : Nat) | ctxsaveb (c : Nat)
  | uq0 (q : Nat) | uq8 (q : Nat) | qvf (u : Nat) | sens (n : Nat) | thcfg | peerst (p : Nat) | bootst | bvctl
  | lpline (n a p : Nat) | wsref (d : Nat) | parkcfg (d : Nat) | doorbell (q : Nat) | doorbellPad (q : Nat)
  deriving DecidableEq, Repr

/-- A register array: an element when the offset falls on one. -/
def arr (o base stride count width : Nat) (f : Nat → RegId) : Option (RegId × Nat × Nat) :=
  if base ≤ o ∧ o < base + stride * count ∧ (o - base) % stride < width then
    some (f ((o - base) / stride), (o - base) % stride, width)
  else none

/-- The first of several answers. -/
def firstSome {α : Type} : List (Option α) → Option α
  | [] => none
  | some a :: _ => some a
  | none :: r => firstSome r

/-- The register at a region offset, with the offset within it and its width in bytes. -/
def regAt (o : Nat) : Option (RegId × Nat × Nat) :=
  firstSome
    [ arr o 0x40000000 8 1 4 (fun _ => .devnum), arr o 0x40010000 8 256 8 .rootu, arr o 0x40010800 8 1 8 (fun _ => .roots),
      arr o 0x40020000 8 128 4 .coreMap, arr o 0x40030000 8 512 8 .inbound, arr o 0x40040000 8 8 8 .hbmst,
      arr o 0x40040100 8 8 4 .hbmreq, arr o 0x40050000 8 32 8 .kstat, arr o 0x40060000 8 128 8 .lpown,
      arr o 0x40070000 8 512 8 .tqcfg, arr o 0x40080000 8 1024 8 (fun i => .ctxslot (i / 8) (i % 8)),
      arr o 0x40090000 8 256 8 .ctxctl, arr o 0x40090800 8 256 8 .ctxsaveb, arr o 0x400A0000 16 64 8 .uq0,
      arr o 0x400A0008 16 64 8 .uq8, arr o 0x400B0000 8 32 8 .qvf, arr o 0x400C0000 8 128 8 .sens,
      arr o 0x400D0000 8 1 4 (fun _ => .thcfg), arr o 0x400E0000 8 16 8 .peerst, arr o 0x400F0000 8 1 8 (fun _ => .bootst),
      arr o 0x40100000 8 1 4 (fun _ => .bvctl),
      arr o 0x41000000 8 0x40000 8 (fun i => .lpline (i / 2048) (i / 1024 % 2) (i % 1024)),
      arr o 0x10000 0x10000000 4 4 .wsref, arr o 0x20000 0x10000000 4 8 .parkcfg,
      arr o 0x80000000 0x1000 64 4 .doorbell, arr o 0x80000000 0x1000 64 0x1000 .doorbellPad ]

/-- Whether an access may reach a register address: physical-hole where none is, register-access for a wrong size or
an atomic (R35 to R37). (DESIGN CHOICE, log 64) -/
def regCheck (pa size : Nat) (need : Need) : Except (BitVec 8) Unit :=
  match regAt (pa - regBase) with
  | none => .error Cause.physicalHole
  | some (.doorbellPad _, _, _) => if need = .atomic then .error Cause.registerAccess else .ok ()
  | some (_, off, width) =>
    if need = .atomic ∨ off ≠ 0 ∨ width ≠ size then .error Cause.registerAccess else .ok ()

/-- The unpopulated parts of populated regions (R34, R35), and the accesses that registers and the weight store refuse. The
spec names no cause for a store through the weight store's alias that is no kernel-boundary copy: window-permission, as
through its window (R27). (DESIGN CHOICE, log 66) -/
def placeCheck (pa size : Nat) (need : Need) : Except (BitVec 8) Unit :=
  match regionOf pa with
  | .sp => if 0xC0000 ≤ (pa - spBase) % 0x100000 then .error Cause.physicalHole else .ok ()
  | .ac => if 0x300000 ≤ (pa - acBase) % 0x400000 then .error Cause.physicalHole else .ok ()
  | .regs => regCheck pa size need
  | .ws => if need.writes then .error Cause.windowPermission else .ok ()
  | _ => .ok ()

/-! ## The walk (R48 to R62) -/

/-- A fault of a walk or a leaf: cause and level (R63). -/
abbrev WFault := BitVec 8 × Nat

def memWord (s : State) (a : Nat) : Nat := bytesNat (memReadN s.mem a 8)
/-- A word written at its home slice. -/
def State.putWord (s : State) (a v : Nat) : State := s.putHome .cached a (natBytes 8 v)

/-- The index of an address at a level (R50), and the number of low bits below a leaf there. -/
def walkShift (level : Nat) : Nat := 48 - 9 * level
def walkIdx (va level : Nat) : Nat := fieldN va (walkShift level) 9

/-- The reserved bits of R52 and R54 at a level. -/
def entryReserved (e level : Nat) : Bool :=
  let t := bitN e 1
  bitN e 63 || fieldN e 52 7 != 0 || bitN e 11
  || (decide (level < 4) && bitN e 8)
  || (decide (level < 2) && !t) || (decide (level = 4) && t)
  || (decide (level = 2) && !t && fieldN e 12 18 != 0)
  || (decide (level = 3) && !t && fieldN e 12 9 != 0)

/-- Physical address field of an entry. -/
def entryPA (e : Nat) : Nat := fieldN e 12 40 * 2 ^ 12

/-- The permission and type bits that a group's members share (R55). -/
def leafBits (e : Nat) : Nat := fieldN e 2 4 + 16 * fieldN e 9 2

/-- Whether the contiguous group around a level-4 entry is well formed: `base` is its line's address (R55). -/
def groupOk (s : State) (base e : Nat) : Bool :=
  (countFrom 0 16).all fun i =>
    let x := memWord s (base + 8 * i)
    bitN x 0 && bitN x 8 && leafBits x == leafBits e && fieldN x 16 36 == fieldN e 16 36 && fieldN x 12 4 == i

/-- Sets a bit of entries: one, or the sixteen of a group (R55, R60). -/
def setEntryBit (s : State) (addr : Nat) (group : Bool) (bit : Nat) : State :=
  if group then
    (countFrom 0 16).foldl (fun s i =>
      let a := addr / 128 * 128 + 8 * i
      if bitN (memWord s a) bit then s else s.putWord a (memWord s a + 2 ^ bit)) s
  else if bitN (memWord s addr) bit then s else s.putWord addr (memWord s addr + 2 ^ bit)

/-- The tag of a cached entry: none in the system half (R59, R69). -/
def walkTag (sysHalf : Bool) (ctx : Nat) : Option Nat := if sysHalf then none else some ctx

/-- The values of a leaf's entries as the walker leaves them, with A set: one, or a group's sixteen (R55, R60). -/
def leafVals (s : State) (group : Bool) (e addr : Nat) : List Nat :=
  let a (v : Nat) : Nat := if bitN v 6 then v else v + 2 ^ 6
  if group then (countFrom 0 16).map fun i => a (memWord s (addr / 128 * 128 + 8 * i)) else [a e]

/-- The leaf found at a level, as a TLB holds it. -/
def leafTlb (s : State) (sysHalf : Bool) (ctx va level e addr : Nat) : Tlb :=
  let group := decide (level = 4) && bitN e 8
  let size := if group then 2 ^ 16 else 2 ^ walkShift level
  let pbase := if group then entryPA e / 2 ^ 16 * 2 ^ 16 else entryPA e
  let vals := leafVals s group e addr
  { tag := if bitN e 5 then none else walkTag sysHalf ctx, sysHalf := sysHalf, vbase := va / size * size, size := size
    pbase := pbase, ty := BitVec.ofNat 2 (fieldN e 9 2), r := bitN e 2, w := bitN e 3, x := bitN e 4
    dirty := vals.all fun v => bitN v 7, level := level, entry := addr, group := group, vals := vals }

/-- Checks 2 to 5 of R62 from a table down; `n` levels are left. Table entries found join `wc`. An uncorrectable error in a table
line that the walk reads is reported to the access (R104), before the checks of that level and with its number in DETAIL.
(DESIGN CHOICE, log 87) -/
def walkFrom (s : State) (sysHalf : Bool) (ctx va : Nat) : Nat → Nat → Nat → List Wce → Except WFault (Tlb × List Wce)
  | 0, level, _, _ => .error (Cause.notPresent, level)
  | n + 1, level, table, wc =>
    let addr := table + 8 * walkIdx va level
    let e := memWord s addr
    if s.poison.contains (lineOf addr) then .error (Cause.uncorrectableData, level)
    else if !bitN e 0 then .error (Cause.notPresent, level)
    else if entryReserved e level then .error (Cause.reservedBit, level)
    else if level < 2 ∨ (level < 4 ∧ bitN e 1) then
      if !inHbm (entryPA e) then .error (Cause.tableAddress, level)
      else walkFrom s sysHalf ctx va n (level + 1) (entryPA e)
        ({ tag := walkTag sysHalf ctx, level := level, key := va / 2 ^ walkShift level % 2 ^ 40, table := entryPA e } :: wc)
    else if level = 4 ∧ bitN e 8 ∧ !groupOk s (addr / 128 * 128) e then .error (Cause.contiguity, 4)
    else .ok (leafTlb s sysHalf ctx va level e addr, wc)

/-- The deepest cached table entry on an address's path (R69). -/
def wcFind (l : List Wce) (tag : Option Nat) (va : Nat) : Nat → Option Wce
  | 0 => none
  | n + 1 =>
    match l.find? fun c => c.tag = tag && c.level = n && c.key = va / 2 ^ walkShift n % 2 ^ 40 with
    | some c => some c
    | none => wcFind l tag va n

/-- The root of an address's walk (R48). -/
def State.rootOf (s : State) (ctx va : Nat) : Word := if 2 ^ 56 ≤ va then s.roots else (s.ctx ctx).rootu

/-- The page a walk translates: its context, none of its own in the system half, and its page (R59, R70). -/
def walkPage (ctx va : Nat) : Option Nat × Nat := (walkTag (decide (2 ^ 56 ≤ va)) ctx, va / 4096)
def Walk.page (x : Walk) : Option Nat × Nat := walkPage x.ctx x.va.toNat

/-- The outstanding walk of a die that a miss attaches to (R70). -/
def Die.walkOf (d : Die) (ctx va : Nat) : Option Walk := d.walks.find? fun x => x.page == walkPage ctx va

/-- The root under which a miss is translated now: that of a started walk it attaches to, else the current one (R49,
R70). -/
def State.walkRoot (s : State) (die ctx va : Nat) : Word :=
  match (s.die die).walkOf ctx va with
  | some x => if x.started then x.root else s.rootOf ctx va
  | none => s.rootOf ctx va

/-- The end of a walk: its leaf gets A, its table entries join the walk cache. -/
def walkEnd (s : State) (die : Nat) (r : Tlb × List Wce) : State × Tlb :=
  let d := s.die die
  (setEntryBit (s.setDie die { d with wcache := (r.2 ++ d.wcache).take 1024 }) r.1.entry r.1.group 6, r.1)

/-- A whole walk for a die (R62, R69): the leaf with A set, the walk cache filled. (DESIGN CHOICE, log 62) -/
def walk (s : State) (die : Nat) (ctx : Nat) (va : Nat) : Except WFault (State × Tlb) :=
  let sysHalf := decide (2 ^ 56 ≤ va)
  let root := s.walkRoot die ctx va
  if !root.getLsbD 0 then .error (Cause.notPresent, 5)
  else
    let d := s.die die
    let start : Nat × Nat :=
      match wcFind d.wcache (walkTag sysHalf ctx) va 4 with
      | some c => (c.level + 1, c.table)
      | none => (0, entryPA root.toNat)
    match walkFrom s sysHalf ctx va (5 - start.1) start.1 start.2 [] with
    | .error f => .error f
    | .ok r => .ok (walkEnd s die r)

/-! ## TLBs (R67, R68) -/

def Tlb.hits (t : Tlb) (ctx va : Nat) : Bool :=
  decide (t.vbase ≤ va) && decide (va < t.vbase + t.size) && (t.tag == none || t.tag == some ctx)

/-- An untagged leaf of the user half is noted: contexts other than the one that walked may use it (R59, R76). -/
def State.noteUntagged (s : State) (t : Tlb) : State :=
  if t.tag = none ∧ !t.sysHalf ∧ !s.gleaves.contains (t.vbase, t.size) then { s with gleaves := (t.vbase, t.size) :: s.gleaves }
  else s

/-- A leaf that fills the L1 TLB and the quad TLB of a core. -/
def fillTlb (s : State) (core : Nat) (t : Tlb) : State :=
  let s := s.noteUntagged t
  let c := s.core core
  let q := s.quad (quadOf core)
  (s.setCore core { c with tlb := (t :: c.tlb).take 64 }).setQuad (quadOf core) { q with tlb := (t :: q.tlb).take 2048 }

/-- The leaf for an address: L1 TLB, quad TLB, then a walk that fills both. Of a page whose entry has changed and whose
invalidation has not completed, every translation uses the cached leaf while there is one, where R74 lets each lane use the
old or the new entry. (DESIGN CHOICE, log 67) -/
def lookup (s : State) (core ctx va : Nat) : Except WFault (State × Tlb) :=
  let c := s.core core
  match c.tlb.find? fun t => t.hits ctx va with
  | some t => .ok (s, t)
  | none =>
    let q := s.quad (quadOf core)
    match q.tlb.find? fun t => t.hits ctx va with
    | some t => .ok (s.setCore core { c with tlb := (t :: c.tlb).take 64 }, t)
    | none =>
      match walk s (dieOf core) ctx va with
      | .error f => .error f
      | .ok (s, t) => .ok (fillTlb s core t, t)

/-- A cached leaf marked dirty wherever the core's TLBs hold it: the same leaf of the same context, walked from the same values of
its entries (R60). -/
def markDirty (s : State) (core : Nat) (t : Tlb) : State :=
  let f (x : Tlb) : Tlb := if x = t then { x with dirty := true } else x
  let c := s.core core
  let q := s.quad (quadOf core)
  (s.setCore core { c with tlb := c.tlb.map f }).setQuad (quadOf core) { q with tlb := q.tlb.map f }

/-- The entries of a leaf in memory, each with its value as the walker left it. -/
def Tlb.members (t : Tlb) : List (Nat × Nat) :=
  (countFrom 0 t.vals.length).map fun i =>
    (if t.group then t.entry / 128 * 128 + 8 * i else t.entry, t.vals.getD i 0)

/-- D set in every entry that lacks it, each by a compare-exchange that expects the entry exactly as it was read (R55, R60);
false at the first that has changed. -/
def casDirty : State → List (Nat × Nat) → State × Bool
  | s, [] => (s, true)
  | s, (a, v) :: r =>
    if bitN v 7 then casDirty s r
    else if memWord s a = v ∧ !s.poison.contains (lineOf a) then casDirty (s.putWord a (v + 2 ^ 7)) r
    else (s, false)

/-- The walk begun again at a leaf's level, whose new leaf takes the old one's place in the core's TLBs (R60). -/
def rewalk (s : State) (core ctx va : Nat) (t : Tlb) : Except WFault (State × Tlb) :=
  match walkFrom s t.sysHalf ctx va (5 - t.level) t.level (t.entry / 4096 * 4096) [] with
  | .error f => .error f
  | .ok r =>
    let x := walkEnd s (dieOf core) r
    let gone (y : Tlb) : Bool := !(y.hits ctx va)
    let c := x.1.core core
    let q := x.1.quad (quadOf core)
    .ok (fillTlb ((x.1.setCore core { c with tlb := c.tlb.filter gone }).setQuad (quadOf core) { q with tlb := q.tlb.filter gone })
      core x.2, x.2)

/-- The D rule: a write translation through a leaf with D = 0 sets D first. Where an entry has changed since it was read, the
walk restarts at its level and the new leaf passes the checks of an access again (R60, R62). -/
def setDirty (s : State) (core ctx va : Nat) (t : Tlb) (check : Tlb → Except WFault Unit) : Except WFault (State × Tlb) :=
  if t.dirty then .ok (s, t)
  else
    let r := casDirty s t.members
    if r.2 then .ok (markDirty r.1 core t, t)
    else match rewalk r.1 core ctx va t with
      | .error f => .error f
      | .ok (s, t) =>
        match check t with
        | .error f => .error f
        | .ok () => .ok (markDirty (casDirty s t.members).1 core t, t)

/-- Checks 6 to 8 of R62 on a leaf for one access, then, before any D, physical-hole and register-access, whose place in
that order the spec leaves open. (DESIGN CHOICE, log 66) -/
def leafCheck (sys operand : Bool) (need : Need) (t : Tlb) (pa size : Nat) : Except WFault Unit :=
  if !typeOk t.ty (regionOf pa) then .error (Cause.typeMismatch, t.level)
  else if !sys && sysOnly pa then .error (Cause.privilege, t.level)
  else if (need.reads && !t.r) || (need.writes && !t.w) || (need == .fetch && !t.x) then .error (Cause.permission, t.level)
  else if operand && (t.ty == 2 || t.ty == 3) then .ok ()
  else match placeCheck pa size need with
    | .error c => .error (c, 0)
    | .ok () => .ok ()

/-- Translation of an access that lies in one page. -/
def translate (s : State) (wh : Who) (need : Need) (va : Word) (size : Nat) : Except WFault (State × Nat × LocKind) :=
  match lookup s wh.core wh.ctx va.toNat with
  | .error f => .error f
  | .ok (s, t) =>
    let pa (t : Tlb) : Nat := t.pbase + (va.toNat - t.vbase)
    let check (t : Tlb) : Except WFault Unit := leafCheck wh.sys wh.operand need t (pa t) size
    match check t with
    | .error f => .error f
    | .ok () =>
      if need.writes then
        match setDirty s wh.core wh.ctx va.toNat t check with
        | .error f => .error f
        | .ok (s, t) => .ok (s, pa t, kindOf t.ty (pa t))
      else .ok (s, pa t, kindOf t.ty (pa t))

/-! ## Windows (R21 to R28) -/

def assocGet (l : List (Nat × Nat)) (k : Nat) : Option Nat := (l.find? fun p => p.1 = k).map Prod.snd

/-- Whether a tile of the block's allocation lies in a warp's evaluation region (R26, R392). -/
def inEvalRegion (s : State) (block core tile : Nat) : Bool :=
  s.warps.any fun p =>
    p.2.block = block && p.2.core = core && p.2.status != .exited && p.2.tmode.ebase ≤ tile
    && decide (tile < p.2.tmode.ebase + p.2.tmode.ecnt)

/-- The place of a window access, or its cause: remote-slot, window-range, window-permission in that order (R19). -/
def windowPlace (s : State) (wh : Who) (need : Need) (va : Word) (size : Nat) : Except (BitVec 8) (Nat × LocKind) :=
  let o := winOff va
  let rec? := (tget s.grids wh.grid).map fun g => g.recd
  match vclass va with
  | .scratchWin =>
    let slot (x : Nat) : Nat := wh.core / 4 * 4 + x / 2 ^ 30
    let target := slot o
    let off := o % 2 ^ 30
    let cores := ((tget s.clusters wh.cluster).map fun c => c.cores).getD []
    let base := ((tget s.blocks wh.block).bind fun b => assocGet b.sbase target).getD 0
    let alloc := (rec?.map fun r => r.scratch * 1024).getD 0
    if !cores.contains target || !cores.contains (slot (o + size - 1)) then .error Cause.remoteSlot
    else if alloc < off + size then .error Cause.windowRange
    else .ok (spAlias target + base + off, .scratch)
  | .accWin =>
    let base := ((tget s.blocks wh.block).bind fun b => assocGet b.abase wh.core).getD 0
    let alloc := (rec?.map fun r => r.accT * 4096).getD 0
    if alloc < o + size then .error Cause.windowRange
    else if inEvalRegion s wh.block wh.core (o / 4096) || inEvalRegion s wh.block wh.core ((o + size - 1) / 4096) then
      .error Cause.windowPermission
    else .ok (acAlias wh.core + base * 4096 + o, .acc)
  | .weightWin =>
    if 0x20000000 < o + size then .error Cause.windowRange
    else if need.writes then .error Cause.windowPermission
    else .ok (wsAlias (dieOf wh.core) + o, .weight)
  | _ =>
    let len := (rec?.map fun r => r.clen * 65536).getD 0
    if len < o + size then .error Cause.windowRange
    else if need.writes then .error Cause.windowPermission
    else .ok ((rec?.map fun r => r.cbase).getD 0 + o, .const)

/-- The checks of R19 before the windows: canonical, privilege, straddle. -/
def classCheck (sys : Bool) (va : Word) (size : Nat) : Except (BitVec 8) VClass :=
  let last := va + BitVec.ofNat 64 (size - 1)
  if !canonical va || !canonical last then .error Cause.canonical
  else if !sys && (vclass va == .sysHalf || vclass last == .sysHalf) then .error Cause.privilege
  else if vclass va != vclass last then .error Cause.windowStraddle
  else .ok (vclass va)

/-- The checks of R19 that come before alignment: those of the address, and in a window those of the place. -/
def addressFault (s : State) (wh : Who) (need : Need) (va : Word) (size : Nat) : Option (BitVec 8) :=
  match classCheck wh.sys va size with
  | .error c => some c
  | .ok .user | .ok .sysHalf => none
  | .ok _ => match windowPlace s wh need va size with
    | .error c => some c
    | .ok _ => none

/-- A resolved place: state after translation, physical address, store. -/
abbrev Place := State × Nat × LocKind

/-- Every check of one access in order: R19, alignment where `align` asks it, translation (R64). The cause carries
its level. -/
def resolve (s : State) (wh : Who) (need : Need) (va : Word) (size : Nat) (align : Bool) : Except WFault Place :=
  match classCheck wh.sys va size with
  | .error c => .error (c, 0)
  | .ok .user | .ok .sysHalf =>
    if align && va.toNat % size != 0 then .error (Cause.alignment, 0) else translate s wh need va size
  | .ok _ =>
    match windowPlace s wh need va size with
    | .error c => .error (c, 0)
    | .ok (pa, k) => if align && va.toNat % size != 0 then .error (Cause.alignment, 0) else .ok (s, pa, k)

/-- The trap of a failing lane or element. -/
def WFault.trap (f : WFault) (elem : Bool) (index : Nat) (va : Word) : Trap :=
  { cause := f.1, detail := BitVec.ofNat 8 f.2, elem := elem, index := BitVec.ofNat 16 index, faddr := va }

/-! ## Ranges named by engine commands (R20) -/

/-- The pages a range touches, as (start, length) pairs; `n` bounds their number. -/
def pagesOf : Nat → Word → Nat → List (Word × Nat)
  | 0, _, _ => []
  | n + 1, va, len =>
    if len = 0 then []
    else
      let room := 4096 - va.toNat % 4096
      let k := if len < room then len else room
      (va, k) :: pagesOf n (va + BitVec.ofNat 64 k) (len - k)

/-- The first byte of a failing run that fails by itself, or the run's first. -/
def firstBad (s : State) (wh : Who) (need : Need) (va : Word) (len : Nat) : Word :=
  let bad (i : Nat) : Bool := match resolve s wh need (va + BitVec.ofNat 64 i) 1 false with | .error _ => true | .ok _ => false
  va + BitVec.ofNat 64 (((countFrom 0 len).find? bad).getD 0)

/-- Resolution of every byte of a range, page by page: state and places, or the fault and the failing byte, which for
a window's checks is the range's first. The whole range lies in one class (R18). -/
def resolveBytes (s : State) (wh : Who) (need : Need) (va : Word) (len : Nat) :
    Except (WFault × Word) (State × List Xlat) :=
  if len = 0 then .ok (s, [])
  else match classCheck wh.sys va len with
    | .error c => .error ((c, 0), va)
    | .ok c =>
      match foldE (fun (acc : State × List Xlat) (p : Word × Nat) =>
          match resolve acc.1 wh need p.1 p.2 false with
          | .error f =>
            Except.error (f, if c == .user || c == .sysHalf then firstBad acc.1 wh need p.1 p.2 else va)
          | .ok (s, pa, k) => .ok (s, { va := p.1, pa := pa, kind := k, len := p.2 } :: acc.2))
        (s, []) (pagesOf (len / 4096 + 2) va len) with
      | .error f => .error f
      | .ok (s, l) => .ok (s, l.reverse)

/-- The same, where the failing byte is not wanted. -/
def resolveRange (s : State) (wh : Who) (need : Need) (va : Word) (len : Nat) : Except WFault (State × List Xlat) :=
  match resolveBytes s wh need va len with
  | .error f => .error f.1
  | .ok r => .ok r

/-- Where a translated byte lies. -/
def xlatAt (l : List Xlat) (va : Word) : Nat × LocKind :=
  match l.find? fun x => (va - x.va).toNat < x.len with
  | some x => (x.pa + (va - x.va).toNat, x.kind)
  | none => (0, .peer)

/-- A run of bytes cut at line boundaries; `n` bounds the pieces. -/
def cutLines : Nat → Nat → Nat → List (Nat × Nat)
  | 0, _, _ => []
  | n + 1, pa, len =>
    if len = 0 then []
    else
      let room := 128 - pa % 128
      let k := if len < room then len else room
      (pa, k) :: cutLines n (pa + k) (len - k)

def linesOf (pa len : Nat) : List (Nat × Nat) := cutLines (len / 128 + 2) pa len

/-- The scratchpad lines of a place, as addresses. -/
def scratchLines (kind : LocKind) (pa len : Nat) : List Nat :=
  if kind = .scratch then (linesOf pa len).map Prod.fst else []

end Sys2Proof.Machine
end

