-- ==== Sys2Proof/Machine/Registers.lean ====
section
/-! DEFINITION. What reads of the device registers of R36 return, the routes of peer addresses (R38 to R41), and
instruction fetch, which may reach both (R200, R203). -/

namespace Sys2Proof.Machine

open Sys2Proof

def Core.slot (c : Core) (j : Nat) : Slot := c.slots.get ⟨j % 8, Nat.mod_lt _ (by decide)⟩
def Core.setSlot (c : Core) (j : Nat) (x : Slot) : Core := { c with slots := c.slots.set (j % 8) x (Nat.mod_lt _ (by decide)) }

/-- The pending SHIFT of a die in force, where a frame boundary after its write is reached (R111). -/
def Die.applyShift (d : Die) (clock : Word) : Option Die :=
  match d.shiftPend with
  | none => none
  | some (v, t) => if clock.extractLsb' 0 15 = 0 ∧ t ≠ clock then some { d with shift := v, shiftPend := none } else none

/-! ## Reads -/

/-- Whether a kernel runs on a die: some warp placed there has not exited, of a context that is not saved (R111). -/
def State.kernelOn (s : State) (die : Nat) : Bool :=
  s.warps.any fun p => dieOf p.2.core == die && p.2.status != .exited && !(s.ctx p.2.ctx).done

/-- The SHIFT that governs a cycle: a value due at its frame boundary counts already (R111). -/
def Die.shiftNow (d : Die) (clock : Word) : BitVec 6 := ((d.applyShift clock).getD d).shift

/-- CUR of WSREF (R109, R111). -/
def wsCur (clock : Word) (shift : BitVec 6) : BitVec 6 := clock.extractLsb' 9 6 - shift

def State.wsref (s : State) (d : Nat) : Word :=
  let x := s.die d
  0#48 ++ bit1 (s.kernelOn d) ++ 0#3 ++ x.shiftNow s.clock ++ wsCur s.clock (x.shiftNow s.clock)

/-- The groups still to retrain (R117). -/
def Hbm.pend (h : Hbm) : BitVec 4 :=
  bit1 (h.todo.contains 3) ++ bit1 (h.todo.contains 2) ++ bit1 (h.todo.contains 1) ++ bit1 (h.todo.contains 0)

/-- HBMST (R117). -/
def Hbm.status (h : Hbm) : Word :=
  let pause : BitVec 4 := match h.cur with | none => 0 | some (g, _) => BitVec.ofNat 4 (2 ^ g)
  h.pcount ++ h.gstate.get 3 ++ h.gstate.get 2 ++ h.gstate.get 1 ++ h.gstate.get 0 ++ pause ++ h.pend ++ h.super ++ 0#2
    ++ h.target ++ 0#4

/-- CAUSE: why the run in progress is paused, or that a pre-emption has paused one while no other runs (R135, R139). -/
def Kiosk.why (k : Kiosk) : BitVec 4 :=
  match k.run with
  | some _ => k.cause
  | none => if k.saved.isEmpty then 0 else 8

/-- KSTAT (R139). -/
def Kiosk.status (k : Kiosk) : Word :=
  k.pauses ++ Config.allow ++ k.postmax ++ 0#4 ++ BitVec.ofNat 4 k.queue.length ++ k.why ++ 0#3 ++ bit1 k.run.isSome

/-- CTXCTL (R456). -/
def Ctx.ctl (x : Ctx) : Word :=
  x.minres ++ x.slice ++ x.acks ++ 0#4 ++ bit1 (decide (x.slice.toNat < x.minres.toNat)) ++ bit1 x.brk ++ bit1 x.halt
    ++ bit1 x.done ++ 0#8 ++ bit1 x.dbg ++ bit1 x.co ++ 0#5 ++ bit1 x.res

def Slot.word (x : Slot) : Word := 0#47 ++ bit1 x.valid ++ 0#4 ++ x.next.getD x.weight ++ x.ctx

/-- QVF (R470). -/
def Qvf.word (q : Qvf) : Word :=
  0#16 ++ q.super ++ q.curv ++ q.curf ++ bit1 q.ramp ++ 0#5 ++ q.cadbase ++ 0#3 ++ q.droopf ++ 0#3 ++ q.reqf

/-- A reading in °C as SENS shows it: + 64, and 0 before the first sample (R475). -/
def senseByte (t : Option Int) : BitVec 8 := match t with | none => 0 | some v => BitVec.ofInt 8 (v + 64)

def Sens.word (x : Sens) : Word :=
  0#16 ++ senseByte x.t1 ++ senseByte x.t0 ++ 0#6 ++ bit1 x.throt ++ bit1 x.migreq ++ x.cfault ++ 0#2 ++ x.tfault ++ x.events

def PortSt.code : PortSt → BitVec 3
  | .down => 0 | .train => 1 | .up => 2 | .degraded => 3 | .retrain => 4 | .disabled => 5

/-- PEERST (R480). -/
def Port.word (p : Port) : Word := p.replay ++ p.retrains ++ 0#7 ++ bit1 p.dis ++ p.lanes ++ 0#1 ++ p.st.code

/-- BOOTST (R484). -/
def Boot.word (b : Boot) : Word :=
  b.svn ++ b.stage ++ b.cause ++ 0#8 ++ b.die ++ bit1 b.stext ++ bit1 b.shock ++ 0#2 ++ bit1 b.slot ++ bit1 b.ready

/-- The key of a physical line of a plane: axis × 1024 + line (R405). -/
def lineKey (col : Bool) (p : Nat) : Nat := (if col then 1024 else 0) + p % 1024
def LPlane.count (x : LPlane) (key : Nat) : W32 := tgetD x.cnt key 0
def LPlane.budget (x : LPlane) (key : Nat) : W32 := tgetD x.bud key 0xFFFFFFFF

/-- The value of a device register; a 128-bit register is read word by word (R37). -/
def State.regRead (s : State) (r : RegId) : Word :=
  match r with
  | .devnum => s.devnum.setWidth 64
  | .coreMap n => 0#56 ++ bit1 (s.core n).moving ++ 0#1 ++ (s.core n).phys
  | .rootu c => (s.ctx c).rootu
  | .roots => s.roots
  | .inbound e => tgetD s.inbound e 0
  | .hbmst k => (s.hbmOf k).status
  | .hbmreq k => (s.hbmOf k).target.setWidth 64
  | .kstat c => (s.kiosk c).status
  | .lpown n => tgetD s.lpown n 0
  | .tqcfg i => tgetD (s.quad (i / 16)).tqcfg (i % 16) 0
  | .ctxslot n j => ((s.core n).slot j).word
  | .ctxctl c => (s.ctx c).ctl
  | .ctxsaveb c => (s.ctx c).saveb
  | .uq0 q => let x := s.uqOf q; 0#32 ++ x.pend ++ x.ctx ++ 0#7 ++ bit1 x.mapped
  | .uq8 q => (s.uqOf q).qaddr
  | .qvf u => (s.quad u).qvf.word
  | .sens n => (s.sensOf (s.physOf n)).word
  | .thcfg => s.thcfg.setWidth 64
  | .peerst p => (s.portOf p).word
  | .bootst => s.boot.word
  | .bvctl => s.bvctl.setWidth 64
  | .lpline n a p => let x := s.plane n; x.budget (lineKey (a == 1) p) ++ x.count (lineKey (a == 1) p)
  | .wsref d => s.wsref d
  | .parkcfg d => (s.die d).parkcfg
  | .doorbell q => (s.uqOf q).pend.setWidth 64
  | .doorbellPad _ => 0

/-- A register read at its physical address, from the byte that the address names; an address that names none reads 0. -/
def State.regReadAt (s : State) (pa : Nat) : Word :=
  match regAt (pa - regBase) with
  | some (r, off, _) => s.regRead r >>> (8 * off)
  | none => 0

/-! ## Peer addresses (R38 to R41, R140) -/

/-- Where a peer address leads. -/
inductive Route where
  | refused | local (pa : Nat) | remote | none
  deriving DecidableEq, Repr

/-- The local address an aperture offset shows, if its segment shows one (R41). -/
def inboundAt (s : State) (off : Nat) : Option Nat :=
  let e := (tgetD s.inbound (off / 2 ^ 30 % 512) 0).toNat
  let pa := fieldN e 30 22 * 2 ^ 30 + off % 2 ^ 30
  let region := regionOf pa
  if bitN e 0 && (region == .hbm || region == .cap) then some pa else none

/-- That address, if the segment admits the access: R for loads, W for stores and atomics (R41). -/
def inboundPa (s : State) (off : Nat) (need : Need) : Option Nat :=
  (inboundAt s off).filter fun _ => bitN (tgetD s.inbound (off / 2 ^ 30 % 512) 0).toNat (if need.writes then 2 else 1)

/-- Whether the inbound table of the other device named turns an access away with a peer error (R39). (DESIGN CHOICE,
log 68) -/
def State.peerShuts (s : State) (pa : Nat) (need : Need) : Bool :=
  (tgetD s.peerShut (pa / 2 ^ 30 % 2 ^ 21) 0).getLsbD (if need.writes then 1 else 0)

/-- The devices of the fabric. -/
def fabric : List Nat := (countFrom 0 16).flatMap Config.peersOf

/-- The route of a peer access: refused while no number is assigned and for a number outside the fabric; none while no
port in service leads there. -/
def peerRoute (s : State) (pa : Nat) (need : Need) : Route :=
  let dev := pa / 2 ^ 39 % 4096
  if !s.devnum.getLsbD 12 then .refused
  else if dev = (s.devnum.extractLsb' 0 12).toNat then
    match inboundPa s (pa % 2 ^ 39) need with
    | some a => .local a
    | none => .refused
  else if s.reachable.contains dev then (if s.peerShuts pa need then .refused else .remote)
  else if fabric.contains dev then .none
  else .refused

/-- The local address behind a peer address of the own device (R39). -/
def State.ownPa (s : State) (pa : Nat) : Option Nat :=
  if s.devnum.getLsbD 12 && decide (pa / 2 ^ 39 % 4096 = (s.devnum.extractLsb' 0 12).toNat) then inboundAt s (pa % 2 ^ 39) else none

/-- The address of a byte at its home: the local one behind a peer address of the own device (R39). -/
def State.homePa (s : State) (kind : LocKind) (pa : Nat) : Nat := if kind = .peer then (s.ownPa pa).getD pa else pa

/-- The line that caches may hold of a place: of HBM-cached and capacity memory, also behind a peer address of the own device
(R39, R94). -/
def State.cachedLine (s : State) (kind : LocKind) (pa : Nat) : Option Nat :=
  match kind with
  | .cached | .cap => some (lineOf pa)
  | .peer => (s.ownPa pa).map lineOf
  | _ => none

/-! ## Instruction fetch (R200, R203) -/

/-- Why a word is not fetched: a fault, or a peer that no route reaches now (R141). -/
inductive FetchStop where
  | fault (f : WFault)
  | stall (pa : Nat)
  deriving DecidableEq, Repr

/-- The word of a translated address, as an 8-byte load reads it; a fetch has no device-uncached path of its own, and through such a
leaf it reads what L2 holds. (DESIGN CHOICE, log 91) -/
def fetchAt (s : State) (pa : Nat) (k : LocKind) : Except FetchStop Word :=
  let mem (a : Nat) : Except FetchStop Word :=
    if s.poison.contains (lineOf a) then .error (.fault (Cause.uncorrectableData, 0)) else .ok (BitVec.ofNat 64 (memWord s a))
  match k with
  | .reg => .ok (s.regReadAt pa)
  | .peer =>
    match peerRoute s pa .load with
    | .refused => .error (.fault (Cause.peerAccess, 0))
    | .none => .error (.stall pa)
    | .local a => mem a
    | .remote => .ok (BitVec.ofNat 64 (bytesNat (memReadN s.peerMem pa 8)))
  | _ => mem pa

/-- The word at an address for fetch, with TLB effects; windows refuse fetch. A launch may start at an address that is not 8-byte
aligned, whose words are fetched as they lie. (DESIGN CHOICE, log 90) -/
def fetchWord (s : State) (wh : Who) (va : Word) : Except FetchStop (State × Word) :=
  match classCheck wh.sys va 8 with
  | .error c => .error (.fault (c, 0))
  | .ok .user | .ok .sysHalf =>
    match translate s wh .fetch va 8 with
    | .error f => .error (.fault f)
    | .ok (s, pa, k) =>
      match fetchAt s pa k with
      | .error f => .error f
      | .ok w => .ok (s, w)
  | .ok _ => .error (.fault (Cause.windowPermission, 0))

/-- The word at an address where a fetch of it would succeed, read ahead without effect. -/
def peekWord (s : State) (wh : Who) (va : Word) : Option Word :=
  match fetchWord s wh va with
  | .ok (_, w) => some w
  | .error _ => none

/-- The check of a transfer's target (R203): false for an illegal target. A target whose word meets an uncorrectable error, a peer's
refusal or a missing route passes, and its own fetch then faults or waits. (DESIGN CHOICE, log 89) -/
def targetOk (s : State) (wh : Who) (va : Word) : Bool :=
  if va.toNat % 8 != 0 then false
  else match peekWord s wh va with
    | some w => isHeader w
    | none => true

/-! ## The classes of a context's work (R457) -/

/-- The bit of a class in ACKS. -/
def ackIndex : EngClass → Nat
  | .warps => 0 | .cube => 1 | .copy => 2 | .gather => 3 | .pergola => 4 | .plane => 5 | .kiosk => 6 | .collective => 7

/-- Whether a class may advance work of a context: the context is not stopped, nor has the class been; work that a class without a bit
takes from the context's warps is done as long as those have not stopped (R457). -/
def State.advances (s : State) (ctx : Nat) (cls : EngClass) : Bool :=
  let x := s.ctx ctx
  !x.done && !(x.preq && !x.acks.getLsbD (ackIndex cls) && !x.acks.getLsbD 0)

end Sys2Proof.Machine
end

