-- ==== Sys2Proof/Machine/Operands.lean ====
section
/-! DEFINITION. Operand forms: scalar operands and immediates (R209, R260), vector sources through their modifiers
(R217, R218), pairs and packed elements (R215, R236), and the wrappers that run a meaning for the warp in turn. -/

namespace Sys2Proof.Machine

open Sys2Proof

/-! ## Running a meaning -/

/-- A trap of a warp: TrapEntry with the word at its vector looked up (R450). -/
def State.trap (s : State) (k : Nat) (w : Warp) (t : Trap) (kind : TrapKind) : State :=
  s.trapEntry k w t kind (peekWord s { w.who with sys := true } (s.ctx w.ctx).tvec)

/-- A meaning that cannot fault: the warp in turn becomes another. -/
def onWarp (s : State) (f : Warp → Warp) : Out :=
  match s.curWarp with
  | none => .fault .noWarp
  | some w => .next (s.setWarp s.cur (f w))

/-- A meaning that may take a trap: on a trap nothing of it has happened (R449). -/
def attempt (s : State) (body : Warp → Except Trap State) : Out :=
  match s.curWarp with
  | none => .fault .noWarp
  | some w =>
    match body w with
    | .ok t => .next t
    | .error t => .next (s.trap s.cur w.unretire t .fault)

/-- A privileged meaning: subcode 10 in user mode (R233). -/
def privileged (s : State) (body : Warp → Except Trap State) : Out :=
  attempt s fun w => if w.sys then body w else .error { cause := Cause.illegalInstruction, detail := 10 }

/-! ## Scalar operands -/

/-- Low(w, v) as a natural number. -/
def lowW (w : Nat) (v : Word) : Nat := v.toNat % 2 ^ w

/-- A w-bit pattern read as signed. -/
def signedW (w : Nat) (n : Nat) : Int := if 2 ^ (w - 1) ≤ n then (n : Int) - 2 ^ w else n

/-- The value of an operand under an integer type. -/
def readInt (dt : DT) (v : Word) : Int :=
  if dt.signed then signedW dt.width (lowW dt.width v) else (lowW dt.width v : Int)

/-- Extend(DT, Low(w, r)): sign- or zero-extension to 64 bits (R260). -/
def extendInt (dt : DT) (r : Int) : Word :=
  let n := (r % (2 ^ dt.width : Int)).toNat
  BitVec.ofInt 64 (if dt.signed then signedW dt.width n else n)

/-- The second operand of a scalar instruction: the immediate or s[B] (R260). -/
def scalarB (w : Warp) (f : FmtA) : Word := if f.i then immA f else w.getS f.b

/-! ## Vector sources -/

/-- The lane a source modifier draws from (R218). -/
def srcLane (m : BitVec 12) (lane : Nat) : Nat :=
  let s := 2 ^ (m.extractLsb' 6 3).toNat
  let d := (m.extractLsb' 1 5).toNat % s
  let b := lane - lane % s
  let i := lane % s
  match (m.extractLsb' 9 3).toNat with
  | 0 => lane
  | 1 => b + (i + d) % s
  | 2 => b + (i ^^^ d)
  | 3 => b + d
  | _ => b + (s - 1 - i)

/-- Negate(T, x) on a 32-bit register holding elements of T (R218). -/
def negate32 (t : DT) (x : W32) : W32 :=
  match t with
  | .f32 => x ^^^ 0x80000000
  | .f16 | .bf16 => x ^^^ 0x80008000
  | .e4m3 | .e5m2 => x ^^^ 0x80808080
  | .i16 | .n16 => (-(x.extractLsb' 16 16)) ++ (-(x.extractLsb' 0 16))
  | .i8 | .n8 =>
    (-(x.extractLsb' 24 8)) ++ (-(x.extractLsb' 16 8)) ++ (-(x.extractLsb' 8 8)) ++ (-(x.extractLsb' 0 8))
  | .i32 | .n32 => -x
  | _ => ~~~x

/-- One lane's source through its modifier: zero from an exited lane, then negated under T (R218). -/
def readLane (w : Warp) (pos : Nat) (m : BitVec 12) (t : DT) (lane : Nat) : W32 :=
  let j := srcLane m lane
  let x := if maskBit w.lm j then laneGet (w.vAt pos) j else 0
  if modNeg m then negate32 t x else x

/-- One lane's pair, low register first; negation spans the pair. -/
def readPair (w : Warp) (pos : Nat) (m : BitVec 12) (lane : Nat) : Word :=
  let j := srcLane m lane
  let x : Word := if maskBit w.lm j then laneGet (w.vAt (pos + 1)) j ++ laneGet (w.vAt pos) j else 0
  if modNeg m then -x else x

/-- A lane of a vector source under the instruction's type: a pair where the type has 64 bits. -/
def readSrc (w : Warp) (r : BitVec 6) (m : BitVec 12) (t : DT) (lane : Nat) : Word :=
  if t.is64 then readPair w (w.pos r) m lane else (readLane w (w.pos r) m t lane).setWidth 64

/-- A source A, B or C of a vector instruction; B may be the immediate, which every lane receives (R209, R284). -/
def srcA (w : Warp) (f : FmtA) (t : DT) (lane : Nat) : Word := readSrc w f.a f.modA t lane
def srcC (w : Warp) (f : FmtA) (t : DT) (lane : Nat) : Word := readSrc w f.c f.modC t lane

/-! ## Packed elements (R236) -/

/-- Element j of width w of a register or pair. -/
def elemGet (w : Nat) (x : Word) (j : Nat) : Nat := x.toNat / 2 ^ (w * j) % 2 ^ w

/-- A register or pair from its elements. -/
def elemsPack (w : Nat) (f : Nat → Nat) (n : Nat) : Word :=
  BitVec.ofNat 64 ((countFrom 0 n).foldl (fun acc j => acc + f j % 2 ^ w * 2 ^ (w * j)) 0)

/-- One element replaced. -/
def elemSet (w : Nat) (x : Word) (j v : Nat) : Word :=
  let m := 2 ^ (w * j)
  BitVec.ofNat 64 (x.toNat - elemGet w x j * m + v % 2 ^ w * m)

/-- The immediate as a vector operand of type T: its low bits in every element (R284). -/
def immVec (t : DT) (imm : Word) : Word :=
  if t.is64 then imm else elemsPack t.width (fun _ => lowW t.width imm) t.elems

/-- Source B, or the immediate in its place. -/
def srcB (w : Warp) (f : FmtA) (t : DT) (lane : Nat) : Word :=
  if f.i then immVec t (immA f) else readSrc w f.b f.modB t lane

/-- Lanes set in em take their new value in D, or in the pair from D for a 64-bit type; every lane reads its sources
before any writes (R218, R283). -/
def writeD (w : Warp) (r : BitVec 6) (is64 : Bool) (f : Nat → Word) : Warp :=
  let lo := lanesOf fun l => (f l).setWidth 32
  let w1 := w.mergeVAt w.em (w.pos r) lo
  if is64 then w1.mergeVAt w.em (w.pos r + 1) (lanesOf fun l => ((f l) >>> 32).setWidth 32) else w1

end Sys2Proof.Machine
end

