-- ==== Sys2Proof/Machine/Flags.lean ====
section
/-! DEFINITION. The computations that decide a result's last bits: the nmode slots and overrides (R243, R244), the
generators of stochastic rounding (R247, R248), narrowing of integers (R288), comparison (R210) and conversion
between types (R245, R246). -/

namespace Sys2Proof.Machine

open Sys2Proof

/-! ## Rounding in force -/

/-- A rounding code of an nmode slot (R243). ctxrest can install 110 and 111 (R455), to which the spec gives no meaning: RNE.
(DESIGN CHOICE, log 77) -/
def RMode.ofSlot (n : Nat) : RMode :=
  match n with
  | 1 => .rtz | 2 => .rdn | 3 => .rup | 4 => .rna | 5 => .sr | _ => .rne

/-- A rounding override (R210); 000 names none. -/
def RMode.ofRo (cc : BitVec 3) : Option RMode :=
  match cc.toNat with
  | 1 => some .rne | 2 => some .rtz | 3 => some .rdn | 4 => some .rup | 5 => some .rna | 6 => some .sr | _ => none

/-- The low bit of a destination type's slot in nmode (R243); types without one round by R244. -/
def slotPos : DT → Option Nat
  | .bf16 => some 0 | .f16 => some 4 | .e4m3 => some 8 | .e5m2 => some 12 | .q4 => some 16 | .i8 => some 20
  | .n8 => some 24 | .i16 | .n16 => some 28 | _ => none

/-- SAT for a destination type (R243, R244). -/
def satOf (nmode : W32) (t : DT) : Bool :=
  match slotPos t with
  | some p => nmode.getLsbD (p + 3)
  | none => t.isInt

/-- The rounding mode for a destination type under an override (R244). -/
def modeOf (nmode : W32) (t : DT) (ro : BitVec 3) : RMode :=
  match RMode.ofRo ro with
  | some m => m
  | none =>
    match slotPos t with
    | some p => RMode.ofSlot (nmode.toNat / 2 ^ p % 8)
    | none => .rne

/-! ## Generators (R247, R248) -/

/-- One step of a generator: x^32 + x^22 + x^2 + x + 1. -/
def stepLfsr (g : W32) : W32 := if g.getLsbD 0 then (g >>> 1) ^^^ 0x80200003 else g >>> 1

/-- `n` steps. -/
def stepLfsrN : Nat → W32 → W32
  | 0, g => g
  | n + 1, g => stepLfsrN n (stepLfsr g)

/-- The seed of a lane's generator; lane 32 names the scalar one. -/
def seedLfsr (ctxseed : W32) (wid lane : Nat) : W32 :=
  let g := ctxseed ^^^ (BitVec.ofNat 32 wid * 0x9E3779B9) ^^^ (BitVec.ofNat 32 lane * 0x85EBCA6B)
  if g = 0 then 1 else g

/-- The generator of a lane. -/
def Warp.gen (w : Warp) (lane : Nat) : W32 := w.gens.get ⟨lane % 32, Nat.mod_lt _ (by decide)⟩

/-- The rounding of a lane's element number `j` of those the instruction writes. -/
def laneRound (w : Warp) (t : DT) (ro : BitVec 3) (lane j : Nat) : RCtl :=
  let m := modeOf w.nmode t ro
  { mode := m, sat := satOf w.nmode t, u := if m = .sr then (stepLfsrN (j + 1) (w.gen lane)).toNat else 0 }

/-- The draws of an instruction that writes `n` rounded elements in each active lane. -/
def drawLanes (w : Warp) (t : DT) (ro : BitVec 3) (n : Nat) : Warp :=
  if modeOf w.nmode t ro = .sr then
    { w with gens := Vector.ofFn fun i => if maskBit w.em i.val then stepLfsrN n (w.gens.get i) else w.gens.get i }
  else w

/-- The rounding of a scalar result, whose draw comes from the warp's scalar generator (R268). -/
def scalarRound (w : Warp) (t : DT) (ro : BitVec 3) : RCtl :=
  let m := modeOf w.nmode t ro
  { mode := m, sat := satOf w.nmode t, u := if m = .sr then (stepLfsr w.gs).toNat else 0 }

/-- The one draw of a scalar float instruction under SR. -/
def drawScalar (w : Warp) (t : DT) (ro : BitVec 3) : Warp :=
  if modeOf w.nmode t ro = .sr then { w with gs := stepLfsr w.gs } else w

/-! ## Elements of a type -/

/-- The value of a code of a float or integer type. -/
def valueOf (t : DT) (bits : Nat) : FVal :=
  if t.isFloat then decodeF (fmtOf t) (bits % 2 ^ t.width)
  else intF (if t.signed then signedW t.width (bits % 2 ^ t.width) else (bits % 2 ^ t.width : Nat))

/-- A value converted to a type with one rounding (R245, R246). -/
def convertTo (t : DT) (c : RCtl) (x : FVal) : Nat :=
  if t.isFloat then narrow (fmtOf t) c x else toIntBits c t.signed t.width x

/-- An element read as an integer of its type. -/
def intOf (t : DT) (bits : Nat) : Int :=
  if t.signed then signedW t.width (bits % 2 ^ t.width) else ((bits % 2 ^ t.width : Nat) : Int)

/-- The low bits of an integer. -/
def lowInt (w : Nat) (v : Int) : Nat := (v % (2 ^ w : Int)).toNat

def minInt (t : DT) : Int := if t.signed then -(2 ^ (t.width - 1) : Int) else 0
def maxInt (t : DT) : Int := if t.signed then 2 ^ (t.width - 1) - 1 else 2 ^ t.width - 1

/-- Narrowing of an exact integer result of major 0x31: 8- and 16-bit types clamp under their slot's SAT (R288). -/
def narrowInt (nmode : W32) (t : DT) (v : Int) : Nat :=
  let v := if (slotPos t).isSome && satOf nmode t then max (minInt t) (min (maxInt t) v) else v
  lowInt t.width v

/-- Compare(CC, x, y) on two elements of a type (R210). -/
def compareBits (cc : CC) (t : DT) (a b : Nat) : Bool :=
  if t.isFloat then compareF cc (valueOf t a) (valueOf t b) else compareI cc (intOf t a) (intOf t b)

/-- The condition a CC field holds; a decoded instruction holds one of the seven. -/
def ccOf (cc : BitVec 3) : CC := (CC.ofCode cc).getD .eq

/-! ## Integer operations (R261, R262) -/

/-- Quotient rounded toward zero, with the defined results for zero and overflow. -/
def divI (w : Nat) (x y : Int) : Int := if y = 0 then 2 ^ w - 1 else x.tdiv y

def remI (x y : Int) : Int := if y = 0 then x else x - y * x.tdiv y

/-- Ones in the low `w` bits. -/
def popN : Nat → Nat → Nat
  | 0, _ => 0
  | w + 1, x => x % 2 + popN w (x / 2)

def clzN (w x : Nat) : Nat := w - bitLen x

/-- Bits [pos + len − 1 : pos] of a w-bit value; bits at or above w read as zero, and for signed types the field
sign-extends from its top bit. (DEDUCED, log 23) -/
def bfxI (signed : Bool) (w x y : Nat) : Int :=
  let pos := y % 64
  let len := y / 256 % 64
  let fld := x % 2 ^ w / 2 ^ pos % 2 ^ len
  if len = 0 then 0 else if signed then signedW len fld else fld

/-- x with bits pos + j, j < len and pos + j < w, from `c`. (DEDUCED, log 23) -/
def bfiN (w x y c : Nat) : Nat :=
  let pos := y % 64
  let len := y / 256 % 64
  (countFrom 0 len).foldl (fun acc j =>
    if pos + j < w then acc - acc / 2 ^ (pos + j) % 2 * 2 ^ (pos + j) + c / 2 ^ j % 2 * 2 ^ (pos + j) else acc) x

def shlN (w x n : Nat) : Nat := x * 2 ^ (n % w) % 2 ^ w
def rotN (w x n : Nat) : Nat := (x / 2 ^ (n % w) + x * 2 ^ (w - n % w)) % 2 ^ w

end Sys2Proof.Machine
end

