-- ==== Sys2Proof/Machine/Issue.lean ====
section
/-! DEFINITION. The issue choice of R427 and the fetch of an instruction's words (R200 to R203): what a step prepares
before the instruction acts. -/

namespace Sys2Proof.Machine

open Sys2Proof

/-! ## Readiness -/

/-- Whether every flag of a mask is clear. -/
def Warp.maskClear (w : Warp) (m : BitVec 12) : Bool :=
  (countFrom 0 12).all fun f => !m.getLsbD f || w.flagClear f

/-- A warp that waits for nothing, or whose own wait is over (R205, R207, R278). -/
def Warp.ready (w : Warp) : Bool :=
  w.status == .live && !w.qend &&
  match w.wait with
  | .run => true
  | .header m => w.unflClear && w.maskClear m
  | .flags m => if m = 0 then w.unflClear else w.maskClear m
  | .results => w.allReady
  | _ => false

/-- The unit of an instruction's code: true for the vector unit (R427). -/
def vectorUnit (word : Word) : Bool :=
  let m := majorOf word
  (decide (0x30 ≤ m) && decide (m ≤ 0x6F)) || (decide (0x70 ≤ m) && decide (m ≤ 0x73))
  || (m == 0x74 && (fnOf word == 2 || fnOf word == 3))

/-! ## PASS (R427) -/

/-- x lies ahead of y. -/
def passAhead (x y : W32) : Bool := let d := (x - y).toNat; decide (1 ≤ d) && decide (d < 2 ^ 31)

/-- The valid slot of a context on a core. -/
def Core.slotOf (c : Core) (ctx : Nat) : Option Nat :=
  (countFrom 0 8).find? fun j => (c.slot j).valid && (c.slot j).ctx.toNat == ctx

/-- The slot of least PASS, the lowest among equals. -/
def leastPass (c : Core) (l : List Nat) : Option Nat :=
  l.find? fun j => l.all fun i => !passAhead (c.slot j).pass (c.slot i).pass

/-- The PASS of a slot that becomes valid or weighted: the least of the core's other weighted contexts, or 0. -/
def Core.freshPass (c : Core) (j : Nat) : W32 :=
  let others := (countFrom 0 8).filter fun i => i != j % 8 && (c.slot i).valid && (c.slot i).weight != 0
  match leastPass c others with | none => 0 | some i => (c.slot i).pass

def strideOf (weight : BitVec 4) : Nat := 65536 / weight.toNat

/-- Whether a warp is held from issue: by a refused ordered lane (R168), in a deterministic launch by any lane of an atomic
whose value has to reach it before its next quantum (R173), or by the commit of its launch's round, which holds part way
(R488). -/
def State.barred (s : State) (k : Nat) (w : Warp) : Bool :=
  (s.ordbuf.any fun o => o.warp == k && (w.det || o.refused.isSome)) || ((w.grid? s).map fun g => g.committing).getD false

/-- Whether a warp's context stops and the warp has reached its point: an instruction boundary, under CO the clause boundary at which a
user-mode warp enters its handler (R457, R459). -/
def State.stopping (s : State) (w : Warp) : Bool :=
  let x := s.ctx w.ctx
  x.preq && (!x.co || x.kill || (!w.sys && w.clause.left == 0))

/-- The warps of a core that could be picked: ready, resident, not yet picked in the cycle, not come to the point at which their context
stops; none while the core moves (R467). -/
def candidates (s : State) (n : Nat) : AMap Warp :=
  let c := s.core n
  if c.moving then [] else s.warps.filter fun p => p.2.core == n && p.2.ready && !s.barred p.1 p.2 && !s.stopping p.2 && !c.pickedWarps.contains p.1 && (c.slotOf p.2.ctx).isSome

/-- Of two warps, the one issued less recently, then of lower wid. (DESIGN CHOICE, log 57) -/
def lessRecent (a b : Nat × Warp) : Nat × Warp :=
  if b.2.stamp < a.2.stamp ∨ (b.2.stamp = a.2.stamp ∧ b.2.wid < a.2.wid) then b else a

/-- The next warp of a core by R427, with its context's slot. -/
def pick (s : State) (n : Nat) : Option (Nat × Warp × Nat) :=
  let c := s.core n
  let r := candidates s n
  let slots := (countFrom 0 8).filter fun j => r.any fun p => c.slotOf p.2.ctx == some j
  let heavy := slots.filter fun j => (c.slot j).weight != 0
  match leastPass c (if heavy.isEmpty then slots else heavy) with
  | none => none
  | some j =>
    match r.filter fun p => c.slotOf p.2.ctx == some j with
    | [] => none
    | p :: rest => let w := rest.foldl lessRecent p; some (w.1, w.2, j)

/-- Whether the unit has a slot left in the cycle. -/
def Core.hasSlot (c : Core) (vec : Bool) : Bool :=
  decide (c.picks < 8) && (if vec then decide (c.vpicks < 4) else decide (c.spicks < 4))

/-- A pick of a warp: it leaves R, and one that issues takes a unit slot and advances its context's PASS. -/
def Core.take (c : Core) (k : Nat) (slot : Nat) (issued vec : Bool) : Core :=
  let c := { c with pickedWarps := c.pickedWarps ++ [k] }
  if !issued then c
  else
    let x := c.slot slot
    let c := if x.weight = 0 then c else c.setSlot slot { x with pass := x.pass + BitVec.ofNat 32 (strideOf x.weight) }
    { c with picks := c.picks + 1, vpicks := if vec then c.vpicks + 1 else c.vpicks
             spicks := if vec then c.spicks else c.spicks + 1 }

/-- A WEIGHT written in the cycle takes effect; a context that becomes weighted gets a fresh PASS (R426, R427). -/
def Core.reweigh (c : Core) (j : Nat) : Core :=
  let x := c.slot j
  match x.next with
  | none => c
  | some w =>
    c.setSlot j { x with weight := w, next := none, pass := if x.weight = 0 ∧ w ≠ 0 then c.freshPass j else x.pass }

/-- The end of a cycle on a core: PASS of weighted contexts without a ready warp catches up, the picks are free again, and
written weights take effect. -/
def Core.endCycle (c : Core) (readyCtx : List Nat) : Core :=
  let weighted := (countFrom 0 8).filter fun j => (c.slot j).valid && (c.slot j).weight != 0
  let had := weighted.filter fun j => readyCtx.contains (c.slot j).ctx.toNat
  let c := match leastPass c had with
    | none => c
    | some m =>
      let p := (c.slot m).pass
      weighted.foldl (fun c j =>
        if had.contains j || !passAhead p (c.slot j).pass then c else c.setSlot j { c.slot j with pass := p }) c
  (countFrom 0 8).foldl Core.reweigh { c with picks := 0, vpicks := 0, spicks := 0, pickedWarps := [] }

/-- Whether a cycle of a quad's own clock ends with the cycle of the reference clock: it runs at 25 MHz × step, 28 steps making
the reference (R3, R468). -/
def Qvf.ticks (q : Qvf) : Bool := decide (28 ≤ q.phase + q.curf.toNat)

/-- A reference cycle on a quad: what has passed of its own cycle, and the pushes of that cycle once it ends. -/
def Quad.endCycle (q : Quad) : Quad :=
  if q.qvf.ticks then { q with pushes := [], qvf := { q.qvf with phase := q.qvf.phase + q.qvf.curf.toNat - 28 } }
  else { q with qvf := { q.qvf with phase := q.qvf.phase + q.qvf.curf.toNat } }

/-- A cycle boundary: the picks end on every core whose quad's own cycle ends, a SHIFT due in the cycle is in force, and the
clock counts on (R3, R109). A context counts as having had a ready warp when it was picked in the cycle or has one ready now. -/
def State.endCycle (s : State) : State :=
  let s : State := { s with clock := s.clock + 1, dies := s.dies.map fun p => (p.1, (p.2.applyShift s.clock).getD p.2) }
  { s with
      cores := s.cores.map fun p =>
        if !(s.quad (quadOf p.1)).qvf.ticks then p
        else
          let r := s.warps.filter fun q => q.2.core == p.1 && ((q.2.ready && !s.barred q.1 q.2) || p.2.pickedWarps.contains q.1)
          (p.1, p.2.endCycle (r.map fun q => q.2.ctx))
      quads := s.quads.map fun p => (p.1, p.2.endCycle) }

/-! ## Fetch and decode -/

/-- What a warp executes next. -/
structure Fetched where
  instr : Instr
  len : Nat
  header : Bool
  vec : Bool
  stall : Option (Nat × Word) := none
  deriving DecidableEq, Repr

def fetchTrap (f : WFault) (va : Word) : Instr :=
  .instructionFetchFault { cause := f.1, detail := BitVec.ofNat 8 f.2, faddr := va }

/-- A word that is not fetched: its fault, or for a peer without a route the place and address it waits for (R141). -/
def fetchStop (f : FetchStop) (va : Word) (len : Nat) (header vec : Bool) : Fetched :=
  match f with
  | .fault e => { instr := fetchTrap e va, len := len, header := header, vec := vec }
  | .stall pa =>
    { instr := fetchTrap (Cause.peerAccess, 0) va, len := len, header := header, vec := vec, stall := some (pa, va) }

/-- The next instruction of a warp: a header when its clause has no words left, else a word of the clause, with its
second word where it has one (R202). A word that decode refuses takes the illegal-instruction trap (R220); one that
cannot be fetched, the fetch's fault (R200); one that no route reaches now is waited for (R141). A second word that cannot be
fetched is reported with its own address in faddr and the first word's in fpc, after the checks of steps 2 to 4 of R220 on the
first word and before those of steps 5 to 9. (DESIGN CHOICE, log 56) -/
def fetchNext (s : State) (w : Warp) : State × Fetched :=
  match fetchWord s w.who w.pc with
  | .error f => (s, fetchStop f w.pc 1 (w.clause.left == 0) false)
  | .ok (s, w0) =>
    if w.clause.left = 0 then
      match decodeHeader w0 with
      | .error n => (s, { instr := .illegalInstruction (BitVec.ofNat 8 n), len := 1, header := true, vec := false })
      | .ok i => (s, { instr := i, len := 1, header := true, vec := false })
    else
      let vec := vectorUnit w0
      match prelude w0 w.clause.left w.clause.first with
      | some n => (s, { instr := .illegalInstruction (BitVec.ofNat 8 n), len := 1, header := false, vec := vec })
      | none =>
        let second : Except FetchStop (State × Word) := if longOf w0 then fetchWord s w.who (w.pc + 8) else .ok (s, 0)
        match second with
        | .error f => (s, fetchStop f (w.pc + 8) 2 false vec)
        | .ok (s, w1) =>
          match decodeCore w0 w1 w.clause.left w.clause.first with
          | .error n => (s, { instr := .illegalInstruction (BitVec.ofNat 8 n), len := 1, header := false, vec := vec })
          | .ok i => (s, { instr := i, len := i.length, header := false, vec := vec })

/-- A lane-wise vector arithmetic, conversion or special-function instruction whose source modifiers are all identity
class, or a relaxed load: what a split executes by itself (R98). vldexp and vexpmax are lane-wise by R283; vq4scl reads every
lane. A load whose lanes turn out to take the constant path rejoins when it executes. (DEDUCED, log 25) -/
def splitRuns : Instr → Bool
  | .ldG f | .ldG2 f | .ldG4 f => f.ord == .relaxed
  | .vq4scl _ => false
  | i =>
    match shapeOf i with
    | .a major fn _ f =>
      ((decide (0x30 ≤ major) && decide (major ≤ 0x34)) || (major == 0x63 && (fn == 1 || fn == 2)))
      && modIdentity f.modA && modIdentity f.modB && modIdentity f.modC
    | _ => false

/-- Whether a split warp rejoins at an instruction: at a header that waits for flag A of the load's clause, and at any
instruction that a split does not execute by itself (R98). -/
def rejoins (flag : Option Nat) : Instr → Bool
  | .clauseHeader h => match flag with | some n => h.wait.getLsbD n | none => false
  | i => !splitRuns i

/-- A warp at the start of an instruction: pc past its words, the clause counted down, one instruction retired; a header is none.
Entries of the matrix queue that ran for its contractions count for the same instruction only (R376). -/
def Warp.begin (w : Warp) (f : Fetched) (now : Nat) : Warp :=
  let split := match w.split with | some a => if rejoins a f.instr then none else some a | none => none
  let w := { w with ipc := w.pc, pc := w.pc + BitVec.ofNat 64 (8 * f.len), wait := .run, split := split }
  if f.header then { w with clause := { w.clause with first := true } }
  else
    { w with clause := { w.clause with left := w.clause.left - f.len, first := false }
             retired := w.retired + 1, qend := w.det && decide (1024 ≤ w.retired + 1), stamp := now
             credit := if w.creditAt = some (w.retired, w.ipc) then w.credit else [], creditAt := none }

/-- The state in which warp `k`, picked from a slot of core `n`, executes the instruction fetched. -/
def State.issued (s : State) (n k : Nat) (w : Warp) (slot : Nat) (f : Fetched) : State :=
  let s := if f.header then s else s.setCore n ((s.core n).take k slot true f.vec)
  { s.setWarp k (w.begin f (s.clock.toNat * 16 + (s.core n).picks)) with cur := k }

/-- Whether a qualifier acquires at a scope, and whether it releases: at warp scope it orders nothing beyond program order
(R156). -/
def acquiresAt (o : Ord2) (sc : Scope) : Bool := (o == .acq || o == .acqrel) && sc != .warp
def releasesAt (o : Ord2) (sc : Scope) : Bool := (o == .rel || o == .acqrel) && sc != .warp

/-- What an instruction orders against the warp's own ordered atomics and releases that are not yet performed: nothing; itself
after an acquire among them, and for one that writes after a release fence (R157, R160); or itself after every one of them, as
an acquire fence, a JOIN, an acq-rel atomic, a barrier or a write-back (R160, R164, R315, R321). -/
inductive OrdNeed where
  | none | read | write | all
  deriving DecidableEq, Repr

/-- A release access, a TLADV, a launch, an arrival and a push go on as releases of their own, and commands of engines hold only the
engine (R158, R181, `State.gated`). -/
def ordNeed : Instr → OrdNeed
  | .fence f => if acquiresAt f.ord f.scope then .all else .none
  | .pfence _ | .join _ | .wback _ | .barSync _ | .phend _ | .cancel _ | .cancelClr _ | .tsnap _ => .all
  | .tladv _ | .copy _ | .copy2d _ | .copykb _ | .gather _ | .krun _ | .coll _ | .cldb _ | .cldg _ | .cldk _ | .cmac3 _
  | .cmac _ | .cshift _ | .cdrain _ | .czero _ | .tforce _ | .tstore _ | .lpnor _ | .lpnortri _ | .lpnot _
  | .lpinit _ | .lprdv _ | .lpwrv _ | .lpcnt _ | .lpremap _ | .lpbudget _ | .lpselVector _ | .lpselMemory _ | .lpstat _
  | .lpstatClr _ | .lpstatIss _ | .call _ | .tleaf _ | .tcontract _ | .tewise _ | .trowred _ | .tmap _ | .tcast _
  | .ctxsave _ => .write
  | .glaunch _ | .ret _ | .waitt _ | .waitv _ _ | .barWait _ | .gwait _ | .tqpop _ | .tqpopNw _ | .tqsteal _ | .ctxrest _ => .read
  | i =>
    match shapeOf i with
    | .m major _ _ f =>
      if major = 0x70 then .read
      else if major = 0x71 ∨ major = 0x72 ∨ major = 0x73 then (if f.ord == .acqrel && f.scope != .warp then .all else .write)
      else .none
    | _ => .none

/-- Whether a kept release answers its warp with a number, a phase or a count. -/
def RelOp.answers : RelOp → Bool
  | .acc _ | .tladv .. => false
  | _ => true

/-- Whether warp `k` has ordered lanes or releases that are not yet performed. -/
def State.unperformed (s : State) (k : Nat) : Bool := (s.ordbuf.any fun o => o.warp == k) || s.rels.any fun r => r.warp == k

/-- Whether an instruction may read or write scalar register `d`, or leaves the mode or the program, where every register counts. -/
def touches (i : Instr) (d : Nat) : Bool :=
  let is (r : BitVec 6) : Bool := r.toNat == d
  match i with
  | .tret _ | .preack _ | .ctxsave _ | .ctxrest _ | .exit _ => true
  | .waitv _ f => is f.b || is f.d
  | i =>
    match shapeOf i with
    | .a _ _ _ f => is f.d || is f.a || is f.b || is f.c
    | .m _ _ _ f => is f.b
    | .e _ _ _ f => is f.d || is f.a || is f.b || is f.c
    | .br _ _ f => is f.s
    | _ => false

/-- Whether an instruction waits for the fixed-class result of a kept release of warp `k`: it names the register, or ends the warp
(R158, R204). -/
def State.interlocked (s : State) (k : Nat) (i : Instr) : Bool :=
  (((s.warp? k).map fun w => w.pend.any fun p => (p.fixed.map (touches i)).getD false).getD false)
  || ((i matches .exit _) && s.rels.any fun r => r.warp == k && r.op.answers)

/-- Whether an instruction of warp `k` waits for its own ordered lanes and releases. -/
def State.ordHolds (s : State) (k : Nat) (i : Instr) : Bool :=
  s.interlocked k i ||
  let acquired := s.ordbuf.any fun o => o.warp == k && acquiresAt o.acc.ord o.acc.scope
  match ordNeed i with
  | .none => false
  | .read => acquired
  | .write => acquired || (s.ordbuf.any fun o => o.warp == k && o.fenced) || s.rels.any fun r => r.warp == k && r.fenced
  | .all => s.unperformed k

/-- Whether an engine operation or a release of warp `k`, known by its token, waits for ordered lanes and releases of the warp
that precede it (R158, R181). -/
def State.gated (s : State) (k tok : Nat) : Bool :=
  (s.ordbuf.any fun o => o.warp == k && decide (o.acc.tok < tok)) || s.rels.any fun r => r.warp == k && decide (r.tok < tok)

/-- The state in which a picked warp waits at an instruction that has not begun. -/
def State.heldBack (s : State) (n k : Nat) (w : Warp) (slot : Nat) (f : Fetched) (wt : Wait) : State :=
  (s.setCore n ((s.core n).take k slot false false)).setWarp k
    ((w.begin f (s.clock.toNat * 16 + (s.core n).picks)).redo wt)

/-- The state in which a warp waits for a word of its next instruction that no route reaches now (R141). -/
def State.stalled (s : State) (n k : Nat) (w : Warp) (slot : Nat) (f : Fetched) (p : Nat × Word) : State :=
  s.heldBack n k w slot f (.present [p.1] p.2 false)

/-! ## Kiosk words -/

/-- The next word of a Kiosk run, if its program has one (R123): an instruction and its length. A long instruction whose
second word lies past the program's end is an illegal one. (DESIGN CHOICE, log 70) -/
def KState.fetch (r : KState) : Instr × Nat :=
  match r.prog.drop r.pc with
  | [] => (.kioskIllegalInstruction, 0)
  | w0 :: rest =>
    match decodeKiosk w0 (rest.headD 0) (rest.length + 1) with
    | none => (.kioskIllegalInstruction, 0)
    | some i => (i, i.length)

/-- An instruction that acts on every bank (R136). -/
def allBank : Instr → Bool
  | .kioskVadd _ | .kioskVsub _ | .kioskVmul _ | .kioskVfma _ | .kioskVmax _ | .kioskVmin _ | .kioskVmov _
  | .kioskColumnRead _ | .kpush _ | .kelse _ | .kpop _ | .kread _ => true
  | _ => false

/-- Whether a bank has postponed as many refreshes as the standard allows: one more could fall due within 64 ns (R136). -/
def Kiosk.full (k : Kiosk) : Bool := k.postponed.any fun p => decide (Config.allow.toNat ≤ p.2)

/-- The state in which a channel's run executes its next instruction; a pause ends there (R136 to R138). -/
def State.kioskIssued (s : State) (ch : Nat) (k : Kiosk) (r : KState) (len : Nat) : State :=
  { s.setKiosk ch { k with run := some { r with pc := r.pc + len, paused := false }, cause := 0 } with kcur := ch }

end Sys2Proof.Machine
end

