-- ==== Sys2Proof/Machine/Devices.lean ====
section
/-! DEFINITION. What writes of the device registers of R36 do, each behaviour as an operation of its own that the events of
its register share. -/

namespace Sys2Proof.Machine

open Sys2Proof

/-! ## Roots and segments (R42, R48, R49) -/

/-- A root that may be written: reserved bits zero, BASE in HBM5. -/
def rootOk (v : Word) : Bool := v.extractLsb' 52 12 == 0 && v.extractLsb' 1 11 == 0 && inHbm (entryPA v.toNat)

/-- A write of ROOTU of a context, or of ROOTS. -/
def State.writeRoot (s : State) (c : Option Nat) (v : Word) : State :=
  if !rootOk v then s
  else match c with
    | none => { s with roots := v }
    | some c => s.setCtx c { s.ctx c with rootu := v }

/-- A write of an inbound segment entry. -/
def State.writeInbound (s : State) (e : Nat) (v : Word) : State :=
  if v.extractLsb' 52 12 != 0 || v.extractLsb' 3 27 != 0 then s else { s with inbound := tset s.inbound e v }

/-! ## HBM5 frequency states (R114 to R118) -/

/-- The next group starts to retrain towards the target, if one is left; its PEND bit is cleared as it starts. (DESIGN CHOICE,
log 71) -/
def Hbm.start (h : Hbm) : Hbm :=
  match h.todo with
  | [] => { h with cur := none }
  | g :: r => { h with cur := some (g, h.target), todo := r }

/-- A request for a state: a change in progress is superseded. The groups that it had still to retrain come first, and then every
other group in ascending order, the one now retraining and those already there too (R114, R116); a request equal to TARGET while
PEND is nonzero supersedes as well. (DESIGN CHOICE, log 71) -/
def Hbm.request (h : Hbm) (r : BitVec 2) : Hbm :=
  match h.cur with
  | some _ =>
    { h with super := if h.reached then h.super else h.super + 1, target := r, reached := false
             todo := h.todo ++ (countFrom 0 4).filter fun g => !h.todo.contains g }
  | none => { h with target := r, todo := countFrom 0 4, reached := false }.start

/-- A group finishes its retraining, and the next pending one starts. -/
def Hbm.groupDone (h : Hbm) : Option Hbm :=
  match h.cur with
  | none => none
  | some (g, st) =>
    some { h with gstate := h.gstate.set (g % 4) st (Nat.mod_lt _ (by decide)), pcount := h.pcount + 1
                  reached := h.reached || st == h.target }.start

/-- A write of HBMREQ (R118). -/
def State.writeHbmreq (s : State) (k : Nat) (v : W32) : State :=
  let h := s.hbmOf k
  let r := v.extractLsb' 0 2
  if v.extractLsb' 2 30 != 0 || (r == h.target && h.pend == 0) then s else { s with hbm := tset s.hbm k (h.request r) }

/-! ## Voltage and frequency (R469, R470) -/

/-- A number moved towards another by at most two. -/
def towards (a b : BitVec 8) : BitVec 8 :=
  if a.toNat < b.toNat then (if a.toNat + 2 ≤ b.toNat then a + 2 else b)
  else if b.toNat + 2 ≤ a.toNat then a - 2 else b

/-- Where the next segment towards the newest target ends: one frequency step, or at most 10 mV; none at the target. -/
def Qvf.ahead (q : Qvf) : Option (BitVec 8 × BitVec 5) :=
  let want := Config.volts q.target.toNat
  if q.curf.toNat < q.target.toNat then
    some (if q.curv.toNat < want.toNat then (towards q.curv want, q.curf) else (q.curv, q.curf + 1))
  else if q.target.toNat < q.curf.toNat then some (q.curv, q.curf - 1)
  else if q.curv = want then none
  else some (towards q.curv want, q.curf)

/-- A segment begins, where one is needed. -/
def Qvf.begin (q : Qvf) : Qvf := { q with seg := q.ahead, ramp := q.ahead.isSome }

/-- A request for a step: it supersedes those not yet started, and the segment in progress completes first (R469). -/
def Qvf.request (q : Qvf) (step : BitVec 5) : Qvf :=
  if step = q.target then q
  else
    let q := { q with super := if q.ramp then q.super + 1 else q.super, target := step }
    if q.seg.isSome then q else q.begin

/-- The segment in progress completes, and the next one heads for the newest target. -/
def Qvf.segment (q : Qvf) : Qvf :=
  match q.seg with
  | some x => ({ q with curv := x.1, curf := x.2 } : Qvf).begin
  | none => q.begin

def inRange (v lo hi : Nat) : Bool := decide (lo ≤ v) && decide (v ≤ hi)

/-- Whether a hard throttle holds a quad at step 4 (R474). -/
def State.quadHeld (s : State) (u : Nat) : Bool := (countFrom (4 * u) 4).any fun n => (s.sensOf (s.physOf n)).throt

/-- A quad asked for a step, unless a throttle holds it. -/
def State.askStep (s : State) (u : Nat) (step : BitVec 5) : State :=
  if s.quadHeld u then s else s.setQuad u { s.quad u with qvf := (s.quad u).qvf.request step }

/-- A quad that a throttle has held and holds no longer goes back to the step that firmware asks of it (R474). -/
def State.unhold (s : State) (u : Nat) (was : Bool) : State :=
  let q := (s.quad u).qvf
  if was && !s.quadHeld u then s.askStep u (if s.supply.droop then q.droopf else q.reqf) else s

/-- A write of QVF. -/
def State.writeQvf (s : State) (u : Nat) (v : Word) : State :=
  let req := v.extractLsb' 0 5
  let droop := v.extractLsb' 8 5
  let cad := v.extractLsb' 16 5
  if v.extractLsb' 48 16 != 0 || v.extractLsb' 21 5 != 0 || v.extractLsb' 13 3 != 0 || v.extractLsb' 5 3 != 0
      || !inRange req.toNat 4 28 || !inRange droop.toNat 4 28 || !inRange cad.toNat 1 16 then s
  else
    let q := s.quad u
    (s.setQuad u { q with qvf := { q.qvf with reqf := req, droopf := droop, cadbase := cad } }).askStep u req

/-! ## Contexts (R456 to R462) -/

/-- The counts of a stopped warp: only results still owed are counted, none of an instruction not yet issued (R207). -/
def Warp.recount (w : Warp) : Warp :=
  let n (f : Option Nat) : Nat := (w.pend.filter fun p => p.fixed.isNone && p.flag == f).length
  { w with flags := Vector.ofFn fun i => n (some i.val), unfl := n none
           clause := { w.clause with owedA := 0, owedB := 0 } }

/-- A warp stopped at its instruction boundary: ready results arrive, and a waitv or a pop that still waits is saved as not yet
executed (R207, R282). (DEDUCED, log 55) -/
def Warp.stop (w : Warp) : Warp :=
  let w := { w.deliver with status := .stopped, split := none }
  (match w.wait with
    | .waitv _ => w.redo .run
    | .tqpop _ _ _ tok => (w.forget tok).redo .run
    | _ => w).recount

/-- Every live warp of a context stopped. -/
def State.stopWarps (s : State) (c : Nat) : State :=
  { s with warps := s.warps.map fun p => if p.2.ctx = c ∧ p.2.status = .live then (p.1, p.2.stop) else p }

/-- An entry suspended: its waiting goes on from what it had accrued (R346). -/
def CubeEnt.suspend (e : CubeEnt) (now : Word) : CubeEnt := { e with st := .suspended, since := now }

/-- The cube's running entries of a context suspended at a k-step boundary (R350). -/
def Core.stopCube (x : Core) (now : Word) (c : Nat) : Core :=
  { x with cq := x.cq.map fun e => if e.ctx = c ∧ e.st = .running then e.suspend now else e }

def State.stopCube (s : State) (c : Nat) : State := { s with cores := s.cores.map fun p => (p.1, p.2.stopCube s.clock c) }

/-- A context's Kiosk runs stopped at their instruction boundaries, with the pause marked (R135). -/
def Kiosk.stop (k : Kiosk) (c : Nat) : Kiosk :=
  match k.run with
  | some r => if r.run.ctx = c then { k with run := none, saved := k.saved ++ [{ r with preempted := true }], openRow := [], postponed := [], cause := 0 } else k
  | none => k

def State.stopKiosks (s : State) (c : Nat) : State := { s with kiosks := s.kiosks.map fun p => (p.1, p.2.stop c) }

/-- The saved warps of a context run again. -/
def State.wakeCtx (s : State) (c : Nat) : State :=
  { s with warps := s.warps.map fun p =>
      if p.2.ctx = c ∧ (p.2.status = .stopped ∨ p.2.status = .halted) then
        (p.1, { p.2 with status := .live, preacked := false }) else p }

/-- RESUME: the saved context becomes resident and its warps run again; those of frozen dies do at the thaw (R485).
(DESIGN CHOICE, log 38) -/
def State.resumeCtx (s : State) (c : Nat) : State :=
  let x := s.ctx c
  if x.res then s
  else
    let s := s.setCtx c { x with res := true, done := false, halt := false, brk := false, preq := false, acks := 0 }
    if s.frozen then s else s.wakeCtx c

/-- The lines a tracked operation has still to deliver count one fewer each (R84). -/
def Core.lineDown (x : Core) (line : Nat) : Core := { x with absent :=
  (let n := tgetD x.absent line 0
   if n ≤ 1 then tdel x.absent line else tset x.absent line (n - 1)) }

/-- The logical core and line of a scratchpad alias byte. -/
def spCoreLine (pa : Nat) : Nat × Nat := ((pa - spBase) / 0x100000, (pa - spBase) % 0x100000 / 128)

/-- The scratchpad lines that an operation's undelivered pieces touch, each once. -/
def MemOp.lines (o : MemOp) : List (Nat × Nat) :=
  ((o.pieces.filter fun p => p.dkind = .scratch).map fun p => spCoreLine p.dst).eraseDups

/-- The lines whose counts an operation still holds (R78, R84). -/
def MemOp.counted (o : MemOp) : List (Nat × Nat) := o.lines.filter fun x => !o.dead.contains x

/-- The scratchpad lines of translated places, each once. -/
def xlatLines (l : List Xlat) : List (Nat × Nat) :=
  ((l.flatMap fun x => scratchLines x.kind x.pa x.len).map spCoreLine).eraseDups

/-- The scratchpad lines that a collective writes for its participant (R326). -/
def CollCmd.lines (c : CollCmd) : List (Nat × Nat) := xlatLines c.dst
def CollCmd.counted (c : CollCmd) : List (Nat × Nat) := c.lines.filter fun x => !c.dead.contains x

def State.lineDown (s : State) (x : Nat × Nat) : State := s.setCore x.1 ((s.core x.1).lineDown x.2)

/-- Whether an operation stands where a pre-emption stops it: not begun, a copy between chunks of 4 KiB of its destination, a
gather between groups of 32 elements (R84, R457), or where a peer lets it go no further. -/
def MemOp.atPoint (o : MemOp) : Bool :=
  let total := sumNat (o.dst.map fun r => r.rows * r.row)
  let rest := sumNat (o.pieces.map fun p => p.len)
  match o.pieces with
  | [] => true
  | p :: _ => o.told || rest == total || (if o.gather then (total - rest) % (32 * p.len) == 0 else p.dst % 4096 == 0)

/-- Whether a core that moves has its copies and gathers at their points: its other engines then rest too (R467). -/
def Core.paused (c : Core) : Bool := c.moving && c.ops.all MemOp.atPoint

/-- Whether every copy and gather of a context stands at its point. -/
def State.copiesRest (s : State) (c : Nat) : Bool := s.cores.all fun p => p.2.ops.all fun o => o.ctx != c || o.atPoint

/-- Whether a cube entry stands where a pre-emption stops it: a drain that has written a row is finished first; an entry that only
waits in its unit for its operand lines has not begun (R350). -/
def CubeEnt.atPoint (e : CubeEnt) : Bool := e.st != .running || e.step == 0 || !(e.cmd matches .drain ..)

/-- Operations of a context dropped: their numbers, their tokens. -/
def TlSet.drop (t : TlSet) (l : List (Nat × Nat)) : TlSet := { t with dropped := t.dropped ++ l }

/-- One core's operations of a context dropped (R462). -/
def State.dropCore (s : State) (c n : Nat) : State :=
  let x := s.core n
  let ops := x.ops.filter fun o => o.ctx = c
  let s := (ops.flatMap MemOp.counted).foldl State.lineDown s
  let x := s.core n
  let cq := x.cq.filter fun e => e.ctx = c
  let pq := x.pq.filter fun e => e.ctx = c
  let nums := (ops.map fun o => (o.tl, o.num)) ++ (cq.filterMap fun e => if e.num = 0 then none else some (5, e.num))
    ++ (pq.map fun e => (7, e.num))
  let toks := (cq.map fun e => (e.warp, e.tok)) ++ (pq.map fun e => (e.warp, e.tok))
  let s := s.setCore n { x with ops := x.ops.filter fun o => o.ctx ≠ c
                                cq := x.cq.filter fun e => e.ctx ≠ c
                                pq := x.pq.filter fun e => e.ctx ≠ c }
  let s := if nums.isEmpty then s else s.setTl c n ((s.tl c n).drop nums)
  toks.foldl (fun s p => match s.warp? p.1 with | none => s | some w => s.setWarp p.1 (w.forget p.2)) s

/-- A number dropped on its core. -/
def State.dropNum (s : State) (ctx core k n : Nat) : State := s.setTl ctx core ((s.tl ctx core).drop [(k, n)])

/-- Every run a Kiosk holds. -/
def Kiosk.runs (k : Kiosk) : List KRun :=
  k.queue ++ (k.saved.map fun r => r.run) ++ (match k.run with | some r => [r.run] | none => [])

/-- A Kiosk without the runs of a context (R462). -/
def Kiosk.drop (k : Kiosk) (c : Nat) : Kiosk :=
  let mine := (k.run.map fun r => decide (r.run.ctx = c)).getD false
  { k with queue := k.queue.filter fun r => r.ctx ≠ c
           saved := k.saved.filter fun r => r.run.ctx ≠ c
           run := if mine then none else k.run
           cause := if mine then 0 else k.cause }

/-- The tokens that a warp's held entries owe. -/
def heldTokens (w : Warp) : List Nat :=
  w.held.filterMap fun h => match h with
    | .acc a => some a.tok
    | .cmd c | .overlap c _ => some c.tok
    | .mat _ _ _ owed .. => owed.map fun o => o.tok
    | _ => none

/-- Entries that will not be performed: what they owe is forgotten, and their lines count as delivered; `keep` stays held. -/
def dropHeld (s : State) (k : Nat) (l keep : List HeldOp) : State :=
  let s := l.foldl (fun s h => match h with | .mat _ _ lines .. => lines.foldl State.lineDown s | _ => s) s
  match s.warp? k with
  | none => s
  | some w =>
    let w := (heldTokens { w with held := l }).foldl Warp.forget w
    let w := match w.wait with | .tqpop _ _ _ tok => (w.forget tok).redo .run | _ => w
    s.setWarp k { w with held := keep }

/-- Every operation of a context that has not completed dropped, with the results they owe. -/
def State.dropOps (s : State) (c : Nat) : State :=
  let s : State := (s.cores.map Prod.fst).foldl (fun s n => State.dropCore s c n) s
  let runs : List KRun := s.kiosks.flatMap fun p => p.2.runs.filter fun r => r.ctx = c
  let s : State := runs.foldl (fun s r => State.dropNum s c r.core 8 r.num) s
  let s : State := { s with kiosks := s.kiosks.map fun p => (p.1, p.2.drop c) }
  let s : State := (s.colls.filter fun x => x.ctx = c).foldl (fun s x =>
    x.counted.foldl State.lineDown (State.dropNum s c x.core 9 x.num)) s
  let s : State := { s with colls := s.colls.filter fun x => x.ctx ≠ c }
  let gone : List RelBuf := s.rels.filter fun r => r.op.answers && ((s.warp? r.warp).map fun w => w.ctx == c).getD false
  let s : State := gone.foldl (fun s r => match s.warp? r.warp with | some w => s.setWarp r.warp (w.forget r.tok) | none => s)
    { s with rels := s.rels.filter fun r => !gone.contains r }
  s.warps.foldl (fun s p =>
    if p.2.ctx ≠ c then s
    else
      let s := if p.2.held.isEmpty then s else dropHeld s p.1 p.2.held []
      match p.2.wait, s.warp? p.1 with
      | .eval _ num tok _ lines, some w =>
        (lines.foldl State.lineDown (if p.2.det then s else State.dropNum s c p.2.core 6 num)).setWarp p.1
          { w.forget tok with wait := .run }
      | _, _ => s) s

/-- A context torn down: its incomplete operations are dropped, and no core's array is its own any more (R349, R462). -/
def State.tearDown (s : State) (c : Nat) : State :=
  let s := s.dropOps c
  let s : State := { s with cores := s.cores.map fun p =>
    (p.1, if p.2.owner = some c then { p.2 with owner := none, saved := tset p.2.saved c p.2.array, array := .init } else p.2) }
  s.setCtx c { s.ctx c with kill := false }

/-- KILL: every agent of the context stops as in a pre-emption, and once it has, the context is torn down (R462); on frozen dies
nothing changes before the thaw (R486). -/
def State.killCtx (s : State) (c : Nat) : State :=
  let s := s.requestStop c
  if (s.ctx c).done && !s.frozen then s.tearDown c else s.setCtx c { s.ctx c with kill := true }

/-- A class acknowledges, the warps with the classes that took work of theirs while they came to their points; with the last, DONE
and RES change in one step, and a KILL tears the context down (R457, R462). -/
def State.clearAck (s : State) (c : Nat) (cls : EngClass) : State :=
  let x := s.ctx c
  let joined := if cls = .warps then s.classesOf c &&& 0xFE else 0
  let acks := (x.acks ||| joined) &&& ~~~(BitVec.ofNat 8 (2 ^ ackIndex cls))
  if acks = 0 then
    let s := s.setCtx c { x with acks := 0, done := true, res := false, preq := false }
    if x.kill then s.tearDown c else s
  else s.setCtx c { x with acks := acks }

/-- A class's state is saved in the context's save area, whose layout is not given: 512 bytes of free values for each class in the
order of ACKS; an array that passes from its owner to another context is saved so too (R349, R457). (DESIGN CHOICE, log 38) -/
def State.saveClass (s : State) (c : Nat) (cls : EngClass) : State :=
  let base := (s.ctx c).saveb.toNat + 512 * ackIndex cls
  let s := (countFrom 0 4).foldl (fun s i =>
    s.putHome .cached (base + 128 * i) ((countFrom (128 * i) 128).map fun j => (Config.freeLane s.free j).setWidth 8)) s
  { s with free := s.free + 1 }

/-- One class of a context stops at its point (R457): warps, cube and Kiosk leave their running state; the other
classes' operations stay where they are, since they move only while their context is resident. What a resumption restores stays
in the model's own fields. (DESIGN CHOICE, log 38) -/
def State.stopClass (s : State) (c : Nat) (cls : EngClass) : State :=
  ((match cls with
    | .warps => s.stopWarps c
    | .cube => s.stopCube c
    | .kiosk => s.stopKiosks c
    | _ => s).saveClass c cls).clearAck c cls

/-- A write of CTXCTL. -/
def State.writeCtxctl (s : State) (c : Nat) (v : Word) : State :=
  if v.extractLsb' 20 4 != 0 || v.extractLsb' 8 8 != 0 || v.extractLsb' 4 2 != 0 then s
  else
    let s := s.setCtx c { s.ctx c with slice := v.extractLsb' 32 16, dbg := v.getLsbD 7, co := v.getLsbD 6 }
    let s := if v.getLsbD 1 then s.requestStop c else s
    let s := if v.getLsbD 2 then s.resumeCtx c else s
    if v.getLsbD 3 then s.killCtx c else s

/-- A write of CTXSLOT: a slot that becomes valid takes the least PASS of the core's other weighted contexts (R427); a WEIGHT
that changes takes effect at the next cycle boundary (R426). -/
def State.writeCtxslot (s : State) (n j : Nat) (v : Word) : State :=
  if v.extractLsb' 17 47 != 0 || v.extractLsb' 12 4 != 0 then s
  else
    let c := s.core n
    let old := c.slot j
    let weight := v.extractLsb' 8 4
    let valid := v.getLsbD 16
    let fresh := valid && !old.valid
    s.setCore n (c.setSlot j
      { valid := valid, weight := old.weight, next := if weight = old.weight then none else some weight, ctx := v.extractLsb' 0 8, pass := if fresh then c.freshPass j else old.pass })

/-! ## User queues (R463 to R465) -/

def mem32 (s : State) (a : Nat) : Nat := bytesNat (memReadN s.mem a 4)
def State.put32 (s : State) (a v : Nat) : State := s.putHome .cached a (natBytes 4 v)

def State.setUq (s : State) (q : Nat) (u : Uq) : State := { s with uq := tset s.uq q u }

/-- Units added to the memory count of the queue that is mapped, or was last, by a device-scope atomic: a QADDR written since
its unmap names another queue (R464). -/
def State.addCount (s : State) (q n : Nat) : State :=
  let u := s.uqOf q
  let a := (if u.mapped then u.qaddr else u.last.getD u.qaddr).toNat + 8
  if n = 0 then s else s.put32 a ((mem32 s a + n) % 2 ^ 32)

/-- Units moved from the memory count into PEND. -/
def State.takeCount (s : State) (q : Nat) : State :=
  let u := s.uqOf q
  let a := u.qaddr.toNat + 8
  let n := min (mem32 s a) 65535
  if n = 0 then s else (s.put32 a (mem32 s a - n)).setUq q { u with pend := BitVec.ofNat 16 n }

/-- A notify of n units. -/
def State.notify (s : State) (q : Nat) (ctx : Option Nat) (n : Nat) : State :=
  let u := s.uqOf q
  if n = 0 ∨ 65535 < n ∨ (ctx.isSome ∧ ctx ≠ some u.ctx.toNat) then s
  else if !u.mapped then s.addCount q n
  else
    let t := u.pend.toNat + n
    if t ≤ 65535 then s.setUq q { u with pend := BitVec.ofNat 16 t }
    else (s.setUq q { u with pend := 65535 }).addCount q (t - 65535)

/-- Whether a memory descriptor permits a map. -/
def uqOk (s : State) (qaddr : Nat) : Bool :=
  let rsize := mem32 s (qaddr + 0xC)
  inHbm (memWord s qaddr)
  && ((countFrom 4 12).any fun k => rsize == 2 ^ k)
  && !(s.mem.any fun c => decide (qaddr + 0x28 ≤ c.1) && decide (c.1 < qaddr + 0x1000))

/-- Unmapping: PEND joins the memory count. -/
def State.unmapUq (s : State) (q : Nat) : State :=
  let u := s.uqOf q
  (s.addCount q u.pend.toNat).setUq q { u with pend := 0, mapped := false, last := some u.qaddr }

/-- Mapping at the QADDR held, refused where the descriptor is out of limits. -/
def State.mapUq (s : State) (q : Nat) : State :=
  let u := s.uqOf q
  if uqOk s u.qaddr.toNat then (s.setUq q { u with mapped := true, pend := 0 }).takeCount q else s

/-- A write of the word at offset 0 of UQDESC. -/
def State.writeUq0 (s : State) (q : Nat) (v : Word) : State :=
  let u := s.uqOf q
  let ctx := v.extractLsb' 8 8
  if v.extractLsb' 32 32 != 0 || v.extractLsb' 1 7 != 0 || (u.mapped && ctx != u.ctx) then s
  else
    let s := s.setUq q { u with ctx := ctx }
    if v.getLsbD 0 then (if u.mapped then s else s.mapUq q) else (if u.mapped then s.unmapUq q else s)

/-- A write of the word at offset 8. -/
def State.writeUq8 (s : State) (q : Nat) (v : Word) : State :=
  let u := s.uqOf q
  if v.extractLsb' 52 12 != 0 || v.extractLsb' 0 12 != 0 || u.mapped then s else s.setUq q { u with qaddr := v }

/-! ## The remaining registers -/

/-- A write of WSREF: SHIFT while LOCK is 0, in force from the next frame (R111). -/
def State.writeWsref (s : State) (d : Nat) (v : Word) : State :=
  let x := ((s.die d).applyShift s.clock).getD (s.die d)
  if s.kernelOn d then s else s.setDie d { x with shiftPend := some (v.extractLsb' 6 6, s.clock) }

def State.writeParkcfg (s : State) (d : Nat) (v : Word) : State :=
  if v.extractLsb' 52 12 != 0 || v.extractLsb' 12 8 != 0 then s else s.setDie d { s.die d with parkcfg := v }

def State.writeThcfg (s : State) (v : W32) : State :=
  if v.extractLsb' 8 24 != 0 || !inRange (v.extractLsb' 0 8).toNat 60 104 then s else { s with thcfg := v }

/-- DIS = 1 takes a port out of service; DIS = 0 lets a disabled one train again (R480). -/
def Port.disable (p : Port) : Port := { p with dis := true, st := .disabled, lanes := 0 }
def Port.enable (p : Port) : Port :=
  if p.st = .disabled then { p with dis := false, st := .down, fails := 0 } else { p with dis := false }

def State.setPort (s : State) (n : Nat) (p : Port) : State := { s with ports := tset s.ports n p }

def Port.inService (p : Port) : Bool := p.st == .up || p.st == .degraded

/-- The devices that ports in service lead to. -/
def State.reroute (s : State) : State :=
  { s with reachable := ((countFrom 0 16).filter fun n => (s.portOf n).inService).flatMap Config.peersOf }

/-- A port that leaves service has its unacknowledged flits to replay, each anew (R479). -/
def Port.rested (p : Port) : Port :=
  if p.inService then p else { p with sent := p.sent.map fun f => { f with replayed := false } }

def State.withPort (s : State) (n : Nat) (p : Port) : State := (s.setPort n p.rested).reroute

def State.writePeerst (s : State) (p : Nat) (v : Word) : State :=
  if v.extractLsb' 9 7 != 0 || v.getLsbD 3 then s
  else s.withPort p (if v.getLsbD 8 then (s.portOf p).disable else (s.portOf p).enable)

/-- FREEZE and THAW (R485, R486). -/
def State.freeze (s : State) : State := { s with bvctl := s.bvctl ||| 8 }
def State.thaw (s : State) : State :=
  let s : State := { s with bvctl := s.bvctl &&& ~~~8#32 }
  let s := ((s.ctxs.filter fun p => p.2.kill && p.2.done).map Prod.fst).foldl State.tearDown s
  ((s.ctxs.filter fun p => p.2.res && !p.2.preq).map Prod.fst).foldl State.wakeCtx s

/-- A write of BVCTL (R487). -/
def State.writeBvctl (s : State) (v : W32) : State :=
  if v.extractLsb' 16 16 != 0 || v.extractLsb' 4 4 != 0 then s
  else
    let frozen := s.frozen
    let s := { s with bvctl := (s.bvctl &&& 8) ||| (v &&& 0xFF01) }
    if frozen then (if v.getLsbD 2 then s.thaw else s) else if v.getLsbD 1 then s.freeze else s

def State.writeTqcfg (s : State) (i : Nat) (v : Word) : State :=
  if v.extractLsb' 9 55 != 0 then s
  else let q := s.quad (i / 16); s.setQuad (i / 16) { q with tqcfg := tset q.tqcfg (i % 16) v }

def State.writeLpown (s : State) (n : Nat) (v : Word) : State :=
  if v.extractLsb' 9 55 != 0 then s else { s with lpown := tset s.lpown n v }

/-- A write of LPLINE sets budget and counter (R405). -/
def State.writeLpline (s : State) (n a p : Nat) (v : Word) : State :=
  let x := s.plane n
  let k := lineKey (a == 1) p
  s.setPlane n { x with cnt := tset x.cnt k (v.extractLsb' 0 32), bud := tset x.bud k (v.extractLsb' 32 32) }

def State.writeSaveb (s : State) (c : Nat) (v : Word) : State :=
  if v.extractLsb' 52 12 != 0 || v.extractLsb' 0 12 != 0 then s else s.setCtx c { s.ctx c with saveb := v }

/-- A write of a device register; `ctx` is the writing warp's context, if a warp writes. -/
def State.regWrite (s : State) (r : RegId) (v : Word) (ctx : Option Nat) : State :=
  match r with
  | .devnum | .coreMap _ | .hbmst _ | .kstat _ | .sens _ | .bootst | .doorbellPad _ => s
  | .rootu c => s.writeRoot (some c) v
  | .roots => s.writeRoot none v
  | .inbound e => s.writeInbound e v
  | .hbmreq k => s.writeHbmreq k (v.setWidth 32)
  | .lpown n => s.writeLpown n v
  | .tqcfg i => s.writeTqcfg i v
  | .ctxslot n j => s.writeCtxslot n j v
  | .ctxctl c => s.writeCtxctl c v
  | .ctxsaveb c => s.writeSaveb c v
  | .uq0 q => s.writeUq0 q v
  | .uq8 q => s.writeUq8 q v
  | .qvf u => s.writeQvf u v
  | .thcfg => s.writeThcfg (v.setWidth 32)
  | .peerst p => s.writePeerst p v
  | .bvctl => s.writeBvctl (v.setWidth 32)
  | .lpline n a p => s.writeLpline n a p v
  | .wsref d => s.writeWsref d v
  | .parkcfg d => s.writeParkcfg d v
  | .doorbell q => s.notify q ctx (v.toNat % 2 ^ 32)

/-- A write of the register an address names, if it names one. -/
def State.regWriteTo (s : State) (r : Option (RegId × Nat × Nat)) (v : Word) (ctx : Option Nat) : State :=
  match r with
  | some (r, _, _) => s.regWrite r v ctx
  | none => s

/-- A register written by its physical address. -/
def State.regWriteAt (s : State) (pa : Nat) (v : Word) (ctx : Option Nat) : State := s.regWriteTo (regAt (pa - regBase)) v ctx

/-! ## Results owed -/

/-- Tokens of results that a core's cube and plane entries owe to a context. -/
def Core.owedTokens (c : Core) (ctx : Nat) : List Nat :=
  ((c.cq.filter fun e => e.ctx == ctx).map fun e => e.tok) ++ ((c.pq.filter fun e => e.ctx == ctx).map fun e => e.tok)

/-- Whether a warp is still owed a result by an engine that answers it in finite time (R207). A result that only the commit of
its round brings (R458), and one of an ordered lane that waits for its ticket (R170), arrive after a stop. (DEDUCED, log 55) -/
def State.owedWarp (s : State) (w : Warp) : Bool :=
  let toks := s.cores.flatMap fun p => p.2.owedTokens w.ctx
  w.pend.any fun y => !y.ready && toks.contains y.tok

/-- Whether a live warp of a context is still owed such a result. -/
def State.owesResults (s : State) (c : Nat) : Bool :=
  s.warps.any fun p => p.2.ctx == c && p.2.status == .live && s.owedWarp p.2

end Sys2Proof.Machine
end

