-- ==== Sys2Proof/Machine/Access.lean ====
section
/-! DEFINITION. Accesses of a warp: their addresses and checks (R305 to R307), where a load reads (R149), what a store,
an atomic and an ordered atomic do at the home (R143 to R170). -/

namespace Sys2Proof.Machine

open Sys2Proof

/-! ## Copies of lines -/

/-- The discard of a core's L1 (R157, R179). -/
def State.discardL1 (s : State) (n : Nat) : State := s.setCore n { s.core n with l1 := [] }

/-- The discard of a core's path caches (R193). -/
def State.discardPaths (s : State) (n : Nat) : State :=
  s.setCore n { s.core n with cc := [], tc := [], gc := [], pr := [] }

/-- The PEER field of a fault for a kind of access. -/
def peerField (need : Need) (code : BitVec 2) : BitVec 2 := if need.writes then code else 0

/-! ## Bytes at their places -/

/-- The bytes behind a peer address; what an access needs of its segment has been checked before (R39, R41). -/
def State.peerRead (s : State) (pa n : Nat) : List Byte :=
  match s.ownPa pa with
  | some a => memReadN s.mem a n
  | none => memReadN s.peerMem pa n

def State.peerWrite (s : State) (pa : Nat) (b : List Byte) : State :=
  match peerRoute s pa .store with
  | .local a => s.putHome (if regionOf a = .cap then .cap else .cached) a b
  | .remote => { s with peerMem := memWriteN s.peerMem pa b }
  | _ => s

/-- Bytes read at their home, whatever store they live in (R146). -/
def State.homeRead (s : State) (kind : LocKind) (pa n : Nat) : List Byte :=
  match kind with
  | .reg => natBytes n (s.regReadAt pa).toNat
  | .peer => s.peerRead pa n
  | .uncached => s.dramRead pa n
  | _ => memReadN s.mem pa n

/-- Bytes written at their home. -/
def State.homeWrite (s : State) (ctx : Nat) (kind : LocKind) (pa : Nat) (b : List Byte) : State :=
  match kind with
  | .reg => s.regWriteAt pa (BitVec.ofNat 64 (bytesNat b)) (some ctx)
  | .peer => s.peerWrite pa b
  | k => s.putHome k pa b

/-- Whether an uncorrectable error stands in the line of a byte at its home; a register has none, and another device answers
for itself. -/
def State.badAt (s : State) (kind : LocKind) (pa : Nat) : Bool :=
  match kind with
  | .reg => false
  | .peer => match s.ownPa pa with | some a => s.poison.contains (lineOf a) | none => false
  | .uncached => s.dramBad (lineOf pa)
  | _ => s.poison.contains (lineOf pa)

/-- A read at the home in L2 leaves no older copy of its line in the reading core's L1 (R149). -/
def State.refreshL1 (s : State) (n : Nat) (kind : LocKind) (pa : Nat) : State :=
  match s.cachedLine kind pa with
  | none => s
  | some line =>
    let c := s.core n
    if (copyGet c.l1 line).isSome then s.setCore n { c with l1 := copyPut c.l1 line (s.lineBytes line) } else s

/-- A load of a core: a load that reads the home replaces the core's L1 copy of its line, also one by a peer address of the own
device; another load may be served by the copy, and fills it on a miss (R39, R94, R149). Constant loads are served by the
constant cache (R29). -/
def State.loadBytes (s : State) (n : Nat) (home : Bool) (kind : LocKind) (pa len : Nat) : State × List Byte :=
  let c := s.core n
  let line := lineOf pa
  match kind with
  | .cached | .cap =>
    if home then (s.refreshL1 n kind pa, memReadN s.mem pa len)
    else
      match copyGet c.l1 line with
      | some b => (s, lineSlice b pa len)
      | none => (s.setCore n { c with l1 := copyFill 2048 c.l1 line (s.lineBytes line) }, memReadN s.mem pa len)
  | .const =>
    match copyGet c.cc line with
    | some b => if home then (s, memReadN s.mem pa len) else (s, lineSlice b pa len)
    | none => (s.setCore n { c with cc := copyFill 512 c.cc line (s.lineBytes line) }, memReadN s.mem pa len)
  | k => (s.refreshL1 n k pa, s.homeRead k pa len)

/-- A store of a core updates its own resident L1 copy on the way to the home, also one by a peer address of the own device
(R94, R152). -/
def State.storeBytes (s : State) (n ctx : Nat) (kind : LocKind) (pa : Nat) (b : List Byte) : State :=
  let s := s.homeWrite ctx kind pa b
  match s.cachedLine kind pa with
  | none => s
  | some line =>
    let c := s.core n
    match copyGet c.l1 line with
    | some old => s.setCore n { c with l1 := copyPut c.l1 line (lineWrite old pa b) }
    | none => s

/-! ## Lanes -/

/-- A lane's effective address (R309). -/
def laneEa (w : Warp) (f : FmtM) (lane : Nat) : Word :=
  w.getS f.b + (if f.voff then (readLane w (w.pos f.a) f.modA .i32 lane).signExtend 64 else 0) + ofsM f

/-- The registers from a stack position in one lane, as a number, low register first. -/
def laneWords (w : Warp) (pos lane : Nat) : Nat → Nat
  | 0 => 0
  | n + 1 => (laneGet (w.vAt pos) lane).toNat + 2 ^ 32 * laneWords w (pos + 1) lane n

/-- Result writes of the lanes' bytes: short loads extend by DT, longer ones fill consecutive registers (R309). -/
def laneValue (dt : DT) (size i : Nat) (b : List Byte) : W32 :=
  if size < 4 then
    let n := bytesNat b
    BitVec.ofInt 32 (if dt = .i8 ∨ dt = .i16 then signedW (8 * size) n else (n : Int))
  else BitVec.ofNat 32 (bytesNat ((b.drop (4 * i)).take 4))

def resultWrites (dt : DT) (size d : Nat) (l : List (Nat × List Byte)) : List RegWrite :=
  (countFrom 0 (max 1 (size / 4))).map fun i =>
    .v (d + i) (maskOf fun x => l.any fun p => p.1 == x)
      (lanesOf fun x => match l.find? fun p => p.1 = x with | some p => laneValue dt size i p.2 | none => 0)

/-! ## Presence and errors -/

/-- Whether a lane's line is absent (R81). -/
def State.laneAbsent (s : State) (l : LaneAcc) : Bool :=
  l.kind == .scratch && (let x := spCoreLine l.pa; tgetD (s.core x.1).absent x.2 0 != 0)

def State.anyAbsent (s : State) (a : Access) : Bool := a.lanes.any s.laneAbsent

/-- Whether a load of the access reads the home. -/
def Access.home (a : Access) (det : Bool) : Bool :=
  det || a.scope.ge .quad || (match a.kind with | .load => false | _ => true)

def AccKind.need : AccKind → Need
  | .load => .load
  | .store => .store
  | _ => .atomic

/-- Whether the lanes' bytes cover a whole line. (DEDUCED, log 27) -/
def State.covers (s : State) (size : Nat) (l : List LaneAcc) (line : Nat) : Bool :=
  (countFrom (line * 128) 128).all fun a => l.any fun x =>
    let h := s.homePa x.kind x.pa
    decide (h ≤ a) && decide (a < h + size)

/-- An error of a lane found when it would be performed: a poisoned line that is read at its home, a store that covers only
part of a lost line, or a peer route that refuses (R39, R85, R104). -/
def laneError (s : State) (n : Nat) (det : Bool) (a : Access) (l : LaneAcc) : Except Trap Unit :=
  let c := s.core n
  let served :=
    !a.home det && (((l.kind == .cached || l.kind == .cap) && (copyGet c.l1 (lineOf l.pa)).isSome)
      || (l.kind == .const && (copyGet c.cc (lineOf l.pa)).isSome))
  let lost := match s.cachedLine l.kind l.pa with
    | some line => s.lost line && !s.covers a.size a.lanes line
    | none => false
  if (a.kind.need.reads && !served && s.badAt l.kind l.pa) || (!a.kind.need.reads && lost) then
    .error (Trap.addr Cause.uncorrectableData l.lane l.va)
  else if l.kind = .peer then
    match peerRoute s l.pa a.kind.need with
    | .refused => .error { Trap.addr Cause.peerAccess l.lane l.va with peer := peerField a.kind.need 1 }
    | _ => .ok ()
  else .ok ()

def lanesError (s : State) (n : Nat) (det : Bool) (a : Access) : List LaneAcc → Except Trap Unit
  | [] => .ok ()
  | l :: r => match laneError s n det a l with
    | .error t => .error t
    | .ok () => lanesError s n det a r

/-! ## Loads -/

/-- The bytes of a deterministic warp's own held stores and materialisations over the byte at a home (R172, R386). -/
def overlayByte (s : State) (held : List HeldOp) (pa : Nat) (b : Byte) : Byte :=
  let cover (kind : LocKind) (at' : Nat) (data : List Byte) (b : Byte) : Byte :=
    let h := s.homePa kind at'
    if h ≤ pa ∧ pa < h + data.length then data.getD (pa - h) b else b
  held.foldl (fun b h =>
    match h with
    | .acc a => if a.kind = .store then a.lanes.foldl (fun b l => cover l.kind l.pa l.data b) b else b
    | .mat l .. => l.foldl (fun b x => cover x.kind x.pa x.data b) b
    | _ => b) b

def overlay (s : State) (held : List HeldOp) : Nat → List Byte → List Byte
  | _, [] => []
  | pa, b :: r => overlayByte s held pa b :: overlay s held (pa + 1) r

/-- Every lane read; the constant path returns committed state only (R193). -/
def readLanes (s : State) (n : Nat) (home : Bool) (size : Nat) (held : List HeldOp) :
    List LaneAcc → State × List (Nat × List Byte)
  | [] => (s, [])
  | l :: r =>
    let x := s.loadBytes n home l.kind l.pa size
    let y := readLanes x.1 n home size held r
    (y.1, (l.lane, overlay s (if l.kind = .const then [] else held) (s.homePa l.kind l.pa) x.2) :: y.2)

/-! ## Stores -/

/-- The location of a lane: its address at the home, and the store it lies in, none for one that L2 holds (R39, R146). -/
def State.locOf (s : State) (l : LaneAcc) : Nat × Option LocKind :=
  (s.homePa l.kind l.pa, if (s.cachedLine l.kind l.pa).isSome then none else some l.kind)

/-- The lanes of an access that name the location of one of them, by whatever mapping they reach it (R39, R143). -/
def State.contested (s : State) (l : List LaneAcc) (x : LaneAcc) : List LaneAcc := l.filter fun y => s.locOf y == s.locOf x

/-- The bytes a location takes when several lanes write it: one lane's value, or for 16-byte lanes one lane's byte at
each place; which is a free choice, and the highest lane's in deterministic mode (R143). (DESIGN CHOICE, log 7) -/
def winner (free : Nat) (det : Bool) (size : Nat) (g : List LaneAcc) : List Byte :=
  let pick (n : Nat) : List Byte :=
    match g[(if det then g.length - 1 else Config.freeNat n % g.length)]? with | some l => l.data | none => []
  if size ≤ 8 then pick free
  else (countFrom 0 size).map fun i => (pick (free + i)).getD i 0

/-- Every location of a store written once. -/
def writeLanes (s : State) (n ctx : Nat) (det : Bool) (size : Nat) (all : List LaneAcc) : List LaneAcc → State
  | [] => s
  | l :: r =>
    let g := s.contested all l
    let first := (g.head?.map fun x => x.lane) == some l.lane
    let s :=
      if !first then s
      else if g.length ≤ 1 then s.storeBytes n ctx l.kind l.pa l.data
      else { s.storeBytes n ctx l.kind l.pa (winner s.free det size g) with free := s.free + size }
    writeLanes s n ctx det size all r

/-- A store that covers a poisoned line clears its mark (R85, R104). (DEDUCED, log 27) -/
def State.clearPoison (s : State) (size : Nat) (l : List LaneAcc) : State :=
  { s with poison := s.poison.filter fun line => !s.covers size l line }

/-! ## Atomics (R310) -/

/-- The new value of a location, none for a compare-exchange that fails. -/
def atomNew (op : AtomOp) (dt : DT) (old x x1 : Nat) : Option Nat :=
  let w := dt.width
  let smaller := intOf dt x < intOf dt old
  match op with
  | .add => some ((old + x) % 2 ^ w)
  | .min => some (if smaller then x else old)
  | .max => some (if smaller then old else x)
  | .and => some (old &&& x)
  | .or => some (old ||| x)
  | .xor => some (old ^^^ x)
  | .xchg => some x
  | .cas => if old = x then some x1 else none
  | .fadd => some (narrow (fmtOf .f32) rne (sumF false [decodeF (fmtOf .f32) old, decodeF (fmtOf .f32) x]))

/-- One lane's read-modify-write: the state and the old bytes. -/
def atomLane (s : State) (n ctx : Nat) (op : AtomOp) (dt : DT) (size : Nat) (l : LaneAcc) : State × List Byte :=
  let old := s.homeRead l.kind l.pa size
  match atomNew op dt (bytesNat old) (bytesNat l.data) (bytesNat l.data2) with
  | some v => ((s.storeBytes n ctx l.kind l.pa (natBytes size v)).refreshL1 n l.kind l.pa, old)
  | none => (s.refreshL1 n l.kind l.pa, old)

/-- Lanes in the order they are performed: ascending in deterministic mode and where none contend, else a free order
(R143). (DESIGN CHOICE, log 7) -/
def freeOrder (free : Nat) : Nat → List LaneAcc → List LaneAcc
  | 0, l => l
  | n + 1, l =>
    match l[Config.freeNat free % l.length]? with
    | some x => x :: freeOrder (free + 1) n (l.eraseIdx (Config.freeNat free % l.length))
    | none => l

def atomLanes (s : State) (n ctx : Nat) (op : AtomOp) (dt : DT) (size : Nat) :
    List LaneAcc → State × List (Nat × List Byte)
  | [] => (s, [])
  | l :: r =>
    let x := atomLane s n ctx op dt size l
    let y := atomLanes x.1 n ctx op dt size r
    (y.1, (l.lane, x.2) :: y.2)

/-- Whether a qualifier acquires at quad scope or wider, which discards L1 (R157). -/
def acquires (o : Ord2) (sc : Scope) : Bool := (o == .acq || o == .acqrel) && sc.ge .quad

/-- The scope at which an access to a place orders: on the accumulator store no wider than core (R93, R155), at a peer as wide as
system (R38, R39, R140). -/
def LocKind.scope (k : LocKind) (sc : Scope) : Scope :=
  if k = .peer then .system else if k = .acc ∧ sc.ge .quad then .core else sc

/-- Whether an access acquires so for some lane (R155, R157). -/
def Access.acquires (a : Access) : Bool := a.lanes.any fun l => Machine.acquires a.ord (l.kind.scope a.scope)

/-! ## Ordered atomics (R166 to R170) -/

/-- One lane performed: its old value joins the result that its instruction owes, and a warp that waits for its own ordered
lanes looks again. -/
def State.orderedPerform (s : State) (k : Nat) (a : Access) (l : LaneAcc) : State :=
  match s.warp? k with
  | none => s
  | some w =>
    match a.kind with
    | .atomo op =>
      let x := atomLane s w.core w.ctx op a.dt a.size l
      match x.1.warp? k with
      | none => x.1
      | some w =>
        x.1.setWarp k { w with
          wait := if w.wait = .ordered then .run else w.wait
          pend := w.pend.map fun p =>
          if p.tok = a.tok then { p with writes := p.writes ++ resultWrites a.dt a.size a.d [(l.lane, x.2)] } else p }
    | _ => s

def orderedLine (l : LaneAcc) : Nat := lineOf l.pa
def State.next (s : State) (line : Nat) : Nat := memWord s (line * 128)

/-- The result of an instruction is complete once none of its lanes is outstanding; in a deterministic launch it reaches the
warp before a round of the warp begins (R173). -/
def State.orderedDone (s : State) (k : Nat) (a : Access) : State :=
  match s.warp? k with
  | none => s
  | some w =>
    if s.ordbuf.any fun o => o.warp == k && o.acc.tok == a.tok then s
    else
      let w := w.fill a.tok []
      let s := s.setWarp k (if w.det then w.deliver else w)
      if a.acquires then s.discardL1 w.core else s

/-- How often a NEXT of a slice has advanced (R168). -/
def State.nextsOf (s : State) (slice : Nat) : Nat := tgetD s.nexts slice 0

/-- NEXT of a line of a slice advances by one, by a lane of warp `k`, whose core then holds no older copy of it (R149, R167). A
store of a program into NEXT is no such advance: refused lanes do not retry on its account. (DESIGN CHOICE, log 83) -/
def State.advanceNext (s : State) (k line slice : Nat) : State :=
  let s : State := { s.putWord (line * 128) ((s.next line + 1) % 2 ^ 64) with nexts := tset s.nexts slice (s.nextsOf slice + 1) }
  match s.warp? k with
  | none => s
  | some w => s.refreshL1 w.core .cached (line * 128)

/-- Buffered lanes of a line whose turn has come, one after another; none while an uncorrectable error stands in the line. -/
def drainOrdered (line : Nat) : Nat → State → State
  | 0, s => s
  | n + 1, s =>
    match s.ordbuf.findIdx? fun o => o.arrived && orderedLine o.lane == line && o.lane.ticket.toNat == s.next line
        && !s.badAt o.lane.kind o.lane.pa with
    | none => s
    | some i =>
      match s.ordbuf[i]? with
      | none => s
      | some o =>
        let s := { s with ordbuf := s.ordbuf.eraseIdx i }
        let s := s.orderedPerform o.warp o.acc o.lane
        let s := s.advanceNext o.warp line o.slice
        drainOrdered line n (s.orderedDone o.warp o.acc)

/-- Lanes buffered at a slice. -/
def State.buffered (s : State) (slice : Nat) : Nat := (s.ordbuf.filter fun o => o.arrived && o.slice == slice).length

/-- A lane at its home slice (R167, R168): the state, and whether it was refused. The buffered lanes of its line are compared with
NEXT first (R169). -/
def State.orderedArrive (s : State) (o : OrdBuf) : State × Bool :=
  let line := orderedLine o.lane
  let slice := homeSlice o.lane.pa
  let s := drainOrdered line 64 s
  let d := (o.lane.ticket.toNat + 2 ^ 64 - s.next line) % 2 ^ 64
  if d = 0 then
    let s := s.orderedPerform o.warp o.acc o.lane
    let s := s.advanceNext o.warp line slice
    (drainOrdered line 64 (s.orderedDone o.warp o.acc), false)
  else if d < 2 ^ 63 then
    if 63 ≤ s.buffered slice then (s, true)
    else ({ s with ordbuf := s.ordbuf ++ [{ o with slice := slice, arrived := true }] }, false)
  else
    let s := s.orderedPerform o.warp o.acc o.lane
    let s := { s with stale := tset s.stale slice (tgetD s.stale slice 0 + 1) }
    (s.orderedDone o.warp o.acc, false)

/-- A lane that arrives; a refused one stays with its warp, which is descheduled (R168). -/
def State.orderedLane (s : State) (o : OrdBuf) : State :=
  let r := s.orderedArrive o
  let slice := homeSlice o.lane.pa
  if r.2 then { r.1 with ordbuf := r.1.ordbuf ++ [{ o with slice := slice, refused := some (r.1.nextsOf slice) }] } else r.1

/-- The lanes of an ordered atomic on their way to their slices; `fenced` where its warp has passed a release fence since (R160). -/
def Access.sentLanes (a : Access) (k : Nat) (fenced : Bool) : List OrdBuf :=
  a.lanes.map fun l =>
    { slice := homeSlice l.pa, warp := k, acc := a, lane := l, arrived := false, refused := none, fenced := fenced }

/-- The lanes of an ordered atomic reach their slices one after another, in ascending lane number (R173). -/
def State.orderedLanes (s : State) (k : Nat) (a : Access) : State :=
  (a.sentLanes k false).foldl (fun s o => ({ s with ordbuf := s.ordbuf.erase o }).orderedLane o)
    { s with ordbuf := s.ordbuf ++ a.sentLanes k false }

/-- A write to lines of ordered atomics may have changed NEXT: their buffered lanes are compared with it (R169).
(DEDUCED, log 72) -/
def State.drainLines (s : State) (l : List (LocKind × Nat)) : State :=
  ((l.filterMap fun x => s.cachedLine x.1 x.2).eraseDups).foldl (fun s line => drainOrdered line 64 s) s

/-- The places of lanes. -/
def lanePlaces (l : List LaneAcc) : List (LocKind × Nat) := l.map fun x => (x.kind, x.pa)

/-- The lanes of warp `k` not yet performed. -/
def State.ownLanes (s : State) (k : Nat) : List OrdBuf := s.ordbuf.filter fun o => o.warp == k

/-- The lanes of warp `k`'s releases not yet performed (R158). -/
def State.ownReleases (s : State) (k : Nat) : List (Access × LaneAcc) :=
  s.rels.flatMap fun r => match r.op with
    | .acc a => if r.warp = k then a.lanes.map fun l => (a, l) else []
    | _ => []

/-- Whether bytes at a home are ones that a release of warp `k` has still to write or read (R152). -/
def State.relHit (s : State) (k pa len : Nat) : Bool :=
  (s.ownReleases k).any fun p =>
    let h := s.homePa p.2.kind p.2.pa
    decide (h < pa + len) && decide (pa < h + p.1.size)

/-- Whether bytes meet NEXT of an ordered lane's line, which the lane writes too (R167). -/
def LaneAcc.nextMeets (l : LaneAcc) (pa len : Nat) : Bool :=
  let line := l.pa / 128 * 128
  decide (line < pa + len) && decide (pa < line + 8)

def AccKind.ordered : AccKind → Bool
  | .atomo _ => true
  | _ => false

/-- Whether bytes at a home are ones that an ordered lane or a release of warp `k` has still to reach: of an ordered atomic its word
and NEXT (R152). -/
def State.ordHit (s : State) (k pa len : Nat) : Bool :=
  ((s.ownLanes k).any fun o =>
    (decide (o.lane.pa < pa + len) && decide (pa < o.lane.pa + o.acc.size)) || o.lane.nextMeets pa len)
  || s.relHit k pa len || (s.ownReleases k).any fun p => p.1.kind.ordered && p.2.nextMeets pa len

/-- Device-uncached places: memory behind such a leaf, and registers (R146). -/
def LocKind.device (k : LocKind) : Bool := k == .uncached || k == .reg

/-- Whether a read or write of bytes by warp `k` has to follow one of its ordered lanes or releases: it names the same location
(R152), or both are device-uncached (R153). -/
def State.ownBars (s : State) (k : Nat) (kind : LocKind) (pa len : Nat) : Bool :=
  (kind.device && (s.ownReleases k).any fun p => p.2.kind.device) || s.ordHit k (s.homePa kind pa) len

/-- Whether a wait stands between two instructions, so that a trap of an earlier one may come there. -/
def Wait.between : Wait → Bool
  | .run | .header _ | .flags _ | .results | .ordered | .waitt .. | .waitv _ | .bar .. | .gwait _ | .migpt | .yield => true
  | _ => false

/-! ## Performing an access -/

/-- A load of all lanes: bytes and the state after. -/
def performLoad (s : State) (w : Warp) (a : Access) : State × List RegWrite :=
  let r := readLanes s w.core (a.home w.det) a.size (if w.det then w.held else []) a.lanes
  (if a.acquires then r.1.discardL1 w.core else r.1, resultWrites a.dt a.size a.d r.2)

def performStore (s : State) (w : Warp) (a : Access) : State :=
  ((writeLanes s w.core w.ctx w.det a.size a.lanes a.lanes).clearPoison a.size a.lanes).drainLines (lanePlaces a.lanes)

def performAtomic (s : State) (w : Warp) (a : Access) (op : AtomOp) : State × List RegWrite :=
  let clash := a.lanes.any fun l => (s.contested a.lanes l).length != 1
  let order := if w.det || !clash then a.lanes else freeOrder s.free a.lanes.length a.lanes
  let s := if w.det || !clash then s else { s with free := s.free + a.lanes.length }
  let r := atomLanes s w.core w.ctx op a.dt a.size order
  let s := r.1.drainLines (lanePlaces a.lanes)
  (if a.acquires then s.discardL1 w.core else s, resultWrites a.dt a.size a.d r.2)

end Sys2Proof.Machine
end

