-- ==== Sys2Proof/Machine/CubeMath.lean ====
section
/-! DEFINITION. The q4 family (R240 to R242) and the arithmetic of the cube array: scales, the legality table, k-steps
and their two roundings (R252 to R255, R330, R331, R334, R340, R357). -/

namespace Sys2Proof.Machine

open Sys2Proof

/-! ## q4 codes (R240, R241) -/

/-- Magnitudes of the code tables in units of 1/8, by TYPE and magnitude index. -/
def q4Table (ty : Nat) : List Nat :=
  match ty with
  | 0 => [0, 8, 16, 24, 32, 40, 48, 56, 64]
  | 1 => [0, 4, 8, 12, 16, 24, 32, 48]
  | 2 => [0, 1, 2, 4, 8, 16, 32, 64]
  | _ => [0, 8, 16, 24, 32, 48, 64, 96]

/-- The value of a code under a scale byte (R241). -/
def q4Value (sb code : Nat) : FVal :=
  let ty := sb / 64 % 4
  let e := sb % 64
  let c := code % 16
  if e = 63 then .nan
  else
    let idx := if ty = 0 ∧ 8 ≤ c then 16 - c else c % (if ty = 0 then 16 else 8)
    let neg := decide (8 ≤ c) && idx != 0
    .fin neg ((q4Table ty).getD idx 0) ((e : Int) - 35)

/-- The greatest index whose table value is at most num / den. -/
def q4Below (num den : Nat) : List Nat → Nat → Nat
  | [], i => i
  | v :: r, i => if v * den ≤ num then q4Below num den r (i + 1) else i

/-- A finite magnitude rounded to a table's value set: the index, and whether it lies beyond the largest magnitude
(R242). (DEDUCED, log 22) -/
def q4Round (c : RCtl) (ty : Nat) (neg : Bool) (num den : Nat) : Nat × Bool :=
  let full := q4Table ty
  let tab := if ty = 0 ∧ ¬ neg then full.take 8 else full
  let top := tab.length - 1
  if tab.getD top 0 * den < num then (top, true)
  else
    let i := q4Below num den tab 0 - 1
    let lo := tab.getD i 0 * den
    if lo = num then (i, false)
    else
      let span := tab.getD (i + 1) 0 * den - lo
      let rem := num - lo
      let up := match c.mode with
        | .rtz => false
        | .rdn => neg
        | .rup => !neg
        | .rna => decide (span ≤ 2 * rem)
        | .rne => decide (span < 2 * rem) || (decide (span = 2 * rem) && decide (i % 2 = 1))
        | .sr => if neg then !decide (c.u < (span - rem) * 2 ^ 32 / span) else decide (c.u < rem * 2 ^ 32 / span)
      (if up then i + 1 else i, false)

/-- A value narrowed to a code under a scale byte: the code, and whether it makes the block a NaN block where SAT
does not hold it (R242). (DEDUCED, log 22) -/
def q4Encode (c : RCtl) (sb : Nat) (x : FVal) : Nat × Bool :=
  let ty := sb / 64 % 4
  let code (neg : Bool) (i : Nat) : Nat := if i = 0 then 0 else if neg then (if ty = 0 then 16 - i else 8 + i) else i
  match x with
  | .nan => (0, true)
  | .inf neg => (code neg (if ty = 0 ∧ neg then 8 else 7), !c.sat)
  | .fin neg m e =>
    let k : Int := e + 35 - (sb % 64 : Nat)
    let r := q4Round c ty neg (m * 2 ^ k.toNat) (2 ^ (-k).toNat)
    (code neg r.1, r.2 && !c.sat)

/-! ## Scales (R334) -/

/-- A value times a power of two. -/
def FVal.scale (x : FVal) (k : Int) : FVal :=
  match x with
  | .fin s m e => .fin s m (e + k)
  | x => x

/-- The exponent of a row or weight scale byte. -/
def scaleExp (b : Nat) : Int := signedW 6 (b % 64)

/-! ## Shape (R330, R336, R340) -/

/-- Active bands of an ashape. -/
def bandCount (ashape : W32) : Nat := popN 4 ashape.toNat
/-- The accumulate rounding of an ashape. ctxrest can install 101 to 111 (R455), to which the spec gives no meaning on the cube:
RNE. (DESIGN CHOICE, log 77) -/
def accRnd (ashape : W32) : RMode := if ashape.toNat / 16 % 8 = 5 then .rne else RMode.ofSlot (ashape.toNat / 16 % 8)

/-- The class of a format. -/
def classOf : DT → Nat
  | .q4 => 4
  | .e4m3 | .e5m2 => 8
  | _ => 16

/-- The factor f of the widest of several formats. -/
def factorOf (l : List DT) : Nat := 16 / l.foldl (fun c t => max c (classOf t)) 4

/-- The numbers of bands that an operation runs on. -/
def bandsOk (n : Nat) : Bool := n == 1 || n == 2 || n == 4

/-- K in the legality table: 1 to 8 whole k-steps, and whole blocks under a q4 operand of a wider class. -/
def depthOk (n f k : Nat) (q4 : Bool) : Bool :=
  let d := 8 * n * f
  bandsOk n && k % d == 0 && decide (1 ≤ k / d) && decide (k / d ≤ 8) && (f == 4 || !q4 || k % 32 == 0)

/-! ## Accumulation (R252 to R255, R357) -/

/-- Round to odd at 40 significant bits. -/
def roundOdd (x : FVal) : FVal :=
  match x with
  | .fin s m e =>
    let sh := bitLen m - 40
    if sh = 0 then x
    else
      let t := m / 2 ^ sh
      .fin s (if m % 2 ^ sh ≠ 0 ∧ t % 2 = 0 then t + 1 else t) (e + sh)
  | x => x

/-- One band group's sum of products. -/
def bandSum (rdn : Bool) (prod : Nat → FVal) (k n : Nat) : FVal := roundOdd (sumF rdn ((countFrom k n).map prod))

/-- One cell through k-step t: the products of each of n groups of 8f values of k, then the accumulator (R357). -/
def kstepCell (m : RMode) (n f t : Nat) (prod : Nat → FVal) (acc : W32) : W32 :=
  let rdn := decide (m = .rdn)
  let w := (countFrom 0 n).map fun q => bandSum rdn prod (t * (8 * n * f) + q * (8 * f)) (8 * f)
  BitVec.ofNat 32 (narrow (fmtOf .f32) { mode := m, sat := false, u := 0 } (sumF rdn (w ++ [decodeF (fmtOf .f32) acc.toNat])))

/-- A cell through s k-steps from k-step t. -/
def cellFrom (m : RMode) (n f : Nat) (prod : Nat → FVal) : Nat → Nat → W32 → W32
  | 0, _, acc => acc
  | s + 1, t, acc => cellFrom m n f prod s (t + 1) (kstepCell m n f t prod acc)

end Sys2Proof.Machine
end

