-- ==== Sys2Proof/Machine/Nodes.lean ====
section
/-! DEFINITION. What instructions share that read operands at issue, byte ranges, and the node table of Pergola: handles,
freeing, ranges and guards (R362 to R366, R373, R382, R383). -/

namespace Sys2Proof.Machine

open Sys2Proof

/-! ## Instructions that may have to wait -/

/-- Why an instruction does not complete: a trap, a trap after effects that stand (R379, R384), or a wait after which it
is issued again. (DEDUCED, log 43) -/
inductive Halt where
  | trap (t : Trap)
  | after (s : State) (t : Trap)
  | wait (wt : Wait)
  deriving DecidableEq, Repr

/-- A meaning that may take a trap or wait. A trap drops what the instruction did before it, the A and D bits that its earlier
lanes or operands set in the tables among it, where R61 would let them stay. (DESIGN CHOICE, log 74) -/
def attemptH (s : State) (body : Warp → Except Halt State) : Out :=
  match s.curWarp with
  | none => .fault .noWarp
  | some w =>
    match body w with
    | .ok t => .next t
    | .error (.trap t) => .next (s.trap s.cur w.unretire t .fault)
    | .error (.after s' t) => .next (s'.trap s.cur ((s'.warp? s.cur).getD w).unretire t .fault)
    | .error (.wait wt) => .next (s.setWarp s.cur (w.redo wt))

/-- The same in system mode only (R233). -/
def privilegedH (s : State) (body : Warp → Except Halt State) : Out :=
  attemptH s fun w => if w.sys then body w else .error (.trap { cause := Cause.illegalInstruction, detail := 10 })

/-! ## Translated ranges -/

/-- How many tracked writes are outstanding into a line (R79). -/
def State.absentAt (s : State) (pa : Nat) : Nat := let x := spCoreLine pa; tgetD (s.core x.1).absent x.2 0

/-- The absent lines of translated places. -/
def State.absentIn (s : State) (l : List Xlat) : List Nat :=
  (l.flatMap fun x => scratchLines x.kind x.pa x.len).filter fun pa => s.absentAt pa != 0

/-- Whether any byte of the places lies in a poisoned line. -/
def State.poisonIn (s : State) (l : List Xlat) : Bool :=
  l.any fun x => (linesOf x.pa x.len).any fun p => s.badAt x.kind p.1

/-- A peer place that no route reaches now, and one that is refused (R39, R141). -/
def State.peerIn (s : State) (need : Need) (r : Route) (l : List Xlat) : Bool :=
  l.any fun x => x.kind == .peer && peerRoute s x.pa need == r

/-- The wait of an instruction that needs all of its places: ordered lanes and releases of its own warp that it follows (R152,
R153), absent lines, and peers that no route reaches now. -/
def State.placeWait (s : State) (need : Need) (l : List Xlat) : Option Wait :=
  let off := l.filter fun x => x.kind == .peer && peerRoute s x.pa need == .none
  let pas := s.absentIn l ++ off.map fun x => x.pa
  if l.any fun x => s.ownBars s.cur x.kind x.pa x.len then some .ordered
  else if pas.isEmpty then none else some (.present pas ((off.head?.map fun x => x.va).getD 0) need.writes)

/-- Bytes of places, read as a warp's load reads them (R149); own held stores of a deterministic round included, but on the constant
path (R193). -/
def loadXlats (s : State) (core : Nat) (home : Bool) (held : List HeldOp) : List Xlat → State × List Byte
  | [] => (s, [])
  | x :: r =>
    let a := (linesOf x.pa x.len).foldl (fun (acc : State × List Byte) p =>
      let y := acc.1.loadBytes core home x.kind p.1 p.2
      (y.1, acc.2 ++ overlay y.1 (if x.kind = .const then [] else held) (y.1.homePa x.kind p.1) y.2)) (s, [])
    let b := loadXlats a.1 core home held r
    (b.1, a.2 ++ b.2)

/-- Bytes of places, written as a warp's stores. -/
def storeXlats (s : State) (core ctx : Nat) : List Xlat → List Byte → State
  | [], _ => s
  | x :: r, b =>
    let s := (linesOf x.pa x.len).foldl (fun (acc : State × List Byte) p =>
      (acc.1.storeBytes core ctx x.kind p.1 (acc.2.take p.2), acc.2.drop p.2)) (s, b)
    storeXlats s.1 core ctx r (b.drop x.len)

/-- An operand that an instruction reads whole at issue as a relaxed load of its warp: checks of R19, alignment,
translation, presence, errors. (DEDUCED, log 33) -/
def readIssue (s : State) (w : Warp) (va : Word) (len align : Nat) : Except Halt (State × List Byte) :=
  let bad (f : WFault) : Except Halt (State × List Byte) := .error (.trap (f.trap false 0 va))
  match classCheck w.sys va len with
  | .error c => bad (c, 0)
  | .ok c =>
    let mis := va.toNat % align != 0
    if mis && (c == .user || c == .sysHalf) then bad (Cause.alignment, 0)
    else match resolveRange s w.who .load va len with
      | .error f => bad f
      | .ok (s, l) =>
        if mis then bad (Cause.alignment, 0)
        else if s.peerIn .load .refused l then bad (Cause.peerAccess, 0)
        else match s.placeWait .load l with
          | some h => .error (.wait h)
          | none =>
            if s.poisonIn l then bad (Cause.uncorrectableData, 0)
            else .ok (loadXlats s w.core w.det (if w.det then w.held else []) l)

/-- The little-endian number of bytes [o, o + n). -/
def fieldB (b : List Byte) (o n : Nat) : Nat := bytesNat ((b.drop o).take n)

/-- Whether a tracked write issued before a time has still to deliver a scratchpad line (R190). -/
def State.owedBefore (s : State) (seq : Nat) (line : Nat × Nat) : Bool :=
  (s.cores.any fun p => p.2.ops.any fun o => decide (o.seq < seq) && o.lines.contains line)
  || (s.colls.any fun c => decide (c.seqNo < seq) && c.lines.contains line)
  || s.warps.any fun p => match p.2.wait with
      | .eval _ _ _ q lines => decide (q < seq) && lines.contains line
      | _ => false

/-- Whether an engine's read of places, for an operation issued at a time, has to wait. -/
def State.owedIn (s : State) (seq : Nat) (l : List Xlat) : Bool := (xlatLines l).any (s.owedBefore seq)

/-- The places of bytes of a command's operands. -/
def placesAt (xl : List Xlat) (va : Word) (len : Nat) : List Xlat :=
  (linesOf va.toNat len).map fun p =>
    let q := xlatAt xl (BitVec.ofNat 64 p.1)
    { va := BitVec.ofNat 64 p.1, pa := q.1, kind := q.2, len := p.2 }

/-! ## Byte ranges by effective address -/

/-- Whether bytes [a, a + len) meet a strided range. -/
def Rng.hits (r : Rng) (a len : Nat) : Bool :=
  let base := r.base.toNat
  let i := if a < base + r.row then 0 else if r.stride = 0 then 0 else (a - base - r.row) / r.stride + 1
  decide (i < r.rows) && decide (base + i * r.stride < a + len) && decide (a < base + i * r.stride + r.row)

/-- Whether two ranges share a byte. -/
def Rng.meets (x y : Rng) : Bool := (countFrom 0 x.rows).any fun i => y.hits (x.base.toNat + i * x.stride) x.row

/-- A contiguous range. -/
def Rng.flat (va : Word) (len : Nat) : Rng := { base := va, row := len, stride := 0, rows := 1 }

/-! ## The node table -/

def nodeCap : Nat := 256
def rangeCap : Nat := 1024

def NodeKind.code : NodeKind → Nat
  | .leaf => 0 | .contract => 1 | .ewise => 2 | .rowred => 3 | .map => 4 | .cast => 5

def Node.handle (n : Node) : Nat := n.gen * 256 + n.idx
def Node.isLeaf (n : Node) : Bool := n.kind == .leaf

/-- The node a valid handle names (R363). -/
def Perg.find (p : Perg) (h : Nat) : Option Node := p.nodes.find? fun n => n.handle == h
def Perg.byIdx (p : Perg) (i : Nat) : Option Node := p.nodes.find? fun n => n.idx == i
def Perg.genOf (p : Perg) (i : Nat) : Nat := tgetD p.gens i 1
/-- The GEN after one is freed. -/
def nextGen (g : Nat) : Nat := if g = 2 ^ 24 - 1 then 1 else g + 1
def Perg.set (p : Perg) (n : Node) : Perg := { p with nodes := p.nodes.map fun x => if x.idx = n.idx then n else x }
/-- Range entries in use. -/
def Perg.used (p : Perg) : Nat := p.nodes.foldl (fun a n => a + n.ranges) 0
/-- The lowest free IDX below a quota. -/
def Perg.freeIdx (p : Perg) (nq : Nat) : Option Nat := (countFrom 0 nq).find? fun i => (p.byIdx i).isNone
/-- Nodes freed by their IDX. -/
def Perg.freeAll (p : Perg) (l : List Nat) : Perg :=
  { p with nodes := p.nodes.filter fun n => !l.contains n.idx
           gens := l.foldl (fun g i => tset g i (nextGen (p.genOf i))) p.gens }

/-- Dropped nodes that no kept node refers to, newest first; `spare` keeps those dropped since the last region, `keep` names nodes to
keep by their IDX. -/
def deadNodes (spare : Bool) (keep : List Nat) : List Node → List Node × List Nat
  | [] => ([], [])
  | n :: r =>
    let y := deadNodes spare keep r
    if n.dropped && !(spare && n.dropNew) && !keep.contains n.idx && !y.1.any fun m => m.inputs.contains n.idx then (y.1, n.idx :: y.2)
    else (n :: y.1, y.2)

/-- Frees the dropped nodes that nothing refers to (R364, R379). -/
def Perg.reclaim (p : Perg) (spare : Bool) (keep : List Nat) : Perg := p.freeAll (deadNodes spare keep p.nodes).2

/-- A region's effect on the table: earlier drops take effect, PTAIL is recorded (R364, R382). -/
def Perg.region (p : Perg) : Perg :=
  let p := p.reclaim false []
  { p with nodes := p.nodes.map (fun n => { n with dropNew := false }), ptail := p.created }

/-- The rollback to the region's entry (R382). -/
def Perg.rollback (p : Perg) : Perg :=
  let p := p.freeAll ((p.nodes.filter fun n => decide (p.ptail ≤ n.ord)).map fun n => n.idx)
  { p with nodes := p.nodes.map fun n => if n.dropNew then { n with dropped := false, dropNew := false } else n }

/-- A drop by handle; others are ignored (R393). -/
def Perg.drop (p : Perg) (h : Nat) : Perg :=
  match p.find h with
  | none => p
  | some n => if n.dropped then p else p.set { n with dropped := true, dropNew := true }

/-! ## Ranges and guards (R368, R373, R383) -/

/-- Bytes of an element; a q4 element counts as 1. -/
def elemSize (t : DT) : Nat := if t = .q4 then 1 else t.width / 8

/-- The element bytes of a node's memory. -/
def NodeDesc.home (d : NodeDesc) : Rng :=
  if d.fmt = .q4 then
    if d.qdir then { base := d.haddr, row := d.rows / 32 * 17, stride := d.hstr, rows := d.cols }
    else { base := d.haddr, row := d.cols / 32 * 17, stride := d.hstr, rows := d.rows }
  else { base := d.haddr, row := d.cols * elemSize d.fmt, stride := d.hstr, rows := d.rows }

/-- The source ranges of a node (R373). -/
def sourceRanges (k : NodeKind) (d : NodeDesc) : List Rng :=
  match k with
  | .leaf => [d.home]
  | .contract =>
    (if d.saddr = 0 then [] else [Rng.flat d.saddr d.rows]) ++ (if d.waddr = 0 then [] else [Rng.flat d.waddr d.cols])
  | .cast => if d.op = 0 then [] else [Rng.flat d.saddr (if d.op = 1 then d.rows else d.cols)]
  | _ => []

/-- Live, or still referenced. -/
def Perg.holds (p : Perg) (n : Node) : Bool := !n.dropped || p.nodes.any fun m => m.inputs.contains n.idx

/-- The pending nodes that depend directly on a range that a write meets; a converted node guards its home from the commit of its
bytes on (R386). -/
def Perg.dependents (p : Perg) (wr : List Rng) : List Node :=
  p.nodes.filter fun n =>
    !n.isLeaf && p.holds n &&
      ((sourceRanges n.kind n.desc).any (fun r => wr.any fun x => x.meets r)
        || n.inputs.any fun i => match p.byIdx i with
            | some m => m.isLeaf && !m.unwritten && wr.any fun x => x.meets m.desc.home
            | none => false)

/-- A node of a warp joins a list in creation order. -/
def insertNode (x : Nat × Node) : List (Nat × Node) → List (Nat × Node)
  | [] => [x]
  | y :: r => if y.2.ord ≤ x.2.ord then y :: insertNode x r else x :: y :: r

/-- The guarded dependents of a write in a context on a core, as (warp, IDX), in creation order over its warps (R384). -/
def State.guardHits (s : State) (ctx core : Nat) (wr : List Rng) : List (Nat × Nat) :=
  let l := s.warps.flatMap fun p =>
    if p.2.ctx = ctx ∧ p.2.core = core ∧ p.2.status ≠ .exited then (p.2.perg.dependents wr).map fun n => (p.1, n) else []
  (l.foldl (fun a x => insertNode x a) []).map fun x => (x.1, x.2.idx)

/-! ## Places of engine operands (R342, R367, R378) -/

/-- A place on the tile path: own scratchpad slot, weight store, translated HBM-cached or capacity-tier memory, and,
where `acc` admits it, the accumulator store. -/
def operandPlace (s : State) (wh : Who) (need : Need) (acc : Bool) (va : Word) (len : Nat) : Except WFault Place :=
  match resolve s { wh with operand := true } need va len false with
  | .error f => .error f
  | .ok (s, pa, k) =>
    match vclass va with
    | .user | .sysHalf => if k = .cached ∨ k = .cap then .ok (s, pa, k) else .error (Cause.operandType, 0)
    | .scratchWin =>
      if winOff va / 2 ^ 30 = wh.core % 4 then .ok (s, pa, k) else .error (Cause.windowPermission, 0)
    | .accWin => if acc then .ok (s, pa, k) else .error (Cause.windowPermission, 0)
    | .weightWin => .ok (s, pa, k)
    | .constWin => .error (Cause.windowPermission, 0)

/-- The places of a run of bytes, page by page; an error carries the byte it was met at. -/
def operandRange (s : State) (wh : Who) (need : Need) (acc : Bool) (va : Word) (len : Nat) :
    Except (WFault × Word) (State × List Xlat) :=
  match classCheck wh.sys va len with
  | .error c => .error ((c, 0), va)
  | .ok _ =>
    match foldE (fun (a : State × List Xlat) (p : Word × Nat) =>
        match operandPlace a.1 wh need acc p.1 p.2 with
        | .error f => Except.error (f, p.1)
        | .ok (s, pa, k) => .ok (s, { va := p.1, pa := pa, kind := k, len := p.2 } :: a.2))
      (s, []) (pagesOf (len / 4096 + 2) va len) with
    | .error e => .error e
    | .ok (s, l) => .ok (s, l.reverse)

/-- Which path cache serves a read (R105, R107). -/
inductive Path where
  | tile | gather | plane
  deriving DecidableEq, Repr

def Core.pathCache (c : Core) : Path → Copies
  | .tile => c.tc | .gather => c.gc | .plane => c.pr
def Core.setPath (c : Core) (p : Path) (l : Copies) : Core :=
  match p with
  | .tile => { c with tc := l } | .gather => { c with gc := l } | .plane => { c with pr := l }

/-- The lines that a path's cache holds (R105). -/
def Path.size : Path → Nat
  | .tile => 1024 | .gather => 256 | .plane => 64

/-- Bytes within one line read on a path: translated lines through its cache unless `direct`, other stores at their
home; and whether an uncorrectable error was met. -/
def State.pathBytes (s : State) (n : Nat) (p : Path) (direct : Bool) (kind : LocKind) (pa len : Nat) :
    State × List Byte × Bool :=
  let line := lineOf pa
  let bad := s.badAt kind pa
  if (kind = .cached ∨ kind = .cap) ∧ ¬ direct then
    let c := s.core n
    match copyGet (c.pathCache p) line with
    | some b => (s, lineSlice b pa len, false)
    | none =>
      if bad then (s, memReadN s.mem pa len, true)
      else (s.setCore n (c.setPath p (copyFill p.size (c.pathCache p) line (s.lineBytes line))), memReadN s.mem pa len, false)
  else (s, s.homeRead kind pa len, bad)

/-- Bytes of places read on a path, each with whether it met an error. -/
def pathXlats (s : State) (n : Nat) (p : Path) (direct : Bool) (held : List HeldOp) :
    List Xlat → State × List (Byte × Bool)
  | [] => (s, [])
  | x :: r =>
    let a := (linesOf x.pa x.len).foldl (fun (acc : State × List (Byte × Bool)) q =>
      let y := acc.1.pathBytes n p direct x.kind q.1 q.2
      (y.1, acc.2 ++ (overlay y.1 held (y.1.homePa x.kind q.1) y.2.1).map fun b => (b, y.2.2))) (s, [])
    let b := pathXlats a.1 n p direct held r
    (b.1, a.2 ++ b.2)

/-- Where an operand element comes from, as a log entry's SOURCE (R353). -/
def sourceCode : LocKind → Nat
  | .scratch => 0 | .weight => 1 | _ => 2

/-- A cube error logged under a number; its place is bits 39 to 0 of `entry` (R351 to R353). -/
def TlSet.logError (t : TlSet) (num : Nat) (eval : Bool) (entry : BitVec 40) : TlSet :=
  let entry : Word := BitVec.ofNat 24 num ++ entry
  if t.log.length < 16 then
    { t with log := t.log ++ [entry]
             cerr := BitVec.ofNat 16 num ++ 0#2 ++ bit1 eval ++ BitVec.ofNat 5 (t.log.length + 1) ++ 0#6
               ++ t.cerr.extractLsb' 1 1 ++ 1#1 }
  else { t with cerr := t.cerr ||| 3 }

/-- A cube error (R351 to R353). -/
def TlSet.cubeError (t : TlSet) (num plane row col src : Nat) (eval : Bool) : TlSet :=
  t.logError num eval
    (BitVec.ofNat 3 plane ++ bit1 eval ++ BitVec.ofNat 10 row ++ BitVec.ofNat 10 col ++ 0#14 ++ BitVec.ofNat 2 src)

/-- The errors of an evaluation logged once its number is known, `full` where it found more than the log had room for. -/
def TlSet.relog (t : TlSet) (num : Nat) (l : List Word) (full : Bool) : TlSet :=
  let t := l.foldl (fun t e => t.logError num true (e.setWidth 40)) t
  if full then { t with cerr := t.cerr ||| 3 } else t

/-! ## Changes of a warp's table -/

/-- A warp's node table and mode changed by an instruction: in a deterministic launch its commit sees the change in its turn
(R386, R392). (DESIGN CHOICE, log 10) -/
def Warp.putTable (w : Warp) (p : Perg) (m : TMode) : Warp :=
  if w.det then
    { w with perg := p, tmode := m, base := some (w.base.getD (w.perg, w.tmode)), held := w.held ++ [.tab p m] }
  else { w with perg := p, tmode := m }

/-- The node table and mode that a warp's quantum leaves, which stand last among what it holds. -/
def lastTable (w : Warp) : List HeldOp → Perg × TMode
  | [] => (w.perg, w.tmode)
  | h :: r =>
    let y := lastTable w r
    match h with
    | .tab p m => if r.any (fun x => match x with | .tab .. => true | _ => false) then y else (p, m)
    | _ => y

/-- A change that every version of a warp's table takes: those still to be applied, and the one that a commit begins with. -/
def Warp.mapTables (w : Warp) (f : Perg → Perg) : Warp :=
  { w with perg := f w.perg, base := w.base.map fun b => (f b.1, b.2)
           held := w.held.map fun h => match h with | .tab p m => .tab (f p) m | h => h }

end Sys2Proof.Machine
end

