-- ==== Sys2Proof/Machine/Eval.lean ====
section
/-! DEFINITION. Evaluation of Pergola nodes: demand (R374), the values of nodes (R371, R375 to R378), materialisation,
conversion to a LEAF, and the alias guard (R379 to R384). -/

namespace Sys2Proof.Machine

open Sys2Proof

/-! ## Index maps (R369) -/

def mapCoef (code : Nat) : Int := if code = 1 then 1 else if code = 3 then -1 else 0

/-- The input position of an edge position. -/
def mapAt (m : Word) (r c : Int) : Int × Int :=
  let f (lo : Nat) : Int := mapCoef (fieldN m.toNat lo 2)
  let o (lo : Nat) : Int := signedW 16 (fieldN m.toNat lo 16)
  (f 0 * r + f 2 * c + o 32, f 4 * r + f 6 * c + o 48)

/-- A rectangle of positions, bounds included. -/
structure Dom where
  a0 : Int
  a1 : Int
  b0 : Int
  b1 : Int
  deriving DecidableEq, Repr

/-- The smallest rectangle that holds the images of a domain's corners. -/
def boundMap (m : Word) (d : Dom) : Dom :=
  let l := [mapAt m d.a0 d.b0, mapAt m d.a0 d.b1, mapAt m d.a1 d.b0, mapAt m d.a1 d.b1]
  let r := l.map Prod.fst
  let c := l.map Prod.snd
  let h (l : List Int) : Int := l.headD 0
  { a0 := r.foldl min (h r), a1 := r.foldl max (h r), b0 := c.foldl min (h c), b1 := c.foldl max (h c) }

/-- A rectangle of a node. -/
structure Rect where
  r0 : Nat
  c0 : Nat
  rows : Nat
  cols : Nat
  deriving DecidableEq, Repr

def NodeDesc.whole (d : NodeDesc) : Rect := { r0 := 0, c0 := 0, rows := d.rows, cols := d.cols }

/-- Grid32(rect) within the shape. -/
def Rect.grid (x : Rect) (d : NodeDesc) : Rect :=
  let r0 := x.r0 / 32 * 32
  let c0 := x.c0 / 32 * 32
  { r0 := r0, c0 := c0, rows := min d.rows ((x.r0 + x.rows + 31) / 32 * 32) - r0
    cols := min d.cols ((x.c0 + x.cols + 31) / 32 * 32) - c0 }

/-- The edge's natural coordinates for a rectangle of the node (R369, R374). -/
def edgeDom (k : NodeKind) (d : NodeDesc) (e : Nat) (x : Rect) : Dom :=
  let rows : Int × Int := (x.r0, x.r0 + x.rows - 1)
  let cols : Int × Int := (x.c0, x.c0 + x.cols - 1)
  let ks : Int × Int := (0, (d.klen : Int) - 1)
  let mk (a b : Int × Int) : Dom := { a0 := a.1, a1 := a.2, b0 := b.1, b1 := b.2 }
  match k with
  | .contract =>
    if e = 0 then mk rows ks
    else if e = 1 then mk ks cols
    else if d.op = 1 then mk rows ks
    else if d.op = 2 then mk ks cols
    else mk (0, 0) ks
  | .rowred => mk rows ks
  | _ => mk rows cols

/-- A domain cut to a shape, if anything is left. -/
def Dom.within (x : Dom) (d : NodeDesc) : Option Rect :=
  let a0 := max x.a0 0
  let a1 := min x.a1 ((d.rows : Int) - 1)
  let b0 := max x.b0 0
  let b1 := min x.b1 ((d.cols : Int) - 1)
  if a0 ≤ a1 ∧ b0 ≤ b1 then
    some { r0 := a0.toNat, c0 := b0.toNat, rows := (a1 - a0 + 1).toNat, cols := (b1 - b0 + 1).toNat }
  else none

/-- The map of an edge. -/
def NodeDesc.edgeMap (d : NodeDesc) (e : Nat) : Word := d.maps.getD e 0

/-- The rectangles a node passes to its inputs. -/
def passDown (p : Perg) (n : Node) (x : Rect) : List (Nat × Rect) :=
  (countFrom 0 n.inputs.length).filterMap fun e =>
    match n.inputs[e]? with
    | none => none
    | some i => match p.byIdx i with
      | none => none
      | some m => ((boundMap (n.desc.edgeMap e) (edgeDom n.kind n.desc e x)).within m.desc).map fun r => (i, r.grid m.desc)

/-- Demand over the nodes from the newest back: every rectangle that reaches a node (R374). -/
def demandAll (p : Perg) : List Node → List (Nat × Rect) → List (Nat × Rect)
  | [], needs => needs
  | n :: r, needs =>
    if n.isLeaf then demandAll p r needs
    else demandAll p r (needs ++ ((needs.filter fun x => x.1 = n.idx).flatMap fun x => passDown p n x.2))

/-- The 32 × 32 tiles of a node that its rectangles touch, row-major. -/
def neededTiles (d : NodeDesc) (l : List Rect) : List (Nat × Nat) :=
  if l.isEmpty then []
  else
    ((countFrom 0 ((d.rows + 31) / 32)).flatMap fun r => (countFrom 0 ((d.cols + 31) / 32)).map fun c => (r, c)).filter
      fun t => l.any fun x => decide (x.r0 < t.1 * 32 + 32) && decide (t.1 * 32 < x.r0 + x.rows)
        && decide (x.c0 < t.2 * 32 + 32) && decide (t.2 * 32 < x.c0 + x.cols)

/-! ## Evaluated tiles -/

/-- Why an evaluation stops: a fault, lines that are absent, or an entry of the matrix queue that a contraction of warp `k`'s nodes
has still to pass (R376). -/
inductive EvStop where
  | fault (t : Trap)
  | absent (pas : List Nat)
  | entry (k : Nat) (ashape : W32)
  deriving DecidableEq, Repr

/-- The late fault of a node (R380). -/
def Node.late (n : Node) (f : WFault) (va : Word) : EvStop :=
  .fault { f.trap false 0 va with late := true, fnode := BitVec.ofNat 64 n.handle, fnpc := n.pc, fnreg := n.regctr }

/-- A tile of a node: codes of its FMT in row-major order (a q4 code with its scale byte above it), and the elements
that met an uncorrectable error: index, source, and whether the error lay in the scale byte. -/
structure TileV where
  idx : Nat
  tr : Nat
  tc : Nat
  codes : Array Nat
  bad : List (Nat × Nat × Bool)
  deriving DecidableEq, Repr

/-- An evaluation under way. -/
structure Env where
  s : State
  tiles : List TileV
  deriving DecidableEq, Repr

def tileH (d : NodeDesc) (tr : Nat) : Nat := min 32 (d.rows - tr * 32)
def tileW (d : NodeDesc) (tc : Nat) : Nat := min 32 (d.cols - tc * 32)

/-- An element's code and error mark. -/
def elemOf (l : List TileV) (n : Node) (r c : Nat) : Nat × Option (Nat × Bool) :=
  match l.find? fun t => t.idx = n.idx ∧ t.tr = r / 32 ∧ t.tc = c / 32 with
  | none => (0, none)
  | some t =>
    let i := r % 32 * tileW n.desc t.tc + c % 32
    (t.codes.getD i 0, (t.bad.find? fun b => b.1 = i).map Prod.snd)

/-- The errors of an element: each its source, and whether it lies in the scale byte of its q4 block. -/
def errorsOf (l : List TileV) (n : Node) (r c : Nat) : List (Nat × Bool) :=
  match l.find? fun t => t.idx = n.idx ∧ t.tr = r / 32 ∧ t.tc = c / 32 with
  | none => []
  | some t => (t.bad.filter fun b => b.1 = r % 32 * tileW n.desc t.tc + c % 32).map Prod.snd

/-- The value of an element, a replaced element being zero (R351); a q4 code holds its replacements already. -/
def elemValue (l : List TileV) (n : Node) (r c : Nat) : FVal :=
  let x := elemOf l n r c
  if n.desc.fmt = .q4 then q4Value (x.1 / 16) (x.1 % 16)
  else if x.2.isSome then .fin false 0 0 else valueOf n.desc.fmt x.1

/-- The first byte of an element (R367, R368). -/
def NodeDesc.elemVa (d : NodeDesc) (r c : Nat) : Word :=
  let o :=
    if d.fmt = .q4 then (if d.qdir then c * d.hstr + r / 32 * 17 else r * d.hstr + c / 32 * 17)
    else r * d.hstr + c * elemSize d.fmt
  d.haddr + BitVec.ofNat 64 o

/-- The byte of an element that is uncorrectable: of a q4 element the scale byte of its block, or the byte of its code (R368, R380). -/
def NodeDesc.badVa (d : NodeDesc) (r c : Nat) (scale : Bool) : Word :=
  if d.fmt = .q4 ∧ scale = false then d.elemVa r c + BitVec.ofNat 64 (1 + (if d.qdir then r else c) % 32 / 2) else d.elemVa r c

/-- What an evaluation works for: the warp whose nodes it evaluates and the one `by` whose instruction demands it, the held writes it
sees, of converted nodes alone where `late`, the time of its demand, and the number its log entries carry. -/
structure EvalFor where
  k : Nat
  by_ : Nat
  who : Who
  det : Bool
  held : List HeldOp
  late : Bool
  seq : Nat
  num : Nat
  deriving DecidableEq, Repr

/-- Lines of places that tracked writes issued before the demand have not delivered (R190). -/
def EvalFor.waits (x : EvalFor) (s : State) (l : List Xlat) : List Nat :=
  (l.flatMap fun y => scratchLines y.kind y.pa y.len).filter fun pa => s.owedBefore x.seq (spCoreLine pa)

/-- Whether a held entry carries the bytes of a converted node. -/
def HeldOp.conversion : HeldOp → Bool
  | .mat _ _ _ _ _ _ (some (_, none)) => true
  | _ => false

/-- The held writes that an evaluation sees over the bytes of node `n`: the round's, or at a commit, where the bytes of a converted
node are not yet written, those (R172, R386). -/
def EvalFor.over (x : EvalFor) (n : Node) : List HeldOp :=
  if !x.late then x.held
  else if !n.unwritten then []
  else x.held.filter fun h => match h with | .mat _ _ _ _ _ _ (some (m, none)) => m == n.handle | _ => false

/-- Bytes that a node's evaluation reads, each with its error mark and source. -/
def evalRead (x : EvalFor) (n : Node) (acc : Bool) (s : State) (va : Word) (len : Nat) :
    Except EvStop (State × List (Byte × Option Nat)) :=
  match operandRange s x.who .load acc va len with
  | .error (f, a) => .error (n.late f a)
  | .ok (s, l) =>
    let w := x.waits s l
    if !w.isEmpty then .error (.absent w)
    else
      let r := pathXlats s x.who.core .tile x.det (x.over n) l
      let src := sourceCode ((l.head?.map fun y => y.kind).getD .cached)
      .ok (r.1, r.2.map fun b => (b.1, if b.2 then some src else none))

/-! ## Leaves -/

/-- Elements of a run of bytes: codes and error marks from index `i` up. -/
def runElems (size : Nat) : Nat → Nat → List (Byte × Option Nat) → List Nat × List (Nat × Nat × Bool)
  | 0, _, _ => ([], [])
  | n + 1, i, b =>
    let h := b.take size
    let r := runElems size n (i + 1) (b.drop size)
    (bytesNat (h.map Prod.fst) :: r.1, match h.findSome? Prod.snd with | some s => (i, s, false) :: r.2 | none => r.2)

/-- An element of a q4 block, with what is uncorrectable of its code and of its scale byte, each replaced by zero (R351). -/
def blockElem (b : List (Byte × Option Nat)) (j : Nat) : Nat × List (Nat × Bool) :=
  let get (i : Nat) : Byte × Option Nat := b.getD i (0, none)
  let byte (x : Byte × Option Nat) : Nat := if x.2.isSome then 0 else x.1.toNat
  let x := get (1 + j / 2)
  (byte (get 0) * 16 + byte x / 2 ^ (4 * (j % 2)) % 16, x.2.toList.map (·, false) ++ (get 0).2.toList.map (·, true))

/-- A tile of a LEAF read from its memory. -/
def leafTile (x : EvalFor) (n : Node) (s : State) (tr tc : Nat) : Except EvStop (State × TileV) :=
  let d := n.desc
  let h := tileH d tr
  let w := tileW d tc
  if d.fmt = .q4 then
    let lines := if d.qdir then w else h
    match foldE (fun (a : State × List (List (Byte × Option Nat))) i =>
        let va := if d.qdir then d.elemVa (tr * 32) (tc * 32 + i) else d.elemVa (tr * 32 + i) (tc * 32)
        match evalRead x n true a.1 va 17 with
        | .error e => Except.error e
        | .ok (s, b) => .ok (s, a.2 ++ [b])) (s, []) (countFrom 0 lines) with
    | .error e => .error e
    | .ok (s, bl) =>
      let at' (i : Nat) : Nat × List (Nat × Bool) :=
        let r := i / w
        let c := i % w
        if d.qdir then blockElem (bl.getD c []) r else blockElem (bl.getD r []) c
      let l := countFrom 0 (h * w)
      .ok (s, { idx := n.idx, tr := tr, tc := tc, codes := (l.map fun i => (at' i).1).toArray
                bad := l.flatMap fun i => (at' i).2.map fun b => (i, b) })
  else
    match foldE (fun (a : State × List Nat × List (Nat × Nat × Bool)) i =>
        match evalRead x n true a.1 (d.elemVa (tr * 32 + i) (tc * 32)) (w * elemSize d.fmt) with
        | .error e => Except.error e
        | .ok (s, b) =>
          let r := runElems (elemSize d.fmt) w (i * w) b
          .ok (s, a.2.1 ++ r.1, a.2.2 ++ r.2)) (s, [], []) (countFrom 0 h) with
    | .error e => .error e
    | .ok (s, codes, bad) => .ok (s, { idx := n.idx, tr := tr, tc := tc, codes := codes.toArray, bad := bad })

/-! ## Values of other nodes (R371) -/

/-- The rounding a node captured; SR becomes RNE. -/
def Node.round (n : Node) : RCtl :=
  let m := modeOf n.slot n.desc.fmt 0
  { mode := if m = .sr then .rne else m, sat := satOf n.slot n.desc.fmt, u := 0 }

def Node.code (n : Node) (x : FVal) : Nat := narrow (fmtOf n.desc.fmt) n.round x

/-- The fault that node `n` takes for an uncorrectable element of `m` that it reads, at the byte that failed (R380). -/
def elemBad (l : List TileV) (n m : Node) (r c : Nat) : Option EvStop :=
  match errorsOf l m r c with
  | [] => none
  | e => some (n.late (Cause.uncorrectableData, 0) (m.desc.badVa r c (e.any Prod.snd)))

/-- An input element of a node that is no CONTRACT: an uncorrectable one is a fault of the reading node. -/
def inputAt (l : List TileV) (n m : Node) (r c : Int) : Except EvStop Nat :=
  match elemBad l n m r.toNat c.toNat with
  | none => .ok (elemOf l m r.toNat c.toNat).1
  | some e => .error e

def valueIn (m : Node) (code : Nat) : FVal :=
  if m.desc.fmt = .q4 then q4Value (code / 16) (code % 16) else valueOf m.desc.fmt code

/-- The magnitude of a value. -/
def FVal.abs : FVal → FVal
  | .nan => .nan
  | .inf _ => .inf false
  | .fin _ m e => .fin false m e

/-- EWISE. -/
def ewiseCode (n : Node) (x y : FVal) : Nat :=
  let c := n.round
  let rdn := decide (c.mode = .rdn)
  match n.desc.op with
  | 0 => n.code (sumF rdn [x, y])
  | 1 => n.code (sumF rdn [x, y.neg])
  | 2 => n.code (mulF x y)
  | 3 => n.code (pickF true x y)
  | 4 => n.code (pickF false x y)
  | 8 => n.code x.neg
  | 9 => n.code x.abs
  | 10 => specialBits .exp2 (fmtOf n.desc.fmt) c x
  | 11 => specialBits .log2 (fmtOf n.desc.fmt) c x
  | 12 => specialBits .rcp (fmtOf n.desc.fmt) c x
  | 13 => specialBits .rsq (fmtOf n.desc.fmt) c x
  | 14 => specialBits .tanh (fmtOf n.desc.fmt) c x
  | _ => n.code x

/-- One element of a node that is neither LEAF nor CONTRACT; `e` is a CAST's exponent. -/
def plainElem (p : Perg) (l : List TileV) (n : Node) (e : Int) (r c : Nat) : Except EvStop Nat :=
  let input (i : Nat) : Option Node := (n.inputs[i]?).bind p.byIdx
  let at' (i : Nat) : Int × Int := mapAt (n.desc.edgeMap i) r c
  match n.kind, input 0 with
  | .ewise, some m =>
    match inputAt l n m (at' 0).1 (at' 0).2 with
    | .error s => .error s
    | .ok x =>
      match input 1 with
      | none => .ok (ewiseCode n (valueIn m x) .nan)
      | some m2 =>
        match inputAt l n m2 (at' 1).1 (at' 1).2 with
        | .error s => .error s
        | .ok y => .ok (ewiseCode n (valueIn m x) (valueIn m2 y))
  | .rowred, some m =>
    match eachE (fun t : Nat => let q := mapAt (n.desc.edgeMap 0) r t; inputAt l n m q.1 q.2) (countFrom 0 n.desc.klen) with
    | .error s => .error s
    | .ok xs =>
      let v := xs.map (valueIn m)
      .ok (n.code (if n.desc.op = 0 then sumF (decide (n.round.mode = .rdn)) v
                   else match v with | [] => .nan | a :: r => r.foldl (pickF true) a))
  | .map, some m =>
    let q := at' 0
    if 0 ≤ q.1 ∧ q.1 < m.desc.rows ∧ 0 ≤ q.2 ∧ q.2 < m.desc.cols then
      match inputAt l n m q.1 q.2 with
      | .error s => .error s
      | .ok x => .ok (if valueIn m x = .nan && m.desc.fmt != .q4 then n.code .nan else x)
    else .ok (narrow (fmtOf n.desc.fmt) rne (decodeF (fmtOf .f32) n.desc.padv.toNat))
  | .cast, some m =>
    match inputAt l n m (at' 0).1 (at' 0).2 with
    | .error s => .error s
    | .ok x => .ok (n.code ((valueIn m x).scale e))
  | _, _ => .ok 0

/-- A tile of such a node. -/
def plainTile (x : EvalFor) (p : Perg) (n : Node) (env : Env) (tr tc : Nat) : Except EvStop Env :=
  let d := n.desc
  let h := tileH d tr
  let w := tileW d tc
  let scales : Except EvStop (State × List (Byte × Option Nat)) :=
    if n.kind = .cast ∧ d.op ≠ 0 then
      let o := if d.op = 1 then tr * 32 else tc * 32
      evalRead x n true env.s (d.saddr + BitVec.ofNat 64 o) (if d.op = 1 then h else w)
    else .ok (env.s, [])
  match scales with
  | .error s => .error s
  | .ok (s, sc) =>
    match sc.findIdx? fun b => b.2.isSome with
    | some i =>
      .error (n.late (Cause.uncorrectableData, 0) (d.saddr + BitVec.ofNat 64 ((if d.op = 1 then tr * 32 else tc * 32) + i)))
    | none =>
      match eachE (fun i : Nat =>
          let r := i / w
          let c := i % w
          let b := (sc.getD (if d.op = 1 then r else c) (0, none)).1
          plainElem p env.tiles n (if sc.isEmpty then 0 else signedW 8 b.toNat) (tr * 32 + r) (tc * 32 + c))
        (countFrom 0 (h * w)) with
      | .error s => .error s
      | .ok codes =>
        .ok { env with s := s, tiles := env.tiles ++ [{ idx := n.idx, tr := tr, tc := tc, codes := codes.toArray, bad := [] }] }

/-! ## Contractions -/

/-- The log entries of the replaced elements of one operand plane over a grid of positions, and one for each replaced scale
byte of its blocks (R351, R353). -/
def planeErrors (l : List TileV) (m : Node) (map : Word) (plane : Nat) (rows cols : List Nat) : List (Nat × Nat × Nat × Nat) :=
  if (l.all fun t => t.idx ≠ m.idx || t.bad.isEmpty) then []
  else
    let one (r c : Nat) : List ((Bool × Nat × Nat) × Nat × Nat × Nat × Nat) :=
      let q := mapAt map r c
      let y := q.1.toNat
      let x := q.2.toNat
      (errorsOf l m y x).map fun e =>
        if e.2 then
          let k := if m.desc.qdir then (x, y / 32) else (y, x / 32)
          ((true, k), 7, 0, k.2, e.1)
        else ((false, r, c), plane, (if plane = 4 then 0 else r), c, e.1)
    (rows.flatMap fun r => cols.flatMap fun c => one r c).eraseDups.map Prod.snd

/-- A tile of a CONTRACT (R371, R357), with its operand errors logged under EVAL. -/
def contractTile (x : EvalFor) (p : Perg) (n : Node) (env : Env) (tr tc : Nat) : Except EvStop Env :=
  let d := n.desc
  let h := tileH d tr
  let w := tileW d tc
  let scale (s : State) (base : Word) (o len : Nat) : Except EvStop (State × List (Byte × Option Nat)) :=
    if base = 0 then .ok (s, []) else evalRead x n false s (base + BitVec.ofNat 64 o) len
  match scale env.s d.saddr (tr * 32) h with
  | .error e => .error e
  | .ok (s, rs) =>
    match scale s d.waddr (tc * 32) w with
    | .error e => .error e
    | .ok (s, ws) =>
      match (n.inputs[0]?).bind p.byIdx, (n.inputs[1]?).bind p.byIdx with
      | some a, some b =>
        let g := (n.inputs[2]?).bind p.byIdx
        let nb := bandCount n.ashape
        let f := factorOf ([a.desc.fmt, b.desc.fmt]
          ++ (match g with | some m => if d.op = 3 then [] else [m.desc.fmt] | none => []))
        let exp (l : List (Byte × Option Nat)) (i : Nat) : Int :=
          match l[i]? with
          | some (v, none) => scaleExp v.toNat
          | _ => 0
        let va (m : Node) (e r c : Nat) : FVal :=
          let q := mapAt (d.edgeMap e) r c
          elemValue env.tiles m q.1.toNat q.2.toNat
        let prod (i j k : Nat) : FVal :=
          let ab := mulF ((va a 0 (tr * 32 + i) k).scale (exp rs i)) ((va b 1 k (tc * 32 + j)).scale (exp ws j))
          match g with
          | none => ab
          | some m =>
            mulF ab (if d.op = 1 then va m 2 (tr * 32 + i) k else if d.op = 2 then va m 2 k (tc * 32 + j) else va m 2 0 k)
        let cell (i : Nat) : Nat :=
          let bits := cellFrom (accRnd n.ashape) nb f (prod (i / w) (i % w)) (d.klen / (8 * nb * f)) 0 0
          n.code (decodeF (fmtOf .f32) bits.toNat)
        let rows := countFrom (tr * 32) h
        let cols := countFrom (tc * 32) w
        let ks := countFrom 0 d.klen
        let sc (l : List (Byte × Option Nat)) (plane : Nat) (base : Nat) : List (Nat × Nat × Nat × Nat) :=
          (countFrom 0 l.length).filterMap fun i =>
            match l[i]? with
            | some (_, some src) => some (plane, (if plane = 5 then base + i else 0), (if plane = 5 then 0 else base + i), src)
            | _ => none
        let errs :=
          planeErrors env.tiles b (d.edgeMap 1) 1 ks cols ++ sc ws 6 (tc * 32)
          ++ (match g with
              | none => []
              | some m => if d.op = 1 then planeErrors env.tiles m (d.edgeMap 2) 2 rows ks
                          else if d.op = 2 then planeErrors env.tiles m (d.edgeMap 2) 3 ks cols
                          else planeErrors env.tiles m (d.edgeMap 2) 4 [0] ks)
          ++ planeErrors env.tiles a (d.edgeMap 0) 0 rows ks ++ sc rs 5 (tr * 32)
        let tl := errs.foldl (fun t e => t.cubeError x.num e.1 e.2.1 e.2.2.1 e.2.2.2 true) (s.tl x.who.ctx x.who.core)
        let s := if errs.isEmpty then s else s.setTl x.who.ctx x.who.core tl
        .ok { s := s
              tiles := env.tiles ++ [{ idx := n.idx, tr := tr, tc := tc, codes := ((countFrom 0 (h * w)).map cell).toArray
                                       bad := [] }] }
      | _, _ => .ok env

/-! ## Evaluation in order (R376) -/

/-- One tile of a node. -/
def evalTile (x : EvalFor) (p : Perg) (n : Node) (env : Env) (t : Nat × Nat) : Except EvStop Env :=
  match n.kind with
  | .leaf =>
    match leafTile x n env.s t.1 t.2 with
    | .error e => .error e
    | .ok (s, v) => .ok { env with s := s, tiles := env.tiles ++ [v] }
  | .contract => contractTile x p n env t.1 t.2
  | _ => plainTile x p n env t.1 t.2

/-- A fold that stops at an error with what it had reached. -/
def foldKeep (f : Env → Nat × Nat → Except EvStop Env) : Env → List (Nat × Nat) → Except (Env × EvStop) Env
  | env, [] => .ok env
  | env, t :: r =>
    match f env t with
    | .error e => .error (env, e)
    | .ok env => foldKeep f env r

/-- One node over its needed tiles; a pending node needs an evaluation region of 4 tiles (R377). -/
def evalNode (x : EvalFor) (p : Perg) (ecnt : Nat) (needs : List (Nat × Rect)) (env : Env) (n : Node) :
    Except (Env × EvStop) Env :=
  let tiles := neededTiles n.desc ((needs.filter fun y => y.1 = n.idx).map Prod.snd)
  if tiles.isEmpty then .ok env
  else if !n.isLeaf && decide (ecnt < 4) then .error (env, n.late (Cause.pergolaSpace, 0) 0)
  else foldKeep (evalTile x p n) env tiles

/-- The array state of a context on a core, owner or saved (R349). -/
def Core.arrayOf (c : Core) (ctx : Nat) : ArrayState :=
  if c.owner = some ctx then c.array else tgetD c.saved ctx .init
def Core.setArray (c : Core) (ctx : Nat) (a : ArrayState) : Core :=
  if c.owner = some ctx then { c with array := a } else { c with saved := tset c.saved ctx a }

/-- A stationary plane of free contents. -/
def freePlane (fmt : DT) (klen free : Nat) : Plane :=
  { fmt := fmt, k := klen
    elems := (countFrom 0 (klen * 32)).map fun i => (Config.freeLane free i).toNat % 2 ^ fmt.width
    scales := if fmt = .q4 then (countFrom 0 klen).map fun i => (Config.freeLane (free + 1) i).toNat % 256 else [] }

/-- Free contents in the lent tiles, and in the lent set: which of the two sets it is, is free (R376). (DESIGN
CHOICE, log 6; DESIGN CHOICE, log 44) -/
def ArrayState.spoil (a : ArrayState) (ltiles : BitVec 8) (lset : Bool) (free : Nat) : ArrayState :=
  let lent := (countFrom 0 8).filter fun t => ltiles.getLsbD t
  let tiles := lent.foldl (fun m t => (countFrom 0 1024).foldl (fun m i => tset m (t * 1024 + i) (Config.freeLane (free + 1) (t * 1024 + i))) m)
    a.tiles
  if !lset then { a with tiles := tiles }
  else
    let fmt := [DT.bf16, .f16, .e4m3, .e5m2, .q4].getD (Config.freeNat (free + 2) % 5) .bf16
    let klen := if fmt = .q4 then 32 * (Config.freeNat (free + 3) % 32 + 1) else 8 * (Config.freeNat (free + 3) % 128 + 1)
    let may (i : Nat) (p : Plane) : Option Plane := if Config.freeNat (free + i) % 2 = 0 then some p else none
    let set : StSet :=
      { b := may 4 (freePlane fmt klen (free + 5)), g := may 7 (freePlane .bf16 klen (free + 8)), kv := may 10 (freePlane .bf16 klen (free + 11))
        wscale := if Config.freeNat (free + 13) % 2 = 0 then some ((countFrom 0 32).map fun i => (Config.freeLane (free + 14) i).toNat % 256)
                  else none }
    if Config.freeNat free % 2 = 0 then { a with tiles := tiles, set0 := set } else { a with tiles := tiles, set1 := set }

/-- What an evaluation of a context on core `n` leaves in the tiles and the set lent to it is free (R376). -/
def State.freeLent (s : State) (n ctx : Nat) (ltiles : BitVec 8) (lset : Bool) : State :=
  if ltiles = 0 && !lset then s
  else
    let c := s.core n
    { s.setCore n (c.setArray ctx ((c.arrayOf ctx).spoil ltiles lset s.free)) with free := s.free + 15 }

/-- Intermediate tiles stand in the evaluation region, from its first tile up as far as it reaches; which tile stands where, and what
an earlier evaluation left, is free (R377). (DESIGN CHOICE, log 41) -/
def State.freeRegion (s : State) (w : Warp) (count : Nat) : State :=
  let base := acAlias w.core + (((w.block? s).bind fun b => assocGet b.abase w.core).getD 0 + w.tmode.ebase) * 4096
  let len := min w.tmode.ecnt count * 4096
  if len = 0 then s
  else
    { s with mem := memFill s.mem base len fun i => (Config.freeLane s.free i).setWidth 8, free := s.free + 1
             poison := s.poison.filter fun l => decide (l * 128 < base) || decide (base + len ≤ l * 128) }

/-- The tiles of an evaluation that are held in its region: those of no LEAF. -/
def Env.held (env : Env) (p : Perg) : Nat :=
  (env.tiles.filter fun t => ((p.byIdx t.idx).map fun n => !n.isLeaf).getD false).length

/-- The state after an evaluation of a warp's nodes: what it left in the lent set and tiles and in its region is free (R376, R377). -/
def Env.finish (env : Env) (w : Warp) : State :=
  (env.s.freeLent w.core w.ctx w.tmode.ltiles w.tmode.lset).freeRegion w (env.held w.perg)

/-- The rectangles that an evaluation of a node needs of every node that it reaches (R374). -/
def needsOf (p : Perg) (n : Node) (rect : Rect) : List (Nat × Rect) :=
  demandAll p p.nodes.reverse [(n.idx, rect.grid n.desc)]

/-- The contractions of an evaluation, tile by tile in its order, each by the ashape its node captured (R372, R376). -/
def contractions (p : Perg) (needs : List (Nat × Rect)) : List W32 :=
  p.nodes.flatMap fun n =>
    if n.kind = .contract then (neededTiles n.desc ((needs.filter fun y => y.1 = n.idx).map Prod.snd)).map fun _ => n.ashape else []

/-- The entries that have run for an evaluation that warp `k` demands are used up by it. -/
def State.spend (s : State) (k n : Nat) : State :=
  match s.warp? k with
  | some w => if n = 0 then s else s.setWarp k { w with credit := w.credit.drop n }
  | none => s

/-- A node evaluated over a rectangle: the state and its tiles, once an entry of the matrix queue has run for every tile of a
CONTRACT in it, for the instruction that demands it (R376). After a fault the errors logged so far stand (R351). -/
def evaluate (x : EvalFor) (s : State) (w : Warp) (n : Node) (rect : Rect) : Except (State × EvStop) (State × List TileV) :=
  let needs := needsOf w.perg n rect
  let due := contractions w.perg needs
  match due.drop (((s.warp? x.by_).map fun v => v.credit.length).getD 0) with
  | a :: _ => .error (s, .entry x.k a)
  | [] =>
    match foldE (evalNode x w.perg w.tmode.ecnt needs) { s := s, tiles := [] } w.perg.nodes with
    | .error (env, .fault t) => .error ((env.finish w).spend x.by_ due.length, .fault t)
    | .error (_, e) => .error (s, e)
    | .ok env => .ok ((env.finish w).spend x.by_ due.length, env.tiles)

/-! ## Materialisation -/

/-- The rows of a rectangle as bytes at their addresses. -/
def rectRows (l : List TileV) (n : Node) (rect : Rect) (addr : Nat → Word) : List (Word × List Byte) :=
  (countFrom 0 rect.rows).map fun r =>
    (addr r, (countFrom 0 rect.cols).flatMap fun c =>
      natBytes (elemSize n.desc.fmt) (elemOf l n (rect.r0 + r) (rect.c0 + c)).1)

/-- The places of rows to be written, each with its bytes: a failing byte is a late fault of the node. -/
def placeRows (x : EvalFor) (n : Node) (s : State) (rows : List (Word × List Byte)) : Except EvStop (State × List MatW) :=
  foldE (fun (a : State × List MatW) r =>
    match operandRange a.1 x.who .store true r.1 r.2.length with
    | .error (f, va) => Except.error (n.late f va)
    | .ok (s, l) =>
      .ok (s, a.2 ++ l.map fun y => { kind := y.kind, pa := y.pa, data := (r.2.drop (y.va - r.1).toNat).take y.len }))
    (s, []) rows

/-- Bytes of a materialisation written at their homes. -/
def State.matWrite (s : State) (ctx : Nat) (l : List MatW) : State :=
  l.foldl (fun s x => s.homeWrite ctx x.kind x.pa x.data) s

/-- Materialised bytes written at their homes by a core, whose own older copies of those lines go: what it then reads, as a
load or as an operand of a converted node, is what was written (R196, R379). -/
def State.matHome (s : State) (core ctx : Nat) (l : List MatW) : State :=
  let s := (s.matWrite ctx l).discardL1 core
  let c := s.core core
  s.setCore core { c with tc := c.tc.filter fun p => !l.any fun x => decide (lineOf x.pa ≤ p.1) && decide (p.1 ≤ lineOf (x.pa + x.data.length - 1)) }

/-- Materialised bytes written, or held for the round's commit with the lines and what they owe and the node they change (R386). -/
def State.matDone (s : State) (hold : Bool) (k : Nat) (l : List MatW) (rngs : List Rng) (lines : List (Nat × Nat))
    (owed : Option Owed) (ipc : Word) (node : Option (Nat × Option Word)) : State :=
  match s.warp? k with
  | none => s
  | some w =>
    if hold then s.setWarp k { w with held := w.held ++ [.mat l rngs lines owed false ipc node] } else s.matHome w.core w.ctx l

/-- A node as a LEAF over its home, whose bytes may be held. -/
def Node.leafed (n : Node) (hold : Bool) : Node :=
  { n with kind := .leaf, inputs := [], ranges := 1, desc := { n.desc with qdir := false }, unwritten := hold }

/-- ToLeaf: the node keeps its handle and becomes a LEAF over its home, whose bytes may be held (R379, R386); none where no range
entry is free. -/
def Perg.toLeaf (p : Perg) (rq : Nat) (n : Node) (hold : Bool) : Option Perg :=
  if rq < p.used - n.ranges + 1 then none
  else some (p.set (n.leafed hold))

/-- A node of a table by its handle, its bytes now written, as a LEAF. -/
def Perg.written (p : Perg) (h : Nat) : Perg := { p with nodes := p.nodes.map fun n => if n.handle = h then n.leafed false else n }

/-- What an evaluation of warp `k`'s nodes works for, at the demand of warp `by_`: it sees the round's held writes, or at a commit the
bytes that stand in for the homes of converted nodes not yet written (R386). -/
def evalFor (by_ k : Nat) (w : Warp) (hold : Bool) (seq num : Nat) : EvalFor :=
  { k := k, by_ := by_, who := w.who, det := w.det, held := w.held, late := !hold, seq := seq, num := num }

/-- Whether an entry is the one that an evaluation demanded by warp `k` placed. -/
def CubeEnt.isEval (e : CubeEnt) (k : Nat) : Bool := e.warp == k && match e.cmd with | .eval .. => true | _ => false

/-- The entry of the matrix queue for one tile of a CONTRACT of a warp `w`, at the demand of warp `k`: it takes no number and stands at
EPRIO under the dependences of R345. -/
def State.evalEntry (s : State) (k : Nat) (w : Warp) (ashape : W32) : CubeEnt :=
  { seq := s.seq, ctx := w.ctx, warp := k, num := 0, cmd := .eval w.tmode.ltiles w.tmode.lset, prio := w.tmode.eprio
    wait := 0, since := s.clock, born := s.clock, st := .queued, step := 0, ashape := ashape, xl := [], sc := [], tok := 0 }

/-- What is lent to the evaluations that a context has under way on a core: by entries that have run, and by one that stands in the
matrix queue. -/
def State.lent (s : State) (n ctx : Nat) : List (BitVec 8 × Bool) :=
  (s.warps.flatMap fun p => if p.2.core = n ∧ p.2.ctx = ctx then p.2.credit else [])
  ++ (s.core n).cq.filterMap fun e => match e.cmd with | .eval t x => if e.ctx = ctx then some (t, x) else none | _ => none

/-- Cube commands of a context on a core that are performed during an evaluation find and leave what is lent to it free (R376). -/
def State.lentFree (s : State) (n ctx : Nat) : State := (s.lent n ctx).eraseDups.foldl (fun s x => s.freeLent n ctx x.1 x.2) s

/-- The next thing that a tile of a CONTRACT of warp `k` needs of the matrix queue: its entry joins the queue while that has room, or
runs once it is dispatched and its bands are powered, and the tile's evaluation may then be carried out for the instruction of warp
`by_` that demands it; what is lent is free from then on (R344, R376). -/
def State.passEntry (s : State) (by_ k : Nat) (ashape : W32) : Option State :=
  match s.warp? k, s.warp? by_ with
  | some w, some d =>
    let c := s.core w.core
    match c.cq.find? fun e => e.isEval by_ with
    | some e =>
      if e.st = .running && (e.ashape.extractLsb' 0 4 &&& ~~~c.bands) = 0 && !c.paused then
        some (((s.setCore w.core { c with cq := c.cq.filter fun y => y.seq != e.seq }).setWarp by_
          { d with credit := d.credit ++ [(w.tmode.ltiles, w.tmode.lset)] }).freeLent w.core w.ctx w.tmode.ltiles w.tmode.lset)
      else none
    | none =>
      if 16 ≤ c.cq.length then none
      else some { s.setCore w.core { c with cq := c.cq ++ [s.evalEntry by_ w ashape] } with seq := s.seq + 1 }
  | _, _ => none

/-- A node materialised whole and converted to a LEAF, with the dependents of its own bytes first; `busy` are the nodes
being materialised, and `n` bounds the nesting (R379, R383, R384). `hold` keeps the bytes for a commit. An error carries
the state that the finished materialisations leave. `by_` is the warp whose instruction asks for it. -/
def materialise (by_ : Nat) (hold strict : Bool) (num : Nat) :
    Nat → State → List (Nat × Nat) → Nat × Nat → Except (State × EvStop) State
  | 0, s, _, _ => .ok s
  | fuel + 1, s, busy, (k, idx) =>
    match s.warp? k with
    | none => .ok s
    | some w =>
      match (w.perg.byIdx idx).filter fun n => !n.isLeaf with
      | none => .ok s
      | some n =>
        let x := evalFor by_ k w hold s.seq num
        match evaluate x s w n n.desc.whole with
        | .error e => .error e
        | .ok (s, tiles) =>
          match placeRows x n s (rectRows tiles n n.desc.whole fun r => n.desc.elemVa r 0) with
          | .error e => .error (s, e)
          | .ok (s, ws) =>
            let hits := if hold then [] else
              (s.guardHits w.ctx w.core [n.desc.home]).filter fun h => h ≠ (k, idx) && !busy.contains h
            if strict && !hits.isEmpty then .error (s, .fault { cause := Cause.aliasGuard })
            else match foldE (fun s h => materialise by_ hold strict num fuel s ((k, idx) :: busy) h) s hits with
              | .error e => .error e
              | .ok s =>
                match s.warp? k with
                | none => .ok s
                | some w =>
                  match w.perg.toLeaf w.tmode.rq n hold with
                  | none => .error (s, .fault { cause := Cause.pergolaFull })
                  | some p =>
                    let s := s.matDone hold k ws [n.desc.home] [] none w.ipc (some (n.handle, none))
                    let w := (s.warp? k).getD w
                    .ok (s.setWarp k (if hold then w.putTable p w.tmode else w.mapTables fun q => q.written n.handle))

/-- The bound on nested materialisations: every node of the core. -/
def State.matFuel (s : State) : Nat := s.warps.foldl (fun a p => a + p.2.perg.nodes.length) 1

/-- The alias guard of a write of warp `k` (R383, R384): the directly dependent nodes of every range it meets are
materialised in creation order, or under STRICT the write faults. -/
def State.guard (s : State) (k : Nat) (w : Warp) (wr : List Rng) : Except (State × EvStop) State :=
  let hits := s.guardHits w.ctx w.core wr
  if hits.isEmpty then .ok s
  else if w.tmode.strict then .error (s, .fault { cause := Cause.aliasGuard })
  else foldE (fun s h => materialise k false false 0 s.matFuel s [] h) s hits

/-- The byte of whole registers written, the first that meets a guarded range, with its lane (R277, R384). -/
def aliasByte (s : State) (w : Warp) (rngs : List Rng) (t : Trap) : Trap :=
  let bytes := rngs.flatMap fun r => (countFrom 0 r.row).map fun i => (r.base + BitVec.ofNat 64 i, i)
  if t.cause = Cause.aliasGuard then
    match bytes.find? fun b => !(s.guardHits w.ctx w.core [Rng.flat b.1 1]).isEmpty with
    | some b => { t with faddr := b.1, index := BitVec.ofNat 16 (b.2 % 128 / 4) }
    | none => t
  else t

/-- An evaluation's stop as an instruction meets it. -/
def haltOf (e : State × EvStop) : Halt :=
  match e.2 with
  | .fault t => .after e.1 t
  | .absent l => .wait (.present l 0 false)
  | .entry k a => .wait (.slots k a)

/-- The guard of an instruction at issue; in a deterministic launch it is left to the commit (R386). -/
def guardIssue (s : State) (w : Warp) (wr : List Rng) : Except Halt State :=
  if w.det then .ok s
  else match s.guard s.cur w wr with
    | .error e => .error (haltOf e)
    | .ok s => .ok s

end Sys2Proof.Machine
end

