-- ==== Sys2Proof/Machine/Memory.lean ====
section
/-! DEFINITION. Loads, stores, atomics, ordered atomics, fences, prefetch and write-back (R305 to R315), and the arrival
of results and held accesses. -/

namespace Sys2Proof.Machine

open Sys2Proof

/-! ## Checks at issue (R307) -/

/-- The scope and place limits of an atomic (R86, R93, R146, R311). -/
def capFault (sc : Scope) (dt : DT) (kind : LocKind) : Option (BitVec 8) :=
  match kind with
  | .acc => if dt.is64 then some Cause.windowPermission else if sc.code.toNat ≤ 1 then none else some Cause.scope
  | .scratch => if sc.code.toNat ≤ 2 then none else some Cause.scope
  | .uncached => if sc = .system then some Cause.scope else none
  | _ => none

/-- Whether an atomic is one of 64 bits on the accumulator store: a window check, which comes before alignment (R19, R311). -/
def wideOnAcc (s : State) (w : Warp) (dt : DT) (va : Word) (size : Nat) : Bool :=
  match classCheck w.sys va size with
  | .ok .accWin => dt.is64 && (windowPlace s w.who .atomic va size).isOk
  | _ => false

/-- One lane of a load, store or atomic through every check. -/
def checkLane (w : Warp) (f : FmtM) (kind : AccKind) (size : Nat) (s : State) (lane : Nat) :
    Except Trap (State × LaneAcc) :=
  let va := laneEa w f lane
  match (if kind.need == .atomic && wideOnAcc s w f.dt va size then .error (Cause.windowPermission, 0)
         else resolve s w.who kind.need va size true) with
  | .error e => .error (e.trap false lane va)
  | .ok (s, pa, k) =>
    let words := max 1 (size / 4)
    let x : LaneAcc :=
      { lane := lane, va := va, pa := pa, kind := k
        data := (match kind with | .load => [] | _ => natBytes size (laneWords w (w.pos f.d) lane words))
        data2 := (match kind with | .atom .cas => natBytes size (laneWords w (w.pos f.d + words) lane words) | _ => [])
        ticket := 0 }
    match kind with
    | .atom _ =>
      match capFault f.scope f.dt k with
      | some c => .error (Trap.addr c lane va)
      | none => .ok (s, x)
    | _ => .ok (s, x)

/-- One lane of an ordered atomic (R166). In a window the checks are those of a load, and what they admit is an ordered-address
fault: where R28, R27 and R19 would give window-permission for an atomic on the constant or weight window, R166 is followed.
(DESIGN CHOICE, log 79) -/
def checkOrdered (w : Warp) (f : FmtM) (size : Nat) (s : State) (lane : Nat) : Except Trap (State × LaneAcc) :=
  let va := laneEa w f lane
  let bad : Except Trap (State × LaneAcc) := .error (Trap.addr Cause.orderedAddress lane va)
  match classCheck w.sys va size with
  | .error c => .error (Trap.addr c lane va)
  | .ok .user | .ok .sysHalf =>
    if va.toNat % 128 < 8 || va.toNat % size != 0 then bad
    else match translate s w.who .atomic va size with
      | .error e => .error (e.trap false lane va)
      | .ok (s, pa, k) =>
        if k = .cached ∨ k = .cap then
          .ok (s, { lane := lane, va := va, pa := pa, kind := k, data := natBytes size (laneWords w (w.pos f.d) lane (size / 4))
                    data2 := [], ticket := BitVec.ofNat 64 (laneWords w (w.pos f.d + 2) lane 2) })
        else bad
  | .ok _ =>
    match windowPlace s w.who .load va size with
    | .error c => .error (Trap.addr c lane va)
    | .ok _ => bad

/-- All active lanes checked in ascending order; the lowest failing lane is reported (R20). -/
def checkLanes (s : State) (check : State → Nat → Except Trap (State × LaneAcc)) (l : List Nat) :
    Except Trap (State × List LaneAcc) :=
  match foldE (fun (acc : State × List LaneAcc) lane =>
      match check acc.1 lane with
      | .error t => Except.error t
      | .ok (s, x) => .ok (s, x :: acc.2)) (s, []) l with
  | .error t => .error t
  | .ok (s, xs) => .ok (s, xs.reverse)

/-! ## From checked to performed -/

/-- Whether a peer lane finds no route now (R141). -/
def noRoute (s : State) (a : Access) : Bool :=
  a.lanes.any fun l => l.kind == .peer && peerRoute s l.pa a.kind.need == .none

/-- Whether an access is a release that goes on by itself while earlier ordered lanes or releases of its warp are not yet performed
(R158). -/
def State.defers (s : State) (k : Nat) (a : Access) : Bool :=
  (a.lanes.any fun l => releasesAt a.ord (l.kind.scope a.scope)) && s.gated k a.tok

/-- A checked access whose lines are present: it is performed, or held for its round's commit (R172); a release that has to wait for
ordered lanes of its warp is kept, and the warp goes on (R158). (DESIGN CHOICE, log 4) -/
def performAccess (s : State) (k : Nat) (w : Warp) (a : Access) : Except Trap State :=
  match lanesError s w.core w.det a a.lanes with
  | .error t => .error t
  | .ok () =>
    let w := { w with wait := .run }
    if !w.det && s.defers k a then
      let w := match a.kind with | .store => w | _ => w.oweA a.tok false []
      .ok { s.setWarp k w with rels := s.rels ++ [{ warp := k, tok := a.tok, op := .acc a }] }
    else match a.kind with
    | .load => let r := performLoad s w a; .ok (r.1.setWarp k (w.oweA a.tok true r.2))
    | .store =>
      if w.det then .ok (s.setWarp k { w with held := w.held ++ [.acc a] }) else .ok (performStore (s.setWarp k w) w a)
    | .atom op =>
      if w.det then .ok (s.setWarp k { (w.oweA a.tok false []) with held := w.held ++ [.acc a], qend := true })
      else let r := performAtomic s w a op; .ok (r.1.setWarp k (w.oweA a.tok true r.2))
    | .atomo _ =>
      let w := w.oweA a.tok false []
      if w.det then .ok (s.setWarp k { w with held := w.held ++ [.acc a], qend := true })
      else
        .ok { s.setWarp k w with ordbuf := s.ordbuf ++ a.sentLanes k false }

/-- A checked access: held whole while a line is absent (R81), stalled while a peer has no route, else
performed. (DEDUCED, log 30) -/
def startAccess (s : State) (k : Nat) (w : Warp) (a : Access) : Except Trap State :=
  if s.anyAbsent a then .ok (s.setWarp k { w with wait := .held a })
  else if noRoute s a then .ok (s.setWarp k { w with wait := .peer a })
  else performAccess s k w a

/-- The bytes that an access writes, by effective address. -/
def writeRngs (kind : AccKind) (size : Nat) (lanes : List LaneAcc) : List Rng :=
  match kind with
  | .load => []
  | _ => lanes.map fun l => Rng.flat l.va size

/-- The lane that an alias fault names: the lowest that meets a guarded range (R20, R384). -/
def aliasLane (s : State) (w : Warp) (size : Nat) (lanes : List LaneAcc) (t : Trap) : Trap :=
  if t.cause = Cause.aliasGuard then
    match lanes.find? fun l => !(s.guardHits w.ctx w.core [Rng.flat l.va size]).isEmpty with
    | some l => Trap.addr Cause.aliasGuard l.lane l.va
    | none => t
  else t

/-- Whether a load that completes at issue splits its warp (R96): it is relaxed and may read L1, the warp is not split
already, and some lanes hit in L1 while others miss. (DEDUCED, log 25) -/
def splitsWarp (s : State) (w : Warp) (nosplit : Bool) (a : Access) : Bool :=
  let hit (l : LaneAcc) : Bool := (copyGet (s.core w.core).l1 (lineOf l.pa)).isSome
  let through := a.lanes.filter fun l => l.kind == .cached || l.kind == .cap
  a.lanes.all (fun l => l.kind != .const) && a.kind == .load && a.ord == .relaxed && !a.home w.det && !nosplit && w.split.isNone && !s.anyAbsent a && !noRoute s a
    && through.any hit && through.any fun l => !hit l

/-- A split of warp `k` counts once in its core's split counter (R100). (DEDUCED, log 25) -/
def State.splitWarp (s : State) (k : Nat) : State :=
  match s.warp? k with
  | none => s
  | some w =>
    (s.setWarp k { w with split := some w.clause.fa }).setCore w.core
      { s.core w.core with splits := (s.core w.core).splits + 1 }

/-- Whether an access has to follow an earlier ordered lane or release of the same warp (R152, R153); ordered lanes among
themselves follow their tickets (R169). -/
def State.ownHits (s : State) (k : Nat) (kind : AccKind) (size : Nat) (lanes : List LaneAcc) : Bool :=
  lanes.any fun l =>
    match kind with
    | .atomo _ => s.relHit k (s.homePa l.kind l.pa) size
    | _ => s.ownBars k l.kind l.pa size

/-- Whether an acq-rel atomic of a peer, which orders at system scope whatever scope it names (R140), has to follow what its warp has
not performed yet; for other places the step holds it (`ordNeed`). -/
def State.peerBars (s : State) (k : Nat) (o : Ord2) (lanes : List LaneAcc) : Bool :=
  o == .acqrel && (lanes.any fun l => l.kind == .peer) && s.unperformed k

/-- A split warp rejoins at a load through the constant window, which is not on the load/store path (R98, R105). -/
def Warp.constRejoin (w : Warp) (lanes : List LaneAcc) : Warp :=
  if lanes.any fun l => l.kind == .const then { w with split := none } else w

/-- The effect of an access instruction (R305, R307): checks, the alias guard, presence, then the access. -/
def accessInstr (s : State) (f : FmtM) (kind : AccKind) (size : Nat) : Out :=
  attemptH s fun w =>
    let check := match kind with | .atomo _ => checkOrdered w f size | _ => checkLane w f kind size
    match checkLanes s check (lanesIn w.em) with
    | .error t => .error (.trap t)
    | .ok (s, lanes) =>
      if lanes.isEmpty then
        .ok (s.setWarp s.cur (match kind with
          | .store => w
          | .load => w.noResultA
          | _ => { w.noResultA with qend := w.det || w.qend }))
      else if s.ownHits s.cur kind size lanes || s.peerBars s.cur f.ord lanes then .error (.wait .ordered)
      else match guardIssue s w (writeRngs kind size lanes) with
        | .error (.after u t) => .error (.after u (aliasLane s w size lanes t))
        | .error h => .error h
        | .ok s =>
          let t := s.token
          let a : Access :=
            { kind := kind, dt := f.dt, size := size, scope := f.scope, ord := f.ord, d := w.pos f.d, lanes := lanes
              ipc := w.ipc, tok := t.1 }
          match startAccess t.2 s.cur ((s.curWarp.getD w).constRejoin lanes) a with
          | .error t => .error (.trap t)
          | .ok u => .ok (if splitsWarp s w f.nosplit a then u.splitWarp s.cur else u)

/-! ## Loads and stores (R308, R309) -/

def execLdG (f : FmtM) (s : State) : Out := accessInstr s f .load (f.dt.width / 8)
def execLdG2 (f : FmtM) (s : State) : Out := accessInstr s f .load 8
def execLdG4 (f : FmtM) (s : State) : Out := accessInstr s f .load 16
def execStG (f : FmtM) (s : State) : Out := accessInstr s f .store (f.dt.width / 8)
def execStG2 (f : FmtM) (s : State) : Out := accessInstr s f .store 8
def execStG4 (f : FmtM) (s : State) : Out := accessInstr s f .store 16

/-! ## Atomics (R310) -/

def execAtomAdd (f : FmtM) (s : State) : Out := accessInstr s f (.atom .add) (f.dt.width / 8)
def execAtomMin (f : FmtM) (s : State) : Out := accessInstr s f (.atom .min) (f.dt.width / 8)
def execAtomMax (f : FmtM) (s : State) : Out := accessInstr s f (.atom .max) (f.dt.width / 8)
def execAtomAnd (f : FmtM) (s : State) : Out := accessInstr s f (.atom .and) (f.dt.width / 8)
def execAtomOr (f : FmtM) (s : State) : Out := accessInstr s f (.atom .or) (f.dt.width / 8)
def execAtomXor (f : FmtM) (s : State) : Out := accessInstr s f (.atom .xor) (f.dt.width / 8)
def execAtomXchg (f : FmtM) (s : State) : Out := accessInstr s f (.atom .xchg) (f.dt.width / 8)
def execAtomCas (f : FmtM) (s : State) : Out := accessInstr s f (.atom .cas) (f.dt.width / 8)
def execAtomFadd (f : FmtM) (s : State) : Out := accessInstr s f (.atom .fadd) (f.dt.width / 8)

/-! ## Ordered atomics (R312) -/

def execAtomoAdd (f : FmtM) (s : State) : Out := accessInstr s f (.atomo .add) (f.dt.width / 8)
def execAtomoXchg (f : FmtM) (s : State) : Out := accessInstr s f (.atomo .xchg) (f.dt.width / 8)
def execAtomoOr (f : FmtM) (s : State) : Out := accessInstr s f (.atomo .or) (f.dt.width / 8)
def execAtomoMax (f : FmtM) (s : State) : Out := accessInstr s f (.atomo .max) (f.dt.width / 8)

/-! ## Fences, prefetch, write-back (R313 to R315) -/

/-- The ordered lanes and releases of a warp that a release fence stands behind: its later stores and atomics wait for them
(R160). -/
def State.fenceOff (s : State) (k : Nat) : State :=
  { s with ordbuf := s.ordbuf.map fun o => if o.warp = k then { o with fenced := true } else o
           rels := s.rels.map fun r => if r.warp = k then { r with fenced := true } else r }

/-- An acquire at quad scope or wider discards L1. Earlier accesses of the warp are already performed, or are its ordered lanes and
releases: the step holds an acquire fence until they are too, and behind a release fence later writes wait (R160, `ordNeed`). -/
def execFence (f : FmtM) (s : State) : Out :=
  attempt s fun w =>
    let s := if releasesAt f.ord f.scope then s.fenceOff s.cur else s
    .ok (if acquires f.ord f.scope then s.discardL1 w.core else s)

/-- The core's path caches are discarded, at the commit in a deterministic launch (R193). -/
def execPfence (_f : FmtM) (s : State) : Out :=
  attempt s fun w =>
    if w.det then .ok (s.setWarp s.cur { w with held := w.held ++ [.pfence] }) else .ok (s.discardPaths w.core)

/-- How many walks of a die run, those of one page counting once (R70). -/
def Die.running (d : Die) : Nat := (((d.walks.filter fun x => x.started).map Walk.page).eraseDups).length

/-- A miss joins a die's walks: it attaches to an outstanding walk of its page, or starts one where fewer than 512 run and
none waits, or waits its turn (R70). -/
def Die.addWalk (d : Die) (x : Walk) : Die :=
  let x :=
    match d.walkOf x.ctx x.va.toNat with
    | some y => { x with root := y.root, started := y.started }
    | none => { x with started := decide (d.running < 512) && d.walks.all fun y => y.started }
  { d with walks := d.walks ++ [x] }

/-- A lane of pref: with its translation cached, its line enters L1 unless HINT streams it; otherwise a walk starts
that does the same when it completes. A lane that fails a check is dropped (R314). -/
def prefLane (w : Warp) (f : FmtM) (s : State) (lane : Nat) : State :=
  let va := laneEa w f lane
  let fill := f.hint != .stream
  match classCheck w.sys va 1 with
  | .ok .user | .ok .sysHalf =>
    let c := s.core w.core
    let q := s.quad (quadOf w.core)
    if c.tlb.any (fun t => t.hits w.ctx va.toNat) || q.tlb.any fun t => t.hits w.ctx va.toNat then
      match translate s w.who .load va 1 with
      | .ok (s, pa, k) =>
        if fill && (k == .cached || k == .cap) && !s.poison.contains (lineOf pa) then (s.loadBytes w.core false k pa 1).1
        else s
      | .error _ => s
    else
      let d := s.die (dieOf w.core)
      s.setDie (dieOf w.core) (d.addWalk { core := w.core, ctx := w.ctx, va := va, root := s.rootOf w.ctx va.toNat
                                           started := false, fill := fill })
  | _ => s

def execPref (f : FmtM) (s : State) : Out :=
  attempt s fun w => .ok ((lanesIn w.em).foldl (prefLane w f) s)

/-- Dirty lines written to memory; each stays in L2, clean (R315). -/
def State.writeBack (s : State) (pas : List Nat) : State :=
  { s with l2dirty := s.l2dirty.filter fun p => s.lost p.1 || !pas.any fun pa => lineOf pa == p.1 }

def wbackLane (w : Warp) (f : FmtM) (s : State) (lane : Nat) : Except Trap (State × LaneAcc) :=
  let va := laneEa w f lane
  match resolve s w.who .load va 1 false with
  | .error e => .error (e.trap false lane va)
  | .ok (s, pa, k) =>
    .ok (s, { lane := lane, va := va, pa := pa, kind := k, data := [], data2 := [], ticket := 0 })

def execWback (f : FmtM) (s : State) : Out :=
  attempt s fun w =>
    match checkLanes s (wbackLane w f) (lanesIn w.em) with
    | .error t => .error t
    | .ok (s, lanes) =>
      let pas := (lanes.filter fun l => l.kind == .cached || l.kind == .cap).map fun l => l.pa
      if w.det then .ok (s.setWarp s.cur { w with held := w.held ++ [.wback pas] }) else .ok (s.writeBack pas)

/-! ## Events -/

/-- The warp an event names. -/
def onEventWarp (s : State) (body : Nat → Warp → Out) : Out :=
  match s.warp? s.ev.x with
  | none => .fault .noSuchEvent
  | some w => body s.ev.x w

/-- A ready result arrives and its flag counts one fewer (R205). -/
def execResultArrive (s : State) : Out :=
  onEventWarp s fun k w =>
    match w.pend[s.ev.y]? with
    | none => .fault .noSuchEvent
    | some p => if p.ready then .next (s.setWarp k (w.arrive p (w.pend.eraseIdx s.ev.y))) else .fault .noSuchEvent

/-- Whether a place could be read or written now: its line present, its peer reachable. -/
def State.placeFree (s : State) (pa : Nat) : Bool :=
  match regionOf pa with
  | .sp => s.absentAt pa == 0
  | .peer => peerRoute s pa .load != .none
  | _ => true

/-- A fault of an access that its warp has left behind is taken once the warp runs and its other results have arrived, with the
instruction's own address in fpc. (DESIGN CHOICE, log 4) -/
def State.lateTrap (s : State) (k : Nat) (w : Warp) (ipc : Word) (t : Trap) : Out :=
  if w.status = .live ∧ w.allReady ∧ w.wait.between then .next (s.trap k { w with ipc := ipc, wait := .run } t .fault)
  else if w.status = .exited ∨ w.status = .halted then .next s
  else .fault .noSuchEvent

/-- A lane meets an uncorrectable error in its line at the slice (R104): no lane of its instruction that is left is performed, and
the warp takes the fault. (DESIGN CHOICE, log 84) -/
def State.laneFault (s : State) (o : OrdBuf) : Out :=
  let s := { s with ordbuf := s.ordbuf.filter fun p => !(p.warp == o.warp && p.acc.tok == o.acc.tok) }
  match s.warp? o.warp with
  | none => .next s
  | some w =>
    let w := w.forget o.acc.tok
    (s.setWarp o.warp w).lateTrap o.warp w o.acc.ipc (Trap.addr Cause.uncorrectableData o.lane.lane o.lane.va)

/-- An ordered lane reaches its home slice (R167). -/
def execAtomoLaneArrive (s : State) : Out :=
  match s.ordbuf[s.ev.x]? with
  | none => .fault .noSuchEvent
  | some o =>
    if o.refused.isSome then .fault .noSuchEvent
    else if s.badAt o.lane.kind o.lane.pa then s.laneFault o
    else if o.arrived then .fault .noSuchEvent
    else .next ({ s with ordbuf := s.ordbuf.eraseIdx s.ev.x }.orderedLane o)

/-- Whether a refused lane may try again: a NEXT of its slice has advanced since. -/
def State.ordDue (s : State) (k : Nat) (o : OrdBuf) : Bool :=
  o.warp == k && match o.refused with | some n => decide (n < s.nextsOf o.slice) | none => false

/-- The refused lanes of a warp whose context runs go to their slices again (R168, R170). -/
def execAtomoRetry (s : State) : Out :=
  onEventWarp s fun k w =>
    if !(s.ordbuf.any (s.ordDue k)) || !s.advances w.ctx .warps then .fault .noSuchEvent
    else .next { s with ordbuf := s.ordbuf.map fun o => if s.ordDue k o then { o with refused := none } else o }

end Sys2Proof.Machine
end

