-- ==== Sys2Proof/Machine/Lifecycle.lean ====
section
/-! DEFINITION. Barriers of a cluster (R321, R322), and the end of warps, blocks, clusters and grids (R273, R419). -/

namespace Sys2Proof.Machine

open Sys2Proof

/-! ## Barriers -/

def Bar.init : Bar := { arrived := 0, who := [], expect := 0, ph := 0 }
def Cluster.bar (c : Cluster) (b : Nat) : Bar := tgetD c.bars b Bar.init
def Cluster.setBar (c : Cluster) (b : Nat) (x : Bar) : Cluster := { c with bars := tset c.bars b x }
def State.setCluster (s : State) (n : Nat) (c : Cluster) : State := { s with clusters := tset s.clusters n c }

/-- The warps of a cluster that have not exited. -/
def State.liveWarps (s : State) (cluster : Nat) : AMap Warp :=
  s.warps.filter fun p => p.2.cluster = cluster && p.2.status != .exited

/-- Whether a barrier's phase is complete: arrivals reach n, or with n = 0 every warp that has not exited has
arrived. -/
def barDone (s : State) (cluster : Nat) (x : Bar) : Bool :=
  if x.arrived = 0 then false
  else if x.expect ≠ 0 then decide (x.expect ≤ x.arrived)
  else (s.liveWarps cluster).all fun p => x.who.contains p.1

/-- A phase that is complete: PH advances and the arrivals return to 0. -/
def Bar.complete (x : Bar) : Bar := { x with arrived := 0, who := [], expect := 0, ph := x.ph + 1 }

/-- A barrier examined. -/
def State.barCheck (s : State) (cluster b : Nat) : State :=
  match tget s.clusters cluster with
  | none => s
  | some c => if barDone s cluster (c.bar b) then s.setCluster cluster (c.setBar b (c.bar b).complete) else s

/-- An arrival of warp `k`: the phase it counted in, or the barrier-count fault (R321). A warp without a cluster meets a
barrier of its own that never completes. -/
def State.barArrive (s : State) (k : Nat) (w : Warp) (b n : Nat) : Except Trap (State × Word) :=
  match tget s.clusters w.cluster with
  | none => .ok (s, 0)
  | some c =>
    let x := c.bar b
    if x.arrived ≠ 0 ∧ x.expect ≠ n then .error { cause := Cause.barrierCount }
    else
      let y := { x with arrived := x.arrived + 1, who := k :: x.who, expect := n }
      .ok ((s.setCluster w.cluster (c.setBar b y)).barCheck w.cluster b, x.ph)

/-- The phase count a warp's cluster shows for a barrier. -/
def State.barPhase (s : State) (w : Warp) (b : Nat) : Word :=
  match tget s.clusters w.cluster with
  | none => 0
  | some c => (c.bar b).ph

/-! ## The end of a warp -/

/-- Whether every warp of a block has exited. -/
def State.blockDone (s : State) (b : Nat) : Bool := s.warps.all fun p => p.2.block != b || p.2.status == .exited

/-- A cluster that was admitted and whose blocks have all exited. -/
def State.clusterDone (s : State) (p : Nat × Cluster) : Bool :=
  p.2.admitted && s.blocks.all fun b => b.2.cluster != p.1 || b.2.freed || s.blockDone b.1

/-- Clusters of a deterministic grid release in ascending rank on each die; other clusters at once (R429). -/
def mayRelease (s : State) (p : Nat × Cluster) : Bool :=
  let det := ((tget s.grids p.2.grid).map fun g => g.recd.det).getD false
  s.clusterDone p && (!det || s.clusters.all fun q =>
    q.2.grid != p.2.grid || decide (p.2.rank ≤ q.2.rank)
      || (q.2.cores.head?.map dieOf) != (p.2.cores.head?.map dieOf) || q.2.released)

/-- Clusters that may release do, lowest rank first, each with all its blocks at once (R414); `n` bounds the passes. -/
def releaseClusters : Nat → State → State
  | 0, s => s
  | n + 1, s =>
    match s.clusters.find? fun p => !p.2.released && mayRelease s p with
    | none => s
    | some p =>
      releaseClusters n { s.setCluster p.1 { p.2 with released := true } with
        blocks := s.blocks.map fun b => (b.1, if b.2.cluster = p.1 then { b.2 with freed := true } else b.2) }

def LaunchRec.clusters (r : LaunchRec) : Nat := r.gx * r.gy * r.gz

/-- Whether a grid can retire: every cluster done and every grid it launched retired (R419). -/
def gridDone (s : State) (g : Nat) (x : Grid) : Bool :=
  decide (((s.clusters.filter fun p => p.2.grid == g && s.clusterDone p).length) = x.recd.clusters)
  && s.grids.all fun p => p.2.parent != some g || p.2.retired

/-- Grids that can retire do, children before parents; `n` bounds the passes. -/
def retireGrids : Nat → State → State
  | 0, s => s
  | n + 1, s =>
    match s.grids.find? fun p => !p.2.retired && gridDone s p.1 p.2 with
    | none => s
    | some p => retireGrids n { s with grids := tset s.grids p.1 { p.2 with retired := true } }

/-- The whole effect of the warps that have exited on their cluster, its blocks and its grid. -/
def State.settle (s : State) : State :=
  retireGrids (s.grids.length + 1) (releaseClusters (s.clusters.length + 1) s)

/-- A phased block whose non-exited warps are all phase-waiting queues its next phase (R421). -/
def State.phaseCheck (s : State) (b : Nat) : State :=
  let ws := s.warps.filter fun p => p.2.block = b && p.2.status != .exited
  match tget s.blocks b with
  | none => s
  | some x =>
    if !ws.isEmpty && !x.nextPhase && ws.all fun p => p.2.status == .phaseWait then
      { s with blocks := tset s.blocks b { x with phase := x.phase + 1, nextPhase := true } }
    else s

/-- A warp ends: pending register results are discarded, its nodes and quota are freed, its cluster's barriers are
examined again, and its block, cluster and grid follow (R273, R321, R419). -/
def State.exitWarp (s : State) (k : Nat) (w : Warp) : State :=
  let s := s.setWarp k { w with status := .exited, wait := .run, pend := [], flags := .replicate 12 0, unfl := 0
                                tmode := .init, perg := .init, clause := .init }
  let s := (countFrom 0 16).foldl (fun s b => State.barCheck s w.cluster b) s
  (s.phaseCheck w.block).settle

end Sys2Proof.Machine
end

