-- ==== Sys2Proof/Machine/Control.lean ====
section
/-! DEFINITION. Clause headers (R205), branches and divergence (R269 to R272), exit (R273), calls and the register window
(R274 to R277), flags, regions, timeline waits and memory waits (R278 to R282). -/

namespace Sys2Proof.Machine

open Sys2Proof

/-! ## Clause headers (R204, R205) -/

/-- A-class words (R204). -/
def classA (word : Word) : Bool :=
  match majorOf word with
  | 0x70 | 0x72 | 0x73 => true
  | 0x79 => fnOf word == 1
  | _ => false

/-- B-class words (R204). -/
def classB (word : Word) : Bool :=
  let fn := fnOf word
  match majorOf word with
  | 0x34 | 0x75 | 0x76 | 0x7A | 0xA0 => true
  | 0x79 => fn == 0
  | 0x90 => decide (fn ≤ 7) || fn == 9
  | 0xA1 => fn == 0 || fn == 1 || fn == 2 || fn == 5
  | 0xB4 => fn == 0 || fn == 2 || fn == 6
  | 0xC0 => fn == 0
  | 0xC1 => fn == 1 || fn == 2
  | 0xC2 => fn == 0
  | _ => false

/-- The A- and B-class instructions of a clause's words, read ahead; second words are passed over. -/
def countClasses (s : State) (wh : Who) : Nat → Word → Bool → Nat × Nat
  | 0, _, _ => (0, 0)
  | n + 1, va, skip =>
    match peekWord s wh va with
    | none => (0, 0)
    | some x =>
      let r := countClasses s wh n (va + 8) (!skip && longOf x)
      if skip then r else ((if classA x then 1 else 0) + r.1, (if classB x then 1 else 0) + r.2)

/-- The flag a header names for a class. -/
def hdrFlag (v : Bool) (n : BitVec 4) : Option Nat := if v then some n.toNat else none

/-- A clause issues once the unflagged count is zero and every flag in WAIT is clear; its results are then owed. -/
def execClauseHeader (f : Hdr) (s : State) : Out :=
  onWarp s fun w =>
    if !(w.unflClear && w.maskClear f.wait) then { w with pc := w.ipc, wait := .header f.wait }
    else
      let n := countClasses s w.who f.len.toNat w.pc false
      let fa := hdrFlag f.fav f.fa
      let fb := hdrFlag f.fbv f.fb
      { (w.owe fa n.1).owe fb n.2 with
          clause := { left := f.len.toNat, first := true, hdr := w.ipc, fa := fa, fb := fb, owedA := n.1, owedB := n.2 } }

/-! ## Branches (R203, R269, R270) -/

/-- The target of a branch: OFS words from its own address. -/
def brTarget (w : Warp) (f : FmtBR) : Word := w.ipc + (f.ofs.signExtend 64) * 8

/-- A transfer to a target that R203 accepts, with what else the instruction writes. -/
def transfer (s : State) (target : Word) (w' : Warp) (w : Warp) : Except Trap State :=
  if targetOk s w.who target then .ok (s.setWarp s.cur { w' with pc := target })
  else .error { cause := Cause.illegalTarget }

def branchIf (s : State) (f : FmtBR) (taken : Warp → Bool) : Out :=
  attempt s fun w => if taken w then transfer s (brTarget w f) w w else .ok s

def execBra (f : FmtBR) (s : State) : Out := branchIf s f fun _ => true

def execBrs (f : FmtBR) (s : State) : Out := branchIf s f fun w => compareI (ccOf f.cc) (w.getS f.s).toInt 0

/-- Whether a lane of v[V] holds the condition against 0. -/
def laneCond (w : Warp) (f : FmtBR) (l : Nat) : Bool := compareI (ccOf f.cc) (laneGet (w.getV f.v) l).toInt 0

def execBrany (f : FmtBR) (s : State) : Out := branchIf s f fun w => (lanesIn w.em).any (laneCond w f)

def execBrall (f : FmtBR) (s : State) : Out := branchIf s f fun w => (lanesIn w.em).all (laneCond w f)

/-! ## Divergence (R271, R272) -/

/-- The pair s[S], s[S+1] written. -/
def Warp.setPair (w : Warp) (r : BitVec 6) (a b : Word) : Warp := (w.setS r a).setS (r + 1) b

/-- brv: the sides split, one first, the record of the other in s[S], s[S+1]. -/
def execBrv (f : FmtBR) (s : State) : Out :=
  attempt s fun w =>
    let t := maskOf fun l => maskBit w.em l && laneCond w f l
    let n := w.em &&& ~~~t
    let tgt := brTarget w f
    let fall := w.pc
    if !targetOk s w.who tgt then .error { cause := Cause.illegalTarget }
    else
      let w' :=
        if t ≠ 0 ∧ n ≠ 0 then
          if f.hint = .unlikely then { w.setPair f.s (t ++ w.em) tgt with em := n, pc := fall }
          else
            { w.setPair f.s (n ++ w.em) fall with
                em := t, pc := tgt, hintmiss := if f.hint = .uniform then w.hintmiss + 1 else w.hintmiss }
        else { w.setPair f.s (w.em.setWidth 64) tgt with pc := if t ≠ 0 then tgt else fall }
      .ok (s.setWarp s.cur w')

/-- join: the side not yet run, or the rejoined mask. Its fence at core scope orders what this model performs in order
already; the step holds it until the warp's ordered atomics are performed (R164, `ordNeed`). -/
def execJoin (f : FmtBR) (s : State) : Out :=
  attempt s fun w =>
    let x := w.getS f.s
    let p : W32 := x.extractLsb' 32 32
    let low : W32 := x.extractLsb' 0 32
    if p ≠ 0 then
      transfer s (w.getS (f.s + 1)) { w.setS f.s (low.setWidth 64) with em := p &&& w.lm } w
    else .ok (s.setWarp s.cur { w with em := low &&& w.lm })

/-! ## Exit (R273) -/

/-- exit: the active lanes retire; the last ends the warp, at the commit of its round in a deterministic launch. -/
def execExit (_f : FmtA) (s : State) : Out :=
  attempt s fun w =>
    let w := { w with lm := w.lm &&& ~~~w.em, qend := w.det || w.qend }
    .ok (if w.lm ≠ 0 then s.setWarp s.cur { w with em := 0 }
         else if w.det then s.setWarp s.cur { w with em := 0, wait := .commit }
         else s.exitWarp s.cur { w with em := 0 })

/-! ## The register window (R274 to R277) -/

/-- The spill address of a stack position. -/
def spillVa (w : Warp) (pos : Nat) : Word := w.spillbase + BitVec.ofNat 64 (pos * 128)

/-- The places of consecutive registers in memory, checked in ascending order (R64, R277). -/
def linePlaces (s : State) (w : Warp) (need : Need) (addrs : List Word) : Except Halt (State × List Xlat) :=
  match foldE (fun (a : State × List Xlat) va =>
      match resolve a.1 w.who need va 128 true with
      | .error f => Except.error (Halt.trap (f.trap false 0 va))
      | .ok (s, pa, k) =>
        if k = .peer ∧ peerRoute s pa need = .refused then
          .error (.trap { Trap.addr Cause.peerAccess 0 va with peer := peerField need 1 })
        else if need = .load ∧ s.badAt k pa then
          .error (.trap (Trap.addr Cause.uncorrectableData 0 va))
        else .ok (s, { va := va, pa := pa, kind := k, len := 128 } :: a.2)) (s, []) addrs with
  | .error h => .error h
  | .ok (s, l) =>
    match s.placeWait need l with
    | some h => .error (.wait h)
    | none => .ok (s, l.reverse)

/-- The bytes of a register. -/
def lanesBytes (v : Lanes) : List Byte := (countFrom 0 32).flatMap fun l => natBytes 4 (laneGet v l).toNat

def lanesOfBytes (b : List Byte) : Lanes := lanesOf fun l => BitVec.ofNat 32 (fieldB b (4 * l) 4)

/-- A spill past the limit: the first byte at or beyond it, and its lane. -/
def spillLimit (w : Warp) (first n : Nat) : Option Trap :=
  let o := max (first * 128) w.spilllen.toNat
  if o < (first + n) * 128 then
    some { cause := Cause.spillExhausted, index := BitVec.ofNat 16 (o % 128 / 4), faddr := w.spillbase + BitVec.ofNat 64 o }
  else none

def roundUp8 (n : Nat) : Nat := (n + 7) / 8 * 8

/-- The marks of uncorrectable errors that whole lines written clear (R85). -/
def State.clearLines (s : State) (l : List Nat) : State := { s with poison := s.poison.filter fun line => !l.contains line }

/-- Lines written whole at places by a warp, or held for the commit of its round (R172). -/
def State.storeOrHold (s : State) (k : Nat) (w : Warp) (l : List Xlat) (rngs : List Rng) (b : List Byte) : State × Warp :=
  if w.det then
    let m := l.foldl (fun (a : List MatW × List Byte) x =>
      (a.1 ++ [{ kind := x.kind, pa := x.pa, data := a.2.take x.len }], a.2.drop x.len)) ([], b)
    let w := { w with held := w.held ++ [.mat m.1 rngs [] none true w.ipc none] }
    (s.setWarp k w, w)
  else
    let s := ((storeXlats s w.core w.ctx l b).clearLines ((l.filter fun x => x.len == 128).map fun x => lineOf x.pa)).drainLines
      (l.map fun x => (x.kind, x.pa))
    (s, (s.warp? k).getD w)

/-- The spill of a call from positions lo up (R276). -/
def spill (s : State) (w : Warp) (first n : Nat) : Except Halt (State × Warp) :=
  match spillLimit w first n with
  | some t => .error (.trap t)
  | none =>
    match linePlaces s w .store ((countFrom first n).map (spillVa w)) with
    | .error h => .error h
    | .ok (s, l) =>
      let rngs := (countFrom first n).map fun p => Rng.flat (spillVa w p) 128
      match guardIssue s w rngs with
      | .error (.after u t) => .error (.after u (aliasByte s w rngs t))
      | .error h => .error h
      | .ok s =>
        let w := (s.warp? s.cur).getD w
        .ok (s.storeOrHold s.cur w l rngs ((countFrom first n).flatMap fun p => lanesBytes (w.vAt p)))

/-- The callee's registers above its v7 hold free values (R274). (DESIGN CHOICE, log 6) -/
def freeWindow (s : State) (w : Warp) : State × Warp :=
  ((countFrom 0 40).foldl (fun (a : State × Warp) i =>
    let r := a.1.freeLanes
    (r.2, a.2.setVAt (w.winbase + 8 + i) r.1)) (s, w))

def execCall (f : FmtBR) (s : State) : Out :=
  attemptH s fun w =>
    let target := if f.ofs = 0 then w.getS f.v else brTarget w f
    if !targetOk s w.who target then .error (.trap { cause := Cause.illegalTarget })
    else
      let base := w.winbase + 8 * f.cc.toNat
      let n := if w.lo + w.budget < base + 48 then roundUp8 (base + 48 - w.lo - w.budget) else 0
      match (if n = 0 then .ok (s, w) else spill s w w.lo n) with
      | .error h => .error h
      | .ok (s, w) =>
        let w := { w.setS f.s (w.pc ||| f.cc.setWidth 64) with
                     winbase := base, lo := w.lo + n, spillcnt := w.spillcnt + BitVec.ofNat 64 n, pc := target }
        let r := freeWindow s w
        .ok (r.1.setWarp s.cur r.2)

/-- Positions filled from memory (R276): the spill area is plain memory, also where a program has written it. (DESIGN CHOICE,
log 92) -/
def fillPositions (s : State) (w : Warp) (first n : Nat) : Except Halt (State × Warp) :=
  match linePlaces s w .load ((countFrom first n).map (spillVa w)) with
  | .error h => .error h
  | .ok (s, l) =>
    let r := loadXlats s w.core w.det (if w.det then w.held else []) l
    .ok (r.1, (countFrom 0 n).foldl (fun w i => w.setVAt (first + i) (lanesOfBytes ((r.2.drop (128 * i)).take 128))) w)

def execRet (f : FmtBR) (s : State) : Out :=
  attemptH s fun w =>
    let x := w.getS f.s
    let fw := 8 * (x.toNat % 8)
    let target := x &&& ~~~7#64
    if fw = 0 ∨ 40 < fw ∨ w.winbase < fw ∨ targetOk s w.who target = false then
      .error (.trap { cause := Cause.illegalTarget })
    else
      let base := w.winbase - fw
      let n := w.lo - base
      match (if n = 0 then .ok (s, w) else fillPositions s w base n) with
      | .error h => .error h
      | .ok (s, w) =>
        .ok (s.setWarp s.cur { w with winbase := base, lo := w.lo - n, spillcnt := w.spillcnt + BitVec.ofNat 64 n
                                      pc := target })

/-! ## No-operation, flags, regions (R278, R279) -/

def execNop (_f : FmtA) (s : State) : Out := onWarp s fun w => w

/-- The flags of a mask, or for a mask of 0 the unflagged count. -/
def flagsMet (w : Warp) (m : BitVec 12) : Bool := if m = 0 then w.unflClear else w.maskClear m

def execWaitf (f : FmtA) (s : State) : Out :=
  onWarp s fun w =>
    let m : BitVec 12 := f.imm16.extractLsb' 0 12
    if flagsMet w m then w else w.redo (.flags m)

/-- region: every outstanding result arrives; the counts of instructions of its own clause that have not issued stay (R205, R279).
(DESIGN CHOICE, log 80) -/
def execRegion (_f : FmtA) (s : State) : Out :=
  onWarp s fun w =>
    if !w.allReady then w.redo .results
    else
      let w := w.deliver
      { w with regctr := w.regctr + 1, regpc := w.clause.hdr }.putTable w.perg.region w.tmode

/-! ## Timeline waits (R179, R180, R182, R280) -/

/-- Whether a counter has reached a value. -/
def State.reached (s : State) (w : Warp) (k : Nat) (n : Word) : Bool := n ≤ (s.tl w.ctx w.core).doneOf k

/-- A wait that a dropped operation leaves without end (R462). -/
def State.droppedAt (s : State) (w : Warp) (k : Nat) (n : Word) : Bool :=
  (s.tl w.ctx w.core).dropped.any fun d => d.1 == k && decide (d.2 ≤ n.toNat)

/-- A satisfied wait acquires (R179), and a deterministic warp may read the counter up to its value (R185). -/
def State.timelineMet (s : State) (i k : Nat) (n : Word) (w : Warp) : State :=
  let seen := w.tlSeen.get ⟨k % 10, Nat.mod_lt _ (by decide)⟩
  let w := if k < 10 ∧ seen < n then { w with tlSeen := w.tlSeen.set (k % 10) n (Nat.mod_lt _ (by decide)) } else w
  (s.setWarp i { w with wait := .run }).discardL1 w.core

/-- The value a waitt names. -/
def wtValue (w : Warp) (f : FmtE) : Word := w.getS f.a + f.imm20.signExtend 64

def execWaitt (f : FmtE) (s : State) : Out :=
  attempt s fun w =>
    let k := f.q.toNat
    let n := wtValue w f
    let w := { w with qend := w.det || w.qend }
    if s.reached w k n then .ok (s.timelineMet s.cur k n w)
    else if s.droppedAt w k n then .error { cause := Cause.operationDropped, faddr := BitVec.ofNat 64 k }
    else .ok (s.setWarp s.cur { w with wait := .waitt k n })

/-- tladv raises a software counter: a release, which waits for ordered lanes of its warp (R158), and comes at the commit in a
deterministic launch. -/
def execTladv (f : FmtE) (s : State) : Out :=
  attempt s fun w =>
    let v := w.getS f.a
    let t := s.token
    .ok (if w.det then s.setWarp s.cur { w with held := w.held ++ [.tladv f.q.toNat v] }
         else if s.gated s.cur t.1 then { t.2 with rels := s.rels ++ [{ warp := s.cur, tok := t.1, op := .tladv f.q.toNat v }] }
         else s.raiseTl w.ctx w.core f.q.toNat v)

/-! ## Memory waits (R281, R282) -/

/-- Whether a waitv's word cannot be read now: it follows an ordered lane or release of its own warp (R152, R153), its line is
absent (R81), or no route leads to it (R141). -/
def waitvBars (s : State) (i : Nat) (r : WaitvRec) : Option Wait :=
  if s.ownBars i r.kind r.pa r.size then some .ordered
  else if (r.kind = .scratch ∧ s.absentAt r.pa ≠ 0) ∨ (r.kind = .peer ∧ peerRoute s r.pa .load = .none) then
    some (.present [r.pa] r.va false)
  else none

/-- One evaluation of a waitv on the word at its home; none where it cannot be read now. -/
def evalWaitv (s : State) (i : Nat) (w : Warp) (r : WaitvRec) : Except Trap (Option State) :=
  if (waitvBars s i r).isSome then .ok none
  else if r.kind = .peer ∧ peerRoute s r.pa .load = .refused then .error (Trap.addr Cause.peerAccess 0 r.va)
  else if s.badAt r.kind r.pa then .error (Trap.addr Cause.uncorrectableData 0 r.va)
  else
    let v := bytesNat (s.homeRead r.kind r.pa r.size)
    let s := s.refreshL1 w.core r.kind r.pa
    if compareBits r.cc r.dt v (lowW r.dt.width r.cmp) then
      let s := s.setWarp i { w with wait := .run }
      .ok (some (if acquires r.ord (r.kind.scope r.scope) then s.discardL1 w.core else s))
    else .ok (some (s.setWarp i { w with wait := .waitv { r with last := s.clock } }))

/-- waitv: the checks of a load, then the wait; in a deterministic launch it is evaluated after the commit. -/
def execWaitv (cc : CC) (f : FmtM) (s : State) : Out :=
  attemptH s fun w =>
    let va := w.getS f.b + ofsM f
    let size := f.dt.width / 8
    match resolve s w.who .load va size true with
    | .error e => .error (.trap (e.trap false 0 va))
    | .ok (s, pa, k) =>
      if k = .reg then .error (.trap (Trap.addr Cause.registerAccess 0 va))
      else
        let r : WaitvRec :=
          { cc := cc, dt := f.dt, size := size, cmp := w.getS f.d, va := va, pa := pa, kind := k, ord := f.ord
            scope := f.scope, last := s.clock, ipc := w.ipc }
        if w.det then .ok (s.setWarp s.cur { w with wait := .waitv r, qend := true })
        else match evalWaitv s s.cur w r with
          | .error t => .error (.trap t)
          | .ok none => .error (.wait ((waitvBars s s.cur r).getD .ordered))
          | .ok (some s) => .ok s

/-- A recorded waitv evaluated again, its address translated anew, so that no evaluation after an invalidation uses an entry
that it removed (R76); its fault is raised at that evaluation (R282). (DESIGN CHOICE, log 69) -/
def waitvAgain (s : State) (i : Nat) (w : Warp) (r : WaitvRec) : Option State :=
  let fail (t : Trap) : Option State := some (s.trap i { w.unretire with wait := .run } t .fault)
  match resolve s w.who .load r.va r.size true with
  | .error e => fail (e.trap false 0 r.va)
  | .ok (u, pa, k) =>
    if k = .reg then fail (Trap.addr Cause.registerAccess 0 r.va)
    else match evalWaitv u i w { r with pa := pa, kind := k } with
      | .ok t => t
      | .error t => fail t

/-- A recorded waitv evaluated where it is due; in a deterministic launch only the commit evaluates it (R173). -/
def reevaluate (s : State) (due : WaitvRec → Bool) : Out :=
  onEventWarp s fun i w =>
    match w.wait with
    | .waitv r =>
      if w.det || !due r then .fault .noSuchEvent
      else match waitvAgain s i w r with
        | some t => .next t
        | none => .fault .noSuchEvent
    | _ => .fault .noSuchEvent

def execWaitvEvaluate (s : State) : Out := reevaluate s fun _ => true

def execWaitvPeriodicEval (s : State) : Out := reevaluate s fun r => decide (4096 ≤ (s.clock - r.last).toNat)

end Sys2Proof.Machine
end

