-- ==== Sys2Proof/Machine/Fresh.lean ====
section
/-! DEFINITION. Agents as they start: a warp (R416) and a Kiosk run (R121). -/

namespace Sys2Proof.Machine

open Sys2Proof

/-- A warp as it starts (R416), with lanes `lm`. -/
def Warp.fresh (ctx core : Nat) (lm : W32) : Warp :=
  { ctx := ctx, core := core, grid := 0, cluster := 0, block := 0, role := 0, wid := 0, rank := 0
    bid := .replicate 3 0, sys := false, s := .replicate 64 0, shadow := .replicate 8 0, v := [], winbase := 0, lo := 0
    budget := 64, em := lm, lm := lm, nmode := 0, regctr := 0, regpc := 0, ashape := 0xF, spillbase := 0
    spilllen := 0, spillcnt := 0, hintmiss := 0, sel := .replicate 4 0
    gens := Vector.ofFn fun i => seedLfsr 0 0 i.val, gs := seedLfsr 0 0 32, flags := .replicate 12 0, unfl := 0
    clause := .init, pend := [], pc := 0, ipc := 0, fcause := 0, faddr := 0, fpc := 0, fnode := 0, fnpc := 0, fnreg := 0
    tpc := 0, tem := 0, tstat := 0, tmode := .init, perg := .init, wait := .run, status := .live, det := false
    held := [], base := none, qend := false, retired := 0, tlSeen := .replicate 10 0, preacked := false, split := none, credit := [], creditAt := none, stamp := 0 }

def KRun.fresh : KRun :=
  { seq := 0, ctx := 0, warp := 0, tok := 0, core := 0, num := 0, ch := 0, prog := [], plen := 0, src := 0, slen := 0, param := [], dst := []
    dstVa := 0, dlen := 0, recd := [], recVa := 0, desc := [] }

/-- A run about to execute its first word. -/
def KState.fresh (r : KRun) (prog : List Word) : KState :=
  { run := r, k := .replicate 4 [], p := .replicate 8 lanesZero, c := [], masks := .replicate 16 0xFFFFFFFF, mstack := []
    s := .replicate 8 0, pc := 0, prog := prog, retired := 0, derr := 0, dataErr := false, paused := false
    preempted := false }

end Sys2Proof.Machine
end

