-- ==== Sys2Proof/Machine/Launch.lean ====
section
/-! DEFINITION. Launch records (R417, R418), grids and their clusters (R414, R415, R429), admission and dispatch (R423). -/

namespace Sys2Proof.Machine

open Sys2Proof

/-! ## Launch records -/

def roleAt (b : List Byte) (o : Nat) : Role :=
  { entry := BitVec.ofNat 64 (fieldB b o 8), warps := fieldB b (o + 8) 2, regs := fieldB b (o + 10) 2 }

/-- A record's fields (R417). -/
def parseRecord (b : List Byte) : LaunchRec :=
  let flags := fieldB b 0x0F 1
  { entry := BitVec.ofNat 64 (fieldB b 0 8), gx := fieldB b 8 2, gy := fieldB b 10 2, gz := fieldB b 12 2
    shape := fieldB b 14 1, det := bitN flags 0, persist := bitN flags 1, phased := bitN flags 2
    threads := fieldB b 0x10 2, scratch := fieldB b 0x12 2, accT := fieldB b 0x14 2, regs := fieldB b 0x16 2
    carry := fieldB b 0x18 1, bpc := fieldB b 0x19 1, splen := fieldB b 0x1C 4
    param := BitVec.ofNat 64 (fieldB b 0x20 8), cbase := fieldB b 0x28 8, clen := fieldB b 0x30 4
    spill := BitVec.ofNat 64 (fieldB b 0x38 8), roles := [roleAt b 0x48, roleAt b 0x58, roleAt b 0x68] }

/-- Cores of a cluster. -/
def LaunchRec.cores (r : LaunchRec) : Nat := match r.shape with | 0 => 1 | 1 => 2 | _ => 4

def LaunchRec.hasRoles (r : LaunchRec) : Bool := r.roles.any fun x => x.warps != 0

/-- A warp of a block before it starts: role code, entry, registers, lanes. -/
structure WarpSpec where
  role : Nat
  entry : Word
  regs : Nat
  lm : W32
  deriving DecidableEq, Repr

/-- The warps of a block in ascending wid (R415, R420). -/
def LaunchRec.warps (r : LaunchRec) : List WarpSpec :=
  if r.hasRoles then
    (countFrom 0 3).flatMap fun i =>
      let x := r.roles.getD i { entry := 0, warps := 0, regs := 0 }
      List.replicate x.warps
        { role := i + 1, entry := x.entry, regs := if x.regs = 0 then r.regs else x.regs, lm := 0xFFFFFFFF }
  else
    let n := (r.threads + 31) / 32
    (countFrom 0 n).map fun i =>
      { role := 0, entry := r.entry, regs := r.regs
        lm := if i + 1 = n ∧ r.threads % 32 ≠ 0 then BitVec.ofNat 32 (2 ^ (r.threads % 32) - 1) else 0xFFFFFFFF }

/-- The warps of a block on the core of a cluster rank. -/
def LaunchRec.warpsOn (r : LaunchRec) (rank : Nat) : List WarpSpec :=
  (countFrom 0 r.warps.length).filterMap fun i => if i % r.cores = rank then r.warps[i]? else none
def regsOk (n : Nat) : Bool := decide (64 ≤ n) && decide (n ≤ 1024) && n % 64 == 0

/-- Whether a record may be launched (R418). (DEDUCED, log 40) -/
def recordOk (b : List Byte) : Bool :=
  let r := parseRecord b
  let zero (o n : Nat) : Bool := fieldB b o n == 0
  let perCore := (countFrom 0 r.cores).map r.warpsOn
  decide (1 ≤ r.gx) && decide (1 ≤ r.gy) && decide (1 ≤ r.gz) && decide (r.shape ≤ 2) && decide (fieldB b 0x0F 1 < 8)
  && (if r.hasRoles then r.threads == 0
      else decide (1 ≤ r.threads) && decide (r.threads ≤ 8192) && decide (r.threads ≤ 2048 * r.cores))
  && decide (r.scratch ≤ 768) && decide (r.accT ≤ 768) && regsOk r.regs
  && (if r.phased then decide (r.carry ≤ 48) else r.carry == 0)
  && decide (1 ≤ r.bpc) && decide (r.bpc ≤ 8) && zero 0x1A 2 && r.splen % 128 == 0
  && r.cbase % 65536 == 0 && decide (r.cbase + r.clen * 65536 ≤ hbmTop) && decide (r.clen ≤ 65536) && zero 0x34 4
  && r.spill.toNat % 128 == 0 && zero 0x40 8 && zero 0x54 4 && zero 0x64 4 && zero 0x74 4 && zero 0x78 8
  && r.roles.all (fun x => decide (x.warps ≤ 256) && (x.regs == 0 || regsOk x.regs))
  && decide (r.warps.length ≤ 256)
  && perCore.all (fun l => decide (l.length ≤ 64) && decide (sumNat (l.map fun x => x.regs) ≤ 8192)
      && (!r.phased || decide (l.length * r.carry * 128 ≤ r.scratch * 1024)))

/-! ## Grids (R419) -/

def State.unretired (s : State) (ctx : Nat) : Nat := (s.grids.filter fun p => p.2.ctx == ctx && !p.2.retired).length

/-- A grid created: its instance number, and the state in which it awaits admission. -/
def State.createGrid (s : State) (ctx depth : Nat) (parent : Option Nat) (r : LaunchRec) : Nat × State :=
  let inst := (s.ctx ctx).grids + 1
  let s := s.setCtx ctx { s.ctx ctx with grids := inst }
  (inst, { s with grids := tset s.grids s.nextId
                    { ctx := ctx, inst := inst, depth := depth, parent := parent, recd := r, retired := false, round := 1
                      committing := false }
                  nextId := s.nextId + 1 })

/-! ## Ranks of clusters (R429) -/

/-- The least power of two at or above n, within `k` doublings of `m`. -/
def powAbove (n : Nat) : Nat → Nat → Nat
  | 0, m => m
  | k + 1, m => if n ≤ m then m else powAbove n k (2 * m)

/-- The Hilbert position, over sides halved `k` times. -/
def hilbertLoop (n : Nat) : Nat → Nat → Nat → Nat → Nat → Nat
  | 0, _, _, _, d => d
  | k + 1, s, x, y, d =>
    if s = 0 then d
    else
      let rx := if x / s % 2 = 1 then 1 else 0
      let ry := if y / s % 2 = 1 then 1 else 0
      let d := d + s * s * ((3 * rx) ^^^ ry)
      let x' := if ry = 0 ∧ rx = 1 then n - 1 - x else x
      let y' := if ry = 0 ∧ rx = 1 then n - 1 - y else y
      if ry = 0 then hilbertLoop n k (s / 2) y' x' d else hilbertLoop n k (s / 2) x y d

def hilbert (n x y : Nat) : Nat := hilbertLoop n 17 (n / 2) x y 0

/-- A cluster's position from its linear index. -/
def LaunchRec.at (r : LaunchRec) (lin : Nat) : Nat × Nat × Nat := (lin % r.gx, lin / r.gx % r.gy, lin / (r.gx * r.gy))

def LaunchRec.hilbertOf (r : LaunchRec) (lin : Nat) : Nat × Nat :=
  let p := r.at lin
  (p.2.2, hilbert (powAbove (max r.gx r.gy) 17 1) p.1 p.2.1)

/-- The rank of a cluster: how many clusters stand before it in (cz, Hilbert). -/
def LaunchRec.rankOf (r : LaunchRec) (lin : Nat) : Nat :=
  let h := r.hilbertOf lin
  ((countFrom 0 r.clusters).filter fun i =>
    let g := r.hilbertOf i
    decide (g.1 < h.1) || (g.1 == h.1 && decide (g.2 < h.2))).length

/-! ## Room on a core (R415, R423) -/

/-- Blocks placed on a core. -/
def State.blocksOn (s : State) (core : Nat) : AMap Block :=
  s.blocks.filter fun p =>
    !p.2.freed && !p.2.parked && ((tget s.clusters p.2.cluster).map fun c => c.cores.contains core).getD false

def State.recOfBlock (s : State) (b : Block) : Option LaunchRec :=
  ((tget s.clusters b.cluster).bind fun c => tget s.grids c.grid).map fun g => g.recd

/-- Warps placed on a core. -/
def State.placedWarps (s : State) (core : Nat) : AMap Warp :=
  let l := s.blocksOn core
  s.warps.filter fun p => p.2.core == core && l.any fun b => b.1 == p.2.block

/-- Register positions in use: phase-waiting warps of a block that is not persistent hold none (R421, R436). -/
def State.regsUsed (s : State) (core : Nat) : Nat :=
  sumNat ((s.placedWarps core).map fun p =>
    let keeps := ((p.2.grid? s).map fun g => g.recd.persist).getD false
    if p.2.status = .phaseWait ∧ ¬ keeps then 0 else p.2.budget)

/-- The first free run of `len` below `cap` among intervals in use. (DESIGN CHOICE, log 39) -/
def firstFit (cap len : Nat) (used : List (Nat × Nat)) : Option Nat :=
  let free (st : Nat) : Bool :=
    decide (st + len ≤ cap) && used.all fun u => decide (u.1 + u.2 ≤ st) || decide (st + len ≤ u.1)
  if len = 0 then some 0 else (0 :: used.map fun u => u.1 + u.2).find? free

/-- Allocations of the placed blocks on a core: scratchpad bytes, or accumulator tiles. -/
def State.allocs (s : State) (core : Nat) (acc : Bool) : List (Nat × Nat) :=
  (s.blocksOn core).filterMap fun p =>
    match s.recOfBlock p.2 with
    | none => none
    | some r =>
      let len := if acc then r.accT else r.scratch * 1024
      if len = 0 then none else (assocGet (if acc then p.2.abase else p.2.sbase) core).map fun b => (b, len)

/-- A context slot on a core: its own, or a free one taken for it. -/
def Core.takeSlot (c : Core) (ctx : Nat) : Option Core :=
  match c.slotOf ctx with
  | some _ => some c
  | none =>
    match (countFrom 0 8).find? fun j => !(c.slot j).valid with
    | none => none
    | some j => some (c.setSlot j { c.slot j with valid := true, ctx := BitVec.ofNat 8 ctx, pass := c.freshPass j })

/-- Weight-store copies outstanding to a die (R108). -/
def State.kbOutstanding (s : State) (die : Nat) : Bool :=
  s.cores.any fun p => p.2.ops.any fun o => o.kbDies.contains die

/-- Whether a core takes new clusters: its sensor allows it (R474). -/
def State.coreOpen (s : State) (core : Nat) : Bool := !(s.sensOf (s.physOf core)).noNew

/-! ## Placement and dispatch -/

/-- A warp of a block as it starts on a core (R416). -/
def startWarp (s : State) (ctx core grid cluster block : Nat) (g : Grid) (lin rank wid : Nat) (x : WarpSpec) : Warp :=
  let r := g.recd
  let p := r.at lin
  let idx := (lin * r.bpc + rank) * r.warps.length + wid
  let seed : W32 := (s.ctx ctx).seed.setWidth 32
  { Warp.fresh ctx core x.lm with
      grid := grid, cluster := cluster, block := block, role := x.role, wid := wid, rank := rank
      bid := #v[BitVec.ofNat 32 (p.1 * r.bpc + rank), BitVec.ofNat 32 p.2.1, BitVec.ofNat 32 p.2.2]
      s := (Vector.replicate 64 (0 : Word)).set 0 r.param |>.set 1 (BitVec.ofNat 64 g.inst)
      v := [(0, lanesOf fun l => BitVec.ofNat 32 (wid * 32 + l))]
      budget := x.regs
      spillbase := r.spill + BitVec.ofNat 64 (idx * r.splen), spilllen := BitVec.ofNat 64 r.splen
      gens := Vector.ofFn fun i => seedLfsr seed wid i.val, gs := seedLfsr seed wid 32
      pc := x.entry, det := r.det }

/-- Scratchpad and accumulator allocations of a new block: zero, present, free of errors (R78, R90). Operations of earlier
blocks that still write there (R273) count in no line of the new one. -/
def State.clearAlloc (s : State) (core sb sl ab al : Nat) : State :=
  let inS (line : Nat) : Bool := decide (sb ≤ line * 128) && decide (line * 128 < sb + sl)
  let inA (pa lo len : Nat) : Bool := decide (lo ≤ pa) && decide (pa < lo + len)
  let old (l : List (Nat × Nat)) : List (Nat × Nat) := l.filter fun x => x.1 == core && inS x.2
  let s : State := { s with cores := s.cores.map (fun p => (p.1, { p.2 with
      absent := if p.1 = core then p.2.absent.filter fun q => !inS q.1 else p.2.absent
      ops := p.2.ops.map fun o => { o with dead := o.dead ++ old o.lines } }))
                            colls := s.colls.map fun c => { c with dead := c.dead ++ old c.lines } }
  { s with mem := memZeroN (memZeroN s.mem (spAlias core + sb) sl) (acAlias core + ab * 4096) (al * 4096)
           poison := s.poison.filter fun l =>
             !(inA (l * 128) (spAlias core + sb) sl || inA (l * 128) (acAlias core + ab * 4096) (al * 4096)) }

/-- One block placed on the cores of its cluster, if each has room. -/
def placeBlock (s : State) (gid cid lin rank : Nat) (g : Grid) (cores : List Nat) : Option State :=
  let r := g.recd
  let bid := s.nextId
  let fits : Option (List (Nat × Nat) × List (Nat × Nat)) :=
    (countFrom 0 cores.length).foldl (fun acc i =>
      match acc, cores[i]? with
      | some (sb, ab), some core =>
        let mine := r.warpsOn i
        if 64 < (s.placedWarps core).length + mine.length then none
        else if 8192 < s.regsUsed core + sumNat (mine.map fun x => x.regs) then none
        else match firstFit 786432 (r.scratch * 1024) (s.allocs core false), firstFit 768 r.accT (s.allocs core true) with
          | some x, some y => some (sb ++ [(core, x)], ab ++ [(core, y)])
          | _, _ => none
      | _, _ => none) (some ([], []))
  match fits with
  | none => none
  | some (sb, ab) =>
    let b : Block :=
      { cluster := cid, rank := rank, sbase := sb, abase := ab, phase := 0, nextPhase := false, parked := false
        freed := false }
    let s := { s with blocks := tset s.blocks bid b, nextId := bid + 1 }
    let s := (countFrom 0 cores.length).foldl (fun s i =>
      match cores[i]?, sb[i]?, ab[i]? with
      | some core, some x, some y => s.clearAlloc core x.2 (r.scratch * 1024) y.2 r.accT
      | _, _, _ => s) s
    let specs := r.warps
    some ((countFrom 0 specs.length).foldl (fun s wid =>
      match specs[wid]?, cores[wid % cores.length]? with
      | some x, some core =>
        { s.setWarp s.nextId (startWarp s g.ctx core gid cid bid g lin rank wid x) with nextId := s.nextId + 1 }
      | _, _ => s) s)

/-- A core made ready for a context: open, with a slot. -/
def reserveSlots (s : State) (ctx : Nat) : List Nat → Option State
  | [] => some s
  | n :: r =>
    match (s.core n).takeSlot ctx with
    | none => none
    | some c => reserveSlots (s.setCore n c) ctx r

/-- The record a cluster awaiting admission holds. -/
def State.clusterOf (s : State) (gid lin : Nat) (g : Grid) : Nat × Cluster :=
  let p := g.recd.at lin
  match s.clusters.find? fun q => q.2.grid = gid ∧ q.2.cx = p.1 ∧ q.2.cy = p.2.1 ∧ q.2.cz = p.2.2 with
  | some q => q
  | none =>
    (s.nextId,
      { grid := gid, cx := p.1, cy := p.2.1, cz := p.2.2, rank := g.recd.rankOf lin, cores := [], admitted := false
        released := false, attempt := 0, backoff := none, bars := [] })

/-- A cluster committed to a core group with all its blocks, or nothing (R423). Its cores start with an empty L1, so that what its
launch released is seen (R438). (DESIGN CHOICE, log 39) -/
def placeCluster (s : State) (gid lin : Nat) (g : Grid) (cores : List Nat) : Option State :=
  if !cores.all s.coreOpen then none
  else match reserveSlots s g.ctx cores with
  | none => none
  | some s =>
    let q := s.clusterOf gid lin g
    let s := { s.setCluster q.1 { q.2 with cores := cores, admitted := true, backoff := none } with
                 nextId := max s.nextId (q.1 + 1) }
    (countFrom 0 g.recd.bpc).foldl (fun acc rank =>
      match acc with
      | none => none
      | some s => placeBlock s gid q.1 lin rank g cores) (some (cores.foldl State.discardL1 s))

/-- The permitted core groups of a die, ascending (R414). -/
def coreGroups (die cores : Nat) : List (List Nat) :=
  (countFrom 0 (32 / cores)).map fun i => countFrom (die * 32 + i * cores) cores

/-- The admitted blocks of a die, resident, parked or of a saved context. -/
def State.blocksAt (s : State) (die : Nat) : AMap Block :=
  s.blocks.filter fun p => !p.2.freed && ((tget s.clusters p.2.cluster).map fun c => c.cores.any fun n => dieOf n == die).getD false

/-- Whether a block belongs to a context that has been pre-empted and saved. -/
def State.savedBlock (s : State) (b : Block) : Bool :=
  (((tget s.clusters b.cluster).bind fun c => tget s.grids c.grid).map fun g => (s.ctx g.ctx).done).getD false

/-- Blocks whose scheduling state a die keeps (R424); those of saved contexts count, since they return to it. (DESIGN CHOICE,
log 81) -/
def State.dieBlocks (s : State) (die : Nat) : Nat := (s.blocksAt die).length

/-- A cluster placed on the first group of a die that holds it. (DESIGN CHOICE, log 39) -/
def placeOnDie (s : State) (die gid lin : Nat) (g : Grid) : Option State :=
  if s.kbOutstanding die || decide (1024 < s.dieBlocks die + g.recd.bpc) then none
  else (coreGroups die g.recd.cores).findSome? fun cores => placeCluster s gid lin g cores

/-- The die of a cluster of a deterministic launch. -/
def detDie (r : LaunchRec) (lin : Nat) : Nat := 4 * r.rankOf lin / r.clusters

/-- Every cluster of a persistent grid at once: deterministic ones on their dies, others on the die named or the
first that takes them. -/
def placeAll (s : State) (die gid : Nat) (g : Grid) : Option State :=
  (countFrom 0 g.recd.clusters).foldl (fun acc lin =>
    match acc with
    | none => none
    | some s =>
      if g.recd.det then placeOnDie s (detDie g.recd lin) gid lin g
      else (die :: countFrom 0 4).findSome? fun d => placeOnDie s d gid lin g) (some s)

/-- Whether a deterministic cluster's turn on its die has come. -/
def detTurn (s : State) (die gid lin : Nat) (g : Grid) : Bool :=
  let k := g.recd.rankOf lin
  detDie g.recd lin == die && (countFrom 0 g.recd.clusters).all fun i =>
    decide (k ≤ g.recd.rankOf i) || detDie g.recd i != die
      || s.clusters.any fun q => q.2.grid == gid && q.2.admitted && q.2.rank == g.recd.rankOf i

end Sys2Proof.Machine
end

