-- ==== Sys2Proof/Machine/Commands.lean ====
section
/-! DEFINITION. Engine commands: acceptance by their engine with its number, refusal by a full one, and the retry of a
refused one (R79, R130, R177, R187, R188, R344, R362, R399, R419, R488). -/

namespace Sys2Proof.Machine

open Sys2Proof

/-! ## What commands do on acceptance -/

/-- Whether a command owes a B-class result. -/
def CmdBody.owes : CmdBody → Bool
  | .plane (.rdv ..) | .plane (.cnt ..) | .plane (.stat ..) | .plane (.statIss _) => true
  | .plane _ | .tmode _ => false
  | _ => true

/-- First byte of the accumulator window (R25). -/
def accWindow : Word := 0x00FFFFFD00000000

/-- The ranges a command writes, for the alias guard (R383). -/
def CmdBody.guarded : CmdBody → List Rng
  | .copy _ _ _ dst | .gather _ dst => dst
  | .cube (.drain _ dst _) _ _ _ => [Rng.flat (accWindow + BitVec.ofNat 64 (dst * 4096)) 4096]
  | .krun r => if r.dlen = 0 then [] else [Rng.flat r.dstVa r.dlen]
  | _ => []

/-- The dies of a kernel-boundary copy's destination. -/
def CmdBody.kbDies : CmdBody → List Nat
  | .copy _ true pieces _ => (pieces.map fun p => (p.dst - wsBase) / 0x20000000).eraseDups
  | _ => []

/-- A tracked write joins a line's count (R79). -/
def State.lineUp (s : State) (x : Nat × Nat) : State :=
  let c := s.core x.1
  s.setCore x.1 { c with absent := tset c.absent x.2 (tgetD c.absent x.2 0 + 1) }

/-- The operations of a core that are copies. -/
def Core.copies (c : Core) : List MemOp := c.ops.filter fun o => !o.gather

/-- Whether a copy's destination meets that of an incomplete copy of another queue of its context (R188). -/
def copyClash (c : Core) (ctx q : Nat) (dst : List Rng) : Bool :=
  c.copies.any fun o => o.ctx == ctx && o.tl != q && o.dst.any fun x => dst.any fun y => x.meets y

/-- The dies whose weight stores pieces write. -/
def kbDiesOf (l : List Piece) : List Nat := (l.map fun p => (p.dst - wsBase) / 0x20000000).eraseDups

/-- Whether a die holds a block, resident or parked (R108): a block of a saved context is neither, unless it is parked. -/
def State.dieBusy (s : State) (d : Nat) : Bool := s.kernelOn d || (s.blocksAt d).any fun p => p.2.parked || !s.savedBlock p.2

/-- A copy or gather joins its core's operations; its scratchpad lines become absent. -/
def State.addMemOp (s : State) (k : Nat) (w : Warp) (c : Cmd) (tl num : Nat) (gather kb : Bool) (pieces : List Piece)
    (dst : List Rng) : State :=
  let o : MemOp :=
    { seq := s.seq, ctx := w.ctx, warp := k, ipc := c.ipc, tok := c.tok, tl := tl, num := num, gather := gather, kb := kb
      pieces := pieces, dst := dst, err := false, kbDies := if kb then kbDiesOf pieces else [], dead := [] }
  let s := o.lines.foldl State.lineUp s
  let c := s.core w.core
  { s.setCore w.core { c with ops := c.ops ++ [o] } with seq := s.seq + 1 }

/-- TMODE's fields (R392). -/
def parseTmode (v : Word) : TMode :=
  { ltiles := v.extractLsb' 48 8, lset := v.getLsbD 47, eprio := fieldN v.toNat 44 3, strict := v.getLsbD 43
    trapovf := v.getLsbD 42, ecnt := fieldN v.toNat 32 10, ebase := fieldN v.toNat 22 10, rq := fieldN v.toNat 11 11
    nq := fieldN v.toNat 0 9 }

/-- The other warps of a core that hold part of its node table. -/
def State.neighbours (s : State) (k core : Nat) : AMap Warp :=
  s.warps.filter fun p => p.1 != k && p.2.core == core && p.2.status != .exited

/-- The mode that a warp's quantum leaves. -/
def Warp.mode (w : Warp) : TMode := (lastTable w w.held).2

/-- Whether a core's table has room for a warp's quotas (R362). -/
def State.quotaFits (s : State) (k core : Nat) (m : TMode) : Bool :=
  let o := s.neighbours k core
  decide (sumNat (o.map fun p => p.2.mode.nq) + m.nq ≤ nodeCap)
  && decide (sumNat (o.map fun p => p.2.mode.rq) + m.rq ≤ rangeCap)

/-- The room an engine has for a command (R130, R187, R344, R362, R399, R419). -/
def hasRoom (s : State) (k : Nat) (w : Warp) : CmdBody → Bool
  | .copy .. => decide ((s.core w.core).copies.length < 48)
  | .cube .. => decide ((s.core w.core).cq.length < 16)
  | .plane _ => decide ((s.core w.core).pq.length < 32)
  | .krun r => decide ((s.kiosk r.ch).queue.length < 8)
  | .glaunch _ => decide (s.unretired w.ctx < 4096)
  | .tmode v => s.quotaFits k w.core (parseTmode v)
  | .gather .. | .coll _ => true

/-- The counter that numbers a command (R176). -/
def CmdBody.counter : CmdBody → Nat
  | .copy q .. => q
  | .gather .. => 4
  | .cube .. => 5
  | .plane _ => 7
  | .krun _ => 8
  | _ => 9

/-- A command joins its engine under the number it got. -/
def State.enqueue (s : State) (k : Nat) (w : Warp) (c : Cmd) (num : Nat) : State :=
  let x := s.core w.core
  match c.body with
  | .copy q kb pieces dst => s.addMemOp k w c q num false kb pieces dst
  | .gather pieces dst => s.addMemOp k w c 4 num true false pieces dst
  | .cube cmd prio ashape xl =>
    { s.setCore w.core { x with cq := x.cq ++ [{ seq := s.seq, ctx := w.ctx, warp := k, num := num
                                                 cmd := cmd, prio := prio, wait := 0, since := s.clock, born := s.clock
                                                 st := .queued, step := 0
                                                 ashape := ashape, xl := xl, sc := [], tok := c.tok }] } with
        seq := s.seq + 1 }
  | .plane p =>
    { s.setCore w.core { x with pq := x.pq ++ [{ seq := s.seq, ctx := w.ctx, warp := k, num := num, cmd := p
                                                 tok := c.tok }] } with seq := s.seq + 1 }
  | .krun r =>
    let q := s.kiosk r.ch
    let t := s.tl w.ctx w.core
    { (s.setTl w.ctx w.core { t with kch := tset t.kch num r.ch }).setKiosk r.ch
        { q with queue := q.queue ++ [{ r with warp := k, tok := c.tok, num := num, seq := s.seq }] } with seq := s.seq + 1 }
  | .coll cc =>
    let cc := { cc with warp := k, tok := c.tok, num := num, seqNo := s.seq }
    let s : State := (cc.lines).foldl State.lineUp s
    { s with colls := s.colls ++ [cc], seq := s.seq + 1 }
  | .glaunch _ | .tmode _ => s

/-- What an accepted command delivers at once, and whether its result is then complete. -/
def CmdBody.result (b : CmdBody) (d num : Nat) : List RegWrite × Bool :=
  match b with
  | .cube (.shift ..) _ _ _ => ([.s d (BitVec.ofNat 64 num)], false)
  | .plane _ => ([], false)
  | _ => ([.s d (BitVec.ofNat 64 num)], true)

/-! ## Acceptance -/

/-- What becomes of a command at its engine. -/
inductive Acc where
  | ok (s : State) (l : List RegWrite) (ready : Bool)
  | full
  | halt (h : Halt)
  deriving DecidableEq, Repr

/-- The copy-overlap fault of a command (R188). -/
def overlapTrap (dst : List Rng) : Trap := { cause := Cause.copyOverlap, faddr := (dst.head?.map fun r => r.base).getD 0 }

/-- The queue and destination of a copy that meets an incomplete one: the advances of its cycle are seen before it faults, so it waits
for the cycle's end, at a commit too (R188). (DESIGN CHOICE, log 82) -/
def clashOf (s : State) (w : Warp) (b : CmdBody) : Option (Nat × List Rng) :=
  match b with
  | .copy q _ _ dst => if copyClash (s.core w.core) w.ctx q dst then some (q, dst) else none
  | _ => none

/-- A command at its engine: the overlap with other queues' copies, room, the alias guard, then its number. -/
def accept (s : State) (k : Nat) (w : Warp) (c : Cmd) : Acc :=
  if let some x := clashOf s w c.body then .halt (.wait (.overlap x.1 x.2))
  else if c.body.kbDies.any s.dieBusy then
    .halt (.trap { cause := Cause.weightStoreBusy, faddr := (c.body.guarded.head?.map fun r => r.base).getD 0 })
  else if !hasRoom s k w c.body then .full
  else match s.guard k w c.body.guarded with
    | .error e => .halt (haltOf e)
    | .ok s =>
      match c.body with
      | .glaunch r =>
        let g := s.createGrid w.ctx (((w.grid? s).map fun g => g.depth).getD 0 + 1) (some w.grid) r
        .ok g.2 [.s c.d (BitVec.ofNat 64 g.1)] true
      | .tmode v =>
        match s.warp? k with
        | none => .ok s [] true
        | some w => .ok (s.setWarp k (w.putTable w.perg (parseTmode v))) [] true
      | b =>
        let n := s.number w.ctx w.core b.counter
        let r := b.result c.d n.1
        .ok (n.2.enqueue k w c n.1) r.1 r.2

/-- The instruction of an accepted command completes. -/
def State.deliver (s : State) (k : Nat) (c : Cmd) (l : List RegWrite) (ready : Bool) : State :=
  match s.warp? k with
  | none => s
  | some w =>
    let w := { w with wait := .run }
    s.setWarp k (if c.body.owes then w.oweB c.tok ready l else w)

/-- A command issued now: accepted, refused with its warp descheduled, or halted. -/
def submitNow (s : State) (w : Warp) (c : Cmd) : Except Halt State :=
  match accept s s.cur w c with
  | .ok s l ready => .ok (s.deliver s.cur c l ready)
  | .full => .ok (s.setWarp s.cur { w with wait := .refused c })
  | .halt h => .error h

/-- A command that has passed its issue checks: in a deterministic launch it is held for the commit (R173).
(DESIGN CHOICE, log 10) -/
def submit (s : State) (w : Warp) (body : CmdBody) (d : BitVec 6) : Except Halt State :=
  let t := s.token
  let c : Cmd := { body := body, d := d.toNat, ipc := w.ipc, tok := t.1 }
  if w.det then
    let w := if body.owes then w.oweB c.tok false [] else w
    .ok (t.2.setWarp s.cur { w with held := w.held ++ [.cmd c] })
  else submitNow t.2 w c

/-- The checks at issue that other warps' commands have a part in, made once more at a retry, with the command as they leave it. -/
abbrev Again := State → Nat → Warp → CmdBody → Except Trap (State × CmdBody)

/-- A refused command of warp `k` tried again, where its engine now has room: it issues there (R341, R392, R402). -/
def retryOf (mine : CmdBody → Bool) (again : Again) (s : State) (k : Nat) (w : Warp) : Out :=
  match w.wait with
  | .refused c =>
    let fail (t : Trap) : Out := .next (s.trap k { w.unretire with wait := .run } t .fault)
    if !mine c.body || !hasRoom s k w c.body then .fault .noSuchEvent
    else match again s k w c.body with
      | .error t => fail t
      | .ok (s, b) =>
        let c := { c with body := b }
        match accept s k w c with
        | .full => .fault .noSuchEvent
        | .ok s l ready => .next (s.deliver k c l ready)
        | .halt (.trap t) => fail t
        | .halt (.after u t) => .next (u.trap k { ((u.warp? k).getD w).unretire with wait := .run } t .fault)
        | .halt (.wait (.overlap q dst)) => .next (s.setWarp k (w.redo (.overlap q dst)))
        | .halt (.wait _) => .fault .noSuchEvent
  | _ => .fault .noSuchEvent

/-- A refused command's retry; in a deterministic launch only the commit tries one again (R173). -/
def retryCmd (s : State) (mine : CmdBody → Bool) (again : Again) : Out :=
  onEventWarp s fun k w => if w.det then .fault .noSuchEvent else retryOf mine again s k w

/-- No check of its own at a retry. -/
def noneAgain : Again := fun s _ _ b => .ok (s, b)

def execCopyRetry (s : State) : Out := retryCmd s (fun | .copy .. => true | _ => false) noneAgain
def execKrunRetry (s : State) : Out := retryCmd s (fun | .krun _ => true | _ => false) noneAgain
def execGlaunchRetry (s : State) : Out := retryCmd s (fun | .glaunch _ => true | _ => false) noneAgain

end Sys2Proof.Machine
end

