-- ==== Sys2Proof/Machine/Transfer.lean ====
section
/-! DEFINITION. Copies and gathers (R186 to R191, R316 to R318), translation maintenance (R75, R76, R319, R320),
barriers (R321, R322) and collectives (R199, R257, R258, R325, R326). -/

namespace Sys2Proof.Machine

open Sys2Proof

/-! ## Engine reads and writes -/

/-- Bytes of places read at their homes by an engine, each with whether it met an uncorrectable error. -/
def engineRead (s : State) (l : List Xlat) : List (Byte × Bool) :=
  l.flatMap fun x => (linesOf x.pa x.len).flatMap fun p =>
    let bad := s.badAt x.kind p.1
    (s.homeRead x.kind p.1 p.2).map fun b => (b, bad)

/-- Bytes of places written at their homes by an engine. -/
def engineWrite (s : State) (ctx : Nat) : List Xlat → List Byte → State
  | [], _ => s
  | x :: r, b =>
    let a := (linesOf x.pa x.len).foldl (fun (a : State × List Byte) p =>
      (a.1.homeWrite ctx x.kind p.1 (a.2.take p.2), a.2.drop p.2)) (s, b)
    engineWrite a.1 ctx r (b.drop x.len)

/-- A line that took zero for a failed source is marked (R85). -/
def State.markLine (s : State) (pa : Nat) : State :=
  if s.poison.contains (lineOf pa) then s else { s with poison := lineOf pa :: s.poison }

/-! ## Copies at issue -/

/-- A translated run after its first `k` bytes. -/
def Xlat.past (x : Xlat) (k : Nat) : Xlat := { x with va := x.va + BitVec.ofNat 64 k, pa := x.pa + k, len := x.len - k }

/-- Two translated runs of equal length cut where either meets a page or a line; `n` bounds the pieces. -/
def zipPieces : Nat → List Xlat → List Xlat → List Piece
  | n + 1, x :: xs, y :: ys =>
    if x.len = 0 then zipPieces n xs (y :: ys)
    else if y.len = 0 then zipPieces n (x :: xs) ys
    else
      let k := min (min x.len y.len) (min (128 - x.pa % 128) (128 - y.pa % 128))
      { src := x.pa, skind := x.kind, dst := y.pa, dkind := y.kind, len := k, sva := x.va, dva := y.va } :: zipPieces n (x.past k :: xs) (y.past k :: ys)
  | _, _, _ => []

/-- A page of a kernel-boundary copy's destination: a weight store alias that may be written (R108). -/
def kbPlace (s : State) (wh : Who) (va : Word) (len : Nat) : Except WFault Place :=
  match classCheck wh.sys va len with
  | .error c => .error (c, 0)
  | .ok .user | .ok .sysHalf =>
    match lookup s wh.core wh.ctx va.toNat with
    | .error f => .error f
    | .ok (s, t) =>
      let check (t : Tlb) : Except WFault Unit :=
        let pa := t.pbase + (va.toNat - t.vbase)
        if regionOf pa ≠ .ws then
          match leafCheck wh.sys false .store t pa len with
          | .error f => .error f
          | .ok () => .error (Cause.windowPermission, 0)
        else if !typeOk t.ty .ws then .error (Cause.typeMismatch, t.level)
        else if !t.w then .error (Cause.permission, t.level)
        else .ok ()
      match check t with
      | .error f => .error f
      | .ok () => match setDirty s wh.core wh.ctx va.toNat t check with
        | .error f => .error f
        | .ok (s, t) => .ok (s, t.pbase + (va.toNat - t.vbase), .weight)
  | .ok _ =>
    match windowPlace s wh .load va len with
    | .error c => .error (c, 0)
    | .ok _ => .error (Cause.windowPermission, 0)

/-- A run of bytes under a place check of its own, page by page, within one class; a fault names its page's first byte. -/
def placedRange (s : State) (wh : Who) (va : Word) (len : Nat) (place : State → Word → Nat → Except WFault Place) :
    Except (WFault × Word) (State × List Xlat) :=
  match classCheck wh.sys va len with
  | .error c => .error ((c, 0), va)
  | .ok _ =>
    match foldE (fun (a : State × List Xlat) (p : Word × Nat) =>
        match place a.1 p.1 p.2 with
        | .error f => Except.error (f, p.1)
        | .ok (s, pa, k) => .ok (s, { va := p.1, pa := pa, kind := k, len := p.2 } :: a.2))
      (s, []) (pagesOf (len / 4096 + 2) va len) with
    | .error f => .error f
    | .ok (s, l) => .ok (s, l.reverse)

/-- What a command moves at a time: a copy's one run of bytes, or the rows of copy2d and the elements of a gather, whose
faults name them by number and first byte (R20, R446, R447). -/
structure MoveForm where
  elem : Bool
  kb : Bool
  deriving DecidableEq, Repr

/-- The trap of a failing unit: of a row or element by its first byte, of a copy's run by the failing byte.
(DEDUCED, log 31) -/
def moveTrap (u : MoveForm) (f : WFault × Word) (i : Nat) (va : Word) : Trap :=
  f.1.trap u.elem (if u.elem then i else 0) (if u.elem then va else f.2)

/-- A peer range that is refused, as a trap of unit `i`. -/
def peerTrap (s : State) (u : MoveForm) (need : Need) (i : Nat) (va : Word) (l : List Xlat) : Option Trap :=
  if s.peerIn need .refused l then
    some { cause := Cause.peerAccess, elem := u.elem, index := BitVec.ofNat 16 (if u.elem then i else 0), faddr := va
           peer := peerField need 1 }
  else none

/-- One unit of a copy or gather: its source, then its destination, and the pieces of its bytes. (DEDUCED, log 32) -/
def moveRow (s : State) (wh : Who) (u : MoveForm) (i : Nat) (src dst : Word) (len : Nat) : Except Trap (State × List Piece) :=
  match resolveBytes s wh .load src len with
  | .error f => .error (moveTrap u f i src)
  | .ok (s, x) =>
    match peerTrap s u .load i src x with
    | some t => .error t
    | none =>
      match (if u.kb then placedRange s wh dst len fun s va n => kbPlace s wh va n else resolveBytes s wh .store dst len) with
      | .error f => .error (moveTrap u f i dst)
      | .ok (s, y) =>
        match peerTrap s u .store i dst y with
        | some t => .error t
        | none => .ok (s, zipPieces (len + 1 + x.length + y.length) x y)

/-- Every unit of a command, in ascending order. -/
def moveRows (s : State) (wh : Who) (u : MoveForm) (rows : List (Nat × Word × Word × Nat)) : Except Trap (State × List Piece) :=
  foldE (fun (a : State × List Piece) r =>
    match moveRow a.1 wh u r.1 r.2.1 r.2.2.1 r.2.2.2 with
    | .error t => Except.error t
    | .ok (s, l) => .ok (s, a.2 ++ l)) (s, []) rows

/-- A copy of `rows` rows of `len` bytes (R316, R317). -/
def copyRows (s : State) (w : Warp) (f : FmtE) (u : MoveForm) (len rows dstr sstr : Nat) : Except Halt State :=
  let dst := w.getS f.a
  let src := w.getS f.b
  let n := if len = 0 then 0 else rows
  let list := (countFrom 0 n).map fun i => (i, src + BitVec.ofNat 64 (i * sstr), dst + BitVec.ofNat 64 (i * dstr), len)
  match moveRows s w.who u list with
  | .error t => .error (.trap t)
  | .ok (s, pieces) =>
    let x : Rng := { base := dst, row := len, stride := dstr, rows := n }
    let y : Rng := { base := src, row := len, stride := sstr, rows := n }
    if n ≠ 0 && x.meets y then .error (.trap { cause := Cause.copyOverlap, faddr := dst })
    else if u.kb && (kbDiesOf pieces).any s.dieBusy then .error (.trap { cause := Cause.weightStoreBusy, faddr := dst })
    else submit s w (.copy f.q.toNat u.kb pieces (if n = 0 then [] else [x])) f.d

def execCopy (f : FmtE) (s : State) : Out :=
  attemptH s fun w =>
    let len := (w.getS f.c).toNat
    if 2 ^ 32 < len then .error (.trap Trap.operand) else copyRows s w f { elem := false, kb := false } len 1 0 0

def execCopy2d (f : FmtE) (s : State) : Out :=
  attemptH s fun w =>
    let v := (w.getS f.c).toNat
    let len := fieldN v 0 32
    let rows := fieldN v 32 16
    if len = 0 ∨ 2 ^ 20 < len ∨ rows = 0 ∨ fieldN v 48 16 ≠ 0 then .error (.trap Trap.operand)
    else copyRows s w f { elem := true, kb := false } len rows (fieldN f.imm64.toNat 0 32) (fieldN f.imm64.toNat 32 32)

def execCopykb (f : FmtE) (s : State) : Out :=
  privilegedH s fun w =>
    let len := (w.getS f.c).toNat
    if 2 ^ 32 < len then .error (.trap Trap.operand) else copyRows s w f { elem := false, kb := true } len 1 0 0

/-! ## Gather (R318) -/

/-- The indices of a gather, read through the gather path in ascending order. -/
def gatherIndices (s : State) (w : Warp) (base : Word) (count : Nat) : Except Halt (State × List Nat) :=
  match foldE (fun (a : State × List Nat) i =>
      let va := base + BitVec.ofNat 64 (4 * i)
      match resolve a.1 w.who .load va 4 true with
      | .error f => Except.error (Halt.trap (f.trap true i va))
      | .ok (s, pa, k) =>
        let x : List Xlat := [{ va := va, pa := pa, kind := k, len := 4 }]
        match peerTrap s { elem := true, kb := false } .load i va x with
        | some t => .error (.trap t)
        | none =>
          match s.placeWait .load x with
          | some h => .error (.wait h)
          | none =>
            let r := s.pathBytes w.core .gather false k pa 4
            if r.2.2 then
              .error (.trap { Trap.addr Cause.uncorrectableData i va with elem := true })
            else .ok (r.1, bytesNat r.2.1 :: a.2)) (s, []) (countFrom 0 count) with
  | .error h => .error h
  | .ok (s, l) => .ok (s, l.reverse)

/-- The fault of a misaligned base, whose other checks of R19 come first: in a command of no elements only the alignment is checked,
since it names no byte. -/
def baseFault (s : State) (w : Warp) (count : Nat) (need : Need) (va : Word) (size : Nat) : Option Trap :=
  if va.toNat % size = 0 then none
  else match (if count = 0 then none else addressFault s w.who need va size) with
    | some c => some { cause := c, elem := true, faddr := va }
    | none => some { cause := Cause.alignment, faddr := va }

def execGather (f : FmtE) (s : State) : Out :=
  attemptH s fun w =>
    let size := 2 ^ (f.imm20.toNat / 65536)
    let count := f.imm20.toNat % 65536
    let dst := w.getS f.a
    let list := w.getS f.b
    let table := w.getS f.c
    match [(Need.store, dst, size), (.load, list, 4), (.load, table, size)].findSome? fun x => baseFault s w count x.1 x.2.1 x.2.2 with
    | some t => .error (.trap t)
    | none =>
      match gatherIndices s w list count with
      | .error h => .error h
      | .ok (s, idx) =>
        let rows := (countFrom 0 count).map fun i =>
          (i, table + BitVec.ofNat 64 (idx.getD i 0 * size), dst + BitVec.ofNat 64 (i * size), size)
        match moveRows s w.who { elem := true, kb := false } rows with
        | .error t => .error (.trap t)
        | .ok (s, pieces) =>
          submit s w (.gather pieces (if count = 0 then [] else [Rng.flat dst (count * size)])) f.d

/-! ## Delivery (R80, R84, R85, R186, R195) -/

/-- Whether a copy is the earliest of its queue; gathers have no order. -/
def MemOp.first (o : MemOp) (c : Core) : Bool :=
  o.gather || c.ops.all fun x => x.gather || x.ctx != o.ctx || x.tl != o.tl || decide (o.seq ≤ x.seq)

/-- Whether a piece's source can be read and its destination reached now. -/
def State.pieceReady (s : State) (o : MemOp) (p : Piece) : Bool :=
  (p.skind != .scratch || !s.owedBefore o.seq (spCoreLine p.src))
  && (p.skind != .peer || peerRoute s p.src .load != .none)
  && (p.dkind != .peer || peerRoute s p.dst .store != .none)

/-- A piece's source bytes: the state, the bytes, and whether the source failed, which counts as zeros.
(DEDUCED, log 28) -/
def readPiece (s : State) (n : Nat) (o : MemOp) (p : Piece) : State × List Byte × Bool :=
  let r := if o.gather then s.pathBytes n .gather false p.skind p.src p.len
    else (s, s.homeRead p.skind p.src p.len, s.badAt p.skind p.src)
  (r.1, if r.2.2 then List.replicate p.len 0 else r.2.1, r.2.2)

/-- The fault of a piece whose peer address leads nowhere: turned away, or without a route (R39, R141). (DESIGN CHOICE, log 68) -/
def State.pieceFault (s : State) (r : Route) (p : Piece) : Option Trap :=
  if p.skind = .peer ∧ peerRoute s p.src .load = r then some { cause := Cause.peerAccess, faddr := p.sva }
  else if p.dkind = .peer ∧ peerRoute s p.dst .store = r then
    some { cause := Cause.peerAccess, faddr := p.dva, peer := if r = .refused then 1 else 3 }
  else none

/-- The pieces that together write one register, which the piece at its first byte then writes whole (R37). -/
def registerPieces (l : List Piece) (p : Piece) : List Piece :=
  match regAt (p.dst - regBase) with
  | some (_, 0, width) => l.filter fun q => q.dkind == .reg && decide (p.dst ≤ q.dst) && decide (q.dst < p.dst + width)
  | _ => []

/-- A piece of `l` moved: the state and whether a source failed. -/
def movePiece (s : State) (n : Nat) (o : MemOp) (l : List Piece) (p : Piece) : State × Bool :=
  let mine := if p.dkind = .reg then registerPieces l p else [p]
  if mine.isEmpty then (s, false)
  else
    let r := mine.foldl (fun (a : State × List Byte × Bool) q =>
      let x := readPiece a.1 n o q
      (x.1, a.2.1 ++ x.2.1, a.2.2 || x.2.2)) (s, [], false)
    let s := r.1.homeWrite o.ctx p.dkind p.dst r.2.1
    (if r.2.2 && p.dkind == .scratch then s.markLine p.dst else s, r.2.2)

/-- Pieces moved in order. -/
def movePieces (s : State) (n : Nat) (o : MemOp) (l : List Piece) : State × Bool :=
  l.foldl (fun a p => let r := movePiece a.1 n o l p; (r.1, a.2 || r.2)) (s, false)

/-- A weight store line that a kernel-boundary copy rewrites whole is sound again (R112). -/
def State.kbClean (s : State) (o : MemOp) (line : Nat) (l : List Piece) : State :=
  if o.kb && decide (sumNat (l.map fun p => p.len) = 128) then { s with poison := s.poison.filter fun x => x != line }
  else s

def Core.setOp (c : Core) (i : Nat) (o : MemOp) : Core := { c with ops := c.ops.set i o }

/-- The pieces of an operation within one line of its destination delivered. (DESIGN CHOICE, log 9) -/
def State.deliverLine (s : State) (n i : Nat) (o : MemOp) (line : Nat) : State :=
  let mine := o.pieces.filter fun p => lineOf p.dst = line
  let r := movePieces s n o mine
  let s := r.1.kbClean o line mine
  let s := s.setCore n ((s.core n).setOp i { o with pieces := o.pieces.filter (fun p => lineOf p.dst ≠ line), err := o.err || r.2, told := false })
  ((((mine.filter fun p => p.dkind = .scratch).map fun p => spCoreLine p.dst).eraseDups).filter fun x =>
    !o.dead.contains x).foldl State.lineDown s

/-- Whether an operation may go past its point: while its context stops, once its warps have, or its core moves, none does but to
let another reach its own (R457, R467). (DESIGN CHOICE, log 51; DESIGN CHOICE, log 38) -/
def State.mayPass (s : State) (n : Nat) (o : MemOp) : Bool :=
  let x := s.ctx o.ctx
  !o.atPoint || ((!(x.preq && !x.acks.getLsbD 0) || !s.copiesRest o.ctx) && !(s.core n).paused)

/-- An operation of a core, where it may advance: after what its command released (R181), and to its point only where it is to
stop there. -/
def State.movingOp (s : State) (n i : Nat) : Option MemOp :=
  (s.core n).ops[i]?.filter fun o =>
    s.advances o.ctx (if o.gather then .gather else .copy) && o.first (s.core n) && !s.gated o.warp o.tok && s.mayPass n o

/-- An operation whose piece a peer turns away, or for which no route is found for 100 ms: the warp that issued it takes the fault, once,
and the operation stays incomplete; it goes on if the piece can be moved later, and only teardown drops it (R141, R184).
(DESIGN CHOICE, log 68) -/
def State.failOp (s : State) (n i : Nat) (o : MemOp) (t : Trap) : Out :=
  if o.told then .fault .noSuchEvent
  else
    let s := s.setCore n ((s.core n).setOp i { o with told := true })
    match s.warp? o.warp with
    | none => .next s
    | some w => s.lateTrap o.warp w o.ipc t

/-- Whether a line of an operation's destination may be delivered next: of a copy the one that stands first in ascending
address order, row by row (R317); a gather names no order. -/
def MemOp.mayDeliver (o : MemOp) (line : Nat) : Bool :=
  o.gather || (match o.pieces with | p :: _ => lineOf p.dst == line | [] => false)

/-- A line of a destination is delivered: a scratchpad line then counts one write fewer (R80). -/
def execTrackedWriteDeliver (s : State) : Out :=
  match s.movingOp s.ev.x s.ev.y with
  | none => .fault .noSuchEvent
  | some o =>
    let mine := o.pieces.filter fun p => lineOf p.dst = s.ev.z
    if mine.isEmpty || !o.mayDeliver s.ev.z || !mine.all (s.pieceReady o) then .fault .noSuchEvent
    else match mine.findSome? (s.pieceFault .refused) with
      | some t => s.failOp s.ev.x s.ev.y o t
      | none => .next (s.deliverLine s.ev.x s.ev.y o s.ev.z)

/-- An operation completes once its scratchpad lines are delivered: its other lines are written, its number is
complete. (DESIGN CHOICE, log 9) -/
def completeMem (s : State) (gather : Bool) : Out :=
  let n := s.ev.x
  match s.movingOp n s.ev.y with
  | none => .fault .noSuchEvent
  | some o =>
    if o.gather != gather || o.pieces.any (fun p => p.dkind == .scratch) || !o.pieces.all (s.pieceReady o) then
      .fault .noSuchEvent
    else if let some t := o.pieces.findSome? (s.pieceFault .refused) then s.failOp n s.ev.y o t
    else
      let s := ((o.pieces.map fun p => lineOf p.dst).eraseDups).foldl (fun s line =>
        match (s.core n).ops[s.ev.y]? with
        | none => s
        | some o => s.deliverLine n s.ev.y o line) s
      let bad := ((s.core n).ops[s.ev.y]?.map fun o => o.err).getD false
      let s := s.setCore n { s.core n with ops := (s.core n).ops.eraseIdx s.ev.y }
      let s := if bad then s.dataError o.ctx n o.tl o.num else s
      .next (s.complete o.ctx n o.tl o.num)

def execCopyComplete (s : State) : Out := completeMem s false
def execGatherComplete (s : State) : Out := completeMem s true

/-! ## Translation maintenance -/

/-- An invalidation starts. -/
def startInval (s : State) (sc : InvScope) : State :=
  { s with invals := s.invals ++ [{ warp := s.cur, scope := sc, before := none, untagged := false }] }

/-- A range of whole pages within the half `lo` to `hi`. -/
def pageRange (start len : Word) (lo hi : Nat) : Bool :=
  start.toNat % 4096 == 0 && len.toNat % 4096 == 0 && decide (lo ≤ start.toNat) && decide (start.toNat + len.toNat ≤ hi)

def tlbiOn (s : State) (ok : Warp → Option InvScope) : Out :=
  privileged s fun w =>
    match ok w with
    | none => .error Trap.operand
    | some sc => .ok (startInval s sc)

def execTlbiPg (f : FmtE) (s : State) : Out :=
  tlbiOn s fun w =>
    let c := (w.getS f.a).toNat
    if c ≤ 255 ∧ pageRange (w.getS f.b) (w.getS f.c) 0 (2 ^ 56) = true then some (.page c (w.getS f.b) (w.getS f.c).toNat)
    else none

def execTlbiCtx (f : FmtE) (s : State) : Out :=
  tlbiOn s fun w => let c := (w.getS f.a).toNat; if c ≤ 255 then some (.ctx c) else none

def execTlbiSr (f : FmtE) (s : State) : Out :=
  tlbiOn s fun w =>
    if pageRange (w.getS f.b) (w.getS f.c) (2 ^ 64 - 2 ^ 56) (2 ^ 64) then some (.sysRange (w.getS f.b) (w.getS f.c).toNat)
    else none

def execTlbiSys (_f : FmtE) (s : State) : Out := tlbiOn s fun _ => some .sysAll
def execTlbiAll (_f : FmtE) (s : State) : Out := tlbiOn s fun _ => some .all

/-- Whether a warp has an invalidation under way. -/
def State.invalidating (s : State) (k : Nat) : Bool := s.invals.any fun i => i.warp = k

def execTlbisync (_f : FmtE) (s : State) : Out :=
  privileged s fun w => .ok (if s.invalidating s.cur then s.setWarp s.cur { w with wait := .tlbisync } else s)

/-- Whether a leaf overlaps a range. -/
def Tlb.overlaps (t : Tlb) (start : Word) (len : Nat) : Bool :=
  decide (len ≠ 0) && decide (t.vbase < start.toNat + len) && decide (start.toNat < t.vbase + t.size)

/-- The leaves that a scope removes (R75). -/
def InvScope.takesLeaf (sc : InvScope) (t : Tlb) : Bool :=
  match sc with
  | .page c start len => (t.tag == some c || t.tag == none) && t.overlaps start len
  | .ctx c => t.tag == some c
  | .sysRange start len => t.tag == none && t.overlaps start len
  | .sysAll => t.tag == none
  | .all => true

/-- The table entries that a scope removes. -/
def InvScope.takesEntry (sc : InvScope) (e : Wce) : Bool :=
  match sc with
  | .page c _ _ | .ctx c => e.tag == some c
  | .sysRange _ _ | .sysAll => e.tag == none
  | .all => true

/-- The contexts whose accesses may use an entry that an invalidation removes: with an untagged entry among them, all. -/
def Inval.covers (i : Inval) (ctx : Nat) : Bool :=
  i.untagged || match i.scope with
    | .page c _ _ | .ctx c => c == ctx
    | _ => true

/-- The tokens of the translated accesses and commands that a warp holds. -/
def Warp.heldToks (w : Warp) : List Nat :=
  (w.held.filterMap fun h => match h with
    | .acc a => some a.tok
    | .cmd c | .overlap c _ => some c.tok
    | .mat .. | .wback _ => some 0
    | _ => none)
  ++ match w.wait with
      | .held a | .peer a => [a.tok]
      | .refused c => [c.tok]
      | .eval _ _ tok _ _ => [tok]
      | _ => []

/-- Whether an access that may have been translated through an entry before it was removed is not yet performed (R76,
R191): those whose instruction passed its checks earlier, in the contexts that the entries served; a refused or held command
keeps the token of its checks once its engine has it. (DESIGN CHOICE, log 69) -/
def State.translated (s : State) (i : Inval) (tok : Nat) : Bool :=
  let mine (k : Nat) : Bool := ((s.warp? k).map fun w => i.covers w.ctx).getD false
  (s.warps.any fun p => i.covers p.2.ctx && p.2.heldToks.any fun t => decide (t < tok))
  || (s.ordbuf.any fun o => decide (o.acc.tok < tok) && mine o.warp)
  || (s.rels.any fun r => decide (r.tok < tok) && mine r.warp)
  || (s.cores.any fun p => (p.2.ops.any fun o => decide (o.tok < tok) && i.covers o.ctx)
      || (p.2.cq.any fun e => decide (e.tok < tok) && i.covers e.ctx)
      || p.2.pq.any fun e => decide (e.tok < tok) && i.covers e.ctx)
  || (s.kiosks.any fun p => p.2.runs.any fun r => decide (r.tok < tok) && i.covers r.ctx)
  || s.colls.any fun c => c.remote.isNone && decide (c.tok < tok) && i.covers c.ctx

/-- Whether a scope removes an untagged leaf of the user half, by base and size (R75). -/
def InvScope.takesUntagged (sc : InvScope) (g : Nat × Nat) : Bool :=
  match sc with
  | .page _ start len | .sysRange start len => decide (len ≠ 0) && decide (g.1 < start.toNat + len) && decide (start.toNat < g.1 + g.2)
  | .ctx _ => false
  | .sysAll | .all => true

/-- Every cache without the entries of a scope; walks that have begun end with their results discarded. -/
def State.removeEntries (s : State) (sc : InvScope) (i : Inval) : State :=
  { s with cores := s.cores.map fun p => (p.1, { p.2 with tlb := p.2.tlb.filter fun t => !sc.takesLeaf t })
           quads := s.quads.map fun p => (p.1, { p.2 with tlb := p.2.tlb.filter fun t => !sc.takesLeaf t })
           gleaves := s.gleaves.filter fun g => !sc.takesUntagged g
           dies := s.dies.map fun p => (p.1, { p.2 with
             wcache := p.2.wcache.filter fun e => !sc.takesEntry e
             walks := p.2.walks.filter fun x => !(x.started && i.covers x.ctx) }) }

/-- An invalidation goes on: it removes its entries, and completes once every access that may have used one is performed; leaves that
an invalidation still under way has taken out count with those in the caches, since accesses through them may still be held
(R76). -/
def execInvalidationComplete (s : State) : Out :=
  match s.invals[s.ev.x]? with
  | none => .fault .noSuchEvent
  | some i =>
    match i.before with
    | none =>
      let leaves := s.gleaves ++ s.invals.flatMap Inval.gone
      let i := { i with before := some s.nextId, untagged := leaves.any i.scope.takesUntagged
                        gone := s.gleaves.filter i.scope.takesUntagged }
      let t := s.removeEntries i.scope i
      .next { t with invals :=
        if s.translated i s.nextId then s.invals.set s.ev.x i else s.invals.eraseIdx s.ev.x }
    | some b =>
      if s.translated i b then .fault .noSuchEvent else .next { s with invals := s.invals.eraseIdx s.ev.x }

/-! ## Asynchronous walks (R62, R70) -/

/-- A prefetch's walk ends with the misses attached to it: its leaf is cached and each line may enter L1, or its fault is
dropped (R70, R314). -/
def execWalkComplete (s : State) : Out :=
  let d := s.die s.ev.x
  match d.walks[s.ev.y]? with
  | none => .fault .noSuchEvent
  | some x =>
    if !x.started then .fault .noSuchEvent
    else
      let mine := d.walks.filter fun y => y.page == x.page
      let s := mine.foldl (fun s y =>
        let who : Who := { ctx := y.ctx, core := y.core, sys := true, cluster := 0, block := 0, grid := 0 }
        match translate s who .load y.va 1 with
        | .error _ => s
        | .ok (s, pa, k) =>
          if y.fill && (k == .cached || k == .cap) && !s.poison.contains (lineOf pa) then (s.loadBytes y.core false k pa 1).1
          else s) s
      let d := s.die s.ev.x
      .next (s.setDie s.ev.x { d with walks := d.walks.filter fun y => y.page != x.page })

/-- The first waiting walk of a die starts, under the root of that moment, with the misses attached to it (R49, R70). -/
def execWalkQueuedStart (s : State) : Out :=
  let d := s.die s.ev.x
  match d.walks.find? fun x => !x.started with
  | none => .fault .noSuchEvent
  | some x =>
    if 512 ≤ d.running then .fault .noSuchEvent
    else
      .next (s.setDie s.ev.x { d with walks := d.walks.map fun y =>
        if y.page == x.page then { y with started := true, root := s.rootOf x.ctx x.va.toNat } else y })

/-! ## Barriers -/

/-- A release that answers in a register of its fixed class, kept until what precedes it is performed: the warp goes on, and the
register is interlocked (R158). -/
def State.keepFixed (s : State) (w : Warp) (d : BitVec 6) (op : RelOp) : State :=
  let t := s.token
  { t.2.setWarp s.cur (w.oweFixed t.1 d.toNat) with rels := s.rels ++ [{ warp := s.cur, tok := t.1, op := op }] }

/-- bar.arrive: a release (R322), kept while ordered lanes or releases of its warp precede it (R158). -/
def execBarArrive (f : FmtE) (s : State) : Out :=
  attempt s fun w =>
    if w.det then
      .ok (s.setWarp s.cur { w with
        held := w.held ++ [.barArrive false f.q.toNat f.imm20.toNat f.d.toNat w.ipc], qend := true })
    else if s.unperformed s.cur then .ok (s.keepFixed w f.d (.arrive f.q.toNat f.imm20.toNat f.d.toNat w.ipc))
    else match s.barArrive s.cur w f.q.toNat f.imm20.toNat with
      | .error t => .error t
      | .ok (s, ph) => .ok (s.setWarp s.cur (w.setS f.d ph))

/-- The wait for a phase: satisfied, it acquires at quad scope. -/
def barWaitOn (s : State) (k : Nat) (w : Warp) (b : Nat) (ph : Word) : State :=
  if ph < s.barPhase w b then (s.setWarp k { w with wait := .run }).discardL1 w.core
  else s.setWarp k { w with wait := .bar b ph }

def execBarWait (f : FmtE) (s : State) : Out :=
  attempt s fun w => .ok (barWaitOn s s.cur { w with qend := w.det || w.qend } f.q.toNat (w.getS f.a))

def execBarSync (f : FmtE) (s : State) : Out :=
  attempt s fun w =>
    if w.det then
      .ok (s.setWarp s.cur { w with
        held := w.held ++ [.barArrive true f.q.toNat f.imm20.toNat f.d.toNat w.ipc], qend := true })
    else match s.barArrive s.cur w f.q.toNat f.imm20.toNat with
      | .error t => .error t
      | .ok (s, ph) => .ok (barWaitOn s s.cur (w.setS f.d ph) f.q.toNat ph)

/-! ## Collectives -/

/-- A descriptor's command, its ranges not yet translated (R325). -/
def parseColl (w : Warp) (b : List Byte) : CollCmd :=
  { ctx := w.ctx, warp := 0, tok := 0, core := w.core, num := 0, seqNo := 0, op := fieldB b 0x14 1
    fmt := (DT.ofCode (BitVec.ofNat 4 (fieldB b 0x15 1))).getD .b32, rnd := fieldB b 0x16 1, count := fieldB b 0x10 4
    npart := fieldB b 0x18 4, rank := fieldB b 0x1C 4, root := fieldB b 0x20 4, group := BitVec.ofNat 64 (fieldB b 0x28 8)
    sq := BitVec.ofNat 64 (fieldB b 0x30 8), src := [], srcVa := BitVec.ofNat 64 (fieldB b 0 8), dst := []
    dstVa := BitVec.ofNat 64 (fieldB b 8 8), dead := [], remote := none }

def CollCmd.elem (c : CollCmd) : Nat := c.fmt.width / 8
/-- Whether this rank has a source, and a destination. -/
def CollCmd.reads (c : CollCmd) : Bool := c.op != 2 || c.rank == c.root
def CollCmd.writes (c : CollCmd) : Bool := c.op != 1 || c.rank == c.root
def CollCmd.srcLen (c : CollCmd) : Nat := if c.srcVa = 0 then 0 else c.count * c.elem
def CollCmd.dstLen (c : CollCmd) : Nat := if c.dstVa = 0 then 0 else (if c.op = 3 then c.npart else 1) * c.count * c.elem

/-- The limits of R325. -/
def collOk (c : CollCmd) (b : List Byte) : Bool :=
  let fmt := DT.ofCode (BitVec.ofNat 4 (fieldB b 0x15 1))
  let zero (o n : Nat) : Bool := (countFrom 0 n).all fun i => fieldB b (o + i) 1 == 0
  decide (1 ≤ c.count) && decide (c.count ≤ 2 ^ 26) && decide (c.op ≤ 3) && decide (fieldB b 0x15 1 < 16)
  && (fmt == some .f32 || fmt == some .f16 || fmt == some .bf16 || (decide (2 ≤ c.op) && fmt == some .b32))
  && (if c.op ≤ 1 then decide (c.rnd ≤ 4) else c.rnd == 0)
  && zero 0x17 1 && decide (2 ≤ c.npart) && decide (c.npart ≤ 65536) && decide (c.rank < c.npart)
  && (if c.op = 1 ∨ c.op = 2 then decide (c.root < c.npart) else c.root == 0)
  && zero 0x24 4 && c.group != 0 && zero 0x38 72
  && c.srcVa.toNat % c.elem == 0 && c.dstVa.toNat % c.elem == 0
  && (c.srcVa != 0) == c.reads && (c.dstVa != 0) == c.writes

/-- A page of a collective's range (R326). -/
def collPlace (wh : Who) (need : Need) (s : State) (va : Word) (len : Nat) : Except WFault Place :=
  match resolve s wh need va len false with
  | .error f => .error f
  | .ok (s, pa, k) =>
    match vclass va with
    | .user | .sysHalf => if k = .cached ∨ k = .cap then .ok (s, pa, k) else .error (Cause.windowPermission, 0)
    | .scratchWin => if winOff va / 2 ^ 30 = wh.core % 4 then .ok (s, pa, k) else .error (Cause.windowPermission, 0)
    | _ => .error (Cause.windowPermission, 0)

/-- The range of one side, none where its address is 0. -/
def collRange (s : State) (wh : Who) (need : Need) (va : Word) (len : Nat) : Except Halt (State × List Xlat) :=
  if len = 0 then .ok (s, [])
  else match placedRange s wh va len (collPlace wh need) with
    | .error f => .error (.trap (f.1.trap false 0 va))
    | .ok r => .ok r

def execColl (f : FmtE) (s : State) : Out :=
  attemptH s fun w =>
    match readIssue s w (w.getS f.a) 128 128 with
    | .error h => .error h
    | .ok (s, b) =>
      let c := parseColl w b
      if !collOk c b then .error (.trap Trap.operand)
      else match collRange s w.who .load c.srcVa c.srcLen with
        | .error h => .error h
        | .ok (s, src) =>
          match collRange s w.who .store c.dstVa c.dstLen with
          | .error h => .error h
          | .ok (s, dst) =>
            let same := decide (c.op ≤ 1) && c.srcVa == c.dstVa
            if decide (c.srcLen ≠ 0) && decide (c.dstLen ≠ 0) && !same
                && (Rng.flat c.srcVa c.srcLen).meets (Rng.flat c.dstVa c.dstLen) then
              .error (.trap { cause := Cause.copyOverlap, faddr := c.dstVa })
            else submit s ((s.warp? s.cur).getD w) (.coll { c with src := src, dst := dst }) f.d

/-- The commands of one collective. -/
def State.collOf (s : State) (group sq : Word) : List CollCmd := s.colls.filter fun c => c.group = group && c.sq = sq

/-- Whether commands agree, each rank once. -/
def collAgree (l : List CollCmd) : Bool :=
  match l with
  | [] => true
  | a :: _ =>
    (l.all fun c => c.op == a.op && c.fmt == a.fmt && c.rnd == a.rnd && c.count == a.count && c.npart == a.npart
      && c.root == a.root) && (l.map fun c => c.rank).Nodup

/-- At least as many commands as the first one's ranks have issued: the collective runs, those of another collective under
its GROUP and SEQ matched as part of it. (DESIGN CHOICE, log 35) -/
def execCollectiveMatch (s : State) : Out :=
  let l := s.collOf s.ev.v s.ev.g
  match l with
  | [] => .fault .noSuchEvent
  | a :: _ =>
    if a.npart ≤ l.length ∧ s.matched.contains (s.ev.v, s.ev.g) = false then
      .next { s with matched := s.matched ++ [(s.ev.v, s.ev.g)] }
    else .fault .noSuchEvent

/-- Elements of a source: codes, an uncorrectable one replaced by zero, and whether it was. -/
def collElems (size : Nat) : Nat → List (Byte × Bool) → List (Nat × Bool)
  | 0, _ => []
  | n + 1, b =>
    let h := b.take size
    let bad := h.any Prod.snd
    (if bad then 0 else bytesNat (h.map Prod.fst), bad) :: collElems size n (b.drop size)

/-- The sum of one element over the ranks' terms (R257, R258). (DESIGN CHOICE, log 17) -/
def collSum (c : CollCmd) (terms : List Nat) : Nat :=
  let m := RMode.ofSlot c.rnd
  narrow (fmtOf c.fmt) { mode := m, sat := false, u := 0 } (sumF (decide (m = .rdn)) (terms.map (decodeF (fmtOf c.fmt))))

/-- What a participant's destination receives, from every rank's elements in ascending rank. -/
def collResult (c : CollCmd) (srcs : List (Nat × List (Nat × Bool))) : List (Nat × Bool) :=
  let at' (r e : Nat) : Nat × Bool := (((srcs.find? fun x => x.1 = r).map Prod.snd).getD []).getD e (0, false)
  let es := countFrom 0 c.count
  match c.op with
  | 0 | 1 => es.map fun e => let t := (countFrom 0 c.npart).map fun r => at' r e; (collSum c (t.map Prod.fst), t.any Prod.snd)
  | 2 => es.map fun e => at' c.root e
  | _ => (countFrom 0 c.npart).flatMap fun r => es.map fun e => at' r e

/-- One participant's destination written; scratchpad lines of replaced elements are marked. -/
def collWrite (s : State) (srcs : List (Nat × List (Nat × Bool))) (c : CollCmd) : State :=
  if c.dst.isEmpty then s
  else
    let r := collResult c srcs
    let s := engineWrite s c.ctx c.dst (r.flatMap fun x => natBytes c.elem x.1)
    (countFrom 0 r.length).foldl (fun s i =>
      if (r.getD i (0, false)).2 then
        let p := xlatAt c.dst (c.dstVa + BitVec.ofNat 64 (i * c.elem))
        if p.2 = .scratch then s.markLine p.1 else s
      else s) s

/-- A participant's number completes. -/
def collDone (bad : Bool) (s : State) (c : CollCmd) : State :=
  if c.remote.isSome then s
  else
    let s := c.counted.foldl State.lineDown s
    let s := if bad then s.dataError c.ctx c.core 9 c.num else s
    s.complete c.ctx c.core 9 c.num

/-- The bytes of a participant's source, each with whether it met an error. -/
def collSource (s : State) (c : CollCmd) : List (Byte × Bool) :=
  match c.remote with
  | some b => b.map fun x => (x, false)
  | none => if c.src.isEmpty then [] else engineRead s c.src

/-- The command of a participant on another device joins (R326). (DESIGN CHOICE, log 35) -/
def State.collArrive (s : State) (c : CollCmd) (src : List Byte) : State :=
  { s with colls := s.colls ++ [{ c with ctx := 256, src := [], dst := [], dead := [], remote := some src, seqNo := s.seq }]
           seq := s.seq + 1 }

/-- The collective's results written everywhere and every participant's number complete; commands that disagree write
nothing and complete with a data error (R326). -/
def execCollectiveComplete (s : State) : Out :=
  let l := s.collOf s.ev.v s.ev.g
  if !s.matched.contains (s.ev.v, s.ev.g) || l.isEmpty || !(l.all fun c => c.remote.isSome || (s.advances c.ctx .collective && !s.gated c.warp c.tok && !s.owedIn c.seqNo c.src)) then
    .fault .noSuchEvent
  else
    let srcs := l.map fun c => (c.rank, collElems c.elem c.count (collSource s c))
    let agree := collAgree l
    let bad := !agree || srcs.any fun x => x.2.any Prod.snd
    let t : State := if agree then l.foldl (fun s c => collWrite s srcs c) s else s
    let t := l.foldl (collDone bad) t
    .next { t with colls := t.colls.filter fun c => !(c.group = s.ev.v && c.sq = s.ev.g)
                   matched := t.matched.filter fun x => x ≠ (s.ev.v, s.ev.g) }

end Sys2Proof.Machine
end

