-- ==== Sys2Proof/Machine/Scheduling.lean ====
section
/-! DEFINITION. Child grids, phases, migration points, task deques, cancel tables, ginst and yield (R419, R421, R422, R431
to R444). -/

namespace Sys2Proof.Machine

open Sys2Proof

/-! ## Child grids (R438, R439) -/

def Warp.depth (s : State) (w : Warp) : Nat := ((w.grid? s).map fun g => g.depth).getD 0

def Warp.recd (s : State) (w : Warp) : Option LaunchRec := (w.grid? s).map fun g => g.recd

/-- The end of a deterministic quantum. -/
def Warp.endQuantum (w : Warp) : Warp := { w with qend := w.det || w.qend }

/-- A launch is a release at device scope (R438): it is kept while ordered lanes or releases of its warp precede it (R158). -/
def State.keepLaunch (s : State) (w : Warp) (r : LaunchRec) (d : BitVec 6) : State :=
  let t := s.token
  let c : Cmd := { body := .glaunch r, d := d.toNat, ipc := w.ipc, tok := t.1 }
  { t.2.setWarp s.cur (w.oweB t.1 false []) with rels := s.rels ++ [{ warp := s.cur, tok := t.1, op := .cmd c }] }

def execGlaunch (f : FmtE) (s : State) : Out :=
  attemptH s fun w =>
    match readIssue s w (w.getS f.a) 128 128 with
    | .error h => .error h
    | .ok (s, b) =>
      if !recordOk b then .error (.trap { cause := Cause.launchRecord })
      else if 10 ≤ w.depth s then .error (.trap { cause := Cause.launchDepth })
      else if w.wid ≠ 0 then .error (.trap { cause := Cause.launchLeader })
      else
        let w := ((s.warp? s.cur).getD w).endQuantum
        if !w.det && s.unperformed s.cur then .ok (s.keepLaunch w (parseRecord b) f.d)
        else submit s w (.glaunch (parseRecord b)) f.d

/-- Whether a grid instance of a context has retired. -/
def State.instRetired (s : State) (ctx inst : Nat) : Bool :=
  s.grids.any fun p => p.2.ctx == ctx && p.2.inst == inst && p.2.retired

/-- A wait for a grid: satisfied, it acquires at device scope. -/
def gwaitOn (s : State) (k : Nat) (w : Warp) (inst : Nat) : State :=
  if s.instRetired w.ctx inst then (s.setWarp k { w with wait := .run }).discardL1 w.core
  else s.setWarp k { w with wait := .gwait inst }

def execGwait (f : FmtE) (s : State) : Out :=
  attempt s fun w =>
    let v := w.getS f.a
    if v.extractLsb' 32 32 ≠ 0 ∨ v = 0 ∨ (s.ctx w.ctx).grids < v.toNat then .error .operand
    else .ok (gwaitOn s s.cur w.endQuantum v.toNat)

/-! ## Phases (R421, R422) -/

/-- Position of a warp among the warps of its block on its core, in ascending wid. -/
def recordIndex (s : State) (w : Warp) : Nat :=
  (s.warps.filter fun p => p.2.block == w.block && p.2.core == w.core && decide (p.2.wid < w.wid)).length

/-- Offset of a warp's phase record in its block's slot. -/
def recordOff (s : State) (w : Warp) (r : LaunchRec) : Nat :=
  r.scratch * 1024 - (recordIndex s w + 1) * r.carry * 128

/-- Physical address of a warp's phase record. -/
def recordPa (s : State) (w : Warp) (r : LaunchRec) : Nat :=
  spAlias w.core + ((w.block? s).bind fun b => assocGet b.sbase w.core).getD 0 + recordOff s w r

/-- The record as a warp's stores name it: in its own scratchpad slot. -/
def recordRng (s : State) (w : Warp) (r : LaunchRec) : Rng :=
  Rng.flat (0x00FFFFFC00000000 + BitVec.ofNat 64 (w.core % 4 * 2 ^ 30 + recordOff s w r)) (r.carry * 128)

/-- The lines of a record that are absent. -/
def recordAbsent (s : State) (w : Warp) (r : LaunchRec) : List Nat :=
  ((countFrom 0 r.carry).map fun p => recordPa s w r + p * 128).filter fun pa => s.absentAt pa != 0

/-- The effect of phend on a warp whose results have arrived: the record is written, nodes and quota are freed, the
warp is phase-waiting. -/
def State.phaseEnd (s : State) (k : Nat) (w : Warp) (r : LaunchRec) : State :=
  let pa := recordPa s w r
  let w := w.holdResults
  let s := (countFrom 0 r.carry).foldl (fun s p =>
    { s with mem := memWriteN s.mem (pa + p * 128) (lanesBytes (w.vAt p))
             poison := s.poison.filter fun l => l != lineOf (pa + p * 128) }) s
  let perg := w.perg.freeAll (w.perg.nodes.map fun n => n.idx)
  (s.setWarp k
    { w with perg := perg, tmode := .init, status := .phaseWait, clause := .init, wait := .run, qend := false }).phaseCheck w.block

/-- phend: in a phased block, at the first call's window; at the commit in a deterministic launch (R430). -/
def execPhend (_f : FmtE) (s : State) : Out :=
  attemptH s fun w =>
    match w.recd s with
    | none => .error (.trap .operand)
    | some r =>
      if !r.phased || w.winbase ≠ 0 then .error (.trap .operand)
      else if w.det then .ok (s.setWarp s.cur { w with held := w.held ++ [.phend], qend := true })
      else if !w.allReady then .error (.wait .results)
      else match guardIssue s w [recordRng s w r] with
        | .error h => .error h
        | .ok s =>
          let l := recordAbsent s w r
          if l.isEmpty then .ok (s.phaseEnd s.cur ((s.warp? s.cur).getD w) r) else .error (.wait (.present l 0 true))

/-! ## Migration points (R441) -/

def execMigpt (_f : FmtE) (s : State) : Out :=
  onWarp s fun w =>
    let w := w.endQuantum
    if ((w.recd s).map fun r => r.persist).getD false && (s.core w.core).migreq then { w with wait := .migpt } else w

/-! ## Task deques (R431 to R433, R442) -/

/-- The instance field of an entry. -/
def entryInst (e : Word) : Nat := (e.extractLsb' 40 24).toNat

/-- Whether the deque named is granted to a warp's context. -/
def State.ownsDeque (s : State) (w : Warp) (q : Nat) : Bool :=
  let g := tgetD (s.quad (quadOf w.core)).tqcfg q 0
  g.getLsbD 8 && (g.extractLsb' 0 8).toNat == w.ctx

/-- A deque's entries, bottom first. -/
def State.deque (s : State) (quad q : Nat) : List Word := tgetD (s.quad quad).deques q []
def State.setDeque (s : State) (quad q : Nat) (l : List Word) : State :=
  let x := s.quad quad
  s.setQuad quad { x with deques := if l.isEmpty then tdel x.deques q else tset x.deques q l }

/-- The first entry that is not cancelled, and what is left behind it. -/
def takeEntry (cancels : List Nat) : List Word → Option Word × List Word
  | [] => (none, [])
  | e :: r => if cancels.contains (entryInst e) then takeEntry cancels r else (some e, r)

/-- A pop from the bottom, or a steal from the top. -/
def State.popDeque (s : State) (ctx quad q : Nat) (steal : Bool) : State × Option Word :=
  let l := s.deque quad q
  let c := (s.ctx ctx).cancels
  if steal then
    let r := takeEntry c l.reverse
    (s.setDeque quad q r.2.reverse, r.1)
  else
    let r := takeEntry c l
    (s.setDeque quad q r.2, r.1)

/-- A push at the bottom: 1, or 0 where the deque is full. -/
def State.pushDeque (s : State) (quad q : Nat) (e : Word) : State × Word :=
  let l := s.deque quad q
  if 256 ≤ l.length then (s, 0) else (s.setDeque quad q (e :: l), 1)

/-- The order of R433 within a kind: ascending logical core, then ascending wid. -/
def coreWidLt (c w c' w' : Nat) : Bool := decide (c < c') || (c == c' && decide (w < w'))

/-- A push of warp `k`: it takes its place among the pushes that the deque applies in the same cycle, and of those that
find no room the later ones write 0 (R433, R442). -/
def State.pushInCycle (s : State) (k : Nat) (w : Warp) (q : Nat) (e : Word) (d : BitVec 6) : State :=
  let u := quadOf w.core
  let x := s.quad u
  let later (p : Push) : Bool := p.q == q && coreWidLt w.core w.wid p.core p.wid
  let n := (x.pushes.filter later).length
  let l := s.deque u q
  let mine : Push := { q := q, core := w.core, wid := w.wid, warp := k, d := d.toNat }
  let put (s : State) (l : List Word) (r : List Push) : State :=
    (s.setQuad u { s.quad u with pushes := mine :: r }).setDeque u q l
  if l.length < 256 then (put s (l.take n ++ [e] ++ l.drop n) x.pushes).setWarp k (w.setS d 1)
  else
    -- of the later pushes of the cycle, the last loses its place
    match x.pushes.find? fun p => later p && x.pushes.all fun r => r == p || r.q != q || coreWidLt r.core r.wid p.core p.wid with
    | none => s.setWarp k (w.setS d 0)
    | some p =>
      let s := (put s (l.tail.take (n - 1) ++ [e] ++ l.tail.drop (n - 1)) (x.pushes.filter fun r => r != p)).setWarp k (w.setS d 1)
      match s.warp? p.warp with
      | none => s
      | some y => s.setWarp p.warp (y.setS (BitVec.ofNat 6 p.d) 0)

/-- tqpush: a release (R433), kept while ordered lanes or releases of its warp precede it (R158). -/
def execTqpush (f : FmtE) (s : State) : Out :=
  attempt s fun w =>
    let v := w.getS f.a
    if !s.ownsDeque w f.q.toNat then .error { cause := Cause.queueAccess }
    else if entryInst v = 0 then .error .operand
    else if w.det then
      .ok (s.setWarp s.cur { w with held := w.held ++ [.tqpush f.q.toNat v f.d.toNat], qend := true })
    else if s.unperformed s.cur then .ok (s.keepFixed w f.d (.push f.q.toNat v f.d.toNat))
    else .ok (s.pushInCycle s.cur w f.q.toNat v f.d)

/-- Kinds of a pop: 0 waits while the deque is empty, 1 and 2 answer 0 at once, 2 takes from the top. -/
def popNow (s : State) (k : Nat) (w : Warp) (kind q d tok : Nat) : State :=
  let r := s.popDeque w.ctx (quadOf w.core) q (kind == 2)
  match r.2 with
  | some e => (r.1.setWarp k { (w.fill tok [.s d e]) with wait := .run }).discardL1 w.core
  | none =>
    if kind = 0 then r.1.setWarp k { w with wait := .tqpop kind q d tok }
    else r.1.setWarp k { (w.fill tok [.s d 0]) with wait := .run }

/-- A warp that pops from or steals of a deque put in its place among those of the cycle: pops before steals, each kind in the
order of R433. -/
def insertPop (p : Nat × Warp) : List (Nat × Warp) → List (Nat × Warp)
  | [] => [p]
  | x :: r =>
    let steal (y : Nat × Warp) : Bool := match y.2.wait with | .tqpop 2 .. => true | _ => false
    let before := (!steal p && steal x) || (steal p == steal x && coreWidLt p.2.core p.2.wid x.2.core x.2.wid)
    if before then p :: x :: r else x :: insertPop p r

/-- The pops and steals of a cycle, after its pushes (R433); those of a deterministic launch wait for the commit. -/
def State.popsOfCycle (s : State) : State :=
  let l := (s.warps.filter fun p => p.2.status == .live && !p.2.det && (s.quad (quadOf p.2.core)).qvf.ticks
    && match p.2.wait with | .tqpop .. => true | _ => false).foldl (fun l p => insertPop p l) []
  l.foldl (fun s p => match s.warp? p.1 with
    | some w => (match w.wait with | .tqpop kind q d tok => popNow s p.1 w kind q d tok | _ => s)
    | none => s) s

/-- A copy that waits for the advances of its cycle: it faults if its destination still meets that of an incomplete copy, and
otherwise issues again; one at which a commit holds faults or is tried again when the commit goes on (R188). -/
def State.overlapCheck (s : State) (k : Nat) : State :=
  match s.warp? k with
  | none => s
  | some w =>
    match w.wait with
    | .overlap q dst =>
      if copyClash (s.core w.core) w.ctx q dst then s.trap k { w with wait := .run } (overlapTrap dst) .fault
      else s.setWarp k { w with wait := .run }
    | _ =>
      match w.held with
      | .overlap c false :: r =>
        s.setWarp k { w with held := (if (clashOf s w c.body).isSome then HeldOp.overlap c true else .cmd c) :: r }
      | _ => s

/-- The overlap checks of the cores whose cycle ends; a commit may hold at an entry of a parked warp too. -/
def State.overlapsOfCycle (s : State) : State :=
  ((s.warps.filter fun p => (p.2.status == .live || p.2.status == .parked)
    && (s.quad (quadOf p.2.core)).qvf.ticks).map Prod.fst).foldl State.overlapCheck s

/-- A cycle ends: its pops and steals are applied, its overlap checks are made, and the next begins. -/
def State.cycle (s : State) : State := s.popsOfCycle.overlapsOfCycle.endCycle

/-- A pop or steal, which its deque applies after the pushes of its cycle; in a deterministic launch it is evaluated after the
commit (R173, R433). -/
def popInstr (kind : Nat) (f : FmtE) (s : State) : Out :=
  attempt s fun w =>
    if !s.ownsDeque w f.q.toNat then .error { cause := Cause.queueAccess }
    else
      let t := s.token
      let w := (w.oweB t.1 false []).endQuantum
      .ok (t.2.setWarp s.cur { w with wait := .tqpop kind f.q.toNat f.d.toNat t.1 })

def execTqpop (f : FmtE) (s : State) : Out := popInstr 0 f s
def execTqpopNw (f : FmtE) (s : State) : Out := popInstr 1 f s
def execTqsteal (f : FmtE) (s : State) : Out := popInstr 2 f s

/-! ## Cancel tables (R432, R443) -/

/-- A cancel table with one change applied. -/
def cancelApply (l : List Nat) (clr : Bool) (inst : Nat) : List Nat :=
  if clr then l.filter fun x => x != inst else if l.contains inst then l else l ++ [inst]

/-- The table as the cancels begun before will leave it. -/
def Ctx.cancelTable (x : Ctx) : List Nat := x.pendCancel.foldl (fun l p => cancelApply l p.2.1 p.2.2) x.cancels

/-- A cancel begins and holds its warp, or finds the table full. (DEDUCED, log 47) -/
def cancelStart (s : State) (k : Nat) (w : Warp) (clr : Bool) (inst : Nat) : Except Trap State :=
  let x := s.ctx w.ctx
  let t := x.cancelTable
  if !clr && !t.contains inst && decide (16 ≤ t.length) then .error { cause := Cause.cancelFull }
  else .ok ((s.setCtx w.ctx { x with pendCancel := x.pendCancel ++ [(k, clr, inst)] }).setWarp k
    { w with wait := .cancel clr inst })

/-- cancel: the table is checked when it executes; in a deterministic launch it is performed at the commit. -/
def cancelInstr (clr : Bool) (f : FmtE) (s : State) : Out :=
  attempt s fun w =>
    let v := w.getS f.a
    if v.extractLsb' 24 40 ≠ 0 ∨ v = 0 then .error .operand
    else match cancelStart s s.cur w clr v.toNat with
      | .error t => .error t
      | .ok t =>
        .ok (if w.det then s.setWarp s.cur { w with held := w.held ++ [.cancel clr v.toNat w.ipc], qend := true } else t)

def execCancel (f : FmtE) (s : State) : Out := cancelInstr false f s
def execCancelClr (f : FmtE) (s : State) : Out := cancelInstr true f s

/-- Every deque applies the oldest cancel of a context, and its warp continues. -/
def execCancelComplete (s : State) : Out :=
  let x := s.ctx s.ev.x
  match x.pendCancel with
  | [] => .fault .noSuchEvent
  | (k, clr, inst) :: r =>
    let s := s.setCtx s.ev.x { x with cancels := cancelApply x.cancels clr inst, pendCancel := r }
    match s.warp? k with
    | some w =>
      .next (if w.wait = .cancel clr inst then s.setWarp k { w with wait := .run } else s)
    | none => .next s

/-! ## ginst and yield (R444) -/

/-- The word of ginst. -/
def ginstWord (s : State) (w : Warp) : Word :=
  match w.grid? s with
  | none => 0
  | some g =>
    let phase := if g.recd.phased then ((w.block? s).map fun b => b.phase).getD 0 else 0
    BitVec.ofNat 24 phase ++ BitVec.ofNat 4 w.role ++ BitVec.ofNat 4 g.depth ++ BitVec.ofNat 32 g.inst

def execGinst (f : FmtE) (s : State) : Out :=
  attempt s fun w =>
    let t := s.token
    .ok (t.2.setWarp s.cur (w.oweB t.1 true [.s f.d.toNat (ginstWord s w)]))

def execYield (_f : FmtE) (s : State) : Out := onWarp s fun w => { w with wait := .yield }

/-- A yield ends after 64 cycles, or once no other warp of its core is ready. -/
def execYieldExpire (s : State) : Out :=
  onEventWarp s fun k w =>
    let others := s.warps.any fun p => p.1 != k && p.2.core == w.core && p.2.ready && !s.barred p.1 p.2
    if w.wait = .yield ∧ w.status = .live ∧ (64 ≤ s.clock.toNat - w.stamp / 16 ∨ others = false) then
      .next (s.setWarp k { w with wait := .run })
    else .fault .noSuchEvent

end Sys2Proof.Machine
end

