-- ==== Sys2Proof/Machine/Tiles.lean ====
section
/-! DEFINITION. Pergola instructions: creation of nodes with its checks (R366 to R373, R388), overflow (R379), demand and
its completion (R389, R390, R380, R381), tsnap, tmode, tdrop, tquery (R391 to R394). -/

namespace Sys2Proof.Machine

open Sys2Proof

/-! ## Descriptors (R366 to R371) -/

/-- A descriptor's fields; `fmt` is its DT code. -/
def parseNode (b : List Byte) : NodeDesc :=
  let w (o : Nat) : Word := BitVec.ofNat 64 (fieldB b o 8)
  { haddr := w 0, hstr := fieldB b 8 4, rows := fieldB b 0xC 2, cols := fieldB b 0xE 2
    fmt := (DT.ofCode (BitVec.ofNat 4 (fieldB b 0x10 1))).getD .b32, op := fieldB b 0x11 1, qdir := bitN (fieldB b 0x12 1) 0
    padv := BitVec.ofNat 32 (fieldB b 0x14 4), saddr := w 0x18, waddr := w 0x20, klen := fieldB b 0x28 4
    maps := [w 0x30, w 0x38, w 0x40] }

/-- How many inputs a kind has under its OP; none where the OP is none of the kind's. -/
def inputCount (k : NodeKind) (op : Nat) : Option Nat :=
  match k with
  | .leaf => if op = 0 then some 0 else none
  | .contract => if op = 0 then some 2 else if op ≤ 3 then some 3 else none
  | .ewise => if op ≤ 4 then some 2 else if 8 ≤ op ∧ op ≤ 15 then some 1 else none
  | .rowred => if op ≤ 1 then some 1 else none
  | .map => if op = 0 then some 1 else none
  | .cast => if op ≤ 2 then some 1 else none

/-- An index map's limits (R369). -/
def mapOk (m : Word) : Bool :=
  m.extractLsb' 8 24 == 0 && (countFrom 0 4).all fun i => fieldN m.toNat (2 * i) 2 != 2

/-- Whether a pad value is exact in a format. -/
def padExact (t : DT) (v : W32) : Bool :=
  let x := decodeF (fmtOf .f32) v.toNat
  narrow (fmtOf .f32) rne (valueOf t (narrow (fmtOf t) rne x)) == v.toNat

/-- Strided lines of a node's memory: one may have stride 0. -/
def NodeDesc.oneLine (d : NodeDesc) : Bool := d.home.rows == 1

/-- The limits of a descriptor that need no input. -/
def descOk (k : NodeKind) (b : List Byte) : Bool :=
  let d := parseNode b
  let leaf := k == .leaf
  let zero (o n : Nat) : Bool := (countFrom o n).all fun i => fieldB b i 1 == 0
  let fmts : List DT := [.f32, .f16, .bf16, .e4m3, .e5m2]
  let dim (n : Nat) : Bool := decide (1 ≤ n) && decide (n ≤ 8192)
  decide (fieldB b 0x10 1 < 16) && (fmts.contains d.fmt || (leaf && d.fmt == .q4))
  && dim d.rows && dim d.cols
  && d.hstr % elemSize d.fmt == 0 && (d.hstr != 0 || d.oneLine)
  && decide (fieldB b 0x12 1 ≤ 1) && (!d.qdir || (leaf && d.fmt == .q4))
  && (d.fmt != .q4 || (if d.qdir then d.rows % 32 == 0 else d.cols % 32 == 0))
  && zero 0x13 1 && zero 0x2C 4 && zero 0x48 56
  && (if k = .map then padExact d.fmt d.padv else d.padv == 0)
  && (match k with
      | .contract => true
      | .cast => d.waddr == 0 && (d.saddr == 0) == (d.op == 0)
      | _ => d.saddr == 0 && d.waddr == 0)
  && (if k = .contract ∨ k = .rowred then decide (1 ≤ d.klen) && decide (d.klen ≤ 65536) else d.klen == 0)
  && (k != .rowred || d.cols == 1)
  && (match inputCount k d.op with
      | none => false
      | some n => (countFrom 0 3).all fun e => if e < n then mapOk (d.edgeMap e) else d.edgeMap e == 0)

/-- Whether a piece of a node's memory lies where R367 lets it. -/
def nodePlace (s : State) (wh : Who) (leaf : Bool) (va : Word) (len : Nat) : Option (BitVec 8) :=
  match vclass va with
  | .user | .sysHalf => none
  | c =>
    match windowPlace s wh (if leaf then .load else .store) va len with
    | .error e => some e
    | .ok _ =>
      match c with
      | .scratchWin => if winOff va / 2 ^ 30 = wh.core % 4 then none else some Cause.windowPermission
      | .accWin => none
      | .weightWin => if leaf then none else some Cause.windowPermission
      | _ => some Cause.windowPermission

/-- The checks of R19 and the alignment check over a node's memory, row by row (R367). -/
def placeFault (s : State) (wh : Who) (leaf : Bool) (size : Nat) (r : Rng) : Option Trap :=
  (countFrom 0 r.rows).findSome? fun i =>
    let va := r.base + BitVec.ofNat 64 (i * r.stride)
    let at' (c : BitVec 8) : Trap := { cause := c, faddr := va }
    match classCheck wh.sys va r.row with
    | .error c => some (at' c)
    | .ok _ =>
      match (pagesOf (r.row / 4096 + 2) va r.row).findSome? fun p => nodePlace s wh leaf p.1 p.2 with
      | some c => some (at' c)
      | none => if va.toNat % size ≠ 0 then some (at' Cause.alignment) else none

/-! ## Checks that need the inputs (R370, R372) -/

/-- Whether the image of a whole edge lies in its input. -/
def edgeFits (k : NodeKind) (d : NodeDesc) (e : Nat) (m : Node) : Bool :=
  let x := boundMap (d.edgeMap e) (edgeDom k d e d.whole)
  decide (0 ≤ x.a0) && decide (x.a1 < m.desc.rows) && decide (0 ≤ x.b0) && decide (x.b1 < m.desc.cols)

/-- The cause for which a CONTRACT is refused at creation. -/
def contractFault (w : Warp) (d : NodeDesc) (ins : List Node) : Option (BitVec 8) :=
  match ins with
  | a :: b :: rest =>
    let takes (m : Node) : Bool := [DT.bf16, .f16, .e4m3, .e5m2].contains m.desc.fmt
    let q4 (m : Node) (dir : Bool) : Bool := m.desc.fmt == .q4 && m.isLeaf && m.desc.qdir == dir
    let fmts := [a.desc.fmt, b.desc.fmt] ++ (if d.op = 1 ∨ d.op = 2 then rest.map fun m => m.desc.fmt else [])
    if !(takes a || q4 a false) || !(takes b || q4 b true) || !rest.all takes then some Cause.shape
    else if !depthOk (bandCount w.ashape) (factorOf fmts) d.klen (a.desc.fmt == .q4 || b.desc.fmt == .q4) then some Cause.shape
    else if w.tmode.ltiles = 0 ∨ w.tmode.lset = false ∨ (a.desc.fmt = .q4 ∧ d.saddr ≠ 0) then some Cause.illegalOperand
    else none
  | _ => none

/-- What a creation refuses once its inputs are known. -/
def inputsFault (w : Warp) (k : NodeKind) (d : NodeDesc) (ins : List Node) : Option (BitVec 8) :=
  if k ≠ .map ∧ (countFrom 0 ins.length).any (fun e => match ins[e]? with | some m => !edgeFits k d e m | none => false) then
    some Cause.nodeIndex
  else match k with
    | .contract => contractFault w d ins
    | .map => if ins.any fun m => m.desc.fmt != d.fmt then some Cause.illegalOperand else none
    | _ => none

/-! ## Overflow (R379) -/

/-- Whether a warp's quotas have room for a node of so many ranges. -/
def Perg.fits (p : Perg) (m : TMode) (ranges : Nat) : Bool := (p.freeIdx m.nq).isSome && decide (p.used + ranges ≤ m.rq)

/-- Oldest pending nodes materialised until a creation fits; `n` bounds them (DEDUCED, log 43). What the creation names as inputs, `keep`,
counts as referred to by the node that it makes, and is not reclaimed. (DESIGN CHOICE, log 95) -/
def makeRoom (k ranges : Nat) (keep : List Nat) : Nat → State → Except (State × EvStop) State
  | 0, s => .error (s, .fault { cause := Cause.pergolaFull })
  | n + 1, s =>
    match s.warp? k with
    | none => .ok s
    | some w =>
      if w.perg.fits w.tmode ranges then .ok s
      else if w.tmode.trapovf then .error (s, .fault { cause := Cause.pergolaFull })
      else match w.perg.nodes.find? fun v => !v.isLeaf with
        | none => .error (s, .fault { cause := Cause.pergolaFull })
        | some v =>
          match materialise k w.det w.tmode.strict 0 s.matFuel s [] (k, v.idx) with
          | .error e => .error e
          | .ok s =>
            match s.warp? k with
            | none => .ok s
            | some w => makeRoom k ranges keep n (s.setWarp k (w.putTable (w.perg.reclaim true keep) w.tmode))

/-! ## Creation (R388) -/

/-- The input positions of a creating word. -/
def inputHandles (w : Warp) (k : NodeKind) (f : FmtE) : List Nat :=
  let halves (v : Word) : List Nat := [v.toNat % 2 ^ 32, v.toNat / 2 ^ 32]
  match k with
  | .leaf => []
  | .contract => halves (w.getS f.b) ++ halves (w.getS f.c)
  | _ => halves (w.getS f.b)

/-- A node joins its warp's table. -/
def addNode (s : State) (k : Nat) (w : Warp) (kind : NodeKind) (d : NodeDesc) (ins : List Node) (f : FmtE) : State :=
  let p := w.perg
  match p.freeIdx w.tmode.nq with
  | none => s
  | some i =>
    let n : Node :=
      { idx := i, gen := p.genOf i, made := kind, kind := kind, desc := d, inputs := ins.map fun m => m.idx
        dropped := false, dropNew := false, slot := w.nmode, ashape := w.ashape, pc := w.ipc, regctr := w.regctr
        ord := s.seq, ranges := (sourceRanges kind d).length }
    let w := w.putTable { p with nodes := p.nodes ++ [n], created := s.seq + 1 } w.tmode
    State.setWarp { s with seq := s.seq + 1 } k (w.oweB 0 true [.s f.d.toNat (BitVec.ofNat 64 n.handle)])

/-- A creating instruction, its checks in the order of R388. -/
def createNode (kind : NodeKind) (f : FmtE) (s : State) : Out :=
  attemptH s fun w =>
    match readIssue s w (w.getS f.a) 128 128 with
    | .error h => .error h
    | .ok (s, b) =>
      let w := (s.warp? s.cur).getD w
      let d := parseNode b
      if !descOk kind b then .error (.trap Trap.operand)
      else match placeFault s w.who (kind == .leaf) (elemSize d.fmt) d.home with
        | some t => .error (.trap t)
        | none =>
          let hs := inputHandles w kind f
          let n := (inputCount kind d.op).getD 0
          let ins := (hs.take n).map w.perg.find
          if ins.any Option.isNone then .error (.trap { cause := Cause.nodeHandle })
          else if (hs.drop n).any fun h => h != 0 then .error (.trap Trap.operand)
          else
            let ins := ins.filterMap id
            match inputsFault w kind d ins with
            | some c => .error (.trap { cause := c })
            | none =>
              match makeRoom s.cur (sourceRanges kind d).length (ins.map Node.idx) (w.perg.nodes.length + 1) s with
              | .error e => .error (haltOf e)
              | .ok s => .ok (addNode s s.cur ((s.warp? s.cur).getD w) kind d ins f)

def execTleaf (f : FmtE) (s : State) : Out := createNode .leaf f s
def execTcontract (f : FmtE) (s : State) : Out := createNode .contract f s
def execTewise (f : FmtE) (s : State) : Out := createNode .ewise f s
def execTrowred (f : FmtE) (s : State) : Out := createNode .rowred f s
def execTmap (f : FmtE) (s : State) : Out := createNode .map f s
def execTcast (f : FmtE) (s : State) : Out := createNode .cast f s

/-! ## Demand (R389, R390) -/

/-- The rectangle a register names, within a node. -/
def demandRect (v : Word) (d : NodeDesc) : Option Rect :=
  let r : Rect :=
    { r0 := fieldN v.toNat 0 16, c0 := fieldN v.toNat 16 16, rows := fieldN v.toNat 32 16, cols := fieldN v.toNat 48 16 }
  if 1 ≤ r.rows ∧ 1 ≤ r.cols ∧ r.r0 + r.rows ≤ d.rows ∧ r.c0 + r.cols ≤ d.cols then some r else none

/-- The home bytes of a rectangle of a node. -/
def homeRng (d : NodeDesc) (x : Rect) : Rng :=
  { base := d.elemVa x.r0 x.c0, row := x.cols * elemSize d.fmt, stride := d.hstr, rows := x.rows }

/-- The scratchpad lines of a rectangle's home bytes, for presence (R79). -/
def homeLines (s : State) (wh : Who) (r : Rng) : List (Nat × Nat) :=
  ((countFrom 0 r.rows).flatMap fun i =>
    let va := r.base + BitVec.ofNat 64 (i * r.stride)
    match vclass va with
    | .scratchWin => match windowPlace s wh .store va r.row with
      | .ok (pa, k) => xlatLines [{ va := va, pa := pa, kind := k, len := r.row }]
      | .error _ => []
    | _ => []).eraseDups

/-- A demand accepted: the alias guard of what it will write, its number, its lines absent, its warp waiting. In a deterministic launch
the commit numbers it (R173, R177). (DESIGN CHOICE, log 10) -/
def issueDemand (s : State) (w : Warp) (n : Node) (x : Rect) (dm : Demand) (wr : List Rng) : Except Halt State :=
  let home := if n.isLeaf then [] else [homeRng n.desc (x.grid n.desc)]
  match guardIssue s w (home ++ wr) with
  | .error h => .error h
  | .ok s =>
    let w := (s.warp? s.cur).getD w
    let num := if w.det then (0, s) else s.number w.ctx w.core 6
    let t := num.2.token
    let lines := home.flatMap fun r => homeLines t.2 w.who r
    let s := lines.foldl State.lineUp t.2
    .ok { s.setWarp s.cur { w.oweB t.1 false [] with
            wait := .eval dm num.1 t.1 s.seq lines, qend := w.det || w.qend } with seq := s.seq + 1 }

/-- The node and rectangle of a demand. -/
def demandOf (w : Warp) (f : FmtE) : Except Halt (Node × Rect) :=
  match w.perg.find (w.getS f.a).toNat with
  | none => .error (.trap { cause := Cause.nodeHandle })
  | some n =>
    match demandRect (w.getS f.b) n.desc with
    | none => .error (.trap Trap.operand)
    | some x => .ok (n, x)

def execTforce (f : FmtE) (s : State) : Out :=
  attemptH s fun w =>
    match demandOf w f with
    | .error h => .error h
    | .ok (n, x) =>
      if n.isLeaf then
        if w.det then
          let t := s.token
          .ok (t.2.setWarp s.cur { w.oweB t.1 false [] with qend := true, held := w.held ++
            [.mat [] [] [] (some { tok := t.1, d := f.d.toNat, log := [], full := false }) false w.ipc none] })
        else
        let num := s.number w.ctx w.core 6
        .ok ((num.2.complete w.ctx w.core 6 num.1).setWarp s.cur (w.oweB 0 true [.s f.d.toNat (BitVec.ofNat 64 num.1)]))
      else issueDemand s w n x (.force n.idx x.r0 x.c0 x.rows x.cols f.d.toNat) []

/-- The destination of a tstore: its first element with its alignment, then every row (R390). -/
def storePlaces (s : State) (w : Warp) (size : Nat) (dst : Word) (stride : Nat) (x : Rect) : Except Halt (State × List Xlat) :=
  match resolve s w.who .store dst size true with
  | .error f => .error (.trap (f.trap false 0 dst))
  | .ok (s, _) =>
    foldE (fun (a : State × List Xlat) i =>
      let va := dst + BitVec.ofNat 64 (i * stride)
      match resolveRange a.1 w.who .store va (x.cols * size) with
      | .error f => Except.error (Halt.trap (f.trap false 0 va))
      | .ok (s, l) =>
        if s.peerIn .store .refused l then .error (.trap { cause := Cause.peerAccess, faddr := va, peer := 1 })
        else if s.peerIn .store .none l then .error (.wait (.present (l.map fun y => y.pa) va true))
        else .ok (s, a.2 ++ l)) (s, []) (countFrom 0 x.rows)

def execTstore (f : FmtE) (s : State) : Out :=
  attemptH s fun w =>
    match demandOf w f with
    | .error h => .error h
    | .ok (n, x) =>
      let size := elemSize n.desc.fmt
      let stride := fieldN f.imm64.toNat 0 32
      let dst := w.getS f.c
      if n.desc.fmt = .q4 ∨ stride % size ≠ 0 then .error (.trap Trap.operand)
      else match storePlaces s w size dst stride x with
        | .error h => .error h
        | .ok (s, xl) =>
          issueDemand s w n x (.store n.idx x.r0 x.c0 x.rows x.cols dst stride xl f.d.toNat)
            [{ base := dst, row := x.cols * size, stride := stride, rows := x.rows }]

/-! ## Completion of a demand (R196, R380, R381) -/

/-- The bytes of a tstore at their places. -/
def storeRows (tiles : List TileV) (n : Node) (x : Rect) (dst : Word) (stride : Nat) (xl : List Xlat) : List MatW :=
  (rectRows tiles n x fun r => dst + BitVec.ofNat 64 (r * stride)).flatMap fun r =>
    (placesAt xl r.1 r.2.length).map fun y =>
      { kind := y.kind, pa := y.pa, data := (r.2.drop (y.va - r.1).toNat).take y.len }

/-- An uncorrectable element of a LEAF stored as it is (R380). -/
def leafBad (tiles : List TileV) (n : Node) (x : Rect) : Option EvStop :=
  (countFrom 0 x.rows).findSome? fun r => (countFrom 0 x.cols).findSome? fun c => elemBad tiles n n (x.r0 + r) (x.c0 + c)

/-- What a demand writes: into the home of a pending node the needed rectangle, and a tstore's rectangle at its place. -/
def demandWrites (s : State) (k : Nat) (w : Warp) (num seq : Nat) (n : Node) (x : Rect)
    (out : List TileV → List MatW) : Except (State × EvStop) (State × List MatW) :=
  let e := evalFor k k w w.det seq num
  match evaluate e s w n x with
  | .error e => .error e
  | .ok (s, tiles) =>
    match leafBad tiles n x with
    | some e => .error (s, e)
    | none =>
      if n.isLeaf then .ok (s, out tiles)
      else
        let g := x.grid n.desc
        match placeRows e n s (rectRows tiles n g fun r => n.desc.elemVa (g.r0 + r) g.c0) with
        | .error e => .error (s, e)
        | .ok (s, ws) => .ok (s, ws ++ out tiles)

/-- The matrix queue's next step for a CONTRACT tile of warp `j`; `done` follows once its entry has run (R376). -/
def passed (s : State) (k j : Nat) (ashape : W32) (done : State → State) : Out :=
  match s.passEntry k j ashape with
  | none => .fault .noSuchEvent
  | some t =>
    let credit (s : State) : Nat := ((s.warp? k).map fun w => w.credit.length).getD 0
    .next (if credit s < credit t then done t else t)

/-- The end of a demand: its number completes, where the commit has not still to give it, and its lines are delivered. -/
def endDemand (s : State) (w : Warp) (num : Nat) (lines : List (Nat × Nat)) : State :=
  let s := lines.foldl State.lineDown s
  if w.det then s else s.complete w.ctx w.core 6 num

/-- A demand that fails: its number completes and its lines are delivered (R381); none while a result is still to arrive. -/
def failDemand (s : State) (k num tok : Nat) (lines : List (Nat × Nat)) (w : Warp) (t : Trap) : Out :=
  let w := { w.forget tok with wait := .run }
  if !w.allReady then .fault .noSuchEvent
  else .next ((endDemand (s.setWarp k w) w num lines).trap k w.unretire t .fault)

/-- The cube errors of a deterministic demand's evaluation, which starts on an empty log, and the state with the log as it was: the
commit logs them under the number that it gives (R177, R353). -/
def State.errorsApart (s u : State) (w : Warp) : (List Word × Bool) × State :=
  let t := u.tl w.ctx w.core
  let old := s.tl w.ctx w.core
  ((t.log, t.cerr.getLsbD 1), u.setTl w.ctx w.core { t with log := old.log, cerr := old.cerr })

/-- The state on which a demand is evaluated. -/
def State.logApart (s : State) (w : Warp) : State :=
  if w.det then s.setTl w.ctx w.core { s.tl w.ctx w.core with log := [], cerr := 0 } else s

/-- A demanding instruction completes, or takes the fault its evaluation met; until then the next CONTRACT tile of its evaluation
takes its entry of the matrix queue (R376). In a deterministic launch its bytes are held, and the commit numbers it and completes that
number when it has written them (R177, R195, R386); one that faults has no number. -/
def finishDemand (s : State) (k : Nat) (w : Warp) (num tok seq : Nat) (lines : List (Nat × Nat)) (n : Node) (x : Rect) (d : Nat)
    (wr : List Rng) (out : List TileV → List MatW) : Out :=
  match demandWrites (s.logApart w) k w num seq n x out with
  | .error (_, .absent _) => .fault .noSuchEvent
  | .error (_, .entry j a) => passed s k j a fun t => t
  | .error (u, .fault t) =>
    let v := (u.warp? k).getD w
    if !w.det then failDemand u k num tok lines v t
    else
      let r := s.errorsApart u w
      failDemand (r.2.setTl w.ctx w.core ((r.2.tl w.ctx w.core).relog 0 r.1.1 r.1.2)) k num tok lines v t
  | .ok (u, ws) =>
    let home := if n.isLeaf then [] else [homeRng n.desc (x.grid n.desc)]
    if w.det then
      let r := s.errorsApart u w
      let s := r.2.matDone true k ws (home ++ wr) lines (some { tok := tok, d := d, log := r.1.1, full := r.1.2 }) w.ipc none
      .next (s.setWarp k { (s.warp? k).getD w with wait := .run })
    else
      let s := u.matDone false k ws (home ++ wr) lines none w.ipc none
      let w := ((s.warp? k).getD w).fill tok [.s d (BitVec.ofNat 64 num)]
      .next (endDemand (s.setWarp k { w with wait := .run }) w num lines)

/-- The node and rectangle that a demand names. -/
def Demand.target (p : Perg) : Demand → Option (Node × Rect)
  | .force i r0 c0 rows cols _ | .store i r0 c0 rows cols .. =>
    (p.byIdx i).map fun n => (n, { r0 := r0, c0 := c0, rows := rows, cols := cols })

/-- The fault of a tstore for its first place that a peer turns away, or no route reaches (R39, R141). -/
def storePeerTrap (s : State) (r : Route) (peer : BitVec 2) (xl : List Xlat) : Trap :=
  { cause := Cause.peerAccess, peer := peer
    faddr := ((xl.find? fun x => x.kind == .peer && peerRoute s x.pa .store == r).map fun x => x.va).getD 0 }

/-- Pergola carries on for a warp: a demand once the ordered lanes and releases that precede it are performed (R181), or the
contractions that an instruction waits for, whose matrix-queue entries run first (R376, R379, R384). (DESIGN CHOICE, log 41) -/
def execPergolaEvalComplete (s : State) : Out :=
  onEventWarp s fun k w =>
    match w.wait with
    | .slots j a => passed s k j a fun t =>
        let v := (t.warp? k).getD w
        t.setWarp k { v with wait := .run, creditAt := some (v.retired, v.pc) }
    | .refused c => (match accept s k w c with
      | .halt (.wait (.slots j a)) => passed s k j a fun t => t
      | _ => .fault .noSuchEvent)
    | .eval dm num tok seq lines =>
      if !s.advances w.ctx .pergola || s.gated k tok then .fault .noSuchEvent
      else match dm.target w.perg with
        | none => .fault .noSuchEvent
        | some (n, x) =>
          match dm with
          | .force _ _ _ _ _ d => finishDemand s k w num tok seq lines n x d [] fun _ => []
          | .store _ _ _ _ _ dst stride xl d =>
            if s.owedIn seq xl || (!w.det && s.peerIn .store .none xl) then .fault .noSuchEvent
            else if !w.det && s.peerIn .store .refused xl then failDemand s k num tok lines w (storePeerTrap s .refused 1 xl)
            else finishDemand s k w num tok seq lines n x d
              [{ base := dst, row := x.cols * elemSize n.desc.fmt, stride := stride, rows := x.rows }]
              fun tiles => storeRows tiles n x dst stride xl
    | _ => .fault .noSuchEvent

/-! ## tsnap (R385, R391) -/

/-- The places of a strided range, its base checked for alignment. -/
def rangePlaces (s : State) (w : Warp) (need : Need) (size : Nat) (r : Rng) : Except Halt (State × List Xlat) :=
  match resolve s w.who need r.base size true with
  | .error f => .error (.trap (f.trap false 0 r.base))
  | .ok (s, _) =>
    foldE (fun (a : State × List Xlat) i =>
      let va := r.base + BitVec.ofNat 64 (i * r.stride)
      match operandRange a.1 w.who need true va r.row with
      | .error (f, va) => Except.error (Halt.trap (f.trap false 0 va))
      | .ok (s, l) => .ok (s, a.2 ++ l)) (s, []) (countFrom 0 r.rows)

def execTsnap (f : FmtE) (s : State) : Out :=
  attemptH s fun w =>
    match w.perg.find (w.getS f.a).toNat with
    | none => .error (.trap { cause := Cause.nodeHandle })
    | some n =>
      if !n.isLeaf then .error (.trap Trap.operand)
      else
        let size := elemSize n.desc.fmt
        let src := n.desc.home
        let dst := { src with base := w.getS f.b }
        match rangePlaces s w .load size src with
        | .error h => .error h
        | .ok (s, from') =>
          match rangePlaces s w .store size dst with
          | .error h => .error h
          | .ok (s, dest) =>
            let absent := s.absentIn (from' ++ dest)
            if !absent.isEmpty then .error (.wait (.present absent 0 false))
            else if s.poisonIn from' then .error (.trap { cause := Cause.uncorrectableData, faddr := src.base })
            else
              let r := loadXlats s w.core true (if w.det then w.held else []) from'
              let ws := (dest.foldl (fun (a : List MatW × List Byte) x =>
                (a.1 ++ [{ kind := x.kind, pa := x.pa, data := a.2.take x.len }], a.2.drop x.len)) ([], r.2)).1
              let w := (r.1.warp? s.cur).getD w
              let p := w.perg.set { n with desc := { n.desc with haddr := w.getS f.b } }
              let s := r.1.matDone w.det s.cur ws [] [] none w.ipc (some (n.handle, some n.desc.haddr))
              let w := (s.warp? s.cur).getD w
              .ok (s.setWarp s.cur ((w.putTable p w.tmode).oweB 0 true [.s f.d.toNat (w.getS f.a)]))

/-! ## Mode, drops, queries -/

/-- Whether a warp's evaluation region meets another's on its core (R392). -/
def regionMeets (s : State) (k : Nat) (w : Warp) (m : TMode) : Bool :=
  let base (w : Warp) : Nat := ((w.block? s).bind fun b => assocGet b.abase w.core).getD 0
  let lo := base w + m.ebase
  m.ecnt != 0 && (s.neighbours k w.core).any fun p =>
    let q := base p.2 + p.2.mode.ebase
    p.2.mode.ecnt != 0 && decide (lo < q + p.2.mode.ecnt) && decide (q < lo + m.ecnt)

/-- The values that tmode takes. (DEDUCED, log 42) -/
def tmodeOk (s : State) (k : Nat) (w : Warp) (v : Word) : Bool :=
  let m := parseTmode v
  let old := w.tmode
  v.extractLsb' 56 8 == 0 && v.extractLsb' 9 2 == 0 && decide (m.nq ≤ nodeCap) && decide (m.rq ≤ rangeCap)
  && decide (m.ebase + m.ecnt ≤ ((w.grid? s).map fun g => g.recd.accT).getD 0)
  && !regionMeets s k w m
  && (w.perg.nodes.isEmpty || (m.nq == old.nq && m.rq == old.rq && m.ebase == old.ebase && m.ecnt == old.ecnt))

def execTmode (f : FmtE) (s : State) : Out :=
  attemptH s fun w =>
    let v := w.getS f.a
    if !tmodeOk s s.cur w v then .error (.trap Trap.operand)
    else submitNow s w { body := .tmode v, d := 0, ipc := w.ipc, tok := 0 }

/-- A refused tmode issues at its retry: another warp may have taken the region since (R392). -/
def tmodeAgain : Again := fun s k w b =>
  match b with
  | .tmode v => if tmodeOk s k w v then .ok (s, b) else .error Trap.operand
  | _ => .ok (s, b)

def isTmode : CmdBody → Bool
  | .tmode _ => true
  | _ => false

def execTmodeRetry (s : State) : Out := retryCmd s isTmode tmodeAgain

def execTdrop (f : FmtE) (s : State) : Out := onWarp s fun w => w.putTable (w.perg.drop (w.getS f.a).toNat) w.tmode

/-- The value of tquery; like every handle, the whole 64-bit register is compared. (DESIGN CHOICE, log 96) -/
def tqueryValue (w : Warp) (v : Word) : Word :=
  if v = 0 then BitVec.ofNat 64 (w.perg.nodes.length + w.perg.used * 2 ^ 9 + w.tmode.nq * 2 ^ 20)
  else match w.perg.find v.toNat with
    | none => 0
    | some n =>
      let st := if !n.isLeaf then 1 else if n.made = .leaf then 2 else 3
      BitVec.ofNat 64 (st + n.made.code * 16 + (if n.dropped then 128 else 0))

def execTquery (f : FmtE) (s : State) : Out :=
  attempt s fun w => .ok (s.setWarp s.cur (w.oweB 0 true [.s f.d.toNat (tqueryValue w (w.getS f.a))]))

end Sys2Proof.Machine
end

