-- ==== Sys2Proof/Machine/Rounds.lean ====
section
/-! DEFINITION. Rounds of a deterministic launch and their commit (R171 to R174, R430, R488). -/

namespace Sys2Proof.Machine

open Sys2Proof

/-! ## The deterministic order (R174) -/

/-- The deterministic order of two warps: cluster rank, block rank, wid. -/
def detBefore (s : State) (a b : Nat × Warp) : Bool :=
  let r (w : Warp) : Nat := ((w.cluster? s).map fun c => c.rank).getD 0
  let x := r a.2
  let y := r b.2
  decide (x < y) || (x == y && (decide (a.2.rank < b.2.rank) || (a.2.rank == b.2.rank && decide (a.2.wid < b.2.wid))))

/-- A warp put in its place in an ordered list. -/
def insertDet (s : State) (p : Nat × Warp) : List (Nat × Warp) → List (Nat × Warp)
  | [] => [p]
  | q :: r => if detBefore s p q then p :: q :: r else q :: insertDet s p r

/-- The warps of a grid in the deterministic order, by key. -/
def detOrder (s : State) (grid : Nat) : List Nat :=
  ((s.warps.filter fun p => p.2.grid == grid && p.2.status != .exited).foldl (fun l p => insertDet s p l) []).map Prod.fst

/-! ## When a round commits (R173) -/

/-- Whether a wait stands on a result that only the commit brings. -/
def awaitsCommit (w : Warp) : Bool :=
  let toks := heldTokens w
  let owed := w.pend.filter fun p => !p.ready && toks.contains p.tok
  let named (m : BitVec 12) (p : Pend) : Bool :=
    match p.flag with | none => false | some f => m.getLsbD f
  match w.wait with
  | .header m => owed.any fun p => p.flag.isNone || named m p
  | .flags m => if m = 0 then owed.any fun p => p.flag.isNone else owed.any (named m)
  | .results => !owed.isEmpty
  | _ => false

/-- Whether a warp's quantum of the round is over: ended, waiting in a way that no step of its own ends (for its ordered
lanes too), or stopped for good. -/
def roundOver (s : State) (k : Nat) (w : Warp) : Bool :=
  (s.ordbuf.any fun o => o.warp == k) ||
  match w.status with
  | .exited | .halted | .phaseWait => true
  | .parked | .stopped => w.qend || (match w.wait with
      | .waitt .. | .waitv _ | .bar .. | .gwait _ | .migpt | .tqpop .. | .cancel .. | .commit | .refused _ => true
      | _ => false)
  | .live =>
    match w.wait with
    | .waitt .. | .waitv _ | .bar .. | .gwait _ | .migpt | .tqpop .. | .cancel .. | .commit | .tlbisync | .refused _ => true
    | .run => w.qend
    | _ => awaitsCommit w

/-- Whether a grid's round may commit now: every warp's quantum is over, or the commit has begun. -/
def commitDue (s : State) (grid : Nat) (g : Grid) : Bool :=
  g.recd.det && !g.retired && s.advances g.ctx .warps
  && (s.warps.any fun p => p.2.grid == grid && p.2.status != .exited)
  && (g.committing || s.warps.all fun p => p.2.grid != grid || roundOver s p.1 p.2)

/-! ## Held entries applied (R173, R488) -/

/-- What becomes of one held entry: it is applied, it waits, it waits as `op` from now on, it needs an entry of the matrix queue for a
contraction of warp `k`'s nodes (R376), or it fails. -/
inductive Commit where
  | ok (s : State)
  | hold
  | later (op : HeldOp)
  | entry (k : Nat) (ashape : W32)
  | fail (s : State) (t : Trap)
  deriving DecidableEq, Repr

/-- What the engine answers to an accepted command joins the result it owes. -/
def Warp.grant (w : Warp) (tok : Nat) (l : List RegWrite) (ready : Bool) : Warp :=
  { w with pend := w.pend.map fun p => if p.tok = tok then { p with ready := ready, writes := p.writes ++ l } else p }

/-- A halt met at the commit. -/
def Halt.commit (s : State) : Halt → Commit
  | .trap t => .fail s t
  | .after u t => .fail u t
  | .wait (.slots k a) => .entry k a
  | .wait _ => .hold

/-- The node tables and modes of a launch's warps stand as the round began when its commit begins; each change follows at its place in
the sequence (R386, R392). -/
def State.rewindTables (s : State) (grid : Nat) : State :=
  { s with warps := s.warps.map fun p =>
      match p.2.base with
      | some b => if p.2.grid = grid then (p.1, { p.2 with perg := b.1, tmode := b.2, base := none }) else p
      | none => p }

/-- A peer place of held bytes that no route reaches now (R141), and whether one is turned away (R39). -/
def matPeer (s : State) (r : Route) (l : List MatW) : Bool := l.any fun x => x.kind == .peer && peerRoute s x.pa .store == r

/-- The alias guard at the commit. -/
def commitGuard (s : State) (k : Nat) (w : Warp) (wr : List Rng) (more : State → Warp → Commit) : Commit :=
  match s.guard k w wr with
  | .error e => (haltOf e).commit s
  | .ok s => more s ((s.warp? k).getD w)

/-- A held store or atomic: guard, presence, errors, then its performing. -/
def commitAccess (s : State) (k : Nat) (w : Warp) (a : Access) : Commit :=
  match s.guard k w (writeRngs a.kind a.size a.lanes) with
  | .error e =>
    match (haltOf e).commit s with
    | .fail u t => .fail u (aliasLane u w a.size a.lanes t)
    | c => c
  | .ok s =>
    let w := (s.warp? k).getD w
    if s.anyAbsent a || noRoute s a then .hold
    else match lanesError s w.core true a a.lanes with
      | .error t => .fail s t
      | .ok () =>
        match a.kind with
        | .load => .ok s
        | .store => .ok (performStore s w a)
        | .atom op =>
          let r := performAtomic s w a op
          .ok (r.1.setWarp k (((r.1.warp? k).getD w).fill a.tok r.2))
        | .atomo _ => .ok (s.orderedLanes k a)

/-- A held command at its engine. -/
def commitCmd (s : State) (k : Nat) (w : Warp) (c : Cmd) : Commit :=
  match accept s k w c with
  | .ok s l ready =>
    match s.warp? k with
    | none => .ok s
    | some w => .ok (s.setWarp k (if c.body.owes then w.grant c.tok l ready else w))
  | .full => .hold
  | .halt (.wait (.overlap ..)) => .later (.overlap c false)
  | .halt h => h.commit s

/-- What a held demand owes once its bytes are written: its number, the errors of its evaluation under it, its result (R177, R195). -/
def State.payOwed (s : State) (k : Nat) (w : Warp) (o : Owed) : State :=
  let n := s.number w.ctx w.core 6
  let s := n.2.setTl w.ctx w.core ((n.2.tl w.ctx w.core).relog n.1 o.log o.full)
  let s := s.complete w.ctx w.core 6 n.1
  match s.warp? k with
  | some w => s.setWarp k (w.grant o.tok [.s o.d (BitVec.ofNat 64 n.1)] true)
  | none => s

/-- Whether the bytes of a conversion are written already: a guard materialised its node at this commit (R384). -/
def Warp.converted (w : Warp) (node : Option (Nat × Option Word)) : Bool :=
  match node with
  | some (h, none) => ((w.perg.find h).map fun n => n.isLeaf && !n.unwritten).getD false
  | _ => false

/-- The bytes of a held materialisation written, with what follows from them. -/
def State.applyMat (s : State) (k : Nat) (w : Warp) (l : List MatW) (lines : List (Nat × Nat)) (owed : Option Owed) (whole : Bool)
    (node : Option (Nat × Option Word)) : State :=
  let s := lines.foldl State.lineDown (s.matHome w.core w.ctx l)
  let s := if whole then s.clearLines ((l.filter fun x => x.data.length == 128).map fun x => lineOf x.pa) else s
  let s := match node, s.warp? k with
    | some (h, none), some w => s.setWarp k (w.mapTables fun p => p.written h)
    | _, _ => s
  match owed with
  | some o => s.payOwed k w o
  | none => s

/-- One held entry of warp `k`, still at the head of its buffer, where the bytes of a conversion stand until they are written. -/
def applyHeld (s : State) (k : Nat) (w : Warp) : HeldOp → Commit
  | .acc a => commitAccess s k w a
  | .cmd c => commitCmd s k w c
  | .overlap c still => if still then .fail s (overlapTrap c.body.guarded) else .hold
  | .tladv n v => .ok (s.raiseTl w.ctx w.core n v)
  | .barArrive sync b n d _ =>
    match s.barArrive k w b n with
    | .error t => .fail s t
    | .ok (s, ph) =>
      let w := ((s.warp? k).getD w).setS (BitVec.ofNat 6 d) ph
      .ok (if sync then barWaitOn s k w b ph else s.setWarp k w)
  | .tqpush q v d =>
    let r := s.pushDeque (quadOf w.core) q v
    .ok (r.1.setWarp k (w.setS (BitVec.ofNat 6 d) r.2))
  | .cancel clr inst _ =>
    match cancelStart s k w clr inst with
    | .error t => .fail s t
    | .ok s => .ok s
  | .phend =>
    match w.recd s with
    | none => .ok s
    | some r =>
      if !w.allReady then .hold
      else commitGuard s k w [recordRng s w r] fun s w =>
        if (recordAbsent s w r).isEmpty then .ok (s.phaseEnd k w r) else .hold
  | .pfence => .ok (s.discardPaths w.core)
  | .tab p m => .ok (s.setWarp k { w with perg := p, tmode := m })
  | .mat l rngs lines owed whole _ node =>
    if w.converted node then .ok s
    else match commitGuard s k w rngs fun s w =>
        if matPeer s .none l then .hold
        else if matPeer s .refused l then
          .fail s { cause := Cause.peerAccess, faddr := (rngs.head?.map fun r => r.base).getD 0, peer := 1 }
        else .ok (s.applyMat k w l lines owed whole node) with
    | .fail u t => .fail u (if whole then aliasByte u w rngs t else t)
    | c => c
  | .wback pas => .ok (s.writeBack pas)

/-- The address of the instruction that left an entry. -/
def HeldOp.ipc (w : Warp) : HeldOp → Word
  | .acc a => a.ipc
  | .cmd c | .overlap c _ => c.ipc
  | .barArrive _ _ _ _ p | .cancel _ _ p | .mat _ _ _ _ _ p _ => p
  | _ => w.ipc

/-- The node table that a commit's fault leaves a warp: that of the end of its quantum, but for snapshots behind the failing entry,
whose bytes are not written, so that their LEAFs stay where they were (R385, R488). -/
def tableAfter (w : Warp) (rest : List HeldOp) : Perg × TMode :=
  let y := lastTable w rest
  (rest.foldr (fun h p => match h with
    | .mat _ _ _ _ _ _ (some (n, some a)) =>
      { p with nodes := p.nodes.map fun x => if x.handle = n then { x with desc := { x.desc with haddr := a } } else x }
    | _ => p) y.1, y.2)

/-- A fault found at the commit: the entry and the warp's later ones are not performed, and it enters its handler; the bytes of
finished conversions among them stay held for its next round, as its table stays what the quantum left (R379, R382, R488). A warp that
was ending is halted with the record, where a trigger on the cause sees the fault too (R485). None while a result is still to arrive.
(DESIGN CHOICE, log 10) -/
def commitFault (s : State) (k : Nat) (op : HeldOp) (rest : List HeldOp) (t : Trap) : Option State :=
  match s.warp? k with
  | none => some s
  | some w =>
    let y := tableAfter w rest
    let s := s.setWarp k { w with perg := y.1, tmode := y.2, credit := [] }
    let s := dropHeld s k (op :: rest.filter fun h => !h.conversion) (rest.filter HeldOp.conversion)
    match s.warp? k with
    | none => some s
    | some w =>
      let ipc := op.ipc w
      if !w.allReady then none
      else if w.wait = .commit then
        some (((s.trigger t.cause).setWarp k { (w.writeRecord t ipc) with pc := ipc, status := .halted, wait := .run }).haltCtx w.ctx)
      else some (s.trap k { w with ipc := ipc, wait := .run } t .fault)

/-- The entries of one warp; true where the commit has to hold. `n` bounds them. -/
def commitWarp : Nat → State → Nat → State × Bool
  | 0, s, _ => (s, false)
  | n + 1, s, k =>
    match s.warp? k with
    | none => (s, false)
    | some w =>
      match w.held with
      | [] => (s, false)
      | op :: rest =>
        match applyHeld s k w op with
        | .hold => (s, true)
        | .later op => (s.setWarp k { w with held := op :: rest }, true)
        | .entry j a => ((s.passEntry k j a).getD s, true)
        | .ok s =>
          match s.warp? k with
          | some w => commitWarp n (s.setWarp k { w with held := w.held.drop 1, credit := [] }) k
          | none => commitWarp n s k
        | .fail u t =>
          match commitFault u k op (((u.warp? k).map fun w => w.held.drop 1).getD rest) t with
          | none => (s, true)
          | some s => (s, false)

/-- The entries of a launch's warps in order, up to one that holds. -/
def commitAll : State → List Nat → State × Bool
  | s, [] => (s, false)
  | s, k :: r =>
    let x := commitWarp (((s.warp? k).map fun w => w.held.length).getD 0) s k
    if x.2 then x else commitAll x.1 r

/-- What a commit that holds may have changed: entries held over the device, copies among them that met another, entries of the matrix
queue placed and passed. -/
def commitMark (s : State) : Nat × Nat × Nat × Nat :=
  (sumNat (s.warps.map fun p => p.2.held.length),
    (s.warps.filter fun p => p.2.held.any fun h => match h with | .overlap .. => true | _ => false).length, s.seq,
    sumNat (s.warps.map fun p => p.2.credit.length))

/-- A parked warp's waitv at the commit: it is satisfied as if the warp were resident (R173, R424); a fault of it waits for the
warp's return. -/
def waitvParked (s : State) (k : Nat) (w : Warp) (r : WaitvRec) : State :=
  match evalWaitv s k w r with
  | .ok (some t) => t
  | _ => s

/-- What follows the commit for one warp: the old values of its atomics reach it, waitv conditions and pops are evaluated, a
warp that exited ends, and the next quantum may begin (R173). -/
def endRound (s : State) (k : Nat) : State :=
  match s.warp? k with
  | none => s
  | some w =>
    let w := { w.deliver with qend := false, retired := 0 }
    let s := s.setWarp k w
    match w.wait with
    | .tqpop kind q d tok => if w.status = .live ∨ w.status = .parked then popNow s k w kind q d tok else s
    | .waitv r => if w.status = .live then (waitvAgain s k w r).getD s else if w.status = .parked then waitvParked s k w r else s
    | .commit => s.exitWarp k w
    | _ => s

/-- A tmode that its core's table had no room for is tried again once every warp of the round that ends has given its quota back (R173,
R362). -/
def retryMode (s : State) (k : Nat) : State :=
  match s.warp? k with
  | none => s
  | some w =>
    if w.status = .live then
      match retryOf isTmode tmodeAgain s k w with
      | .next t => t
      | _ => s
    else s

/-! ## The next phase of a block (R421) -/

/-- Registers of a phase-waiting warp at the next phase: carried positions from its record, the rest as at a start. A
position that a program has overwritten in between is free (R422). -/
def restorePhase (s : State) (w : Warp) (r : LaunchRec) (inst : Nat) : State × Warp :=
  let pa := recordPa s w r
  let carried := (countFrom 0 r.carry).foldl (fun (a : State × AMap Lanes) p =>
    let x := lanesOfBytes (memReadN a.1.mem (pa + p * 128) 128)
    if x = w.vAt p ∧ !s.poison.contains (lineOf (pa + p * 128)) then (a.1, tset a.2 p x)
    else let y := a.1.freeLanes; (y.2, tset a.2 p y.1)) (s, [])
  (carried.1,
    { w with v := carried.2, s := (Vector.replicate 64 (0 : Word)).set 0 r.param |>.set 1 (BitVec.ofNat 64 inst)
             em := w.lm, status := .live, clause := .init, wait := .run, qend := false, retired := 0 })

/-- Whether the registers of a block's waiting warps can be reserved again. -/
def phaseFits (s : State) (b : Nat) (r : LaunchRec) (cores : List Nat) : Bool :=
  r.persist || cores.all fun n =>
    let mine := s.warps.filter fun p => p.2.block == b && p.2.core == n && p.2.status == .phaseWait
    decide (s.regsUsed n + sumNat (mine.map fun p => p.2.budget) ≤ 8192)

/-- The next phase dispatched, where its registers fit, its records are present and its context may run. -/
def dispatchPhase (s : State) (b : Nat) : Option State :=
  match tget s.blocks b with
  | none => none
  | some x =>
    match (tget s.clusters x.cluster).bind fun c => (tget s.grids c.grid).map fun g => (c, g) with
    | none => none
    | some (c, g) =>
      let ws := s.warps.filter fun p => p.2.block == b && p.2.status == .phaseWait
      if !x.nextPhase || x.parked || !s.advances g.ctx .warps || !phaseFits s b g.recd c.cores
          || ws.any (fun p => !(recordAbsent s p.2 g.recd).isEmpty) then none
      else
        let s := ws.foldl (fun s p =>
          let y := restorePhase s p.2 g.recd g.inst
          (y.1.setWarp p.1 y.2).discardL1 p.2.core) s
        some { s with blocks := tset s.blocks b { x with nextPhase := false } }

/-- Whether a block belongs to a deterministic launch. -/
def State.detBlock (s : State) (b : Nat) : Bool :=
  (((tget s.blocks b).bind fun x => tget s.clusters x.cluster).bind fun c => (tget s.grids c.grid).map fun g => g.recd.det).getD false

/-- A queued phase dispatched; in a deterministic launch only a commit does so (R436). -/
def execPhaseDispatch (s : State) : Out :=
  if s.detBlock s.ev.x then .fault .noSuchEvent
  else match dispatchPhase s s.ev.x with
  | none => .fault .noSuchEvent
  | some s => .next s

/-- The next phases that a commit dispatches. -/
def dispatchPhases (s : State) (grid : Nat) : State :=
  s.blocks.foldl (fun s b =>
    if ((tget s.clusters b.2.cluster).map fun c => c.grid == grid).getD false then (dispatchPhase s b.1).getD s else s) s

/-- Whether the commit of a grid's round holds part way. -/
def State.setCommitting (s : State) (gid : Nat) (on : Bool) : State :=
  match tget s.grids gid with
  | some g => { s with grids := tset s.grids gid { g with committing := on, round := if on then g.round else g.round + 1 } }
  | none => s

/-- A round commits: held entries in order, then waits, pops and exits; at an entry that has to wait it holds, no warp of the
launch runs, and it goes on from there when it is due again. -/
def execRoundCommit (s : State) : Out :=
  let gid := s.ev.x
  match tget s.grids gid with
  | none => .fault .noSuchEvent
  | some g =>
    if !commitDue s gid g then .fault .noSuchEvent
    else
      let order := detOrder s gid
      let r := commitAll (if g.committing then s else s.rewindTables gid) order
      if r.2 then
        (if commitMark r.1 ≠ commitMark s || !g.committing then .next (r.1.setCommitting gid true) else .fault .noSuchEvent)
      else .next ((dispatchPhases (order.foldl retryMode (order.foldl endRound r.1)) gid).setCommitting gid false)

end Sys2Proof.Machine
end

