-- ==== Sys2Proof/Machine/Admission.lean ====
section
/-! DEFINITION. Admission and its back-off (R423), parking (R424, R425), submission of grids by system software and by user
queues (R418, R419, R465), and the resumption of waiting warps (R434). -/

namespace Sys2Proof.Machine

open Sys2Proof

/-! ## Admission (R423) -/

/-- S of R461 on the context's cores, and MINRES from it. -/
def State.minResOf (s : State) (c : Nat) : BitVec 16 :=
  let regs := sumNat ((s.warps.filter fun p => p.2.ctx == c && p.2.status != .exited).map fun p => p.2.budget * 128)
  let mem := sumNat (s.blocks.map fun p =>
    match (tget s.clusters p.2.cluster).bind fun q => (tget s.grids q.grid).map fun g => (q, g) with
    | some (q, g) => if g.ctx = c ∧ !p.2.freed then q.cores.length * (g.recd.scratch * 1024 + g.recd.accT * 4096) else 0
    | none => 0)
  let arrays := (s.cores.filter fun p => p.2.owner == some c || (tget p.2.saved c).isSome).length * Config.arrayBytes
  let nodes := sumNat ((s.warps.filter fun p => p.2.ctx == c).map fun p => p.2.perg.nodes.length) * Config.nodeBytes
  BitVec.ofNat 16 ((2 * (regs + mem + arrays + nodes) + 31999) / 32000)

/-- A context with a cluster newly admitted is resident, and firmware has computed its MINRES (R461). -/
def State.admitted (s : State) (c : Nat) : State :=
  s.setCtx c { s.ctx c with res := true, minres := s.minResOf c }

/-- The cluster's back-off after a failed attempt. -/
def State.backOff (s : State) (die gid lin : Nat) (g : Grid) : State :=
  let d := s.die die
  let gen := Config.admitNext d.gen
  let q := s.clusterOf gid lin g
  let attempt := q.2.attempt + 1
  let wait := 2 ^ min attempt 10 * (16 + gen.toNat % 16)
  { (s.setDie die { d with gen := gen }).setCluster q.1
      { q.2 with attempt := attempt, backoff := some (s.clock.toNat + wait) } with nextId := max s.nextId (q.1 + 1) }

/-- One attempt of a die to admit a cluster of a grid: the cluster, or every cluster of a persistent grid, is placed
with all its blocks, or its back-off begins. -/
def admitOn (s : State) (die gid lin : Nat) (g : Grid) : Out :=
  let turn := if g.recd.det && !g.recd.persist then detTurn s die gid lin g else true
  if g.retired || g.recd.clusters ≤ lin || 4 ≤ die || (s.clusterOf gid lin g).2.admitted || !turn
      || !s.advances g.ctx .warps then .fault .noSuchEvent
  else match (if g.recd.persist then placeAll s die gid g else placeOnDie s die gid lin g) with
    | some s => .next (s.admitted g.ctx)
    | none => .next (s.backOff die gid lin g)

def execAdmitAttempt (s : State) : Out :=
  match tget s.grids s.ev.y with
  | none => .fault .noSuchEvent
  | some g =>
    if ((s.clusterOf s.ev.y s.ev.z g).2.backoff).isSome then .fault .noSuchEvent else admitOn s s.ev.x s.ev.y s.ev.z g

/-- A back-off ends and the cluster tries again. -/
def execAdmitBackoffExpire (s : State) : Out :=
  match tget s.grids s.ev.y with
  | none => .fault .noSuchEvent
  | some g =>
    let q := s.clusterOf s.ev.y s.ev.z g
    match q.2.backoff with
    | none => .fault .noSuchEvent
    | some t =>
      if s.clock.toNat < t then .fault .noSuchEvent
      else admitOn (s.setCluster q.1 { q.2 with backoff := none }) s.ev.x s.ev.y s.ev.z g

/-! ## Waits (R434) -/

/-- The waits in which a block may be parked. -/
def Wait.visible : Wait → Bool
  | .waitt .. | .waitv _ | .bar .. | .gwait _ | .migpt | .held _ | .present .. | .refused _ => true
  | .tqpop kind .. => kind == 0
  | _ => false

/-- Whether a warp waits so: in such a wait, or descheduled with ordered lanes that its slice refused (R168). -/
def State.waitsVisibly (s : State) (k : Nat) (w : Warp) : Bool :=
  w.wait.visible || s.ordbuf.any fun o => o.warp == k && o.refused.isSome

/-- Whether a warp's wait is over; a parked warp whose wait has ended already waits for nothing but its return. -/
def waitOver (s : State) (k : Nat) (w : Warp) : Bool :=
  (w.status == .parked && !s.waitsVisibly k w) || (s.ordbuf.any (s.ordDue k)) || match w.wait with
  | .waitt n v => s.reached w n v || s.droppedAt w n v
  | .waitv r => (match evalWaitv s k w r with
      | .ok (some t) => ((t.warp? k).map fun w => w.wait == .run).getD false
      | .ok none => false
      | .error _ => true)
  | .bar b ph => decide (ph < s.barPhase w b)
  | .gwait i => s.instRetired w.ctx i
  | .migpt => !(s.core w.core).migreq
  | .tqpop kind q _ _ => kind != 0 || (s.popDeque w.ctx (quadOf w.core) q false).2.isSome
  | .held a => !s.anyAbsent a
  | .present l _ _ => l.all s.placeFree
  | .refused c => hasRoom s k w c.body
  | .tlbisync => !s.invalidating k
  | _ => false

/-- A warp whose wait is over goes on (R434, R441, R141); a timeline wait that a dropped operation leaves without end
faults (R462). -/
def execWaitResume (s : State) : Out :=
  onEventWarp s fun k w =>
    if w.status ≠ .live ∨ w.qend then .fault .noSuchEvent
    else match w.wait with
      | .waitt n v =>
        if s.reached w n v then .next (s.timelineMet k n v w)
        else if s.droppedAt w n v then
          .next (s.trap k { w.unretire with wait := .run } { cause := Cause.operationDropped, faddr := BitVec.ofNat 64 n } .fault)
        else .fault .noSuchEvent
      | .bar b ph => if waitOver s k w then .next (barWaitOn s k w b ph) else .fault .noSuchEvent
      | .gwait i => if waitOver s k w then .next (gwaitOn s k w i) else .fault .noSuchEvent
      | .migpt | .tlbisync => if waitOver s k w then .next (s.setWarp k { w with wait := .run }) else .fault .noSuchEvent
      | .peer a =>
        if noRoute s a then .fault .noSuchEvent
        else match startAccess s k { w with wait := .run } a with
          | .ok t => .next t
          | .error t => .next (s.trap k { w.unretire with wait := .run } t .fault)
      | _ => .fault .noSuchEvent

/-! ## Parking (R424, R425) -/

/-- A block's cluster and record. -/
def State.homeOf (s : State) (b : Block) : Option (Cluster × Grid) :=
  (tget s.clusters b.cluster).bind fun c => (tget s.grids c.grid).map fun g => (c, g)

/-- The alias ranges of a block's allocations: base and length. -/
def Block.ranges (b : Block) (r : LaunchRec) : List (Nat × Nat) :=
  b.sbase.map (fun p => (spAlias p.1 + p.2, r.scratch * 1024)) ++ b.abase.map fun p => (acAlias p.1 + p.2 * 4096, r.accT * 4096)

/-- Bytes that a block takes in the park area: its registers and allocations. -/
def State.parkBytes (s : State) (b : Nat) (x : Block) (r : LaunchRec) : Nat :=
  sumNat ((s.warps.filter fun p => p.2.block == b && p.2.status != .exited).map fun p => p.2.budget * 128)
    + sumNat ((x.ranges r).map Prod.snd)

/-- Bytes in use in a die's park area. -/
def State.parkUsed (s : State) (die : Nat) : Nat :=
  sumNat (s.blocks.map fun p =>
    match s.homeOf p.2 with
    | some (c, g) => if p.2.parked ∧ c.cores.any (fun n => dieOf n == die) then s.parkBytes p.1 p.2 g.recd else 0
    | none => 0)

/-- Whether a block may be parked: it is resident, of a launch that is not persistent, and every warp of it that has not exited
waits in a scheduler-visible wait. -/
def mayPark (s : State) (b : Nat) (x : Block) (g : Grid) : Bool :=
  let ws := s.warps.filter fun p => p.2.block == b && p.2.status != .exited
  !x.parked && !x.freed && !g.recd.persist && !ws.isEmpty
  && ws.all fun p => p.2.status == .live && s.waitsVisibly p.1 p.2 && p.2.held.isEmpty

/-! ### Moving an allocation -/

/-- A run of physical addresses and where it goes. -/
structure Move where
  lo : Nat
  len : Nat
  dest : Nat
  deriving DecidableEq, Repr

/-- Where an address goes. -/
def movedTo (l : List Move) (pa : Nat) : Nat :=
  match l.find? fun m => m.lo ≤ pa ∧ pa < m.lo + m.len with
  | some m => m.dest + (pa - m.lo)
  | none => pa

/-- Where a core's scratchpad line goes. -/
def movedLine (l : List Move) (x : Nat × Nat) : Nat × Nat := spCoreLine (movedTo l (spAlias x.1 + x.2 * 128))

def Xlat.moved (l : List Move) (x : Xlat) : Xlat := { x with pa := movedTo l x.pa }
def Piece.moved (l : List Move) (p : Piece) : Piece := { p with src := movedTo l p.src, dst := movedTo l p.dst }
def MemOp.moved (l : List Move) (o : MemOp) : MemOp :=
  { o with pieces := o.pieces.map (Piece.moved l), dead := o.dead.map (movedLine l) }
def PlaneCmd.moved (l : List Move) : PlaneCmd → PlaneCmd
  | .selM i pa k => .selM i (movedTo l pa) k
  | c => c
def KRun.moved (l : List Move) (r : KRun) : KRun :=
  let f := List.map (Xlat.moved l)
  { r with prog := f r.prog, param := f r.param, dst := f r.dst, recd := f r.recd, desc := f r.desc }
def CollCmd.moved (l : List Move) (c : CollCmd) : CollCmd :=
  { c with src := c.src.map (Xlat.moved l), dst := c.dst.map (Xlat.moved l), dead := c.dead.map (movedLine l) }
def Access.moved (l : List Move) (a : Access) : Access :=
  { a with lanes := a.lanes.map fun x => { x with pa := movedTo l x.pa } }
def RelBuf.moved (l : List Move) (r : RelBuf) : RelBuf :=
  { r with op := match r.op with | .acc a => .acc (a.moved l) | x => x }
def CmdBody.moved (l : List Move) : CmdBody → CmdBody
  | .copy q kb p d => .copy q kb (p.map (Piece.moved l)) d
  | .gather p d => .gather (p.map (Piece.moved l)) d
  | .cube c p a x => .cube c p a (x.map (Xlat.moved l))
  | .plane p => .plane (p.moved l)
  | .krun r => .krun (r.moved l)
  | .coll c => .coll (c.moved l)
  | b => b
def Wait.moved (l : List Move) : Wait → Wait
  | .held a => .held (a.moved l)
  | .peer a => .peer (a.moved l)
  | .present pas va st => .present (pas.map (movedTo l)) va st
  | .refused c => .refused { c with body := c.body.moved l }
  | .waitv r => .waitv { r with pa := movedTo l r.pa }
  | .eval d n t q x => .eval d n t q (x.map (movedLine l))
  | w => w
def KState.moved (l : List Move) (r : KState) : KState := { r with run := r.run.moved l }
def Kiosk.moved (l : List Move) (k : Kiosk) : Kiosk :=
  { k with queue := k.queue.map (KRun.moved l), run := k.run.map (KState.moved l), saved := k.saved.map (KState.moved l) }
def Core.moved (l : List Move) (c : Core) : Core :=
  { c with ops := c.ops.map (MemOp.moved l)
           cq := c.cq.map fun e => { e with xl := e.xl.map (Xlat.moved l) }
           pq := c.pq.map fun e => { e with cmd := e.cmd.moved l } }

/-- The counts of absent lines moved, each to the core and line that its address then names. -/
def State.moveAbsent (s : State) (l : List Move) : State :=
  let out := s.cores.flatMap fun p => (p.2.absent.filter fun q => movedLine l (p.1, q.1) != (p.1, q.1)).map fun q => ((p.1, q.1), q.2)
  let s := out.foldl (fun s x => State.setCore s x.1.1 { s.core x.1.1 with absent := tdel (s.core x.1.1).absent x.1.2 }) s
  out.foldl (fun s x =>
    let y := movedLine l x.1
    State.setCore s y.1 { s.core y.1 with absent := tset (s.core y.1).absent y.2 x.2 }) s

/-- Allocations moved: their bytes, error marks and presence, and every place in them that work in flight names, so that
nothing of a program's sees the move (R424). -/
def State.moveAllocs (s : State) (l : List Move) : State :=
  let inside (c : Host.Cell) : Bool := movedTo l c.1 != c.1
  let s : State := { s with
    mem := (s.mem.filter inside).foldl (fun m c => memWrite m (movedTo l c.1) c.2) (s.mem.filter fun c => !inside c)
    poison := s.poison.map fun x => movedTo l (x * 128) / 128
    cores := s.cores.map fun p => (p.1, p.2.moved l)
    kiosks := s.kiosks.map fun p => (p.1, p.2.moved l)
    colls := s.colls.map (CollCmd.moved l)
    rels := s.rels.map (RelBuf.moved l)
    warps := s.warps.map fun p => (p.1, { p.2 with wait := p.2.wait.moved l }) }
  s.moveAbsent l

/-- Where a parked block's allocations lie: past every physical address, in a place of its own. (DESIGN CHOICE, log 48) -/
def parkedScratch (b : Nat) : Nat := 2 ^ 60 + b * 2 ^ 32
def parkedAcc (b : Nat) : Nat := 2 ^ 52 + b * 2 ^ 20

/-- The moves that take a block's allocations from one set of bases to another. -/
def blockMoves (r : LaunchRec) (x y : Block) : List Move :=
  ((x.sbase.zip y.sbase).map fun p =>
    { lo := spAlias p.1.1 + p.1.2, len := r.scratch * 1024, dest := spAlias p.2.1 + p.2.2 : Move })
  ++ (x.abase.zip y.abase).map fun p =>
    { lo := acAlias p.1.1 + p.1.2 * 4096, len := r.accT * 4096, dest := acAlias p.2.1 + p.2.2 * 4096 : Move }

/-- A block moved to other bases, its warps with it, to another status. -/
def State.moveBlock (s : State) (b : Nat) (x y : Block) (r : LaunchRec) (st st' : Status) : State :=
  let s := s.moveAllocs ((blockMoves r x y).filter fun m => m.len != 0)
  { s with blocks := tset s.blocks b y
           warps := s.warps.map fun p => if p.2.block = b ∧ p.2.status = st then (p.1, { p.2 with status := st' }) else p }

/-- The blocks of a cluster that are still placed. -/
def State.blocksOf (s : State) (c : Nat) : AMap Block := s.blocks.filter fun p => p.2.cluster == c && !p.2.freed

/-- The bytes that a parking writes into a die's park area, from the end of the area in use up: their layout is not given.
(DESIGN CHOICE, log 38) -/
def State.parkFill (s : State) (die n : Nat) : State :=
  let base := (s.die die).parkcfg.toNat / 2 ^ 20 % 2 ^ 32 * 2 ^ 20 + s.parkUsed die
  let lines := countFrom (lineOf base) (n / 128)
  let s := lines.foldl State.dirtyLine s
  { s with mem := memFill s.mem base n fun i => (Config.freeLane s.free i).setWidth 8, free := s.free + 1
           poison := s.poison.filter fun l => !lines.contains l }

/-- A block is parked, and with it the other blocks of its cluster, which leave the cores together, those whose warps have all exited
too (R414): each of the others may be parked, and the free park area has room for them. (DESIGN CHOICE, log 48) -/
def execParkBlock (s : State) : Out :=
  match (tget s.blocks s.ev.x).bind fun x => (s.homeOf x).map fun h => (x.cluster, h.1, h.2) with
  | none => .fault .noSuchEvent
  | some (cid, c, g) =>
    let die := dieOf (c.cores.headD 0)
    let all := s.blocksOf cid
    let need := sumNat (all.map fun p => s.parkBytes p.1 p.2 g.recd)
    if !all.any (fun p => mayPark s p.1 p.2 g) || !all.all (fun p => mayPark s p.1 p.2 g || (!p.2.parked && s.blockDone p.1))
        || (s.die die).parkcfg.toNat % 4096 * 2 ^ 20 < s.parkUsed die + need then .fault .noSuchEvent
    else
      .next (all.foldl (fun s p => s.moveBlock p.1 p.2
        { p.2 with parked := true, sbase := p.2.sbase.map fun q => (q.1, parkedScratch p.1)
                   abase := p.2.abase.map fun q => (q.1, parkedAcc p.1) } g.recd .live .parked) (s.parkFill die need))

/-- Room for a parked block on its own cores: new bases, or none. -/
def unparkAt (s : State) (b : Nat) (x : Block) (r : LaunchRec) : Option Block :=
  let fits (n : Nat) : Bool :=
    let mine := s.warps.filter fun p => p.2.block == b && p.2.core == n
    decide ((s.placedWarps n).length + mine.length ≤ 64)
    && decide (s.regsUsed n + sumNat (mine.map fun p => p.2.budget) ≤ 8192)
  let find (l : List (Nat × Nat)) (cap len : Nat) (acc : Bool) : Option (List (Nat × Nat)) :=
    l.foldl (fun a p => match a, firstFit cap len (s.allocs p.1 acc) with
      | some a, some y => some (a ++ [(p.1, y)])
      | _, _ => none) (some [])
  if !x.sbase.all fun p => fits p.1 then none
  else match find x.sbase 786432 (r.scratch * 1024) false, find x.abase 768 r.accT true with
    | some sb, some ab => some { x with parked := false, sbase := sb, abase := ab }
    | _, _ => none

/-- One parked block restored, where its cores have room. -/
def State.unpark (s : State) (b : Nat) (r : LaunchRec) : Option State :=
  match tget s.blocks b with
  | none => none
  | some x => if !x.parked then some s else (unparkAt s b x r).map fun y => s.moveBlock b x y r .parked .live

/-- A parked block, and its cluster's, restored on the same logical cores, once a wait of theirs is satisfied and room is
free. -/
def execUnparkBlock (s : State) : Out :=
  match (tget s.blocks s.ev.x).bind fun x => (s.homeOf x).map fun h => (x, h.1, h.2) with
  | none => .fault .noSuchEvent
  | some (x, c, g) =>
    let due := s.warps.any fun p => p.2.cluster == x.cluster && p.2.status == .parked && waitOver s p.1 p.2
    if !x.parked || !due || !s.advances g.ctx .warps then .fault .noSuchEvent
    else match reserveSlots s g.ctx c.cores with
      | none => .fault .noSuchEvent
      | some s =>
        match (s.blocksOf x.cluster).foldl (fun a p => a.bind fun s => s.unpark p.1 g.recd) (some s) with
        | none => .fault .noSuchEvent
        | some s => .next s

/-! ## Submission (R418, R419, R465) -/

/-- A record read at a virtual address of a context by the queue scheduler: the state and its bytes, or none where an
address check or translation fails. Having no core, it walks on die 0 and uses no TLB (R71). (DESIGN CHOICE, log 75) -/
def readRecord (s : State) (ctx : Nat) (va : Word) : State × Option (List Byte) :=
  match classCheck false va 128 with
  | .ok .user =>
    if va.toNat % 128 != 0 then (s, none)
    else match walk s 0 ctx va.toNat with
      | .error _ => (s, none)
      | .ok (s, t) =>
        let pa := t.pbase + (va.toNat - t.vbase)
        match leafCheck false false .load t pa 128 with
        | .error _ => (s, none)
        | .ok () =>
          let kind := kindOf t.ty pa
          if (kind = .cached ∨ kind = .cap ∨ kind = .uncached) ∧ !s.poison.contains (lineOf pa) then
            (s, some (s.homeRead kind pa 128))
          else (s, none)
  | _ => (s, none)

/-- A grid of depth 1 from a record, or its rejection's cause (R465). -/
def submitGrid (s : State) (ctx : Nat) (va : Word) : State × Nat :=
  let r := readRecord s ctx va
  match r.2 with
  | none => (r.1, 2)
  | some b => if recordOk b then ((r.1.createGrid ctx 1 none (parseRecord b)).2, 0) else (r.1, 1)

/-- System software submits a record, once launches are accepted (R484); a record that fails is rejected and creates no
grid. -/
def execGridSubmit (s : State) : Out :=
  if !s.boot.ready || decide (4096 ≤ s.unretired s.ev.x) then .fault .noSuchEvent
  else .next (submitGrid s s.ev.x s.ev.v).1

/-- One unit of a user queue: its ring entry read, RD advanced, its record submitted or rejected. (DEDUCED, log 53) -/
def State.consumeUnit (s : State) (q : Nat) : State :=
  let u := s.uqOf q
  let a := u.qaddr.toNat
  let rd := memWord s (a + 0x10)
  let entry := memWord s (memWord s a + rd % max (mem32 s (a + 0xC)) 1 * 8)
  let s := s.putWord (a + 0x10) ((rd + 1) % 2 ^ 64)
  let r := submitGrid s u.ctx.toNat (BitVec.ofNat 64 entry)
  let s := if r.2 = 0 then r.1
    else ((r.1.put32 (a + 0x18) ((mem32 r.1 (a + 0x18) + 1) % 2 ^ 32)).put32 (a + 0x1C) r.2).putWord (a + 0x20) entry
  let pend := u.pend - 1
  let s := s.setUq q { u with pend := pend }
  if pend = 0 then s.takeCount q else s

def execUqConsumeUnit (s : State) : Out :=
  let u := s.uqOf s.ev.x
  if !s.boot.ready || !u.mapped || u.pend == 0 || decide (4096 ≤ s.unretired u.ctx.toNat) then .fault .noSuchEvent
  else .next (s.consumeUnit s.ev.x)

end Sys2Proof.Machine
end

