-- ==== Sys2Proof/Machine/Releases.lean ====
section
/-! DEFINITION. Releases of a warp that are performed after it has gone on (R158), and accesses held for their lines (R81, R82). -/

namespace Sys2Proof.Machine

open Sys2Proof

/-- Whether the release at a place of the list may be performed now: nothing of its warp that precedes it is outstanding (R158). -/
def State.relDue (s : State) (r : RelBuf) : Bool := !s.gated r.warp r.tok

/-- A warp that waits for its own ordered lanes and releases looks again. -/
def State.wake (s : State) (k : Nat) : State :=
  match s.warp? k with
  | some w => if w.wait = .ordered then s.setWarp k { w with wait := .run } else s
  | none => s

/-- A release access performed, once its lines are present and a route leads to them (R81, R141, R158); `fenced` where its warp has
passed a release fence since (R160). -/
def releaseAccess (s : State) (k : Nat) (w : Warp) (a : Access) (fenced : Bool) : Out :=
  if s.anyAbsent a || noRoute s a then .fault .noSuchEvent
  else match lanesError s w.core w.det a a.lanes with
    | .error t => let w := w.forget a.tok; (s.setWarp k w).lateTrap k w a.ipc t
    | .ok () =>
      match a.kind with
      | .load => .next s
      | .store => .next (performStore s w a)
      | .atom op =>
        let r := performAtomic s w a op
        .next (r.1.setWarp k (((r.1.warp? k).getD w).fill a.tok r.2))
      | .atomo _ => .next { s with ordbuf := s.ordbuf ++ a.sentLanes k fenced }

/-- A warp leaves the ready warps of the cycle: the answer of a push stands at the cycle's end (R433). -/
def State.unready (s : State) (k core : Nat) : State :=
  s.setCore core { s.core core with pickedWarps := (s.core core).pickedWarps ++ [k] }

/-- The release at place `i` of the list: an access, a counter, a launch once the context has room for a grid (R419), an arrival with
the phase it counted in or its late fault (R321), or a push. -/
def State.performRelease (s : State) (i : Nat) : Out :=
  match s.rels[i]? with
  | none => .fault .noSuchEvent
  | some r =>
    if !s.relDue r then .fault .noSuchEvent
    else
      let s := State.wake { s with rels := s.rels.eraseIdx i } r.warp
      match s.warp? r.warp with
      | none => .next s
      | some w =>
        match r.op with
        | .tladv k v => .next (s.raiseTl w.ctx w.core k v)
        | .acc a => releaseAccess s r.warp w a r.fenced
        | .cmd c =>
          match accept s r.warp w c with
          | .ok s l _ => .next (s.setWarp r.warp (((s.warp? r.warp).getD w).fill c.tok l))
          | _ => .fault .noSuchEvent
        | .arrive b n d ipc =>
          match s.barArrive r.warp w b n with
          | .error t => (s.setWarp r.warp (w.forget r.tok)).lateTrap r.warp (w.forget r.tok) ipc t
          | .ok (s, ph) => .next (s.setWarp r.warp (w.settle r.tok [.s d ph]))
        | .push q v d => .next ((s.pushInCycle r.warp (w.settle r.tok []) q v (BitVec.ofNat 6 d)).unready r.warp w.core)

/-- A held access performed once all its lines are present (R81, R82). A warp whose instruction waited whole for its
operands' lines issues it again. An event that names a place in `nums` performs the release there (R158). -/
def execHeldAccessPerform (s : State) : Out :=
  match s.ev.nums with
  | i :: _ => s.performRelease i
  | [] =>
  onEventWarp s fun k w =>
    match w.wait with
    | .held a =>
      if s.anyAbsent a then .fault .noSuchEvent
      else match startAccess s k { w with wait := .run } a with
        | .ok t => .next t
        | .error t => .next (s.trap k { w.unretire with wait := .run } t .fault)
    | .present pas _ _ =>
      if pas.all s.placeFree then .next (s.setWarp k { w with wait := .run }) else .fault .noSuchEvent
    | _ => .fault .noSuchEvent

end Sys2Proof.Machine
end

