-- ==== Sys2Proof/Machine/Links.lean ====
section
/-! DEFINITION. Events of the memory devices (R109, R111, R113 to R118), roots and the inbound table (R41, R42, R48, R49),
peers, the host and the links (R39, R140, R141, R477 to R480), and writes of device registers (R37). -/

namespace Sys2Proof.Machine

open Sys2Proof

/-! ## Weight-store refresh -/

def execWsrefWrite (s : State) : Out := .next (s.writeWsref s.ev.x s.ev.v)

def execWsRefreshShiftApply (s : State) : Out :=
  match (s.die s.ev.x).applyShift s.clock with
  | none => .fault .noSuchEvent
  | some d => .next (s.setDie s.ev.x d)

/-- A slot of 512 cycles ends: the group that refreshes follows from the clock (R109), and stalls are time only (R110). -/
def execWsRefreshSlot (s : State) : Out :=
  if s.clock.extractLsb' 0 9 = 0 then .next s else .fault .noSuchEvent

/-! ## HBM5 -/

def execHbmreqWrite (s : State) : Out := .next (s.writeHbmreq s.ev.x (s.ev.v.setWidth 32))

def execHbmGroupRetrainDone (s : State) : Out :=
  match (s.hbmOf s.ev.x).groupDone with
  | none => .fault .noSuchEvent
  | some h => .next { s with hbm := tset s.hbm s.ev.x h }

/-! ## Roots, the inbound table, the device number -/

def execRootWrite (s : State) : Out := .next (s.writeRoot s.ev.ctx s.ev.v)

def execInboundEntryWrite (s : State) : Out :=
  if s.ev.x < 512 then .next (s.writeInbound s.ev.x s.ev.v) else .fault .noSuchEvent

/-- Fabric bring-up assigns the device's number (R40). -/
def execFabricNumberAssign (s : State) : Out :=
  if s.ev.x < 4096 then .next { s with devnum := BitVec.ofNat 32 (0x1000 + s.ev.x) } else .fault .noSuchEvent

/-! ## Accesses from outside (R39, R140, R477) -/

def outNeed : OutOp → Need
  | .load => .load
  | .store => .store
  | .atom .. => .atomic

/-- The types that an atomic takes (R310). -/
def atomTypes : AtomOp → List DT
  | .add | .min | .max => [.i32, .n32, .i64, .n64]
  | .and | .or | .xor | .xchg | .cas => [.b32, .n64]
  | .fadd => [.f32]

/-- Whether bytes lie within one 128-byte line. -/
def oneLine (a n : Nat) : Bool := decide (1 ≤ n) && decide (a % 128 + n ≤ 128)

/-- A piece performed at a home: the state and the bytes it answers; none where it meets an uncorrectable error. `b2` is the new value
of a compare-exchange. -/
def servePiece (s : State) (op : OutOp) (pa : Nat) (b b2 : List Byte) : State × Option (List Byte) :=
  let kind : LocKind := if regionOf pa = .cap then .cap else .cached
  let old := memReadN s.mem pa b.length
  let bad := s.poison.contains (lineOf pa)
  match op with
  | .load => (s, if bad then none else some old)
  | .store =>
    if s.lost (lineOf pa) && b.length != 128 then (s, none)
    else
    let s := s.putHome kind pa b
    ({ s with poison := if b.length = 128 then s.poison.filter fun l => l != lineOf pa else s.poison }, some [])
  | .atom op dt =>
    if bad then (s, none)
    else match atomNew op dt (bytesNat old) (bytesNat b) (bytesNat b2) with
      | some v => (s.putHome kind pa (natBytes b.length v), some old)
      | none => (s, some old)

/-- A peer piece at its aperture offset: performed where the inbound table shows memory that admits it, else answered
with a peer error. (DESIGN CHOICE, log 52) -/
def servePeer (s : State) (r : OutReq) : State :=
  let x : State × Option (List Byte) :=
    if !s.devnum.getLsbD 12 then (s, none)
    else match inboundPa s (r.addr % 2 ^ 39) (outNeed r.op) with
      | some pa => servePiece s r.op pa r.bytes r.bytes2
      | none => (s, none)
  { x.1 with answers := x.1.answers ++ [x.2] }

/-- Whether a piece is one that the link carries: within a line, an atomic of R310 on its own size, aligned to it. -/
def pieceOk (r : OutReq) : Bool :=
  oneLine r.addr r.bytes.length
  && (match r.op with
      | .load | .store => true
      | .atom op dt =>
        (atomTypes op).contains dt && r.bytes.length == dt.width / 8 && r.addr % (dt.width / 8) == 0
        && (op != .cas || r.bytes2.length == dt.width / 8))

/-- The data bytes of a piece that a flit carries, of at most 240 in all (R478). (DESIGN CHOICE, log 52) -/
def OutReq.carried (r : OutReq) : Nat := match r.op with | .load => 0 | _ => r.bytes.length + r.bytes2.length
def payloadOk (l : List OutReq) : Bool := l.all pieceOk && decide (sumNat (l.map OutReq.carried) ≤ 240)

def execPeerAccessArrive (s : State) : Out :=
  if pieceOk s.ev.req && !s.frozen then .next (servePeer s s.ev.req) else .fault .noSuchEvent

/-- A host access by physical address: HBM5 and the capacity tier as memory, device registers by their own widths. -/
def serveHost (s : State) (r : OutReq) : State :=
  let x : State × Option (List Byte) :=
    match regionOf r.addr with
    | .hbm | .cap => servePiece s r.op r.addr r.bytes r.bytes2
    | .regs =>
      match regCheck r.addr r.bytes.length (outNeed r.op) with
      | .error _ => (s, none)
      | .ok () =>
        if r.op = .load then (s, some (natBytes r.bytes.length (s.regReadAt r.addr).toNat))
        else (s.regWriteAt r.addr (BitVec.ofNat 64 (bytesNat r.bytes)) none, some [])
    | _ => (s, none)
  { x.1 with answers := x.1.answers ++ [x.2] }

def execHostAccess (s : State) : Out :=
  if pieceOk s.ev.req then .next (serveHost s s.ev.req) else .fault .noSuchEvent

/-- A lane of a peer access that has no route, the lowest. -/
def routeless (s : State) (a : Access) : Option LaneAcc :=
  a.lanes.find? fun l => l.kind == .peer && peerRoute s l.pa a.kind.need == .none

/-- The fault of an access without a route, at its lowest such lane. -/
def noRouteTrap (s : State) (a : Access) : Option Trap :=
  (routeless s a).map fun l => { Trap.addr Cause.peerAccess l.lane l.va with peer := peerField a.kind.need 3 }

/-- An operation whose pieces of one line have found no route for 100 ms. -/
def engineTimeout (s : State) (n i line : Nat) : Out :=
  match s.movingOp n i with
  | none => .fault .noSuchEvent
  | some o =>
    match (o.pieces.filter fun p => lineOf p.dst == line).findSome? (s.pieceFault .none) with
    | none => .fault .noSuchEvent
    | some t => s.failOp n i o t

/-- A release that has found no route for 100 ms. -/
def releaseTimeout (s : State) (i : Nat) : Out :=
  match s.rels[i]? with
  | none => .fault .noSuchEvent
  | some r =>
    match r.op, s.warp? r.warp with
    | .acc a, some w =>
      match noRouteTrap s a with
      | none => .fault .noSuchEvent
      | some t =>
        let w := w.forget a.tok
        (State.setWarp { s with rels := s.rels.eraseIdx i } r.warp w).lateTrap r.warp w a.ipc t
    | _, _ => .fault .noSuchEvent

/-- An access or materialisation at which the commit of its round holds for want of a route (R141, R173). -/
def heldTimeout (s : State) (k : Nat) (w : Warp) : Out :=
  let first := ((detOrder s w.grid).find? fun j => ((s.warp? j).map fun x => !x.held.isEmpty).getD false) == some k
  if !(first && ((w.grid? s).map fun g => g.committing).getD false) then .fault .noSuchEvent
  else match w.held with
    | [] => .fault .noSuchEvent
    | op :: rest =>
      let t : Option Trap := match op with
        | .acc a => noRouteTrap s a
        | .mat l rngs .. =>
          if matPeer s .none l then some { cause := Cause.peerAccess, faddr := (rngs.head?.map fun r => r.base).getD 0, peer := 3 } else none
        | _ => none
      match t.bind fun t => commitFault s k op rest t with
      | some s => .next s
      | none => .fault .noSuchEvent

/-- A peer access that has found no route for 100 ms faults; the model performs it not at all, where R140 lets it have been
performed once, and reports that as unknown. `nums` names an engine's core, operation and line, or a release. (DESIGN CHOICE,
log 68) -/
def execPeerNoRouteTimeout (s : State) : Out :=
  match s.ev.nums with
  | [n, i, line] => engineTimeout s n i line
  | [i] => releaseTimeout s i
  | _ => onEventWarp s fun k w =>
    let failWhole (t : Trap) : Out := .next (s.trap k { w with wait := .run } t .fault)
    let fail (t : Trap) : Out := .next (s.trap k { w.unretire with wait := .run } t .fault)
    match w.wait with
    | .peer a =>
      match noRouteTrap s a with
      | some t => fail t
      | none => .fault .noSuchEvent
    | .present pas va store =>
      if pas.any fun pa => regionOf pa == .peer && peerRoute s pa .load == .none then
        failWhole { cause := Cause.peerAccess, faddr := va, peer := if store then 3 else 0 }
      else .fault .noSuchEvent
    | .waitv r =>
      if r.kind = .peer ∧ peerRoute s r.pa .load = .none ∧ w.allReady then fail { cause := Cause.peerAccess, faddr := r.va }
      else .fault .noSuchEvent
    | .eval (.store _ _ _ _ _ _ _ xl _) num tok _ lines =>
      if !w.det && s.peerIn .store .none xl then failDemand s k num tok lines w (storePeerTrap s .none 3 xl) else .fault .noSuchEvent
    | _ => heldTimeout s k w

/-! ## Links -/

/-- The flits of a replay buffer that an acknowledgement leaves: those numbered after it. -/
def Port.acked (p : Port) (ack : BitVec 16) : Port :=
  { p with sent := p.sent.filter fun f => (f.seq - ack).toNat - 1 < 0x7FFF && f.seq != ack }

/-- Whether a flow's flits are held on a port: another port, the flow's old route, still has some neither acknowledged nor replayed
(R479). -/
def State.flowHeld (s : State) (n flow : Nat) : Bool :=
  (countFrom 0 16).any fun m => m != n && (s.portOf m).sent.any fun f => f.flow == flow && !f.replayed

/-- A flit sent: numbered, and kept in the port's replay buffer of 512 until it is acknowledged (R478). -/
def State.sendFlit (s : State) (n flow : Nat) (payload : List OutReq) : Out :=
  let p := s.portOf n
  if !p.inService || s.frozen || 512 ≤ p.sent.length || s.flowHeld n flow || !payloadOk payload then .fault .noSuchEvent
  else
    .next (s.setPort n { p with
      sent := p.sent ++ [{ seq := p.sendSeq, flow := flow, payload := payload, replayed := false }], sendSeq := p.sendSeq + 1 })

/-- A port replays its unacknowledged flits, in order, from the buffer. (DESIGN CHOICE, log 52) -/
def State.resendFlits (s : State) (n : Nat) : Out :=
  let p := s.portOf n
  if !p.inService || s.frozen || p.sent.isEmpty then .fault .noSuchEvent
  else
    .next (s.setPort n { p with sent := p.sent.map fun f => { f with replayed := true }
                                replay := p.replay + BitVec.ofNat 32 p.sent.length })

/-- A flit: its acknowledgement frees flits of the replay buffer; the next of its sequence is delivered once, its pieces in
order; one that fails its CRC is replayed, and any other is discarded. (DESIGN CHOICE, log 52) -/
def execFlitReceive (s : State) : Out :=
  let n := s.ev.x
  let p := s.portOf n
  let f := s.ev.flit
  if !p.inService || s.frozen || !payloadOk f.payload then .fault .noSuchEvent
  else if !f.crcOk then .next (s.setPort n { p with replay := p.replay + 1 })
  else
    let p := p.acked f.ack
    if f.seq != p.nextSeq then .next (s.setPort n p)
    else .next (f.payload.foldl servePeer (s.setPort n { p with nextSeq := p.nextSeq + 1 }))

/-- A port in DOWN enters TRAIN. -/
def execLinkTrainStart (s : State) : Out :=
  let p := s.portOf s.ev.x
  if p.st = .down ∧ !p.dis ∧ s.ev.x < 16 then .next (s.setPort s.ev.x { p with st := .train }) else .fault .noSuchEvent

/-- The end of one training: 8 lanes UP, 4 DEGRADED, else a failure, the third in turn DOWN. -/
def Port.trained (p : Port) (lanes : Nat) : Port :=
  if lanes = 8 then { p with st := .up, lanes := 8, fails := 0 }
  else if lanes = 4 then { p with st := .degraded, lanes := 4, fails := 0 }
  else if 2 ≤ p.fails then { p with st := .down, lanes := 0, fails := 0 }
  else { p with fails := p.fails + 1 }

def execLinkTrainResult (s : State) : Out :=
  let p := s.portOf s.ev.x
  if p.st = .train ∨ p.st = .retrain then .next (s.withPort s.ev.x (p.trained s.ev.y)) else .fault .noSuchEvent

/-- A port in service that loses lock, or sees too many CRC failures, retrains. -/
def execLinkRetrainEnter (s : State) : Out :=
  let p := s.portOf s.ev.x
  if p.inService then .next (s.withPort s.ev.x { p with st := .retrain, lanes := 0, retrains := p.retrains + 1, fails := 0 })
  else .fault .noSuchEvent

def execPeerPortDisable (s : State) : Out :=
  if s.ev.x < 16 then .next (s.withPort s.ev.x (s.portOf s.ev.x).disable) else .fault .noSuchEvent

def execPeerPortEnable (s : State) : Out :=
  if s.ev.x < 16 ∧ (s.portOf s.ev.x).dis then .next (s.withPort s.ev.x (s.portOf s.ev.x).enable) else .fault .noSuchEvent

/-! ## Other registers (R37) -/

/-- A write by system software or firmware of size x to the device register at an address, of its own width and
aligned; each register takes it under its own rule. -/
def execRegisterWrite (s : State) : Out :=
  match regCheck s.ev.v.toNat s.ev.x .store with
  | .error _ => .fault .noSuchEvent
  | .ok () => if regionOf s.ev.v.toNat = .regs then .next (s.regWriteAt s.ev.v.toNat s.ev.g none) else .fault .noSuchEvent

end Sys2Proof.Machine
end

