-- ==== Sys2Proof/Machine/Sha3.lean ====
section
/-! DEFINITION. SHA3-256, which R481 and R482 name, and the extendable functions that ML-DSA uses, as FIPS 202 gives them.
(PRESUMED, log 85) -/

namespace Sys2Proof.Machine

open Sys2Proof

/-! ## The permutation: lane (x, y) of the state at index x + 5 y -/

abbrev Keccak := Array (BitVec 64)

def Keccak.lane (a : Keccak) (i : Nat) : BitVec 64 := a.getD i 0

def keccakOf (f : Nat → BitVec 64) : Keccak := Array.ofFn fun i : Fin 25 => f i.val

/-- The rotation of each lane. -/
def keccakRot : List Nat :=
  [0, 1, 62, 28, 27, 36, 44, 6, 55, 20, 3, 10, 43, 25, 39, 41, 45, 15, 21, 8, 18, 2, 61, 56, 14]

/-- The constants of the 24 rounds. -/
def keccakRc : List (BitVec 64) :=
  [0x0000000000000001, 0x0000000000008082, 0x800000000000808A, 0x8000000080008000, 0x000000000000808B, 0x0000000080000001,
   0x8000000080008081, 0x8000000000008009, 0x000000000000008A, 0x0000000000000088, 0x0000000080008009, 0x000000008000000A]
  ++ [0x000000008000808B, 0x800000000000008B, 0x8000000000008089, 0x8000000000008003, 0x8000000000008002, 0x8000000000000080,
      0x000000000000800A, 0x800000008000000A, 0x8000000080008081, 0x8000000000008080, 0x0000000080000001, 0x8000000080008008]

def keccakTheta (a : Keccak) : Keccak :=
  let c (x : Nat) : BitVec 64 := a.lane x ^^^ a.lane (x + 5) ^^^ a.lane (x + 10) ^^^ a.lane (x + 15) ^^^ a.lane (x + 20)
  let d : Keccak := Array.ofFn fun x : Fin 5 => c ((x.val + 4) % 5) ^^^ (c ((x.val + 1) % 5)).rotateLeft 1
  keccakOf fun i => a.lane i ^^^ d.lane (i % 5)

/-- Lanes rotated and moved: the one at (x, y) goes to (y, 2 x + 3 y). -/
def keccakRhoPi (a : Keccak) : Keccak :=
  keccakOf fun i =>
    let j := (3 * (i / 5) + i % 5) % 5 + 5 * (i % 5)
    (a.lane j).rotateLeft (keccakRot.getD j 0)

def keccakChi (a : Keccak) : Keccak :=
  keccakOf fun i => a.lane i ^^^ (~~~(a.lane ((i + 1) % 5 + i / 5 * 5)) &&& a.lane ((i + 2) % 5 + i / 5 * 5))

def keccakRound (a : Keccak) (rc : BitVec 64) : Keccak :=
  let b := keccakChi (keccakRhoPi (keccakTheta a))
  b.set! 0 (b.lane 0 ^^^ rc)

def keccakF (a : Keccak) : Keccak := keccakRc.foldl keccakRound a

/-! ## The sponge -/

def laneOfBytes : List (BitVec 8) → BitVec 64
  | [] => 0
  | b :: r => b.setWidth 64 ||| (laneOfBytes r).shiftLeft 8

def bytesOfLane (v : BitVec 64) : List (BitVec 8) := (List.range 8).map fun i => v.extractLsb' (8 * i) 8

/-- The message with its padding: the suffix byte, zeros, and the last bit of a block. -/
def spongePad (rate : Nat) (suffix : BitVec 8) (m : List (BitVec 8)) : List (BitVec 8) :=
  let k := rate - m.length % rate
  m ++ if k = 1 then [suffix ||| 0x80] else suffix :: (List.replicate (k - 2) 0 ++ [0x80])

/-- Blocks absorbed; `n` bounds them. -/
def absorb (rate : Nat) : Nat → Keccak → List (BitVec 8) → Keccak
  | 0, a, _ => a
  | n + 1, a, m =>
    if m.isEmpty then a
    else
      let block := (m.take rate).toArray
      let b := keccakOf fun i =>
        a.lane i ^^^ (if 8 * i < rate then laneOfBytes ((List.range 8).map fun j => block.getD (8 * i + j) 0) else 0)
      absorb rate n (keccakF b) (m.drop rate)

/-- Blocks squeezed. -/
def squeeze (rate : Nat) : Nat → Keccak → List (BitVec 8)
  | 0, _ => []
  | n + 1, a => (a.toList.flatMap bytesOfLane).take rate ++ squeeze rate n (keccakF a)

def sponge (rate : Nat) (suffix : BitVec 8) (out : Nat) (m : List (BitVec 8)) : List (BitVec 8) :=
  let p := spongePad rate suffix m
  (squeeze rate (out / rate + 1) (absorb rate (p.length / rate) (Array.replicate 25 0) p)).take out

def sha3Bytes (m : List (BitVec 8)) : List (BitVec 8) := sponge 136 0x06 32 m
def shake128 (out : Nat) (m : List (BitVec 8)) : List (BitVec 8) := sponge 168 0x1F out m
def shake256 (out : Nat) (m : List (BitVec 8)) : List (BitVec 8) := sponge 136 0x1F out m

/-- The SHA3-256 digest, its first byte least significant. -/
def sha3 (m : List (BitVec 8)) : BitVec 256 :=
  BitVec.ofNat 256 ((sha3Bytes m).foldr (fun b n => b.toNat + 256 * n) 0)

end Sys2Proof.Machine
end

