-- ==== Sys2Proof/Machine/MlDsa.lean ====
section
/-! DEFINITION. Verification of ML-DSA-44 signatures, which R481 names, as FIPS 204 gives it, with an empty context string.
(PRESUMED, log 85) -/

namespace Sys2Proof.Machine

open Sys2Proof

/-! ## The ring: 256 coefficients modulo q, and their values at the odd powers of a 512th root of unity -/

def dsaQ : Nat := 8380417

abbrev Poly := Array Nat

def Poly.at (p : Poly) (i : Nat) : Nat := p.getD i 0

def polyOf (f : Nat → Nat) : Poly := Array.ofFn fun i : Fin 256 => f i.val

/-- The powers of the root 1753. -/
def dsaRoots : Array Nat :=
  (List.range 512).foldl (fun (a : Array Nat × Nat) _ => (a.1.push a.2, a.2 * 1753 % dsaQ)) (#[], 1) |>.1

/-- The bits of a byte reversed. -/
def brv8 (i : Nat) : Nat := (List.range 8).foldl (fun a b => 2 * a + i / 2 ^ b % 2) 0

def ntt (p : Poly) : Poly :=
  polyOf fun i =>
    let x := dsaRoots.getD (2 * brv8 i + 1) 0
    p.foldr (fun c acc => (c + x * acc) % dsaQ) 0

def intt (p : Poly) : Poly :=
  let e := (List.range 256).map fun i => (2 * brv8 i + 1, p.at i)
  polyOf fun j => e.foldl (fun a x => (a + x.2 * dsaRoots.getD ((512 - x.1 * j % 512) % 512) 0) % dsaQ) 0 * 8347681 % dsaQ

def polyMul (a b : Poly) : Poly := polyOf fun i => a.at i * b.at i % dsaQ
def polyAdd (a b : Poly) : Poly := polyOf fun i => (a.at i + b.at i) % dsaQ
def polySub (a b : Poly) : Poly := polyOf fun i => (a.at i + dsaQ - b.at i) % dsaQ

/-! ## Encodings -/

def leNat (b : List (BitVec 8)) : Nat := b.foldr (fun x n => x.toNat + 256 * n) 0

/-- Fields of so many bits, the first least significant. -/
def bitFields (bits n : Nat) (b : List (BitVec 8)) : List Nat :=
  let v := leNat b
  (List.range n).map fun i => v / 2 ^ (bits * i) % 2 ^ bits

def packFields (bits : Nat) (l : List Nat) : List (BitVec 8) :=
  let v := l.foldr (fun x n => x + 2 ^ bits * n) 0
  (List.range (bits * l.length / 8)).map fun i => BitVec.ofNat 8 (v / 2 ^ (8 * i))

/-- The polynomials of a byte string, so many bytes each. -/
def polysOf (bits k : Nat) (b : List (BitVec 8)) (f : Nat → Nat) : List Poly :=
  (List.range k).map fun i => (((bitFields bits 256 ((b.drop (32 * bits * i)).take (32 * bits)))).map f).toArray

/-- The positions of the ones of each hint polynomial; none where the encoding is malformed. -/
def hintsOf (b : List (BitVec 8)) : Option (List (List Nat)) :=
  let y := b.toArray.map BitVec.toNat
  let ends := (List.range 4).map fun i => y.getD (80 + i) 0
  let starts := 0 :: ends
  let part (i : Nat) : List Nat :=
    (List.range (ends.getD i 0 - starts.getD i 0)).map fun j => y.getD (starts.getD i 0 + j) 0
  let rising (l : List Nat) : Bool := (l.zip (l.drop 1)).all fun p => p.1 < p.2
  if (List.range 4).all (fun i => decide (starts.getD i 0 ≤ ends.getD i 0) && decide (ends.getD i 0 ≤ 80) && rising (part i))
    && (List.range 80).all (fun j => decide (j < ends.getD 3 0) || y.getD j 0 == 0)
  then some ((List.range 4).map part) else none

/-! ## Sampling -/

/-- The coefficients below q of three-byte groups. -/
def rejected : List (BitVec 8) → List Nat
  | a :: b :: c :: r =>
    let v := a.toNat + 256 * b.toNat + 65536 * (c.toNat % 128)
    if v < dsaQ then v :: rejected r else rejected r
  | _ => []

/-- An element of the public matrix, row r and column s, in the values' order. -/
def dsaMatrix (rho : List (BitVec 8)) (r s : Nat) : Poly :=
  ((rejected (shake128 1344 (rho ++ [BitVec.ofNat 8 s, BitVec.ofNat 8 r]))).take 256).toArray

/-- The 39 places of the challenge, drawn from the bytes left: the next byte not above i. -/
def ballStep (a : Poly × List (BitVec 8)) (i sign : Nat) : Poly × List (BitVec 8) :=
  match a.2.dropWhile fun b => decide (i < b.toNat) with
  | [] => a
  | b :: r => ((a.1.set! i (a.1.at b.toNat)).set! b.toNat (if sign = 1 then dsaQ - 1 else 1), r)

def sampleBall (ct : List (BitVec 8)) : Poly :=
  let s := shake256 272 ct
  let signs := leNat (s.take 8)
  ((List.range 39).foldl (fun a t => ballStep a (217 + t) (signs / 2 ^ t % 2)) (polyOf fun _ => 0, s.drop 8)).1

/-! ## Rounding -/

/-- The high part of a coefficient moved by its hint: multiples of 2 γ₂ = 190464. -/
def useHint (h : Bool) (r : Nat) : Nat :=
  let low := r % 190464
  let down := if 95232 < low then r + 190464 - low else r - low
  let r1 := if down = dsaQ - 1 then 0 else down / 190464
  let positive := decide (0 < low) && decide (low ≤ 95232)
  if !h then r1 else if positive then (r1 + 1) % 44 else (r1 + 43) % 44

/-- The magnitude of a coefficient taken about zero. -/
def centred (x : Nat) : Nat := if dsaQ / 2 < x then dsaQ - x else x

/-- Whether a signature over a message is valid under a public key. -/
def mlDsaVerify (key m sig : List (BitVec 8)) : Bool :=
  if key.length ≠ 1312 ∨ sig.length ≠ 2420 then false
  else match hintsOf (sig.drop 2336) with
    | none => false
    | some hints =>
      let ct := sig.take 32
      let z := polysOf 18 4 (sig.drop 32) fun v => (dsaQ + 131072 - v) % dsaQ
      let t1 := (polysOf 10 4 (key.drop 32) fun v => v * 8192 % dsaQ).map ntt
      let mu := shake256 64 (shake256 64 key ++ [0, 0] ++ m)
      let c := ntt (sampleBall ct)
      let zh := z.map ntt
      let w1 := (List.range 4).map fun r =>
        let az := (List.range 4).foldl (fun a s => polyAdd a (polyMul (dsaMatrix (key.take 32) r s) (zh.getD s #[]))) (polyOf fun _ => 0)
        let w := intt (polySub az (polyMul c (t1.getD r #[])))
        (List.range 256).map fun j => useHint ((hints.getD r []).contains j) (w.at j)
      z.all (fun p => p.all fun x => decide (centred x < 130994)) && shake256 32 (mu ++ w1.flatMap (packFields 6)) == ct

end Sys2Proof.Machine
end

