-- ==== Sys2Proof/Machine/Plane.lean ====
section
/-! DEFINITION. Logic planes (R396 to R413): cells behind their maps, what each entry does, write accounting and budgets,
the instructions that queue entries, and the performing of an entry. -/

namespace Sys2Proof.Machine

open Sys2Proof

/-! ## Cells (R396, R398) -/

/-- The physical line behind a logical line; `col` for a column. -/
def LPlane.line (p : LPlane) (col : Bool) (l : Nat) : Nat := tgetD (if col then p.colmap else p.rowmap) l l

/-- The key of the cell at line `x` of an axis and cross line `y`. -/
def LPlane.key (p : LPlane) (col : Bool) (x y : Nat) : Nat :=
  if col then p.line false y * 1024 + p.line true x else p.line false x * 1024 + p.line true y

def LPlane.cell (p : LPlane) (col : Bool) (x y : Nat) : Bool := tgetD p.cells (p.key col x y) false

def LPlane.setCell (p : LPlane) (col : Bool) (x y : Nat) (v : Bool) : LPlane :=
  { p with cells := if v then tset p.cells (p.key col x y) true else tdel p.cells (p.key col x y) }

/-- The lines set in a selection, ascending. -/
def selected (sel : BitVec 1024) : List Nat := (countFrom 0 1024).filter fun x => sel.getLsbD x

/-! ## Entries (R398, R401, R403, R412) -/

/-- A gate of `n` inputs on one line: the output is cleared where an input is 1. -/
def LPlane.gate (p : LPlane) (n : Nat) (col : Bool) (in1 in2 in3 out : Nat) (x : Nat) : LPlane :=
  let i := p.cell col x in1 || (decide (2 ≤ n) && p.cell col x in2) || (decide (3 ≤ n) && p.cell col x in3)
  p.setCell col x out (p.cell col x out && !i)

/-- The cross lines of the active lanes. -/
def laneLines (mask : W32) : List Nat := (lanesIn mask).flatMap fun l => countFrom (32 * l) 32

/-- A line written from lanes. -/
def LPlane.writeLine (p : LPlane) (col : Bool) (line : Nat) (mask : W32) (val : Lanes) : LPlane :=
  (laneLines mask).foldl (fun p y => p.setCell col line y ((laneGet val (y / 32)).getLsbD (y % 32))) p

/-- A line read into lanes. -/
def LPlane.readLine (p : LPlane) (col : Bool) (line : Nat) : Lanes :=
  lanesOf fun l => maskOf fun b => p.cell col line (32 * l + b)

/-- A pool's map entries rotated. -/
def LPlane.rotate (p : LPlane) (col : Bool) (pool : List Nat) : LPlane :=
  let old := pool.map (p.line col)
  let upd (m : AMap Nat) : AMap Nat :=
    (countFrom 0 pool.length).foldl (fun m i => tset m (pool.getD i 0) (old.getD ((i + 1) % pool.length) 0)) m
  if pool.length < 2 then p
  else if col then { p with colmap := upd p.colmap } else { p with rowmap := upd p.rowmap }

/-- BUD × 2^32 + CNT of the physical line behind a logical line. -/
def LPlane.lineWord (p : LPlane) (col : Bool) (line : Nat) : Word :=
  p.budget (lineKey col (p.line col line)) ++ p.count (lineKey col (p.line col line))

def LPlane.lowerBudget (p : LPlane) (col : Bool) (line : Nat) (v : W32) : LPlane :=
  let k := lineKey col (p.line col line)
  { p with bud := tset p.bud k (if v.toNat < (p.budget k).toNat then v else p.budget k) }

/-- The selection register a command reads. -/
def PlaneCmd.selOf : PlaneCmd → Option Nat
  | .gate _ _ s .. | .init _ s _ | .remap _ s => some s
  | _ => none

/-- The logical lines whose counters an entry increments: the output line first, then the crossing lines ascending;
true for a column. -/
def PlaneCmd.wear (c : PlaneCmd) (sel : BitVec 1024) : List (Bool × Nat) :=
  match c with
  | .gate _ col _ _ _ _ out | .init col _ out =>
    if sel = 0 then [] else (!col, out) :: (selected sel).map fun x => (col, x)
  | .wrv col line mask _ => if mask = 0 then [] else (col, line) :: (laneLines mask).map fun y => (!col, y)
  | _ => []

/-- Counters incremented by one. -/
def LPlane.count1 (p : LPlane) (x : Bool × Nat) : LPlane :=
  let k := lineKey x.1 (p.line x.1 x.2)
  { p with cnt := tset p.cnt k (p.count k + 1) }

/-- An entry's effect on the plane. -/
def LPlane.apply (p : LPlane) (c : PlaneCmd) (sel : BitVec 1024) : LPlane :=
  let p := (c.wear sel).foldl LPlane.count1 p
  match c with
  | .gate n col _ in1 in2 in3 out => (selected sel).foldl (LPlane.gate · n col in1 in2 in3 out ·) p
  | .init col _ out => (selected sel).foldl (fun p x => p.setCell col x out true) p
  | .wrv col line mask val => p.writeLine col line mask val
  | .remap col _ => p.rotate col (selected sel)
  | .budget col line v => p.lowerBudget col line v
  | .stat true _ => { p with status := p.status &&& ~~~(BitVec.ofNat 64 (2 ^ 31)) }
  | _ => p

/-- A selection register of a warp. -/
def Warp.selAt (w : Warp) (i : Nat) : BitVec 1024 := w.sel.get ⟨i % 4, Nat.mod_lt _ (by decide)⟩
def Warp.setSel (w : Warp) (i : Nat) (v : BitVec 1024) : Warp :=
  { w with sel := w.sel.set (i % 4) v (Nat.mod_lt _ (by decide)) }

/-- The registers an entry delivers from the plane as it stands before it (R412). -/
def PlaneCmd.delivers (c : PlaneCmd) (p : LPlane) (issued : Word) : List RegWrite :=
  match c with
  | .rdv col line mask pos => [.v pos mask (p.readLine col line)]
  | .cnt col line d => [.s d (p.lineWord col line)]
  | .stat _ d => [.s d p.status]
  | .statIss d => [.s d issued]
  | _ => []

/-- A selection register's value from memory bytes. -/
def selOfBytes (b : List Byte) : BitVec 1024 := BitVec.ofNat 1024 (bytesNat b)

/-- The new value of a selection register; free bits where the memory read met an uncorrectable error. -/
def selValue (s : State) (n : Nat) (c : PlaneCmd) : State × Option (Nat × BitVec 1024) :=
  match c with
  | .selV i bits => (s, some (i, bits))
  | .selM i pa kind =>
    let r := s.pathBytes n .plane false kind pa 128
    if r.2.2 then
      let v := r.1.freeLanes
      (v.2, some (i, selOfBytes ((countFrom 0 32).flatMap fun l => natBytes 4 (laneGet v.1 l).toNat)))
    else (r.1, some (i, selOfBytes r.2.1))
  | _ => (s, none)

/-- Everything an entry does but completing: plane, selection registers, and its results, which reach their registers
(R197, R195, R398, R412). -/
def performPlane (s : State) (n : Nat) (e : PlaneEnt) : State :=
  let w := s.warp? e.warp
  let sel : BitVec 1024 := match e.cmd.selOf, w with | some i, some w => w.selAt i | _, _ => 0
  let p := s.plane n
  let out := e.cmd.delivers p ((s.tl e.ctx n).issuedOf 7)
  let r := selValue (s.setPlane n (p.apply e.cmd sel)) n e.cmd
  match r.1.warp? e.warp with
  | none => r.1
  | some w =>
    let w := match r.2 with | some x => w.setSel x.1 x.2 | none => w
    r.1.setWarp e.warp (if out.isEmpty then w else w.settle e.tok out)

/-! ## Issue (R399, R402, R404) -/

/-- Plane commands that a deterministic warp holds for its commit. -/
def heldPlane (k : Nat) (w : Warp) : List PlaneEnt :=
  w.held.filterMap fun h => match h with
    | .cmd { body := .plane p, .. } => some { seq := 0, ctx := w.ctx, warp := k, num := 0, cmd := p, tok := 0 }
    | _ => none

/-- The device as every entry issued before on the core will leave it. (DEDUCED, log 45) -/
def afterQueue (s : State) (k : Nat) (w : Warp) : State :=
  ((s.core w.core).pq ++ heldPlane k w).foldl (fun s e => performPlane s w.core e) s

/-- The plane-wear check: the output line if it fails, else the lowest crossing line that does. -/
def wearTrap (s : State) (k : Nat) (w : Warp) (c : PlaneCmd) : Option Trap :=
  let t := afterQueue s k w
  let sel : BitVec 1024 := match c.selOf, t.warp? k with | some i, some w => w.selAt i | _, _ => 0
  let p := t.plane w.core
  let worn (x : Bool × Nat) : Bool :=
    let i := lineKey x.1 (p.line x.1 x.2)
    decide ((p.budget i).toNat < (p.count i).toNat + 1)
  match (c.wear sel).find? worn with
  | none => none
  | some x => some { cause := Cause.planeWear, faddr := BitVec.ofNat 64 ((if x.1 then 1024 else 0) + x.2) }

/-- Whether the warp's context holds the plane of its core. -/
def State.ownsPlane (s : State) (w : Warp) : Bool :=
  let o := tgetD s.lpown w.core 0
  o.getLsbD 8 && (o.extractLsb' 0 8).toNat == w.ctx

/-- A refused plane instruction issues at its retry, behind the entries accepted meanwhile and if its context still holds the
plane (R402, R404). -/
def execPlaneQueueRetry (s : State) : Out :=
  retryCmd s (fun | .plane _ => true | _ => false) fun s k w b =>
    match b with
    | .plane c =>
      if !s.ownsPlane w then .error { cause := Cause.planeAccess }
      else match wearTrap s k w c with
        | some t => .error t
        | none => .ok (s, b)
    | _ => .ok (s, b)

/-- A plane instruction: ownership, its operands, the wear check, then its entry. -/
def planeIssue (s : State) (d : BitVec 6) (body : Warp → Except Halt (State × PlaneCmd)) : Out :=
  attemptH s fun w =>
    if !s.ownsPlane w then .error (.trap { cause := Cause.planeAccess })
    else match body w with
      | .error h => .error h
      | .ok (s, c) =>
        match wearTrap s s.cur w c with
        | some t => .error (.trap t)
        | none => submit s ((s.warp? s.cur).getD w) (.plane c) d

/-! ## Gates (R411) -/

def gateCmd (n : Nat) (f : FmtG) : PlaneCmd := .gate n f.col f.sel.toNat f.in1.toNat f.in2.toNat f.in3.toNat f.out.toNat

def execLpnor (f : FmtG) (s : State) : Out := planeIssue s 0 fun _ => .ok (s, gateCmd 2 f)
def execLpnortri (f : FmtG) (s : State) : Out := planeIssue s 0 fun _ => .ok (s, gateCmd 3 f)
def execLpnot (f : FmtG) (s : State) : Out := planeIssue s 0 fun _ => .ok (s, gateCmd 1 f)
def execLpinit (f : FmtG) (s : State) : Out := planeIssue s 0 fun _ => .ok (s, .init f.col f.sel.toNat f.out.toNat)

/-! ## Other entries (R412) -/

def planeCol (f : FmtA) : Bool := f.imm16.getLsbD 15

/-- A line operand: s[A], or IMM16[9:0] where I = 1. -/
def planeLine (w : Warp) (f : FmtA) : Except Halt Nat :=
  let v := if f.i then (f.imm16.extractLsb' 0 10).toNat else (w.getS f.a).toNat
  if 1023 < v then .error (.trap .operand) else .ok v

/-- A command on one line. -/
def lineCmd (s : State) (f : FmtA) (c : Warp → Nat → PlaneCmd) : Out :=
  planeIssue s f.d fun w => match planeLine w f with | .error h => .error h | .ok l => .ok (s, c w l)

def execLprdv (f : FmtA) (s : State) : Out := lineCmd s f fun w l => .rdv (planeCol f) l w.em (w.pos f.d)

def execLpwrv (f : FmtA) (s : State) : Out := lineCmd s f fun w l => .wrv (planeCol f) l w.em (w.getV f.d)

def execLpcnt (f : FmtA) (s : State) : Out := lineCmd s f fun _ l => .cnt (planeCol f) l f.d.toNat

def execLpremap (f : FmtA) (s : State) : Out :=
  planeIssue s f.d fun _ => .ok (s, .remap (planeCol f) (f.imm16.extractLsb' 0 2).toNat)

def execLpbudget (f : FmtA) (s : State) : Out :=
  planeIssue s f.d fun w =>
    match planeLine w f with
    | .error h => .error h
    | .ok l =>
      let v := w.getS f.b
      if v.extractLsb' 32 32 ≠ 0 then .error (.trap .operand) else .ok (s, .budget (planeCol f) l (v.setWidth 32))

/-- A vector register as a selection: exited lanes give zero (R397). -/
def selOfLanes (lm : W32) (v : Lanes) : BitVec 1024 :=
  selOfBytes ((countFrom 0 32).flatMap fun l => natBytes 4 (if maskBit lm l then (laneGet v l).toNat else 0))

def execLpselVector (f : FmtA) (s : State) : Out :=
  planeIssue s f.d fun w => .ok (s, .selV f.d.toNat (selOfLanes w.lm (w.getV f.a)))

/-- The memory form: its address is checked and translated at issue, its bytes are read when it is performed. -/
def execLpselMemory (f : FmtA) (s : State) : Out :=
  planeIssue s f.d fun w =>
    let va := w.getS f.a + immA f
    match resolve s w.who .load va 128 true with
    | .error e => .error (.trap (e.trap false 0 va))
    | .ok (s, pa, k) =>
      if k = .peer ∧ peerRoute s pa .load = .refused then .error (.trap (Trap.addr Cause.peerAccess 0 va))
      else if k = .peer ∧ peerRoute s pa .load = .none then .error (.wait (.present [pa] va false))
      else .ok (s, .selM f.d.toNat pa k)

def execLpstat (f : FmtA) (s : State) : Out := planeIssue s f.d fun _ => .ok (s, .stat false f.d.toNat)

def execLpstatClr (f : FmtA) (s : State) : Out := planeIssue s f.d fun _ => .ok (s, .stat true f.d.toNat)

def execLpstatIss (f : FmtA) (s : State) : Out := planeIssue s f.d fun _ => .ok (s, .statIss f.d.toNat)

/-! ## Performing (R197, R400, R408) -/

/-- The entry performed next: the first whose context may advance. -/
def State.planeHead (s : State) (n : Nat) : Option PlaneEnt :=
  (s.core n).pq.find? fun e => !(s.core n).paused && s.advances e.ctx .plane

/-- Whether an entry waits: for what its issue releases (R181), or for tracked writes of its memory operand issued before it
(R190). -/
def planeWaits (s : State) (e : PlaneEnt) : Bool :=
  s.gated e.warp e.tok || match e.cmd with
  | .selM _ pa kind => s.owedIn e.seq [{ va := 0, pa := pa, kind := kind, len := 128 }]
  | _ => false

/-- The plane performs its next entry, which completes for tl7. -/
def execPlaneEntryPerform (s : State) : Out :=
  let n := s.ev.x
  match s.planeHead n with
  | none => .fault .noSuchEvent
  | some e =>
    if planeWaits s e then .fault .noSuchEvent
    else
      let s := performPlane s n e
      let c := s.core n
      .next ((s.setCore n { c with pq := c.pq.filter fun x => x.seq != e.seq }).complete e.ctx n 7 e.num)

end Sys2Proof.Machine
end

