-- ==== Sys2Proof/Machine/Contexts.lean ====
section
/-! DEFINITION. Events of user queues (R463, R464), context slots and context control (R427, R456 to R462), slices (R461)
and migration (R441, R467). -/

namespace Sys2Proof.Machine

open Sys2Proof

/-! ## User queues -/

/-- A notify of z units to slot x by context y. -/
def execDoorbellNotify (s : State) : Out := .next (s.notify s.ev.x (some s.ev.y) s.ev.z)

/-- A write of MAPPED = 1 to UQDESC of slot x. -/
def execUqMap (s : State) : Out := if s.ev.v.getLsbD 0 then .next (s.writeUq0 s.ev.x s.ev.v) else .fault .noSuchEvent

/-- A write of MAPPED = 0. -/
def execUqUnmap (s : State) : Out := if s.ev.v.getLsbD 0 then .fault .noSuchEvent else .next (s.writeUq0 s.ev.x s.ev.v)

/-! ## Context slots and control -/

def execCtxslotWrite (s : State) : Out := .next (s.writeCtxslot s.ev.x s.ev.y s.ev.v)

/-- A pre-emption request to context x. -/
def execCtxctlPreq (s : State) : Out := .next (s.requestStop s.ev.x)

/-- RESUME of context x. -/
def execCtxctlResume (s : State) : Out := .next (s.resumeCtx s.ev.x)

/-- KILL of context x. -/
def execCtxctlKill (s : State) : Out := .next (s.killCtx s.ev.x)

/-- Whether a class of a context stands at the point where it stops (R457): warps once their results have arrived, or under CO once
each has acknowledged or timed out; after them the others, the cube not within an entry that has begun (R350), copies between chunks
of 4 KiB and gathers between groups of 32 elements (R84), for whose reads Pergola and the collectives still deliver their lines.
(DESIGN CHOICE, log 38) -/
def mayStop (s : State) (c : Nat) (cls : EngClass) : Bool :=
  let x := s.ctx c
  match cls with
  | .warps => if x.co && !x.kill then !s.warps.any fun p => p.2.ctx == c && p.2.status == .live else !s.owesResults c
  | .cube => !x.acks.getLsbD 0 && s.cores.all fun p => p.2.cq.all fun e => e.ctx != c || e.atPoint
  | .plane | .kiosk => !x.acks.getLsbD 0
  | .copy | .gather | .pergola | .collective => !x.acks.getLsbD 0 && s.copiesRest c

def execPreemptClassStop (s : State) : Out :=
  let x := s.ctx s.ev.x
  if x.preq && x.acks.getLsbD (ackIndex s.ev.cls) && mayStop s s.ev.x s.ev.cls then .next (s.stopClass s.ev.x s.ev.cls)
  else .fault .noSuchEvent

/-- Whether some other context waits for core n: one that is saved has a warp there, or a cluster of its grids that is not yet
admitted may go to the core's die. -/
def State.wanted (s : State) (c n : Nat) : Bool :=
  (s.warps.any fun p => p.2.ctx != c && p.2.core == n && p.2.status == .stopped && (s.ctx p.2.ctx).done)
  || s.grids.any fun p => p.2.ctx != c && !p.2.retired && !(s.ctx p.2.ctx).done
      && (countFrom 0 p.2.recd.clusters).any fun lin =>
          !(s.clusterOf p.1 lin p.2).2.admitted && (!p.2.recd.det || detDie p.2.recd lin == dieOf n)

/-- The slice of a resident context expires while another context waits for a core it holds (R461). -/
def execSliceExpire (s : State) : Out :=
  let c := s.ev.x
  let others := s.warps.any fun p => p.2.ctx == c && p.2.status != .exited && s.wanted c p.2.core
  if (s.ctx c).res && (s.ctx c).slice != 0 && others then .next (s.requestStop c) else .fault .noSuchEvent

/-! ## Migration -/

/-- Whether a warp stands at a point where its core may move (R441); a deterministic round in progress has to commit. -/
def atMigrationPoint (s : State) (k : Nat) (w : Warp) : Bool :=
  match w.status with
  | .live => s.waitsVisibly k w && !w.qend && w.held.isEmpty
  | _ => true

/-- The logical line behind which a physical line stands. -/
def LPlane.logical (p : LPlane) (col : Bool) (ph : Nat) : Nat :=
  ((countFrom 0 1024).find? fun l => p.line col l == ph).getD ph

/-- Every line of both axes. -/
def allLines : List Nat := countFrom 0 2048

/-- The logical contents of a plane on another plane, whose maps become the identity and whose counters rise by one
(R409). -/
def LPlane.migrate (old new : LPlane) : LPlane :=
  { new with cells := old.cells.foldl (fun m c =>
               if c.2 then tset m (old.logical false (c.1 / 1024) * 1024 + old.logical true (c.1 % 1024)) true else m) []
             rowmap := [], colmap := []
             cnt := allLines.map fun k => (k, new.count k + 1) }

/-- Whether a plane can take a migration. -/
def LPlane.fits (p : LPlane) : Bool := allLines.all fun k => decide ((p.count k).toNat + 1 ≤ (p.budget k).toNat)

/-- The plane behind a physical core, by device-wide number. -/
def State.planeAt (s : State) (ph : Nat) : LPlane := tgetD s.planes ph LPlane.init

/-- Whether a core's physical place p of its die is idle, sound, cool and able to take the plane (R46, R474). -/
def mayTake (s : State) (n p : Nat) : Bool :=
  let die := dieOf n
  let ph := die * 34 + p
  let x := s.sensOf ph
  let cool (t : Option Int) : Bool :=
    match t with | none => true | some v => decide (v < (s.thcfg.extractLsb' 0 8).toNat - (10 : Int))
  decide (p < 34) && (countFrom (die * 32) 32).all (fun m => (s.core m).phys.toNat != p) && !s.faulty.contains ph
  && cool x.t0 && cool x.t1 && (s.planeAt ph).fits

/-- A logical core on another physical core: its plane is copied, its caches and L1 TLB start empty (R72), and its quad is held only
as the readings of the cores it now has ask (R474). -/
def State.moveCore (s : State) (n p : Nat) : State :=
  let c := s.core n
  let ph := dieOf n * 34 + p
  let old := s.physOf n
  let was := s.quadHeld (quadOf n)
  let s := { s with planes := tset s.planes ph ((s.planeAt old).migrate (s.planeAt ph))
                    sens := tset s.sens old { s.sensOf old with migreq := false, throt := false } }
  let c := { c with
    phys := BitVec.ofNat 6 p, l1 := [], cc := [], tc := [], gc := [], pr := [], tlb := [], migreq := false, moving := false
    cq := c.cq.map fun e => if e.st = .running then e.suspend s.clock else e }
  (s.setCore n c).unhold (quadOf n) was

/-- Warps that hold at a migration point go on. -/
def State.releaseMigpt (s : State) (n : Nat) : State :=
  { s with warps := s.warps.map fun p => if p.2.core = n ∧ p.2.wait = .migpt then (p.1, { p.2 with wait := .run }) else p }

/-- Whether a warp holds at migpt or phend, where a request is honoured (R467). -/
def honoursMigration (w : Warp) : Bool := w.status == .phaseWait || (w.status == .live && w.wait == .migpt)

/-- Whether every class of every context on a core stands at its point (R457, R467). -/
def Core.still (c : Core) : Bool := c.cq.all CubeEnt.atPoint && c.ops.all MemOp.atPoint

/-- A migration of core x to physical core y of its die (R467). It begins once all warps of the core have reached a point, one
of them migpt or phend: MOVING is set, and the core's classes stop. When they have, the state moves, PHYS changes in one step,
and they go on (R47). (DESIGN CHOICE, log 51) -/
def execMigration (s : State) : Out :=
  let n := s.ev.x
  let c := s.core n
  if c.moving then
    if c.migreq = true ∧ c.target.toNat = s.ev.y ∧ c.still = true then .next ((s.moveCore n s.ev.y).releaseMigpt n) else .fault .noSuchEvent
  else
    let ready := s.warps.all fun p => p.2.core != n || p.2.status == .exited || atMigrationPoint s p.1 p.2
    let asked := s.warps.any fun p => p.2.core == n && honoursMigration p.2
    if c.migreq && ready && asked && mayTake s n s.ev.y then
      .next (s.setCore n { c with moving := true, target := BitVec.ofNat 6 s.ev.y })
    else .fault .noSuchEvent

/-- The request lapses and the held warps continue; SENS shows none any more (R441, R475). -/
def execMigrationLapse (s : State) : Out :=
  let n := s.ev.x
  let ph := s.physOf n
  if !(s.core n).migreq || (s.core n).moving then .fault .noSuchEvent
  else
    let t : State := { s with sens := if (s.sensOf ph).migreq then tset s.sens ph { s.sensOf ph with migreq := false } else s.sens }
    .next ((t.setCore n { s.core n with migreq := false }).releaseMigpt n)

end Sys2Proof.Machine
end

