-- ==== Sys2Proof/Machine/Power.lean ====
section
/-! DEFINITION. Events of voltage and frequency (R469, R470), droops (R471), loss of power (R406, R472) and sensors (R473,
R474). -/

namespace Sys2Proof.Machine

open Sys2Proof

/-! ## Voltage and frequency -/

def execQvfWrite (s : State) : Out := if s.ev.x < 32 then .next (s.writeQvf s.ev.x s.ev.v) else .fault .noSuchEvent

def execVfRampSegment (s : State) : Out :=
  let q := s.quad s.ev.x
  if q.qvf.ramp then .next (s.setQuad s.ev.x { q with qvf := q.qvf.segment }) else .fault .noSuchEvent

/-- Firmware sets a band's voltage, 5 mV times `below` under its quad's, down to 50 mV below it (R468). -/
def State.setBand (s : State) (n band : Nat) (below : BitVec 8) : Out :=
  if h : band < 4 then
    if n < 128 ∧ below ≤ 10 then .next (s.setCore n { s.core n with bandv := (s.core n).bandv.set band below h })
    else .fault .noSuchEvent
  else .fault .noSuchEvent

/-! ## Droops -/

/-- Every logical core changed. -/
def State.eachCore (s : State) (f : Core → Core) : State :=
  (countFrom 0 128).foldl (fun s n => State.setCore s n (f (s.core n))) s

/-- Every quad asked for a step of its own. -/
def State.eachQuad (s : State) (step : Qvf → BitVec 5) : State :=
  (countFrom 0 32).foldl (fun s u => State.askStep s u (step (s.quad u).qvf)) s

def execDroopDetect (s : State) : Out :=
  if s.supply.droop then .fault .noSuchEvent
  else
    .next (({ s with supply := { s.supply with droop := true } }.eachCore fun c => { c with cad := 16, droop := true }).eachQuad
      fun q => q.droopf)

def execDroopEnd (s : State) : Out :=
  if !s.supply.droop then .fault .noSuchEvent
  else
    .next (({ s with supply := { s.supply with droop := false } }.eachCore fun c => { c with droop := false }).eachQuad
      fun q => q.reqf)

/-- CAD of core x falls by one towards CADBASE. -/
def execCadenceStep (s : State) : Out :=
  let c := s.core s.ev.x
  let q := (s.quad (quadOf s.ev.x)).qvf
  if s.supply.droop || s.quadHeld (quadOf s.ev.x) || c.cad ≤ q.cadbase then .fault .noSuchEvent
  else .next (s.setCore s.ev.x { c with cad := c.cad - 1 })

/-! ## Loss of power -/

/-- The status word of a cut entry: CUT, AXIS, PLINE, LLINE (R407). -/
def cutStatus (axis : Bool) (pline lline : Nat) : Word :=
  0#32 ++ 1#1 ++ bit1 axis ++ BitVec.ofNat 10 pline ++ 0#10 ++ BitVec.ofNat 10 lline

/-- The axis and the logical line that a cut entry records: its OUT line or the line written by lpwrv (R407); the line that
another entry names, whose fields the spec does not state; free where it names none. (DESIGN CHOICE, log 6) -/
def PlaneCmd.cutLine (c : PlaneCmd) (free : Nat) : Bool × Nat :=
  match c with
  | .gate _ col _ _ _ _ out | .init col _ out => (!col, out)
  | .wrv col line _ _ | .rdv col line _ _ | .cnt col line _ | .budget col line _ => (col, line)
  | .remap col _ => (col, Config.freeNat free % 1024)
  | .selV .. | .selM .. | .stat .. | .statIss _ => (Config.freeNat (free + 1) % 2 == 1, Config.freeNat free % 1024)

/-- A plane whose entry was cut: its counters have risen, the cells it was writing hold free bits, and the status word
records the entry (R406). (DESIGN CHOICE, log 6) -/
def LPlane.cut (p : LPlane) (c : PlaneCmd) (sel : BitVec 1024) (free : Nat) : LPlane :=
  let q := (c.wear sel).foldl LPlane.count1 p
  let bit (i : Nat) : Bool := (Config.freeLane free i).getLsbD 0
  let q : LPlane := match c with
    | .gate _ col _ _ _ _ out | .init col _ out => (selected sel).foldl (fun q x => q.setCell col x out (bit x)) q
    | .wrv col line mask _ => (laneLines mask).foldl (fun q y => q.setCell col line y (bit y)) q
    | _ => q
  let x := c.cutLine free
  let axis := match c with | .gate _ col .. | .init col .. => col | _ => x.1
  { q with status := cutStatus axis (p.line x.1 x.2) x.2 }

/-- A core's plane when power fails: the entry at its head may have begun, which is free. (DESIGN CHOICE, log 46) -/
def cutCore (s : State) (n : Nat) : State :=
  match s.planeHead n with
  | none => s
  | some e =>
    if Config.freeNat s.free % 2 = 0 then { s with free := s.free + 1 }
    else
      let sel : BitVec 1024 := match e.cmd.selOf, s.warp? e.warp with | some i, some w => w.selAt i | _, _ => 0
      { s.setPlane n ((s.plane n).cut e.cmd sel (s.free + 1)) with free := s.free + 3 }

/-- What survives without power: planes, shock records, what lies outside the device; the model's own counter and agenda
go on. -/
def State.volatileLost (s : State) : State :=
  { State.reset with planes := s.planes, peerMem := s.peerMem, peerShut := s.peerShut
                     boot := { State.reset.boot with shocks := s.boot.shocks, flash := s.boot.flash }
                     answers := s.answers, free := s.free, agenda := s.agenda, ev := s.ev }

/-- Every plane's head entry cut. -/
def State.cutPlanes (s : State) : State := (s.cores.map Prod.fst).foldl cutCore s

/-- The module without power. -/
def State.powerDown (s : State) : State :=
  { s.cutPlanes.volatileLost with supply := { droop := false, holdup := false, off := true, rails := false, stopped := [] } }

/-- A core, a quad and a context whose rails are off: their registers in the I/O die's block stay, the core map and the context
slots, QVF and the task-queue registers, the root, CTXCTL and the save area's base (R36). -/
def Core.unpowered (n : Nat) (c : Core) : Core := { Core.init n with phys := c.phys, slots := c.slots }
def Quad.unpowered (q : Quad) : Quad := { q with tlb := [], deques := [], pushes := [] }
def Ctx.unpowered (x : Ctx) : Ctx := { x with tvec := 0, seed := 0, tdata := 0, grids := 0, cancels := [], pendCancel := [] }

/-- A Kiosk that has lost its runs: nothing is paused and no row is held (R139). -/
def Kiosk.idle (k : Kiosk) : Kiosk := { k with queue := [], run := none, saved := [], openRow := [], postponed := [], cause := 0 }

/-- What the compute dies lose with their rails: their cores, contexts, launches, engines, on-chip memory and what L2 had not
yet written to memory. Planes, HBM5, the capacity tier, the Kiosks' channels and the registers of the I/O die stay. (DESIGN
CHOICE, log 49) -/
def State.diesLost (s : State) : State :=
  let m := s.l2dirty.foldl (fun m p => memWriteN m (p.1 * 128) p.2) s.mem
  { s with mem := m.filter fun c => decide (c.1 < wsBase), poison := s.poison.filter fun l => decide (l * 128 < wsBase)
           l2dirty := [], warps := [], cores := s.cores.map fun p => (p.1, p.2.unpowered p.1), tls := []
           quads := s.quads.map fun p => (p.1, p.2.unpowered), dies := [], ctxs := s.ctxs.map fun p => (p.1, p.2.unpowered)
           grids := [], clusters := [], blocks := [], colls := [], matched := [], invals := [], gleaves := [], ordbuf := []
           rels := [], stale := [], nexts := [], kiosks := s.kiosks.map fun p => (p.1, p.2.idle) }

/-- A shutdown: the compute rails go off with nothing saved, and firmware logs it (R474). -/
def State.railsOff (s : State) : State :=
  let t := s.cutPlanes.diesLost
  { t with supply := { t.supply with rails := true }, boot := { t.boot with flash := .shutdown :: t.boot.flash } }

/-- Firmware asks every resident context to stop. -/
def execPowerLoss (s : State) : Out :=
  if s.supply.holdup then .fault .noSuchEvent
  else
    let l := (s.ctxs.filter fun p => p.2.res).map Prod.fst
    .next (l.foldl State.requestStop { s with supply := { s.supply with holdup := true, stopped := l } })

/-- The input recovers: once those that still stop have done so, firmware resumes the contexts it stopped; one that runs again already,
or that cannot go on stopping without its rails, holds nothing up. -/
def execPowerRecover (s : State) : Out :=
  if !s.supply.holdup || (!s.supply.rails && s.supply.stopped.any fun c => (s.ctx c).preq) then .fault .noSuchEvent
  else
    .next (s.supply.stopped.foldl State.resumeCtx { s with supply := { s.supply with holdup := false, stopped := [] } })

def execPowerHoldupExpire (s : State) : Out := if s.supply.holdup then .next s.powerDown else .fault .noSuchEvent

/-! ## Sensors (R473) -/

/-- A thermal sensor: its physical core and its number. -/
abbrev Sensor := Nat × Nat

/-- The reading of a sensor in use. -/
def Sens.use (x : Sens) (i : Nat) : Option Int := if i = 0 then x.t0 else x.t1

/-- The reading that a sensor gives to its neighbours: its sample, or where it is faulty the reading in use. -/
def sensorIn (s : State) (smp : Sample) (p : Sensor) : Option Int :=
  let x := s.sensOf p.1
  if x.tfault.getLsbD p.2 then x.use p.2
  else match smp.find? fun r => r.phys = p.1 with
    | some r => some (if p.2 = 0 then r.t0 else r.t1)
    | none => x.use p.2

/-- The readings of a sensor's neighbours: the other sensor of its core, and those of the adjacent cores. -/
def neighbourReadings (s : State) (smp : Sample) (p : Sensor) : List Int :=
  ((p.1, 1 - p.2) :: (Config.adjacent p.1).flatMap fun q => [(q, 0), (q, 1)]).filterMap (sensorIn s smp)

def insertInt (x : Int) : List Int → List Int
  | [] => [x]
  | y :: r => if x ≤ y then x :: y :: r else y :: insertInt x r

/-- Twice the median of readings. -/
def median2 (l : List Int) : Int :=
  let s := l.foldl (fun a x => insertInt x a) []
  s.getD ((s.length - 1) / 2) 0 + s.getD (s.length / 2) 0

def maxOf (l : List Int) : Int := l.foldl (fun a x => if a < x then x else a) (l.headD 0)

/-- What one sample makes of a thermal sensor: whether it is faulty, the reading in use, its run of unchanged samples
and the median where the run began. (DESIGN CHOICE, log 49) -/
def judge (fault : Bool) (last : Option Int) (raw : Int) (same : Nat) (base : Int) (t : Int) (near : List Int) :
    Bool × Int × Nat × Int :=
  let med := median2 near
  let unchanged := last.isSome && raw == t
  let same := if unchanged then same + 1 else 0
  let base := if unchanged then base else med
  let bad := fault || (decide (64 ≤ same) && decide (2 ≤ (med - base).natAbs)) || decide (t < -40) || decide (150 < t)
    || decide (20 < (2 * t - med).natAbs)
  (bad, if bad then maxOf near + 5 else t, same, base)

/-- A band's current in use: its sensor's reading, or where that sensor is faulty the band's rated maximum. -/
def bandCurrents (cfault : BitVec 4) (l : List Nat) : List Nat :=
  (countFrom 0 4).map fun b => if cfault.getLsbD b then Config.bandRated else l.getD b 0

/-- What a sample newly declares faulty on a physical core. -/
def declared (x y : Sens) (phys : Nat) : List FlashLog :=
  (((countFrom 0 2).filter fun i => y.tfault.getLsbD i && !x.tfault.getLsbD i).map fun i => .thermal phys i)
  ++ ((countFrom 0 4).filter fun b => y.cfault.getLsbD b && !x.cfault.getLsbD b).map fun b => .current phys b

/-- One physical core's readings taken: its faults, and the readings in use. -/
def takeReading (s : State) (smp : Sample) (r : CoreReading) : Sens :=
  let x := s.sensOf r.phys
  let a := judge (x.tfault.getLsbD 0) x.t0 x.raw0 x.same0 x.med0 r.t0 (neighbourReadings s smp (r.phys, 0))
  let b := judge (x.tfault.getLsbD 1) x.t1 x.raw1 x.same1 x.med1 r.t1 (neighbourReadings s smp (r.phys, 1))
  let tf := bit1 b.1 ++ bit1 a.1
  let cf := x.cfault ||| r.cfault
  { x with current := bandCurrents cf r.current, t0 := some a.2.1, t1 := some b.2.1, same0 := a.2.2.1, same1 := b.2.2.1, med0 := a.2.2.2, med1 := b.2.2.2
           raw0 := r.t0, raw1 := r.t1, tfault := tf, cfault := cf }

/-- One physical core's readings taken, each declaration counted and logged to the boot flash. -/
def State.takeCore (t s : State) (smp : Sample) (r : CoreReading) : State :=
  let y := takeReading s smp r
  let l := declared (s.sensOf r.phys) y r.phys
  { t with sens := tset t.sens r.phys { y with events := y.events + BitVec.ofNat 16 l.length }
           boot := { t.boot with flash := l ++ t.boot.flash } }

/-! ## Limits (R474) -/

/-- Whether a sound sensor reads at least v. -/
def Sens.healthyAt (x : Sens) (v : Int) : Bool :=
  let at' (i : Nat) : Bool := !x.tfault.getLsbD i && (match x.use i with | some t => decide (v ≤ t) | none => false)
  at' 0 || at' 1

/-- Whether any reading is at least v. -/
def Sens.anyAt (x : Sens) (v : Int) : Bool :=
  (match x.t0 with | some t => decide (v ≤ t) | none => false) || (match x.t1 with | some t => decide (v ≤ t) | none => false)

def Sens.shutdown (x : Sens) : Bool := x.healthyAt 115 || (x.tfault == 3 && x.anyAt 115)

/-- Whether a persistent launch runs on a core. -/
def State.persistentOn (s : State) (n : Nat) : Bool :=
  s.warps.any fun p => p.2.core == n && p.2.status != .exited && ((p.2.grid? s).map fun g => g.recd.persist).getD false

/-- The migration limit of the core behind a physical number: a request where a persistent launch runs and some core
can take it, else no new clusters while it lasts. -/
def migLimit (s : State) (ph : Nat) : State :=
  let x := s.sensOf ph
  let hot := x.healthyAt (s.thcfg.extractLsb' 0 8).toNat
  match (countFrom 0 128).find? fun n => s.physOf n == ph with
  | none => s
  | some n =>
    if hot && s.persistentOn n then
      if (countFrom 0 34).any (mayTake s n) then
        { s.setCore n { s.core n with migreq := true } with sens := tset s.sens ph { x with migreq := true, noNew := false } }
      else s
    else { s with sens := tset s.sens ph { x with noNew := hot } }

/-- The hard throttle of a quad: set by a reading of 105 or more, released once every reading is below 100. -/
def throttle (s : State) (u : Nat) : State :=
  let phs := (countFrom (4 * u) 4).map s.physOf
  let was := s.quadHeld u
  let cool := phs.all fun p => !(s.sensOf p).anyAt 100
  let s : State := phs.foldl (fun s p =>
    let x := State.sensOf s p
    { s with sens := tset s.sens p { x with throt := if x.anyAt 105 then true else if cool then false else x.throt } }) s
  let q := s.quad u
  if s.quadHeld u then
    if was then s
    else
      let s := s.setQuad u { q with qvf := q.qvf.request 4 }
      (countFrom (4 * u) 4).foldl (fun s n => State.setCore s n { s.core n with cad := 16 }) s
  else s.unhold u was

/-- One sampling: readings, then the limits; a core too hot shuts the compute rails off. -/
def State.sample (s : State) (smp : Sample) : State :=
  let t := smp.foldl (fun (t : State) r => t.takeCore s smp r) s
  let t := smp.foldl (fun t r => migLimit t r.phys) t
  let t := (countFrom 0 32).foldl throttle t
  if smp.any fun r => (t.sensOf r.phys).shutdown then t.railsOff else t

def execSensorSample (s : State) : Out :=
  if s.supply.rails || !s.ev.sample.all (fun r => decide (r.phys < 136)) then .fault .noSuchEvent
  else .next (s.sample s.ev.sample)

end Sys2Proof.Machine
end

