-- ==== Sys2Proof/Machine/Bringup.lean ====
section
/-! DEFINITION. Events of bring-up (R46, R481 to R484) and of Belvedere (R485 to R487). -/

namespace Sys2Proof.Machine

open Sys2Proof

/-! ## Power-on reset and the boot path -/

/-- Power-on reset, of a module without power, one whose compute rails are off, or one still in its boot ROM: the core map is
the identity, and the boot path starts. -/
def execPowerOnReset (s : State) : Out :=
  if s.supply.off ∨ s.supply.rails ∨ s.boot.stage = 0 then
    let t := s.volatileLost
    .next { t with boot := { t.boot with shock := !t.boot.shocks.isEmpty } }
  else .fault .noSuchEvent

def bytes32 (v : BitVec 256) : List Byte := natBytes 32 v.toNat

/-- The digest, signature and key of an image (R481). (DESIGN CHOICE, log 50) -/
def signedOk (i : Image) : Bool :=
  sha3 i.pubKey == Config.fusedKey && mlDsaVerify i.pubKey (bytes32 (sha3 i.bytes)) i.signature

def versionOk (b : Boot) (i : Image) : Bool := decide (b.svn.toNat ≤ i.version)

/-- A stage accepted: the measurement is extended, and the next stage runs (R482). (DESIGN CHOICE, log 50) -/
def Boot.advance (b : Boot) (i : Image) : Boot :=
  { b with m := sha3 (bytes32 b.m ++ bytes32 (sha3 i.bytes)), stage := b.stage + 1 }

/-- A check that fails: slot B in place of slot A, or recovery after both. -/
def Boot.reject (b : Boot) (cause : BitVec 8) : Boot :=
  if b.slot then { b with stage := 0xFF, cause := 3, recovery := true, m := 0 }
  else { b with slot := true, stage := 0, cause := cause, m := 0 }

def Boot.check (b : Boot) (i : Image) : Boot :=
  if !signedOk i then b.reject 1 else if !versionOk b i then b.reject 2 else b.advance i

def execBootStageCheck (s : State) : Out :=
  if s.boot.recovery || decide (2 ≤ s.boot.stage.toNat) then .fault .noSuchEvent
  else .next { s with boot := s.boot.check s.ev.image }

/-- In recovery an image arrives; one that passes the first stage's checks becomes that stage. -/
def execRecoveryImage (s : State) : Out :=
  if !s.boot.recovery then .fault .noSuchEvent
  else if signedOk s.ev.image && versionOk s.boot s.ev.image then
    .next { s with boot := { s.boot with stage := 0, cause := 0, recovery := false, m := 0 }.advance s.ev.image }
  else .next s

/-! ## Self-test (R46, R483) -/

/-- The sound physical cores of a die. -/
def soundCores (faulty : List Nat) (die : Nat) : List Nat := (countFrom 0 34).filter fun p => !faulty.contains (die * 34 + p)

/-- The physical core behind a logical number of a die: its own place, or, where that is faulty, the next sound spare in
ascending order; which spare takes which number the spec leaves open (R46). (DESIGN CHOICE, log 73) -/
def placeOf (faulty : List Nat) (die i : Nat) : Nat :=
  if !faulty.contains (die * 34 + i) then i
  else
    let before := ((countFrom 0 i).filter fun j => faulty.contains (die * 34 + j)).length
    ((soundCores faulty die).filter fun p => decide (32 ≤ p)).getD before i

/-- A reading of no stated value. -/
def freeReading (free : Nat) : Int :=
  let n := Config.freeNat free
  if n % 2 = 0 then (n / 2 : Nat) else -((n / 2 : Nat) : Int) - 1

/-- The first samples, which self-test takes of the physical cores that have none (R475): readings of no stated value, which the
fault rules judge like any (R473). -/
def firstSamples (s : State) : State :=
  let smp : Sample := ((countFrom 0 136).filter fun ph => (s.sensOf ph).t0.isNone).map fun ph =>
    { phys := ph, t0 := freeReading (s.free + 6 * ph), t1 := freeReading (s.free + 6 * ph + 1)
      current := (countFrom 0 4).map fun b => Config.freeNat (s.free + 6 * ph + 2 + b), cfault := 0 }
  smp.foldl (fun (t : State) r => t.takeCore s smp r) { s with free := s.free + 816 }

/-- A die that is short of sound cores, the first. -/
def shortDie (faulty : List Nat) : Option Nat := (countFrom 0 4).find? fun d => decide ((soundCores faulty d).length < 32)

/-- Every logical core changed. -/
def State.mapCores (s : State) (f : Nat → Core → Core) : State :=
  (countFrom 0 128).foldl (fun s n => State.setCore s n (f n (s.core n))) s

/-- What the extended test does beside: it marches over all volatile storage, whose contents are then as at power-on, and trains
every link that is down and in service. (DESIGN CHOICE, log 50) -/
def State.extended (s : State) : State :=
  { s with mem := [], poison := [], l2dirty := []
           ports := (countFrom 0 16).foldl (fun m n =>
             let p := s.portOf n
             if p.st = .down && !p.dis then tset m n { p with st := .train } else m) s.ports }

/-- The self-test begins, standard or extended, and finds the faulty physical cores: MOVING is set for the logical cores that
spares are to back (R45, R47). (DESIGN CHOICE, log 50) -/
def State.testBegin (s : State) (f : List Nat) : State :=
  let ext := !s.boot.shocks.isEmpty
  let s : State := { s with faulty := f, boot := { s.boot with stage := 3, stext := ext } }
  (if ext then s.extended else s).mapCores fun n c =>
    { c with moving := (shortDie f).isNone && decide (placeOf f (n / 32) (n % 32) ≠ c.phys.toNat) }

/-- The self-test ends: a die short of sound cores fails it; else spares take the numbers of faulty cores, every sensor has a
sample, shock records are acknowledged and launches are accepted. -/
def State.testEnd (s : State) : State :=
  match shortDie s.faulty with
  | some d => { s with boot := { s.boot with stage := 0xFF, cause := 4, die := BitVec.ofNat 2 d } }
  | none =>
    let t := s.mapCores fun n c => { c with phys := BitVec.ofNat 6 (placeOf s.faulty (n / 32) (n % 32)), moving := false }
    { firstSamples t with boot := { (firstSamples t).boot with stage := 4, ready := true, shocks := [] } }

/-- Self-test: it begins once firmware runs, and ends, an extended one after every link in training has trained or failed. -/
def execSelfTest (s : State) : Out :=
  if s.boot.stage = 2 then .next (s.testBegin s.ev.nums)
  else if s.boot.stage = 3 && !(s.boot.stext && (countFrom 0 16).any fun n => decide ((s.portOf n).st = .train)) then .next s.testEnd
  else .fault .noSuchEvent

/-- A shock above 10 g recorded while the module has no power. -/
def execShockRecord (s : State) : Out :=
  if !s.supply.off then .fault .noSuchEvent
  else .next (if 10000 < s.ev.x then { s with boot := { s.boot with shocks := s.boot.shocks ++ [s.ev.x] } } else s)

/-- An attestation request answered (R482). -/
def execAttestationRequest (s : State) : Out :=
    let a := Config.mlDsaSign (sha3 (bytes32 s.boot.m ++ bytes32 s.ev.nonce))
    .next { s with boot := { s.boot with answer := a } }

/-! ## Belvedere -/

/-- A write of FREEZE; ignored while frozen. -/
def execBvctlFreeze (s : State) : Out := .next s.freeze

/-- The FREEZE instruction of the test port. -/
def execJtagFreeze (s : State) : Out := .next s.freeze

/-- A write of THAW; ignored unless frozen. -/
def execBvctlThaw (s : State) : Out := .next s.thaw

/-- Read-out of frozen dies changes nothing. -/
def execBelvedereReadout (s : State) : Out := if s.frozen then .next s else .fault .noSuchEvent

end Sys2Proof.Machine
end

