-- ==== Sys2Proof/Machine/Vector.lean ====
section
/-! DEFINITION. Lane-wise vector instructions: float, integer and bit operations, conversions, q4 blocks, special functions
and exponent support (R283 to R296, R301 to R303). -/

namespace Sys2Proof.Machine

open Sys2Proof

/-! ## The mould of R283 -/

/-- A lane-wise instruction on elements: `op lane j a b c` on the bits of element j. -/
def lanewise (s : State) (f : FmtA) (op : Warp → Nat → Nat → Nat → Nat → Nat → Nat) : Out :=
  onWarp s fun w =>
    let t := f.dt
    writeD w f.d t.is64 fun l =>
      let a := srcA w f t l
      let b := srcB w f t l
      let c := srcC w f t l
      elemsPack t.width (fun j => op w l j (elemGet t.width a j) (elemGet t.width b j) (elemGet t.width c j)) t.elems

/-- A rounded float instruction: one rounding and one draw an element (R285). `g` gives the exact value; its first
argument says that the rounding is RDN. -/
def vecFloat (s : State) (f : FmtA) (g : Bool → FVal → FVal → FVal → FVal) : Out :=
  onWarp s fun w =>
    let t := f.dt
    let v := valueOf t
    let w' := writeD w f.d false fun l =>
      let a := srcA w f t l
      let b := srcB w f t l
      let c := srcC w f t l
      elemsPack t.width (fun j =>
        let r := laneRound w t f.cc l j
        narrow (fmtOf t) r
          (g (decide (r.mode = .rdn)) (v (elemGet t.width a j)) (v (elemGet t.width b j)) (v (elemGet t.width c j)))) t.elems
    drawLanes w' t f.cc t.elems

/-- An exact float instruction. -/
def exactFloat (s : State) (f : FmtA) (g : FVal → FVal → FVal) : Out :=
  lanewise s f fun _ _ _ a b _ => narrow (fmtOf f.dt) rne (g (valueOf f.dt a) (valueOf f.dt b))

/-! ## Major 0x30 (R286) -/

def execVaddFloat (f : FmtA) (s : State) : Out := vecFloat s f fun rdn a b _ => sumF rdn [a, b]
def execVsubFloat (f : FmtA) (s : State) : Out := vecFloat s f fun rdn a b _ => sumF rdn [a, b.neg]
def execVmulFloat (f : FmtA) (s : State) : Out := vecFloat s f fun _ a b _ => mulF a b
def execVfma (f : FmtA) (s : State) : Out := vecFloat s f fun rdn a b c => sumF rdn [mulF a b, c]
def execVmaxFloat (f : FmtA) (s : State) : Out := exactFloat s f (pickF true)
def execVminFloat (f : FmtA) (s : State) : Out := exactFloat s f (pickF false)
def execVabsFloat (f : FmtA) (s : State) : Out := exactFloat s f fun a _ => a.abs

/-- All ones where the condition holds. -/
def ones (w : Nat) (b : Bool) : Nat := if b then 2 ^ w - 1 else 0

def execVsetcFloat (f : FmtA) (s : State) : Out :=
  lanewise s f fun _ _ _ a b _ => ones f.dt.width (compareBits (ccOf f.cc) f.dt a b)

/-! ## Major 0x31 (R287, R288) -/

/-- An exact integer result narrowed to the element. -/
def vecInt (s : State) (f : FmtA) (g : Int → Int → Int → Int) : Out :=
  lanewise s f fun w _ _ a b c => narrowInt w.nmode f.dt (g (intOf f.dt a) (intOf f.dt b) (intOf f.dt c))

def execVaddInt (f : FmtA) (s : State) : Out := vecInt s f fun a b _ => a + b
def execVsubInt (f : FmtA) (s : State) : Out := vecInt s f fun a b _ => a - b
def execVmulInt (f : FmtA) (s : State) : Out := vecInt s f fun a b _ => a * b
def execVmad (f : FmtA) (s : State) : Out := vecInt s f fun a b c => a * b + c
def execVabsInt (f : FmtA) (s : State) : Out := vecInt s f fun a _ _ => a.natAbs
def execVmaxInt (f : FmtA) (s : State) : Out :=
  lanewise s f fun _ _ _ a b _ => if intOf f.dt a < intOf f.dt b then b else a
def execVminInt (f : FmtA) (s : State) : Out :=
  lanewise s f fun _ _ _ a b _ => if intOf f.dt b < intOf f.dt a then b else a
def execVsetcInt (f : FmtA) (s : State) : Out :=
  lanewise s f fun _ _ _ a b _ => ones f.dt.width (compareBits (ccOf f.cc) f.dt a b)
def execVmulhi (f : FmtA) (s : State) : Out :=
  lanewise s f fun _ _ _ a b _ => lowInt f.dt.width (intOf f.dt a * intOf f.dt b / (2 ^ f.dt.width : Int))

/-! ## Major 0x32 (R289) -/

def execVand (f : FmtA) (s : State) : Out := lanewise s f fun _ _ _ a b _ => a &&& b
def execVor (f : FmtA) (s : State) : Out := lanewise s f fun _ _ _ a b _ => a ||| b
def execVxor (f : FmtA) (s : State) : Out := lanewise s f fun _ _ _ a b _ => a ^^^ b
def execVnot (f : FmtA) (s : State) : Out := lanewise s f fun _ _ _ a _ _ => 2 ^ 32 - 1 - a
def execVshl (f : FmtA) (s : State) : Out := lanewise s f fun _ _ _ a b _ => shlN f.dt.width a b
def execVshr (f : FmtA) (s : State) : Out :=
  lanewise s f fun _ _ _ a b _ => lowInt f.dt.width (intOf f.dt a / ((2 ^ (b % f.dt.width) : Nat) : Int))
def execVpopc (f : FmtA) (s : State) : Out := lanewise s f fun _ _ _ a _ _ => popN 32 a
def execVclz (f : FmtA) (s : State) : Out := lanewise s f fun _ _ _ a _ _ => clzN 32 a
def execVbfx (f : FmtA) (s : State) : Out := lanewise s f fun _ _ _ a b _ => lowInt 32 (bfxI f.dt.signed 32 a b)
def execVbfi (f : FmtA) (s : State) : Out := lanewise s f fun _ _ _ a b c => bfiN 32 a b c
def execVsel (f : FmtA) (s : State) : Out := lanewise s f fun _ _ _ a b c => (a &&& c) ||| (b &&& (2 ^ 32 - 1 - c))
def execVmov (f : FmtA) (s : State) : Out := lanewise s f fun _ _ _ a _ _ => a
def execVmovi (f : FmtA) (s : State) : Out := lanewise s f fun _ _ _ _ b _ => b

/-! ## Conversions (R290, R291) -/

/-- The current contents of D in a lane, a pair where the type has 64 bits. -/
def oldD (w : Warp) (f : FmtA) (l : Nat) : Word :=
  if f.dt.is64 then laneGet (w.vAt (w.pos f.d + 1)) l ++ laneGet (w.getV f.d) l else (laneGet (w.getV f.d) l).setWidth 64

/-- One element converted; the destination's other elements stay. -/
def convertLane (s : State) (f : FmtA) : Out :=
  onWarp s fun w =>
    let src := (srcT f).getD .f32
    let w' := writeD w f.d f.dt.is64 fun l =>
      let x := valueOf src (elemGet src.width (readSrc w f.a f.modA src l) (selt f))
      elemSet f.dt.width (oldD w f l) (delt f) (convertTo f.dt (laneRound w f.dt f.cc l 0) x)
    drawLanes w' f.dt f.cc 1

def execVcvt (f : FmtA) (s : State) : Out := convertLane s f
/-- Float to integer (R291). -/
def execVcvti (f : FmtA) (s : State) : Out := convertLane s f
/-- Integer to float (R291). -/
def execVcvtf (f : FmtA) (s : State) : Out := convertLane s f

/-! ## Packing (R292) -/

def half (f : FmtA) : Nat := if f.imm16.getLsbD 0 then 1 else 0

/-- An FP32 source of a lane. -/
def f32At (w : Warp) (r : BitVec 6) (m : BitVec 12) (l : Nat) : FVal := decodeF (fmtOf .f32) (readLane w (w.pos r) m .f32 l).toNat

def execVpack (f : FmtA) (s : State) : Out :=
  onWarp s fun w =>
    let t := f.dt
    let w' := writeD w f.d false fun l =>
      let a := narrow (fmtOf t) (laneRound w t f.cc l 0) (f32At w f.a f.modA l)
      let b := narrow (fmtOf t) (laneRound w t f.cc l 1) (f32At w f.b f.modB l)
      elemSet t.width (elemSet t.width (oldD w f l) (2 * half f) a) (2 * half f + 1) b
    drawLanes w' t f.cc 2

/-- Two elements widened exactly into D and D + 1. -/
def execVunpk (f : FmtA) (s : State) : Out :=
  onWarp s fun w =>
    let t := f.dt
    writeD w f.d true fun l =>
      let x := srcA w f t l
      let wide (j : Nat) : W32 := BitVec.ofNat 32 (narrow (fmtOf .f32) rne (valueOf t (elemGet t.width x j)))
      wide (2 * half f + 1) ++ wide (2 * half f)

/-! ## q4 blocks (R293 to R295) -/

/-- The least scale exponent of a block, if one of 0 to 62 serves. -/
def leastScale (mx : Nat) (m : FVal) : Option Nat :=
  (countFrom 0 63).find? fun e => decide (cmpF m (.fin false mx ((e : Int) - 32)) ≤ 0)

/-- vq4scl: the scale byte of the active lanes' values. -/
def execVq4scl (f : FmtA) (s : State) : Out :=
  onWarp s fun w =>
    let ty := (f.imm16.extractLsb' 0 2).toNat
    let mx := match ty with | 0 => 7 | 1 => 6 | 2 => 8 | _ => 12
    let v := (lanesIn w.em).map fun l => (f32At w f.a f.modA l).abs
    let m := v.foldl (pickF true) (.fin false 0 0)
    let e :=
      if anyNan v then 63
      else match leastScale mx m with
        | some e => e
        | none => if satOf w.nmode .q4 then 62 else 63
    writeD w f.d false fun _ => BitVec.ofNat 64 (ty * 64 + e)

/-- The scale byte in v[B]. -/
def scaleByte (w : Warp) (f : FmtA) (l : Nat) : Nat := (readLane w (w.pos f.b) f.modB .b32 l).toNat % 256

def nibble (f : FmtA) : Nat := (f.imm16.extractLsb' 0 3).toNat

def execVq4enc (f : FmtA) (s : State) : Out :=
  onWarp s fun w =>
    let w' := writeD w f.d false fun l =>
      let sb := scaleByte w f l
      let sb := if sb % 64 = 63 then sb - 1 else sb
      let c := { laneRound w .q4 f.cc l 0 with sat := true }
      elemSet 4 ((laneGet (w.getV f.d) l).setWidth 64) (nibble f) (q4Encode c sb (f32At w f.a f.modA l)).1
    drawLanes w' .q4 f.cc 1

def execVq4dec (f : FmtA) (s : State) : Out :=
  onWarp s fun w =>
    writeD w f.d false fun l =>
      let code := elemGet 4 ((readLane w (w.pos f.a) f.modA .b32 l).setWidth 64) (nibble f)
      BitVec.ofNat 64 (narrow (fmtOf .f32) rne (q4Value (scaleByte w f l) code))

/-! ## Special functions (R296) -/

/-- The value in every active lane, owed under flag B; with em = 0 nothing is owed. -/
def special (s : State) (f : FmtA) (fn : SFun) : Out :=
  match s.curWarp with
  | none => .fault .noWarp
  | some w =>
    if w.em = 0 then .next (s.setWarp s.cur w.noResultB)
    else
      let t := f.dt
      let v := lanesOf fun l =>
        let x := srcA w f t l
        (elemsPack t.width (fun j =>
          specialBits fn (fmtOf t) (laneRound w t f.cc l j) (valueOf t (elemGet t.width x j))) t.elems).setWidth 32
      let k := s.token
      .next (k.2.setWarp s.cur ((drawLanes w t f.cc t.elems).oweB k.1 true [.v (w.pos f.d) w.em v]))

def execVexp2 (f : FmtA) (s : State) : Out := special s f .exp2
def execVlog2 (f : FmtA) (s : State) : Out := special s f .log2
def execVrcp (f : FmtA) (s : State) : Out := special s f .rcp
def execVrsq (f : FmtA) (s : State) : Out := special s f .rsq
def execVtanh (f : FmtA) (s : State) : Out := special s f .tanh

/-! ## Exponent support (R301 to R303) -/

/-- Significand and exponent of an FP32 value, as codes. -/
def frexp (x : FVal) : Nat × W32 :=
  match x with
  | .fin neg m e =>
    if m = 0 then (narrow (fmtOf .f32) rne x, 0)
    else
      let n : Int := (bitLen m : Int) - 1
      (narrow (fmtOf .f32) rne (.fin neg m (-n)), BitVec.ofInt 32 (e + n))
  | x => (narrow (fmtOf .f32) rne x, 0)

def execVfrexp (f : FmtA) (s : State) : Out :=
  onWarp s fun w =>
    writeD w f.d true fun l =>
      let r := frexp (f32At w f.a f.modA l)
      r.2 ++ BitVec.ofNat 32 r.1

def execVldexp (f : FmtA) (s : State) : Out :=
  onWarp s fun w =>
    let t := f.dt
    writeD w f.d false fun l =>
      let x := srcA w f t l
      let n : W32 := if f.i then (immA f).setWidth 32 else readLane w (w.pos f.b) f.modB .i32 l
      elemsPack t.width (fun j => scaleF (fmtOf t) (satOf w.nmode t) (valueOf t (elemGet t.width x j)) n.toInt) t.elems

/-- ⌈b⌉ clamped to 32 signed bits; −∞ and NaN give the least. -/
def ceilInt (x : FVal) : Int :=
  match x with
  | .nan | .inf true => -(2 ^ 31)
  | .inf false => 2 ^ 31 - 1
  | .fin neg m e => max (-(2 ^ 31)) (min (2 ^ 31 - 1) (roundInt { mode := .rup, sat := true, u := 0 } neg m e))

def execVexpmax (f : FmtA) (s : State) : Out :=
  onWarp s fun w =>
    writeD w f.d false fun l =>
      let a := (readLane w (w.pos f.a) f.modA .i32 l).toInt
      BitVec.ofInt 64 (max a (ceilInt (f32At w f.b f.modB l)))

end Sys2Proof.Machine
end

