-- ==== Sys2Proof/Machine/CrossLane.lean ====
section
/-! DEFINITION. Cross-lane instructions: permutes, votes, reductions and scans (R297 to R300, R251). -/

namespace Sys2Proof.Machine

open Sys2Proof

/-! ## Permutes (R298) -/

def execVperm (f : FmtA) (s : State) : Out :=
  onWarp s fun w =>
    writeD w f.d f.dt.is64 fun l =>
      let j := if f.i then (immA f).toNat % 32 else (readLane w (w.pos f.b) f.modB .i32 l).toNat % 32
      srcA w f f.dt j

def execVbcast (f : FmtA) (s : State) : Out :=
  onWarp s fun w => writeD w f.d f.dt.is64 fun _ => srcA w f f.dt ((lanesIn w.em).headD 0)

/-! ## Votes (R299) -/

/-- The active lanes that hold a nonzero value. -/
def votes (w : Warp) (f : FmtA) : W32 := maskOf fun j => maskBit w.em j && readLane w (w.pos f.a) f.modA .b32 j != 0

def execVany (f : FmtA) (s : State) : Out :=
  onWarp s fun w => writeD w f.d false fun _ => if votes w f = 0 then 0 else 1

def execVall (f : FmtA) (s : State) : Out :=
  onWarp s fun w => writeD w f.d false fun _ => if votes w f = w.em then 1 else 0

def execVballot (f : FmtA) (s : State) : Out :=
  onWarp s fun w => writeD w f.d false fun _ => (votes w f).setWidth 64

def execVmatch (f : FmtA) (s : State) : Out :=
  onWarp s fun w =>
    writeD w f.d false fun l =>
      (maskOf fun j => maskBit w.em j && srcA w f f.dt j == srcA w f f.dt l).setWidth 64

/-! ## Reductions and scans (R300) -/

/-- The combining operations. -/
inductive Comb where
  | add | max | min
  deriving DecidableEq, Repr

/-- One element combined with another. -/
def combElem (nmode : W32) (t : DT) (k : Comb) (x y : Nat) : Nat :=
  if t.isFloat then
    let a := valueOf t x
    let b := valueOf t y
    match k with
    | .add => narrow (fmtOf t) { mode := .rne, sat := satOf nmode t, u := 0 } (sumF false [a, b])
    | .max => narrow (fmtOf t) rne (pickF true a b)
    | .min => narrow (fmtOf t) rne (pickF false a b)
  else
    match k with
    | .add => (x + y) % 2 ^ t.width
    | .max => if intOf t x < intOf t y then y else x
    | .min => if intOf t y < intOf t x then y else x

/-- The identity of a combination, as an element. -/
def combUnit (t : DT) (k : Comb) : Nat :=
  if t.isFloat then
    match k with
    | .add => (fmtOf t).signBit
    | .max => (fmtOf t).signBit + (fmtOf t).inf
    | .min => (fmtOf t).inf
  else
    match k with
    | .add => 0
    | .max => lowInt t.width (minInt t)
    | .min => lowInt t.width (maxInt t)

/-- Two lanes combined element by element. -/
def combLane (nmode : W32) (t : DT) (k : Comb) (x y : Word) : Word :=
  elemsPack t.width (fun j => combElem nmode t k (elemGet t.width x j) (elemGet t.width y j)) t.elems

/-- The identity in every element. -/
def unitLane (t : DT) (k : Comb) : Word := elemsPack t.width (fun _ => combUnit t k) t.elems

/-- The lanes' values as they enter. -/
def enterLanes (w : Warp) (f : FmtA) (k : Comb) : List Word :=
  (countFrom 0 32).map fun j => if maskBit w.em j then srcA w f f.dt j else unitLane f.dt k

/-- A lane's elements, a NaN as its format's canonical one (R239). -/
def canonLane (t : DT) (x : Word) : Word :=
  if t.isFloat then
    elemsPack t.width (fun j => let y := elemGet t.width x j; if (valueOf t y).isNan then (fmtOf t).nan else y) t.elems
  else x

/-- One step of a reduction at a distance. -/
def redStep (w : Warp) (t : DT) (k : Comb) (x : List Word) (d : Nat) : List Word :=
  (countFrom 0 32).map fun l => combLane w.nmode t k (x.getD l 0) (x.getD (l ^^^ d) 0)

/-- One step of a scan at a distance. -/
def scanStep (w : Warp) (t : DT) (k : Comb) (x : List Word) (d : Nat) : List Word :=
  (countFrom 0 32).map fun l => if d ≤ l then combLane w.nmode t k (x.getD (l - d) 0) (x.getD l 0) else x.getD l 0

def distances : List Nat := [1, 2, 4, 8, 16]

def reduce (s : State) (f : FmtA) (k : Comb) : Out :=
  onWarp s fun w =>
    let x := distances.foldl (redStep w f.dt k) (enterLanes w f k)
    writeD w f.d f.dt.is64 fun l => x.getD l 0

def scan (s : State) (f : FmtA) (k : Comb) : Out :=
  onWarp s fun w =>
    let x := (distances.foldl (scanStep w f.dt k) (enterLanes w f k)).map (canonLane f.dt)
    writeD w f.d f.dt.is64 fun l =>
      if f.imm16.getLsbD 0 then (if l = 0 then unitLane f.dt k else x.getD (l - 1) 0) else x.getD l 0

def execVredadd (f : FmtA) (s : State) : Out := reduce s f .add
def execVredmax (f : FmtA) (s : State) : Out := reduce s f .max
def execVredmin (f : FmtA) (s : State) : Out := reduce s f .min
def execVscanadd (f : FmtA) (s : State) : Out := scan s f .add
def execVscanmax (f : FmtA) (s : State) : Out := scan s f .max

end Sys2Proof.Machine
end

