-- ==== Sys2Proof/Machine/Cube.lean ====
section
/-! DEFINITION. The cube array: its commands (R341, R342, R354 to R359), the matrix queue (R344 to R350), the
operations performed (R332 to R335, R351, R357, R358), bands (R337). -/

namespace Sys2Proof.Machine

open Sys2Proof

/-! ## Sets as the queue will leave them -/

/-- The formats and depths of a set's planes. -/
structure SetView where
  b : Option (DT × Nat)
  g : Option (DT × Nat)
  kv : Option (DT × Nat)
  deriving DecidableEq, Repr

def StSet.view (x : StSet) : SetView :=
  let f (p : Option Plane) : Option (DT × Nat) := p.map fun p => (p.fmt, p.k)
  { b := f x.b, g := f x.g, kv := f x.kv }

def ArrayState.set (a : ArrayState) (n : Nat) : StSet := if n = 0 then a.set0 else a.set1
def ArrayState.putSet (a : ArrayState) (n : Nat) (x : StSet) : ArrayState :=
  if n = 0 then { a with set0 := x } else { a with set1 := x }

/-- A set after a command issued earlier. -/
def SetView.after (v : SetView) (set : Nat) (c : CubeCmd) : SetView :=
  match c with
  | .ldb n fmt k _ _ _ => if n = set then { b := some (fmt, k), g := none, kv := none } else v
  | .ldg n fmt k _ _ => if n = set then { v with g := some (fmt, k) } else v
  | .ldk n fmt k _ => if n = set then { v with kv := some (fmt, k) } else v
  | _ => v

/-- A set as an operation issued now will find it: through the context's queued commands and, in a deterministic round,
the warp's held ones (R345, R348). -/
def setAhead (s : State) (w : Warp) (set : Nat) : SetView :=
  let c := s.core w.core
  let queued := (c.cq.filter fun e => e.ctx = w.ctx).map fun e => e.cmd
  let held := w.held.filterMap fun h =>
    match h with
    | .cmd x => (match x.body with | .cube cmd _ _ _ => some cmd | _ => none)
    | _ => none
  (queued ++ held).foldl (fun v c => v.after set c) ((c.arrayOf w.ctx).set set).view

/-- The G format that counts towards an operation's class (R330). -/
def gateFmts (ori : Ori) (fg : DT) (v : SetView) : List DT :=
  match ori with
  | .ik => [fg]
  | .kj => (v.g.map fun g => [g.1]).getD []
  | _ => []

/-- The legality table (R340). -/
def shapeOk (ashape : W32) (ori : Ori) (fa fg : DT) (v : SetView) : Bool :=
  match v.b with
  | none => false
  | some (fb, k) =>
    depthOk (bandCount ashape) (factorOf ([fa, fb] ++ gateFmts ori fg v)) k (fa == .q4 || fb == .q4)
    && (match ori with
        | .kj => v.g.map Prod.snd == some k
        | .k => v.kv.map Prod.snd == some k
        | _ => true)

/-! ## Checks at issue (R341, R342) -/

/-- A run of bytes cut where an address is a multiple of 1 KiB: no element crosses such an address, and every bound of R10 to
R28 is one. `n` bounds the pieces. -/
def cutKib : Nat → Word → Nat → List (Word × Nat)
  | 0, _, _ => []
  | n + 1, va, len =>
    if len = 0 then []
    else
      let k := min len (1024 - va.toNat % 1024)
      (va, k) :: cutKib n (va + BitVec.ofNat 64 k) (len - k)

/-- Step 3 over one operand plane: its first element with its alignment, then every element of every row, each an access of its
own (R343), so that a fault names the first byte of the element that fails (R63). -/
def cubeRows (s : State) (wh : Who) (align : Nat) (base : Word) (rows : List (Word × Nat)) : Except Halt (State × List Xlat) :=
  let wh := { wh with operand := true }
  match resolve s wh .load base align true with
  | .error f => .error (.trap (f.trap false 0 base))
  | .ok (s, _) =>
    foldE (fun (a : State × List Xlat) r =>
      match resolve a.1 wh .load r.1 r.2 false with
      | .error f => Except.error (Halt.trap (f.trap false 0 r.1))
      | .ok (s, pa, k) => .ok (s, a.2 ++ [{ va := r.1, pa := pa, kind := k, len := r.2 }])) (s, [])
      (rows.flatMap fun r => cutKib (r.2 / 1024 + 2) r.1 r.2)

/-- Rows of equal length at a stride. -/
def rowsAt (base : Word) (stride rows len : Nat) : List (Word × Nat) :=
  (countFrom 0 rows).map fun i => (base + BitVec.ofNat 64 (i * stride), len)

/-- Step 4: where an operand byte may lie. -/
def sourceFault (wh : Who) (x : Xlat) : Option (BitVec 8) :=
  match vclass x.va with
  | .user | .sysHalf => if x.kind = .cached ∨ x.kind = .cap then none else some Cause.operandType
  | .scratchWin => if winOff x.va / 2 ^ 30 = wh.core % 4 then none else some Cause.windowPermission
  | .weightWin => none
  | _ => some Cause.windowPermission

/-- The operand planes of a command: the alignment and base of each, and its runs of bytes. -/
abbrev Planes := List (Nat × Word × List (Word × Nat))

/-- Steps 3 and 4 over the planes of a command: where its bytes lie. -/
def cubePlaces (s : State) (wh : Who) (planes : Planes) : Except Halt (State × List Xlat) :=
  match foldE (fun (a : State × List Xlat) p =>
      match cubeRows a.1 wh p.1 p.2.1 p.2.2 with
      | .error h => Except.error h
      | .ok (s, l) => .ok (s, a.2 ++ l)) (s, []) planes with
  | .error h => .error h
  | .ok (s, xl) =>
    match xl.findSome? fun x => (sourceFault wh x).map fun c => (c, x.va) with
    | some (c, va) => .error (.trap { cause := c, faddr := va })
    | none => .ok (s, xl)

/-- Steps 3 and 4, then the command issued. -/
def cubeIssue (s : State) (w : Warp) (f : FmtE) (cmd : CubeCmd) (planes : Planes) : Except Halt State :=
  match cubePlaces s w.who planes with
  | .error h => .error h
  | .ok (s, xl) => submit s w (.cube cmd f.prio.toNat w.ashape xl) f.d

/-! ## Stationary loads -/

def lFormat (f : FmtE) : DT := (lFmt f).getD .bf16

/-- The operand values that a load refuses (R355). -/
def loadOperandOk (size : Nat) (src : Word) (stride : Nat) : Bool :=
  decide (stride < 2 ^ 20) && stride % size == 0 && src.toNat % size == 0

def execCldb (f : FmtE) (s : State) : Out :=
  attemptH s fun w =>
    let fmt := lFormat f
    let k := lK f
    let size := elemSize fmt
    let src := w.getS f.a
    let stride := (w.getS f.b).toNat
    let scale := if lWS f then some (w.getS f.c) else none
    if !loadOperandOk size src stride then .error (.trap Trap.operand)
    else
      let rows := if fmt = .q4 then rowsAt src stride 32 (k / 32 * 17) else rowsAt src stride k (32 * size)
      cubeIssue s w f (.ldb (lSet f) fmt k src stride scale)
        ([(size, src, rows)] ++ (match scale with | some c => [(1, c, [(c, 32)])] | none => []))

def execCldg (f : FmtE) (s : State) : Out :=
  attemptH s fun w =>
    let fmt := lFormat f
    let size := elemSize fmt
    let src := w.getS f.a
    let stride := (w.getS f.b).toNat
    if !loadOperandOk size src stride then .error (.trap Trap.operand)
    else cubeIssue s w f (.ldg (lSet f) fmt (lK f) src stride) [(size, src, rowsAt src stride (lK f) (32 * size))]

def execCldk (f : FmtE) (s : State) : Out :=
  attemptH s fun w =>
    let fmt := lFormat f
    let size := elemSize fmt
    let src := w.getS f.a
    if src.toNat % size ≠ 0 then .error (.trap Trap.operand)
    else cubeIssue s w f (.ldk (lSet f) fmt (lK f) src) [(size, src, [(src, lK f * size)])]

/-! ## Contractions -/

/-- The planes that a contraction of a set of depth K reads. -/
def macPlanes (k : Nat) (ori : Ori) (fa fg : DT) (a g : Word) (astr gstr : Nat) (rs : Option Word) (nt : Nat) : Planes :=
  let m := 32 * nt
  let len (t : DT) : Nat := if t = .q4 then k / 32 * 17 else k * elemSize t
  [(elemSize fa, a, rowsAt a astr m (len fa))]
    ++ (if ori = .ik then [(elemSize fg, g, rowsAt g gstr m (len fg))] else [])
    ++ (match rs with | some c => [(1, c, [(c, m)])] | none => [])

/-- cmac3 and cmac at issue: shape, ranges, sources, queue. -/
def macIssue (s : State) (w : Warp) (f : FmtE) (ori : Ori) : Except Halt State :=
  let fa := (mFA f).getD .bf16
  let fg := (mFG f).getD .bf16
  let v := setAhead s w (mSet f)
  if !shapeOk w.ashape ori fa fg v then .error (.trap { cause := Cause.shape })
  else
    let a := w.getS f.a
    let g := w.getS f.b
    let rs := if mRS f then some (w.getS f.c) else none
    cubeIssue s w f (.mac ori (mSet f) fa fg a g (mAstr f) (mGstr f) rs (mZA f) (mT0 f) (mNT f))
      (macPlanes ((v.b.map Prod.snd).getD 0) ori fa fg a g (mAstr f) (mGstr f) rs (mNT f))

/-- A refused contraction issues at its retry: the loads accepted meanwhile may have changed its set, so its shape is checked again,
and with another depth its bytes too (R340, R341, R344). -/
def macAgain : Again := fun s _ w b =>
  match b with
  | .cube (.mac ori set fa fg a g astr gstr rs za t0 nt) prio ashape xl =>
    let v := setAhead s w set
    let planes := macPlanes ((v.b.map Prod.snd).getD 0) ori fa fg a g astr gstr rs nt
    if !shapeOk ashape ori fa fg v then .error { cause := Cause.shape }
    else if sumNat (xl.map fun x => x.len) = sumNat (planes.map fun p => sumNat (p.2.2.map Prod.snd)) then .ok (s, b)
    else match cubePlaces s w.who planes with
      | .ok (s, xl) => .ok (s, .cube (.mac ori set fa fg a g astr gstr rs za t0 nt) prio ashape xl)
      | .error (.trap t) => .error t
      | .error _ => .ok (s, b)
  | _ => .ok (s, b)

def execMatrixQueueRetry (s : State) : Out := retryCmd s (fun | .cube .. => true | _ => false) macAgain

def execCmac3 (f : FmtE) (s : State) : Out :=
  attemptH s fun w => macIssue s w f (match mOri f with | 0 => .ik | 1 => .kj | _ => .k)

def execCmac (f : FmtE) (s : State) : Out := attemptH s fun w => macIssue s w f .none

/-! ## Tile commands (R358) -/

def execCshift (f : FmtE) (s : State) : Out :=
  attemptH s fun w =>
    submit s w (.cube (.shift (fieldN f.imm20.toNat 0 3) (fieldN f.imm20.toNat 3 5) (f.imm20.getLsbD 8) w.em (w.pos f.c))
      f.prio.toNat w.ashape []) f.d

def execCdrain (f : FmtE) (s : State) : Out :=
  attemptH s fun w =>
    let tile := w.getS f.a
    let va := accWindow + tile * 4096
    let alloc := ((w.grid? s).map fun g => g.recd.accT).getD 0
    if alloc ≤ tile.toNat then .error (.trap { cause := Cause.windowRange, faddr := va })
    else match windowPlace s w.who .store va 4096 with
      | .error c => .error (.trap { cause := c, faddr := va })
      | .ok (pa, k) =>
        submit s w (.cube (.drain (fieldN f.imm20.toNat 0 3) tile.toNat (f.imm20.getLsbD 3)) f.prio.toNat w.ashape
          [{ va := va, pa := pa, kind := k, len := 4096 }]) f.d

def execCzero (f : FmtE) (s : State) : Out :=
  attemptH s fun w => submit s w (.cube (.zero (f.imm20.extractLsb' 0 8)) f.prio.toNat w.ashape []) f.d

/-! ## Shape and errors (R336, R359) -/

/-- The values that ashape takes. -/
def ashapeOk (v : W32) : Bool := v.extractLsb' 7 25 == 0 && decide (v.toNat / 16 ≤ 4) && bandsOk (bandCount v)

def execCshape (f : FmtE) (s : State) : Out :=
  attempt s fun w =>
    let v : W32 := (w.getS f.a).extractLsb' 0 32
    if ashapeOk v then .ok (s.setWarp s.cur { w with ashape := v }) else .error Trap.operand

def execCelog (f : FmtE) (s : State) : Out :=
  attempt s fun w =>
    let i := (w.getS f.a).toNat
    if 15 < i then .error Trap.operand
    else .ok (s.setWarp s.cur (w.oweB 0 true [.s f.d.toNat ((s.tl w.ctx w.core).log.getD i 0)]))

def execCeclr (_f : FmtE) (s : State) : Out :=
  attempt s fun w => .ok (s.setTl w.ctx w.core { s.tl w.ctx w.core with cerr := 0, log := [] })

/-! ## The queue (R345 to R349) -/

def CubeCmd.unit : CubeCmd → CubeUnit
  | .ldb .. | .ldg .. | .ldk .. => .load
  | .mac .. | .eval .. => .compute
  | _ => .tile

def CubeCmd.tiles : CubeCmd → List Nat
  | .mac _ _ _ _ _ _ _ _ _ _ t0 nt => countFrom t0 nt
  | .shift t .. | .drain t .. => [t]
  | .zero m | .eval m _ => (countFrom 0 8).filter fun t => m.getLsbD t
  | _ => []

/-- The sets that a command reads, and those it writes; an evaluation's entry may write either where one is lent. -/
def CubeCmd.readSets : CubeCmd → List Nat
  | .mac _ n .. => [n]
  | _ => []
def CubeCmd.writeSets : CubeCmd → List Nat
  | .ldb n .. | .ldg n .. | .ldk n .. => [n]
  | .eval _ true => [0, 1]
  | _ => []

/-- Whether two commands name a common tile, and whether they clash over a set. -/
def shareTile (x y : CubeCmd) : Bool := x.tiles.any fun t => y.tiles.contains t
def clashSet (x y : CubeCmd) : Bool :=
  x.writeSets.any (fun n => y.writeSets.contains n || y.readSets.contains n) || x.readSets.any fun n => y.writeSets.contains n
def shareSet (x y : CubeCmd) : Bool :=
  let l (c : CubeCmd) : List Nat := c.readSets ++ c.writeSets
  (l x).any fun n => (l y).contains n

/-- Whether an entry depends on no earlier entry. -/
def Core.eligible (c : Core) (e : CubeEnt) : Bool :=
  c.cq.all fun x => x.ctx != e.ctx || decide (e.seq ≤ x.seq) || !(shareTile x.cmd e.cmd || clashSet x.cmd e.cmd)

def CubeEnt.waiting (e : CubeEnt) : Bool := e.st == .queued || e.st == .suspended

/-- The cycles that an entry has waited by a time: those before it was last dispatched, and those since it waits (R346). -/
def CubeEnt.waited (e : CubeEnt) (now : Word) : Nat := if e.waiting then e.wait + (now - e.since).toNat else e.wait

/-- Effective priority: one more for every full 4,096 cycles of waiting (R346). -/
def CubeEnt.level (e : CubeEnt) (now : Word) : Nat := min 7 (e.prio + e.waited now / 4096)

/-- Of two entries, the one a unit takes: higher level, then older; of two issued in one cycle the owner's, then the one issued
first (R346). -/
def betterEnt (now : Word) (owner : Option Nat) (a b : CubeEnt) : CubeEnt :=
  let la := a.level now
  let lb := b.level now
  let mine (e : CubeEnt) : Bool := owner == some e.ctx
  if la < lb then b
  else if lb < la then a
  else if a.born ≠ b.born ∨ mine a = mine b then (if b.seq < a.seq then b else a)
  else if mine b then b
  else a

/-- The waiting entries of core `n` that could be taken by some unit: issue acts as a release towards the operation, so one waits
for the ordered lanes and the releases of its warp that precede it (R158, R181, R343). -/
def State.readyEnts (s : State) (n : Nat) : List CubeEnt :=
  (s.core n).cq.filter fun e => e.waiting && (s.core n).eligible e && s.advances e.ctx .cube && !s.gated e.warp e.tok

/-- The best of some entries. -/
def State.best (s : State) (n : Nat) : List CubeEnt → Option CubeEnt
  | [] => none
  | e :: r => some (r.foldl (betterEnt s.clock (s.core n).owner) e)

/-- The best eligible entry of a unit of core `n`. -/
def State.bestEnt (s : State) (n : Nat) (u : CubeUnit) : Option CubeEnt := s.best n ((s.readyEnts n).filter fun e => e.cmd.unit = u)

/-- The entry a unit of core `n` takes: none of another context while an eligible entry of the owner of higher priority waits,
for whichever unit (R349). -/
def State.takeEnt (s : State) (n : Nat) (u : CubeUnit) : Option CubeEnt :=
  let owner := (s.core n).owner
  let l := s.readyEnts n
  let kept (e : CubeEnt) : Bool :=
    owner == some e.ctx || l.all fun x => owner != some x.ctx || decide (x.level s.clock ≤ e.level s.clock)
  if (s.core n).paused then none else s.best n (l.filter fun e => e.cmd.unit = u && kept e)

/-- The array passes to a context (R349). -/
def Core.own (c : Core) (ctx : Nat) : Core :=
  if c.owner = some ctx then c
  else
    let saved := match c.owner with | some o => tset c.saved o c.array | none => c.saved
    { c with owner := some ctx, array := tgetD saved ctx .init, saved := tdel saved ctx }

/-- An entry set running: its waiting stops (R346). -/
def CubeEnt.start (e : CubeEnt) (now : Word) : CubeEnt := { e with st := .running, wait := e.waited now }

def Core.setEnt (c : Core) (e : CubeEnt) : Core := { c with cq := c.cq.map fun x => if x.seq = e.seq then e else x }

/-- A free unit takes its entry; another context's entry waits until no entry of the owner runs. -/
def execMatrixDispatch (s : State) : Out :=
  let n := s.ev.x
  let c := s.core n
  if c.cq.any fun e => e.cmd.unit = s.ev.unit && e.st == .running then .fault .noSuchEvent
  else match s.takeEnt n s.ev.unit with
    | none => .fault .noSuchEvent
    | some e =>
      if c.owner ≠ some e.ctx ∧ (c.cq.any fun x => x.st == .running) = true then .fault .noSuchEvent
      else
        let s := match c.owner with | some o => if o = e.ctx then s else s.saveClass o .cube | none => s
        .next (s.setCore n (((s.core n).own e.ctx).setEnt (e.start s.clock)))

/-- An entry has waited a further 4,096 cycles: they join its count. Its effective priority follows the clock in any case
(R346). -/
def execMatrixPriorityAge (s : State) : Out :=
  let c := s.core s.ev.x
  match c.cq[s.ev.y]? with
  | none => .fault .noSuchEvent
  | some e =>
    if e.waiting ∧ e.wait / 4096 < e.waited s.clock / 4096 then
      .next (s.setCore s.ev.x (c.setEnt { e with wait := e.waited s.clock, since := s.clock }))
    else .fault .noSuchEvent

/-! ## Operand reads (R342, R351) -/

/-- Bytes of a command's operands, each with the source of an error it met. -/
def cubeBytes (s : State) (n : Nat) (xl : List Xlat) (va : Word) (len : Nat) : State × List (Byte × Option Nat) :=
  (placesAt xl va len).foldl (fun (a : State × List (Byte × Option Nat)) x =>
    let r := a.1.pathBytes n .tile false x.kind x.pa x.len
    (r.1, a.2 ++ r.2.1.map fun b => (b, if r.2.2 then some (sourceCode x.kind) else none))) (s, [])

/-- Several runs of bytes in order. -/
def cubeRuns (s : State) (n : Nat) (xl : List Xlat) : List (Word × Nat) → State × List (List (Byte × Option Nat))
  | [] => (s, [])
  | p :: r =>
    let a := cubeBytes s n xl p.1 p.2
    let b := cubeRuns a.1 n xl r
    (b.1, a.2 :: b.2)

/-- An operand error found by an entry: plane, row, column, source. -/
abbrev OpErr := Nat × Nat × Nat × Nat

/-- The errors of an entry logged (R351 to R353). -/
def State.logErrors (s : State) (n : Nat) (e : CubeEnt) (l : List OpErr) : State :=
  if l.isEmpty then s
  else s.setTl e.ctx n (l.foldl (fun t x => t.cubeError e.num x.1 x.2.1 x.2.2.1 x.2.2.2 false) (s.tl e.ctx n))

/-- Elements of a run: codes, and errors by their index. -/
def runCodes (size : Nat) : Nat → Nat → List (Byte × Option Nat) → List Nat × List (Nat × Nat)
  | 0, _, _ => ([], [])
  | n + 1, i, b =>
    let h := b.take size
    let r := runCodes size n (i + 1) (b.drop size)
    match h.findSome? Prod.snd with
    | some src => (0 :: r.1, (i, src) :: r.2)
    | none => (bytesNat (h.map Prod.fst) :: r.1, r.2)

/-- The code of a value within a q4 block, and its error. -/
def q4At (b : List (Byte × Option Nat)) (j : Nat) : Nat × Option Nat :=
  let x := b.getD (1 + j / 2) (0, none)
  match x.2 with
  | some src => (0, some src)
  | none => (x.1.toNat / 2 ^ (4 * (j % 2)) % 16, none)

/-- A byte, zero where it met an error. -/
def byteAt (b : List (Byte × Option Nat)) (i : Nat) : Nat × Option Nat :=
  let x := b.getD i (0, none)
  match x.2 with | some src => (0, some src) | none => (x.1.toNat, none)

/-! ## Stationary loads performed (R335, R355) -/

/-- A plane of K rows of 32 elements, or a vector of K elements (`w` = 1), with its errors. -/
def loadPlane (s : State) (n : Nat) (e : CubeEnt) (fmt : DT) (k w : Nat) (src : Word) (stride plane : Nat) :
    State × Plane × List OpErr :=
  let size := elemSize fmt
  let r := cubeRuns s n e.xl (rowsAt src stride (if w = 1 then 1 else k) (size * (if w = 1 then k else 32)))
  let rows := (countFrom 0 r.2.length).map fun i => (i, runCodes size (if w = 1 then k else 32) 0 (r.2.getD i []))
  (r.1, { fmt := fmt, k := k, elems := rows.flatMap fun x => x.2.1, scales := [] },
    rows.flatMap fun x => x.2.2.map fun y => (plane, (if w = 1 then 0 else x.1), y.1, y.2))

/-- A q4 plane: 32 columns of K / 32 blocks. -/
def loadQ4 (s : State) (n : Nat) (e : CubeEnt) (k : Nat) (src : Word) (stride : Nat) : State × Plane × List OpErr :=
  let nb := k / 32
  let r := cubeRuns s n e.xl ((countFrom 0 (32 * nb)).map fun i =>
    (src + BitVec.ofNat 64 (i / nb * stride + i % nb * 17), 17))
  let blk (j b : Nat) : List (Byte × Option Nat) := r.2.getD (j * nb + b) []
  let at' (i : Nat) : Nat × Option Nat := q4At (blk (i % 32) (i / 32 / 32)) (i / 32 % 32)
  let es := countFrom 0 (k * 32)
  let ss := countFrom 0 (32 * nb)
  (r.1, { fmt := .q4, k := k, elems := es.map fun i => (at' i).1
          scales := ss.map fun i => (byteAt (blk (i / nb) (i % nb)) 0).1 },
    (es.filterMap fun i => (at' i).2.map fun src => (1, i / 32, i % 32, src))
      ++ ss.filterMap fun i => (byteAt (blk (i / nb) (i % nb)) 0).2.map fun src => (7, 0, i % nb, src))

/-- A stationary load performed: its part of the set is replaced whole. -/
def performLoadSet (s : State) (n : Nat) (e : CubeEnt) : State :=
  let put (s : State) (set : Nat) (f : StSet → StSet) : State :=
    let c := s.core n
    let a := c.arrayOf e.ctx
    s.setCore n (c.setArray e.ctx (a.putSet set (f (a.set set))))
  match e.cmd with
  | .ldb set fmt k src stride scale =>
    let r := if fmt = .q4 then loadQ4 s n e k src stride else loadPlane s n e fmt k 32 src stride 1
    let c := match scale with
      | none => (r.1, ([] : List (Byte × Option Nat)))
      | some va => cubeBytes r.1 n e.xl va 32
    let ws := scale.map fun _ => (countFrom 0 32).map fun j => (byteAt c.2 j).1
    let errs := r.2.2 ++ (countFrom 0 c.2.length).filterMap fun j => (byteAt c.2 j).2.map fun src => (6, 0, j, src)
    (put c.1 set fun _ => { b := some r.2.1, wscale := ws, g := none, kv := none }).logErrors n e errs
  | .ldg set fmt k src stride =>
    let r := loadPlane s n e fmt k 32 src stride 3
    (put r.1 set fun x => { x with g := some r.2.1 }).logErrors n e r.2.2
  | .ldk set fmt k src =>
    let r := loadPlane s n e fmt k 1 src 0 4
    (put r.1 set fun x => { x with kv := some r.2.1 }).logErrors n e r.2.2
  | _ => s

/-! ## Tile commands performed (R358) -/

/-- Tiles replaced from a function of the key. -/
def ArrayState.setTiles (a : ArrayState) (t0 nt : Nat) (f : Nat → W32) : ArrayState :=
  let lo := t0 * 1024
  { a with tiles := (a.tiles.filter fun p => decide (p.1 < lo))
      ++ ((countFrom lo (nt * 1024)).filterMap fun i => let x := f i; if x = 0 then none else some (i, x))
      ++ a.tiles.filter fun p => decide (lo + nt * 1024 ≤ p.1) }

def ArrayState.cell (a : ArrayState) (key : Nat) : W32 := tgetD a.tiles key 0

/-- One row of a drain written to the accumulator store, whole (R92). -/
def drainRow (s : State) (n : Nat) (e : CubeEnt) (t : Nat) : State :=
  let a := (s.core n).arrayOf e.ctx
  engineWrite s e.ctx (e.xl.map fun x => { x with pa := x.pa + e.step * 128, len := 128 })
    ((countFrom (t * 1024 + e.step * 32) 32).flatMap fun i => natBytes 4 (a.cell i).toNat)

/-- A tile command performed; the last row of a drain stands for its end (R358). -/
def performTile (s : State) (n : Nat) (e : CubeEnt) : State :=
  let c := s.core n
  let a := c.arrayOf e.ctx
  match e.cmd with
  | .zero m =>
    s.setCore n (c.setArray e.ctx ((countFrom 0 8).foldl (fun a t => if m.getLsbD t then a.setTiles t 1 fun _ => 0 else a) a))
  | .shift t row clr mask pos =>
    let lo := t * 1024 + row * 32
    let s := if !clr then s
      else s.setCore n (c.setArray e.ctx (a.setTiles t 1 fun i => if lo ≤ i ∧ i < lo + 32 then 0 else a.cell i))
    match s.warp? e.warp with
    | none => s
    | some w => s.setWarp e.warp (w.settle e.tok [.v pos mask (lanesOf fun l => a.cell (lo + l))])
  | .drain t _ clr =>
    let s := drainRow s n e t
    if clr then s.setCore n (c.setArray e.ctx (a.setTiles t 1 fun _ => 0)) else s
  | _ => s

/-! ## K-steps (R332, R347, R357) -/

/-- What a contraction's entry needs to know of its set. -/
structure MacShape where
  n : Nat
  f : Nat
  d : Nat
  steps : Nat
  k : Nat
  deriving DecidableEq, Repr

def macShape (e : CubeEnt) (ori : Ori) (fa fg : DT) (x : StSet) : MacShape :=
  let v := x.view
  let n := bandCount e.ashape
  let fb := (v.b.map Prod.fst).getD .bf16
  let f := factorOf ([fa, fb] ++ gateFmts ori fg v)
  let k := (v.b.map Prod.snd).getD 0
  { n := n, f := f, d := 8 * n * f, steps := k / (8 * n * f), k := k }

/-- The runs of bytes of rows `m` that k-step t reads of a streamed plane. -/
def slabRuns (fmt : DT) (base : Word) (stride m d t : Nat) : List (Word × Nat) :=
  if fmt = .q4 then
    let b0 := t * d / 32
    let nb := (t * d + d - 1) / 32 - b0 + 1
    (countFrom 0 m).map fun i => (base + BitVec.ofNat 64 (i * stride + b0 * 17), nb * 17)
  else (countFrom 0 m).map fun i => (base + BitVec.ofNat 64 (i * stride + t * d * elemSize fmt), d * elemSize fmt)

/-- The q4 blocks of a row that begin in one slab of depth d, or the one a shallower slab lies in. -/
def slabBlocks (d : Nat) : Nat := max 1 (d / 32)

/-- The scale bytes that the slabs of k-step t carry: those of their rows, or those of the q4 blocks that begin in them
(R332). (DEDUCED, log 37) -/
def scaleRuns (fa : DT) (a : Word) (astr m d t : Nat) (rs : Option Word) : List (Word × Nat) :=
  let q := slabBlocks d
  if fa = .q4 then
    if t * d % 32 ≠ 0 then []
    else (countFrom 0 (m * q)).map fun i => (a + BitVec.ofNat 64 (i / q * astr + (t * d / 32 + i % q) * 17), 1)
  else match rs with
    | some c => [(c, m)]
    | none => []

/-- Where the scale of row i and q4 block b stands among the bytes that the slabs brought. -/
def scaleAt (d m i b : Nat) : Nat := b / slabBlocks d * (m * slabBlocks d) + i * slabBlocks d + b % slabBlocks d

/-- Whether the lines of runs are present for an entry (R190). -/
def State.runsReady (s : State) (e : CubeEnt) (l : List (Word × Nat)) : Bool :=
  !s.owedIn e.seq (l.flatMap fun p => placesAt e.xl p.1 p.2)

/-- The code of position p of a row's slab, and its error. -/
def slabElem (fmt : DT) (t d p : Nat) (b : List (Byte × Option Nat)) : Nat × Option Nat :=
  if fmt = .q4 then
    let o := t * d % 32 + p
    q4At (b.drop (o / 32 * 17)) (o % 32)
  else
    let h := (b.drop (p * elemSize fmt)).take (elemSize fmt)
    match h.findSome? Prod.snd with
    | some src => (0, some src)
    | none => (bytesNat (h.map Prod.fst), none)

/-- Value of a plane's element. -/
def Plane.value (x : Plane) (i scale : Nat) : FVal :=
  if x.fmt = .q4 then q4Value (x.scales.getD scale 0) (x.elems.getD i 0) else valueOf x.fmt (x.elems.getD i 0)

/-- One k-step of a running contraction: its slabs read, every cell of its tiles updated. Of its errors those of scales are logged
first, then those of A, then those of G; a load's elements come before its scales. (DESIGN CHOICE, log 93) -/
def kstep (s : State) (n : Nat) (e : CubeEnt) (ori : Ori) (set : Nat) (fa fg : DT) (a g : Word) (astr gstr : Nat)
    (rs : Option Word) (za : Bool) (t0 nt : Nat) : State × CubeEnt :=
  let x := ((s.core n).arrayOf e.ctx).set set
  let sh := macShape e ori fa fg x
  let t := e.step
  let m := 32 * nt
  let sc := cubeRuns s n e.xl (scaleRuns fa a astr m sh.d t rs)
  let scb := sc.2.flatten
  let e := { e with sc := (if fa = .q4 then e.sc else []) ++ (countFrom 0 scb.length).map fun i => (byteAt scb i).1 }
  let ra := cubeRuns sc.1 n e.xl (slabRuns fa a astr m sh.d t)
  let rg := if ori = .ik then cubeRuns ra.1 n e.xl (slabRuns fg g gstr m sh.d t) else (ra.1, [])
  let s := rg.1
  let ea := ((countFrom 0 m).map fun i => ((countFrom 0 sh.d).map fun p => slabElem fa t sh.d p (ra.2.getD i [])).toArray).toArray
  let eg := ((countFrom 0 rg.2.length).map fun i =>
    ((countFrom 0 sh.d).map fun p => slabElem fg t sh.d p (rg.2.getD i [])).toArray).toArray
  let get (l : Array (Array (Nat × Option Nat))) (i p : Nat) : Nat × Option Nat := (l.getD i #[]).getD p (0, none)
  let nb := sh.k / 32
  let va (i k : Nat) : FVal :=
    let c := (get ea i (k - t * sh.d)).1
    if fa = .q4 then q4Value (e.sc.getD (scaleAt sh.d m i (k / 32)) 0) c
    else if rs.isSome then (valueOf fa c).scale (scaleExp (e.sc.getD i 0)) else valueOf fa c
  let vb (k j : Nat) : FVal :=
    match x.b with
    | none => .nan
    | some b =>
      let v := b.value (k * 32 + j) (j * nb + k / 32)
      match x.wscale with | some l => v.scale (scaleExp (l.getD j 0)) | none => v
  let vg (i k j : Nat) : Option FVal :=
    match ori with
    | .none => none
    | .ik => some (valueOf fg (get eg i (k - t * sh.d)).1)
    | .kj => x.g.map fun p => p.value (k * 32 + j) 0
    | .k => x.kv.map fun p => p.value k 0
  let prod (i j k : Nat) : FVal :=
    let ab := mulF (va i k) (vb k j)
    match vg i k j with | some y => mulF ab y | none => ab
  let c := s.core n
  let arr := c.arrayOf e.ctx
  let cell (key : Nat) : W32 :=
    let o := key - t0 * 1024
    let old := if za && t = 0 then 0 else arr.cell key
    kstepCell (accRnd e.ashape) sh.n sh.f t (prod (o / 32) (o % 32)) old
  let errs (l : Array (Array (Nat × Option Nat))) (plane : Nat) : List OpErr :=
    (countFrom 0 l.size).flatMap fun i => (countFrom 0 sh.d).filterMap fun p =>
      (get l i p).2.map fun src => (plane, i, t * sh.d + p, src)
  let scErrs : List OpErr := (countFrom 0 scb.length).filterMap fun i =>
    (byteAt scb i).2.map fun src => if fa = .q4 then (7, 0, t * sh.d / 32 + i % slabBlocks sh.d, src) else (5, i, 0, src)
  let s := s.setCore n (c.setArray e.ctx (arr.setTiles t0 nt cell))
  (s.logErrors n e (scErrs ++ errs ea 0 ++ errs eg 2),
    { e with step := t + 1, st := if sh.steps ≤ t + 1 then .done else .running })

/-- Whether a running contraction's next k-step can stream: its bands powered, its lines present. -/
def kstepReady (s : State) (n : Nat) (e : CubeEnt) : Bool :=
  match e.cmd with
  | .mac ori set fa fg a g astr gstr rs _ _ nt =>
    let sh := macShape e ori fa fg (((s.core n).arrayOf e.ctx).set set)
    let m := 32 * nt
    !(s.core n).paused && (e.ashape.extractLsb' 0 4 &&& ~~~(s.core n).bands) == 0
    && s.runsReady e (scaleRuns fa a astr m sh.d e.step rs ++ slabRuns fa a astr m sh.d e.step
        ++ (if ori = .ik then slabRuns fg g gstr m sh.d e.step else []))
  | _ => false

/-- The boundary check of R347: the running entry gives way to a strictly higher one that shares nothing with it, where entries of two
contexts share by the bare numbers of their tiles and sets. (DESIGN CHOICE, log 94) -/
def giveWay (s : State) (n : Nat) (e : CubeEnt) : CubeEnt :=
  match s.bestEnt n .compute with
  | some x =>
    if e.st = .running ∧ e.level s.clock < x.level s.clock ∧ shareTile e.cmd x.cmd = false ∧ shareSet e.cmd x.cmd = false then
      e.suspend s.clock
    else e
  | none => e

/-- A running contraction at a k-step: its slab streams, or, while its lines or its bands keep it waiting, only the boundary
check is made (R345, R347). -/
def execCubeKstepBoundary (s : State) : Out :=
  let n := s.ev.x
  match (s.core n).cq.find? fun e => e.cmd.unit = .compute && e.st == .running with
  | none => .fault .noSuchEvent
  | some e =>
    match e.cmd with
    | .mac ori set fa fg a g astr gstr rs za t0 nt =>
      if !kstepReady s n e then
        (let x := giveWay s n e
         if x = e then .fault .noSuchEvent else .next (s.setCore n ((s.core n).setEnt x)))
      else
        let r := kstep s n e ori set fa fg a g astr gstr rs za t0 nt
        .next ((r.1.setCore n ((r.1.core n).setEnt (giveWay r.1 n r.2))).lentFree n e.ctx)
    | _ =>
      let x := giveWay s n e
      if x = e then .fault .noSuchEvent else .next (s.setCore n ((s.core n).setEnt x))

/-- Whether an entry can retire: a contraction after its last k-step, another entry while it runs and its lines are
present. -/
def canRetire (s : State) (e : CubeEnt) : Bool :=
  match e.cmd.unit with
  | .compute => e.st == .done
  | _ => e.st == .running && !s.owedIn e.seq e.xl

/-- The tile of a drain that has more than its last row to write. -/
def CubeEnt.rowDue (e : CubeEnt) : Option Nat :=
  match e.cmd with | .drain t _ _ => if e.step < 31 then some t else none | _ => none

/-- An entry retires; a drain first writes its rows, one at a time (R92). -/
def execCubeRetire (s : State) : Out :=
  let n := s.ev.x
  match (s.core n).cq[s.ev.y]? with
  | none => .fault .noSuchEvent
  | some e =>
    if !canRetire s e || !s.advances e.ctx .cube then .fault .noSuchEvent
    else if let some t := e.rowDue then
      .next (((drainRow s n e t).setCore n (((drainRow s n e t).core n).setEnt { e with step := e.step + 1 })).lentFree n e.ctx)
    else
      let s := match e.cmd.unit with
        | .load => performLoadSet s n e
        | .tile => performTile s n e
        | .compute => s
      let c := s.core n
      .next (((s.setCore n { c with cq := c.cq.filter fun x => x.seq != e.seq }).complete e.ctx n 5 e.num).lentFree n e.ctx)

/-! ## Band power (R337) -/

/-- Whether a queued or running operation uses a band. -/
def Core.bandUsed (c : Core) (b : Nat) : Bool := c.cq.any fun e => e.cmd.unit = .compute && e.ashape.getLsbD (b % 4)

def execBandPowerUp (s : State) : Out :=
  let c := s.core s.ev.x
  let b := s.ev.y % 4
  if c.bands.getLsbD b then .fault .noSuchEvent
  else .next (s.setCore s.ev.x { c with bands := c.bands ||| BitVec.ofNat 4 (2 ^ b) })

def execBandPowerOff (s : State) : Out :=
  let c := s.core s.ev.x
  let b := s.ev.y % 4
  if !c.bands.getLsbD b || c.bandUsed b then .fault .noSuchEvent
  else .next (s.setCore s.ev.x { c with bands := c.bands &&& ~~~(BitVec.ofNat 4 (2 ^ b)) })

end Sys2Proof.Machine
end

