-- ==== Sys2Proof/Machine/Kiosk.lean ====
section
/-! DEFINITION. Kiosk units: launch and status (R128 to R130, R323, R324), the program of a run (R121 to R127, R327,
R328), its end (R133), and the controller's pauses (R136 to R138). -/

namespace Sys2Proof.Machine

open Sys2Proof

/-! ## Launch -/

/-- The Kiosk-range fault of a limit. (DEDUCED, log 34) -/
def Trap.kiosk : Trap := { cause := Cause.kioskRange }

/-- A descriptor's fields (R128). -/
def parseRun (w : Warp) (b : List Byte) : KRun :=
  { seq := 0, ctx := w.ctx, core := w.core, num := 0, ch := 0, prog := [], plen := fieldB b 8 4
    src := 0, slen := fieldB b 0x18 8, param := [], dst := [], dstVa := BitVec.ofNat 64 (fieldB b 0x28 8)
    dlen := fieldB b 0x30 8, recd := [], recVa := BitVec.ofNat 64 (fieldB b 0x38 8)
    desc := [], warp := 0, tok := 0 }

/-- The limits of R128. -/
def runOk (b : List Byte) : Bool :=
  let plen := fieldB b 8 4
  let slen := fieldB b 0x18 8
  fieldB b 0 8 % 8 == 0 && decide (1 ≤ plen) && decide (plen ≤ 256) && fieldB b 0xC 4 == 0
  && fieldB b 0x10 8 % 32768 == 0 && slen % 32768 == 0 && decide (32768 ≤ slen) && decide (slen ≤ 2 ^ 36)
  && fieldB b 0x20 8 % 128 == 0 && fieldB b 0x28 8 % 128 == 0 && decide (fieldB b 0x30 8 ≤ 2 ^ 32)
  && fieldB b 0x38 8 % 32 == 0

/-- The channel of a capacity-tier address, and its offset there (R33, R119). -/
def channelOf (pa : Nat) : Nat := (pa - capBase) / 2 ^ 36
def channelBase (ch : Nat) : Nat := capBase + ch * 2 ^ 36

/-- Whether places form one contiguous run of a channel. -/
def contiguous : List Xlat → Bool
  | x :: y :: r => x.pa + x.len == y.pa && contiguous (y :: r)
  | _ => true

/-- Whether the source range is capacity tier, contiguous and within one channel (R129). -/
def sourceOk (l : List Xlat) : Bool :=
  (l.all fun x => x.kind == .cap && channelOf x.pa == channelOf (x.pa + x.len - 1)) && contiguous l
  && (match l.head?, l.getLast? with
      | some x, some y => channelOf x.pa == channelOf y.pa
      | _, _ => false)

/-- A range of a run under R20 and R64, then its place under R129. -/
def runRange (s : State) (wh : Who) (need : Need) (va : Word) (len : Nat) (ok : List Xlat → Bool) :
    Except Halt (State × List Xlat) :=
  match resolveBytes s wh need va len with
  | .error f => .error (.trap (f.1.trap false 0 f.2))
  | .ok (s, l) =>
    if (l.any fun x => x.kind == .peer) || !ok l then .error (.trap { Trap.kiosk with faddr := va }) else .ok (s, l)

def memoryPlaces (l : List Xlat) : Bool := l.all fun x => x.kind == .cached || x.kind == .cap

/-- krun: the descriptor and its ranges checked, then the run queued (R129, R130, R323). Program, source, parameters, destination and
record are checked in this order, each through all its checks, and the first that fails gives the fault (DESIGN CHOICE, log 86). The
descriptor itself may lie behind a peer leaf, whose route serves its scalars when the run starts (DESIGN CHOICE, log 88). -/
def execKrun (f : FmtE) (s : State) : Out :=
  attemptH s fun w =>
    match readIssue s w (w.getS f.a) 128 128 with
    | .error h => .error h
    | .ok (s, b) =>
      if !runOk b then .error (.trap Trap.kiosk)
      else
        let r := parseRun w b
        let any := fun _ : List Xlat => true
        match runRange s w.who .load (BitVec.ofNat 64 (fieldB b 0 8)) (8 * r.plen) any with
        | .error h => .error h
        | .ok (s, prog) => match runRange s w.who .load (BitVec.ofNat 64 (fieldB b 0x10 8)) r.slen sourceOk with
          | .error h => .error h
          | .ok (s, src) => match runRange s w.who .load (BitVec.ofNat 64 (fieldB b 0x20 8)) 1024 any with
            | .error h => .error h
            | .ok (s, param) => match runRange s w.who .store r.dstVa r.dlen memoryPlaces with
              | .error h => .error h
              | .ok (s, dst) => match runRange s w.who .store r.recVa 32 memoryPlaces with
                | .error h => .error h
                | .ok (s, recd) => match resolveRange s w.who .load (w.getS f.a) 128 with
                  | .error e => .error (.trap (e.trap false 0 (w.getS f.a)))
                  | .ok (s, desc) =>
                    let pa := (src.head?.map fun x => x.pa).getD 0
                    submit s w (.krun { r with ch := channelOf pa, prog := prog, src := pa - channelBase (channelOf pa)
                                               param := param, dst := dst, recd := recd, desc := desc }) f.d

/-! ## Status -/

/-- A run named by context, core and number. -/
def KRun.named (r : KRun) (ctx core num : Nat) : Bool := r.ctx == ctx && r.core == core && r.num == num

/-- The value of krd. -/
def State.krd (s : State) (ctx core : Nat) (n : Word) : Word :=
  let t := s.tl ctx core
  let ch := tgetD t.kch n.toNat 0
  let q := s.kiosk ch
  let word (state pos : Nat) : Word := BitVec.ofNat 64 (state + ch * 256 + pos * 65536)
  if n = 0 ∨ t.issuedOf 8 < n then 0
  else if n ≤ t.doneOf 8 then word 4 0
  else if t.dropped.contains (8, n.toNat) then word 5 0
  else match q.queue.findIdx? fun r => r.named ctx core n.toNat with
    | some i => word 1 i
    | none =>
      match q.run with
      | some r => if r.run.named ctx core n.toNat then word (if r.paused then 3 else 2) 0
        else if q.saved.any (fun x => x.run.named ctx core n.toNat) then word 2 0 else word 4 0
      | none => if q.saved.any (fun x => x.run.named ctx core n.toNat) then word 2 0 else word 4 0

def execKrd (f : FmtE) (s : State) : Out :=
  attempt s fun w =>
    .ok (s.setWarp s.cur (w.oweA 0 true [.s f.d.toNat (s.krd w.ctx w.core (w.getS f.a))]))

/-! ## A run's state -/

/-- A subnormal FP32 pattern becomes the zero of its sign (R124). -/
def flush32 (x : W32) : W32 := if x.extractLsb' 23 8 = 0 then x &&& 0x80000000 else x

def KState.getS (r : KState) (i : BitVec 6) : Word := r.s.get ⟨i.toNat % 8, Nat.mod_lt _ (by decide)⟩
def KState.setS (r : KState) (i : BitVec 6) (v : Word) : KState :=
  { r with s := r.s.set (i.toNat % 8) v (Nat.mod_lt _ (by decide)) }
def KState.kreg (r : KState) (i : Nat) : AMap W32 := r.k.get ⟨i % 4, Nat.mod_lt _ (by decide)⟩
def KState.setK (r : KState) (i : Nat) (v : AMap W32) : KState := { r with k := r.k.set (i % 4) v (Nat.mod_lt _ (by decide)) }
def KState.mask (r : KState) (bank : Nat) : W32 := r.masks.get ⟨bank % 16, Nat.mod_lt _ (by decide)⟩

/-- Element e of a vector register field: lane e mod 32 of bank e / 32 (R122). -/
def KState.elem (r : KState) (reg : BitVec 6) (e : Nat) : W32 :=
  if reg.toNat < 4 then tgetD (r.kreg reg.toNat) e 0
  else if reg.toNat < 12 then laneGet (r.p.get ⟨(reg.toNat - 4) % 8, Nat.mod_lt _ (by decide)⟩) e
  else tgetD r.c e 0

/-- A source: its register, negated under its modifier. -/
def KState.src (r : KState) (reg : BitVec 6) (m : BitVec 12) (t : DT) (e : Nat) : W32 :=
  let x := r.elem reg e
  if modNeg m then negate32 t x else x

/-- All lane positions from a function; zeros are not listed. -/
def lanes512 (f : Nat → W32) : AMap W32 :=
  (countFrom 0 512).filterMap fun e => let x := f e; if x = 0 then none else some (e, x)

/-- A write of k0 to k3 in the lanes of the current masks (R125). -/
def KState.writeK (r : KState) (reg : Nat) (f : Nat → W32) : KState :=
  let old := r.kreg reg
  r.setK reg (lanes512 fun e => if maskBit (r.mask (e / 32)) (e % 32) then f e else tgetD old e 0)

/-! ## The end of a run -/

/-- Waiting ordinary accesses served. -/
def State.serveWaiting (s : State) (ch : Nat) : State :=
  let k := s.kiosk ch
  let s := k.waiting.foldl (fun (s : State) x => match x.2 with | some b => s.dramWrite (channelBase ch + x.1) [b] | none => s) s
  s.setKiosk ch { k with waiting := [] }

/-- Bytes written within a translated range at a virtual address. -/
def xlatWrite (s : State) (ctx : Nat) (l : List Xlat) (va : Word) (b : List Byte) : State :=
  ((linesOf va.toNat b.length).foldl (fun (a : State × List Byte) p =>
    let at' := xlatAt l (BitVec.ofNat 64 p.1)
    (a.1.homeWrite ctx at'.2 at'.1 (a.2.take p.2), a.2.drop p.2)) (s, b)).1

/-- The completion record (R133). -/
def KState.record (r : KState) (status stop : Nat) : List Byte :=
  natBytes 4 status
    ++ natBytes 4 ((if r.dataErr then 1 else 0) + (if r.preempted then 2 else 0))
    ++ natBytes 4 stop ++ natBytes 4 r.derr ++ natBytes 8 r.retired ++ natBytes 8 0

/-- A run ends: its record is written, its number completes, its Kiosk is free and issues its postponed refreshes. -/
def endRun (s : State) (r : KState) (status stop : Nat) : State :=
  let x := r.run
  let s := xlatWrite s x.ctx x.recd x.recVa (r.record status stop)
  let s := if r.dataErr then s.dataError x.ctx x.core 8 x.num else s
  let s := s.complete x.ctx x.core 8 x.num
  let s := s.serveWaiting s.kcur
  s.setKiosk s.kcur { s.kiosk s.kcur with run := none, openRow := [], postponed := [] }

/-- What a Kiosk instruction does: the run goes on, or stops with a status. -/
def onRun (s : State) (len : Nat) (body : KState → Except Nat KState) : Out :=
  match (s.kiosk s.kcur).run with
  | none => .fault .noRun
  | some r =>
    match body r with
    | .error st => .next (endRun s r st (r.pc - len))
    | .ok r => .next (s.setKiosk s.kcur { s.kiosk s.kcur with run := some { r with retired := r.retired + 1 } })

/-- The length of a Format A word. -/
def lenA (f : FmtA) : Nat := if f.long then 2 else 1

/-! ## Arithmetic (R123, R124) -/

/-- The second source: a register or the immediate, flushed when subnormal. -/
def KState.srcB (r : KState) (f : FmtA) (e : Nat) : W32 :=
  if f.i then flush32 ((immVec .f32 (immA f)).setWidth 32) else r.src f.b f.modB .f32 e

def f32Val (x : W32) : FVal := decodeF (fmtOf .f32) x.toNat

/-- A lane-wise FP32 instruction: rounded once with RNE, subnormal results flushed. -/
def kArith (s : State) (f : FmtA) (op : FVal → FVal → FVal → FVal) : Out :=
  onRun s (lenA f) fun r =>
    .ok (r.writeK f.d.toNat fun e =>
      flush32 (BitVec.ofNat 32 (narrow (fmtOf .f32) rne
        (op (f32Val (r.src f.a f.modA .f32 e)) (f32Val (r.srcB f e)) (f32Val (r.src f.c f.modC .f32 e))))))

def execKioskVadd (f : FmtA) (s : State) : Out := kArith s f fun a b _ => sumF false [a, b]
def execKioskVsub (f : FmtA) (s : State) : Out := kArith s f fun a b _ => sumF false [a, b.neg]
def execKioskVmul (f : FmtA) (s : State) : Out := kArith s f fun a b _ => mulF a b
def execKioskVfma (f : FmtA) (s : State) : Out := kArith s f fun a b c => sumF false [mulF a b, c]
def execKioskVmax (f : FmtA) (s : State) : Out := kArith s f fun a b _ => pickF true a b
def execKioskVmin (f : FmtA) (s : State) : Out := kArith s f fun a b _ => pickF false a b

def execKioskVmov (f : FmtA) (s : State) : Out :=
  onRun s (lenA f) fun r => .ok (r.writeK f.d.toNat (r.src f.a f.modA .b32))

/-! ## Scalars and branches -/

/-- The second operand of a Kiosk scalar instruction. -/
def KState.scalarB (r : KState) (f : FmtA) : Word := if f.i then immA f else r.getS f.b

def kScalar (s : State) (f : FmtA) (op : Int → Int → Int) : Out :=
  onRun s (lenA f) fun r => .ok (r.setS f.d (extendInt f.dt (op (readInt f.dt (r.getS f.a)) (readInt f.dt (r.scalarB f)))))

def execKioskAdd (f : FmtA) (s : State) : Out := kScalar s f fun x y => x + y
def execKioskSub (f : FmtA) (s : State) : Out := kScalar s f fun x y => x - y

def execKioskSetc (f : FmtA) (s : State) : Out :=
  kScalar s f fun x y => if compareI (ccOf f.cc) x y then 1 else 0

def execKioskMovi (f : FmtA) (s : State) : Out := kScalar s f fun _ y => y

/-- The words that begin an instruction, from word `i`. -/
def runStarts : Nat → Nat → List Word → List Nat
  | 0, _, _ => []
  | _, _, [] => []
  | n + 1, i, w :: r => if longOf w then i :: runStarts n (i + 2) (r.drop 1) else i :: runStarts n (i + 1) r

/-- A taken branch: its target must begin an instruction of the program. -/
def kBranch (r : KState) (f : FmtBR) : Except Nat KState :=
  let t : Int := (r.pc : Int) - 1 + f.ofs.toInt
  if 0 ≤ t ∧ (runStarts r.prog.length 0 r.prog).contains t.toNat then .ok { r with pc := t.toNat } else .error 2

def execKioskBra (f : FmtBR) (s : State) : Out := onRun s 1 fun r => kBranch r f

def execKioskBrs (f : FmtBR) (s : State) : Out :=
  onRun s 1 fun r => if compareI (ccOf f.cc) (r.getS f.s).toInt 0 then kBranch r f else .ok r

/-- exit ends the run with status 0. -/
def execKioskExit (f : FmtA) (s : State) : Out :=
  match (s.kiosk s.kcur).run with
  | none => .fault .noRun
  | some r => .next (endRun s { r with retired := r.retired + 1 } 0 (r.pc - lenA f))

/-- A word outside the executable subset; past the last word, program-end (R123). -/
def execKioskIllegalInstruction (s : State) : Out :=
  match (s.kiosk s.kcur).run with
  | none => .fault .noRun
  | some r => .next (endRun s r (if r.prog.length ≤ r.pc then 3 else 1) r.pc)

/-! ## Masks (R126, R327) -/

def execKpush (f : FmtA) (s : State) : Out :=
  onRun s (lenA f) fun r =>
    if r.mstack.length = 4 then .error 4
    else
      let cond (b : Nat) : W32 := maskOf fun l =>
        compareBits (ccOf f.cc) .f32 (r.src f.a f.modA .f32 (b * 32 + l)).toNat (r.src f.b f.modB .f32 (b * 32 + l)).toNat
      .ok { r with mstack := r.masks :: r.mstack, masks := Vector.ofFn fun b => r.masks.get b &&& cond b.val }

def execKelse (f : FmtA) (s : State) : Out :=
  onRun s (lenA f) fun r =>
    match r.mstack with
    | [] => .error 5
    | top :: _ => .ok { r with masks := Vector.ofFn fun b => top.get b &&& ~~~(r.masks.get b) }

def execKpop (f : FmtA) (s : State) : Out :=
  onRun s (lenA f) fun r =>
    match r.mstack with
    | [] => .error 5
    | top :: rest => .ok { r with masks := top, mstack := rest }

/-! ## Read-out (R127, R328) -/

def execKread (f : FmtA) (s : State) : Out :=
  match (s.kiosk s.kcur).run with
  | none => .fault .noRun
  | some r =>
    let off : Int := if f.i then (immA f).toInt else ((r.getS f.b).toNat : Int)
    let size := f.dt.width / 8
    if off < 0 ∨ off % size ≠ 0 ∨ (r.run.dlen : Int) < off + 512 * size then .next (endRun s r 7 (r.pc - lenA f))
    else
      let v := r.kreg f.a.toNat
      let code (e : Nat) : Nat :=
        let x := tgetD v e 0
        if f.dt = .bf16 then
          let y := narrow (fmtOf .bf16) rne (f32Val x)
          if y / 128 % 256 = 0 then y / 32768 * 32768 else y
        else x.toNat
      let s := xlatWrite s r.run.ctx r.run.dst (r.run.dstVa + BitVec.ofInt 64 off)
        ((countFrom 0 512).flatMap fun e => natBytes size (code e))
      .next (s.setKiosk s.kcur { s.kiosk s.kcur with run := some { r with retired := r.retired + 1 } })

/-! ## Column reads and the banks (R120, R124, R131, R134, R137) -/

/-- A pause of a channel's run under one of R136 to R138; postponed refreshes are issued in it. -/
def State.pause (s : State) (ch : Nat) (cause : BitVec 4) : State :=
  let k := s.kiosk ch
  s.setKiosk ch { k with pauses := k.pauses + 1, cause := cause, postponed := []
                         run := k.run.map fun r => { r with paused := true } }

def bankOf (off : Nat) : Nat := off / 2 ^ 11 % 16
def rowOf (off : Nat) : Nat := off / 2 ^ 15

/-- The elements of a column word: BF16 widened (a NaN to the canonical one, R239), subnormals flushed, the elements of a bad line zero. -/
def State.columnElem (s : State) (base e : Nat) : W32 × Bool :=
  let pa := base + e / 32 * 2048 + e % 32 * 2
  if s.dramBad (lineOf pa) then (0, true)
  else (flush32 (BitVec.ofNat 32 (narrow (fmtOf .f32) rne (decodeF (fmtOf .bf16) (bytesNat (s.dramRead pa 2))))), false)

/-- A column read: another row first serves the accesses that wait, then opens in every bank. Of a source whose physical
base is no multiple of a stripe (4 KiB leaves), bank b reads at the base + b × 2 KiB, and its row counts as open there.
(DESIGN CHOICE, log 70) -/
def execKioskColumnRead (f : FmtM) (s : State) : Out :=
  match (s.kiosk s.kcur).run with
  | none => .fault .noRun
  | some r =>
    let ch := s.kcur
    let stripe := (r.getS f.b).toNat
    if r.run.slen / 32768 ≤ stripe then .next (endRun s r 6 (r.pc - 1))
    else
      let off := r.run.src + stripe * 32768 + (r.getS f.a).toNat % 32 * 64
      let k := s.kiosk ch
      let change := tgetD k.openRow 0 (2 ^ 21) != rowOf off
      let s := if change && !k.waiting.isEmpty then (s.serveWaiting ch).pause ch 2 else s
      let x := (countFrom 0 512).map fun e => s.columnElem (channelBase ch + off) e
      let bad := (x.filter Prod.snd).length
      let k := s.kiosk ch
      .next (s.setKiosk ch { k with
        cause := 0
        openRow := (countFrom 0 16).map fun b => (b, rowOf (off + b * 2048))
        run := some { r with c := lanes512 fun e => (x.getD e (0, false)).1, dataErr := r.dataErr || bad != 0
                             derr := min (2 ^ 32 - 1) (r.derr + bad), retired := r.retired + 1 } })

/-! ## Events -/

/-- The program of a run, read at its start with the parameters and the descriptor's scalars (R131). (DESIGN CHOICE, log 29) -/
def State.loadProg (s : State) (r : KRun) : List Word :=
  let b := (engineRead s r.prog).map Prod.fst
  (countFrom 0 r.plen).map fun i => BitVec.ofNat 64 (fieldB b (8 * i) 8)

def State.startRun (s : State) (r : KRun) : KState :=
  let b := (engineRead s r.param).map Prod.fst
  let d := (engineRead s r.desc).map Prod.fst
  { KState.fresh r (s.loadProg r) with
      p := Vector.ofFn fun j => lanesOf fun l => flush32 (BitVec.ofNat 32 (fieldB b ((j.val * 32 + l) * 4) 4))
      s := Vector.ofFn fun i => BitVec.ofNat 64 (fieldB d (0x40 + 8 * i.val) 8) }

/-- A free Kiosk continues the earliest saved run of a resident context, or takes its first queued run of one, in arrival
order, once the lines that it reads at its start are delivered and what its launch releases is performed (R130, R131, R135, R181,
R190). -/
def execKioskRunStart (s : State) : Out :=
  let k := s.kiosk s.ev.x
  if k.run.isSome then .fault .noSuchEvent
  else match k.saved.findIdx? fun r => s.advances r.run.ctx .kiosk with
    | some i =>
      match k.saved[i]? with
      | none => .fault .noSuchEvent
      | some r => .next (s.setKiosk s.ev.x { k with saved := k.saved.eraseIdx i, cause := 0
                                                    run := some { r with prog := s.loadProg r.run, paused := false } })
    | none =>
      match k.queue.findIdx? fun r => s.advances r.ctx .kiosk with
      | none => .fault .noSuchEvent
      | some i =>
        match k.queue[i]? with
        | none => .fault .noSuchEvent
        | some r =>
          if s.owedIn r.seq (r.prog ++ r.param ++ r.desc) || s.gated r.warp r.tok then .fault .noSuchEvent
          else .next (s.setKiosk s.ev.x { k with queue := k.queue.eraseIdx i, cause := 0, run := some (s.startRun r) })

/-- A run whose next instruction could carry a bank past the allowance pauses (R136). -/
def execKioskRefreshPause (s : State) : Out :=
  let k := s.kiosk s.ev.x
  if k.run.isSome && k.full then .next (s.pause s.ev.x 1)
  else .fault .noSuchEvent

/-- A refresh falls due in a bank: postponed while a run executes there, between its instructions and during those that are
not all-bank too, else issued; where the bank holds as many postponed ones as the standard allows, the run pauses and issues
them all, so that none is missed (R136, R139). (DESIGN CHOICE, log 70) -/
def execBankRefreshDue (s : State) : Out :=
  let k := s.kiosk s.ev.x
  match k.run with
  | none => .next s
  | some r =>
    if r.paused then .next s
    else
      let n := tgetD k.postponed (s.ev.y % 16) 0 + 1
      if Config.allow.toNat < n then .next (s.pause s.ev.x 1)
      else
        .next (s.setKiosk s.ev.x { k with
          postponed := tset k.postponed (s.ev.y % 16) n
          postmax := BitVec.ofNat 8 (max k.postmax.toNat n) })

/-- An ordinary access to a bank whose row a Kiosk holds open: served from the row, or made to wait (R137). -/
def execKioskOpenRowAccess (s : State) : Out :=
  let k := s.kiosk s.ev.x
  match tget k.openRow (bankOf s.ev.y) with
  | none => .fault .noSuchEvent
  | some row =>
    if row = rowOf s.ev.y then
      .next (match s.ev.wr with | some b => s.dramWrite (channelBase s.ev.x + s.ev.y) [b] | none => s)
    else .next (s.setKiosk s.ev.x { k with waiting := k.waiting ++ [(s.ev.y, s.ev.wr)] })

/-- The oldest waiting access has waited 250 ns: the run pauses, and every waiting access is served. -/
def execKioskAccessWaitTimeout (s : State) : Out :=
  let k := s.kiosk s.ev.x
  if k.waiting.isEmpty then .fault .noSuchEvent
  else .next (if k.run.isNone then s.serveWaiting s.ev.x else (s.serveWaiting s.ev.x).pause s.ev.x 2)

/-- A row would stay open past 1 µs: the run pauses to close and reopen it (R138). -/
def execKioskRowLimit (s : State) : Out :=
  let k := s.kiosk s.ev.x
  if k.run.isNone || k.openRow.isEmpty then .fault .noSuchEvent else .next (s.pause s.ev.x 4)

end Sys2Proof.Machine
end

