-- ==== Sys2Proof/Machine/Scalar.lean ====
section
/-! DEFINITION. Scalar arithmetic, logic, moves and special registers (R259 to R268). -/

namespace Sys2Proof.Machine

open Sys2Proof

/-! ## Shared forms -/

/-- The one effect of majors 0x00 and 0x01 (R260). -/
def scalarInt (s : State) (f : FmtA) (op : Int → Int → Int) : Out :=
  onWarp s fun w => w.setS f.d (extendInt f.dt (op (readInt f.dt (w.getS f.a)) (readInt f.dt (scalarB w f))))

/-- The same effect on natural bit patterns of the operating width. -/
def scalarBits (s : State) (f : FmtA) (op : Nat → Nat → Int) : Out :=
  onWarp s fun w =>
    w.setS f.d (extendInt f.dt (op (lowW f.dt.width (w.getS f.a)) (lowW f.dt.width (scalarB w f))))

/-- A scalar float operand: the low bits of a register or of the immediate (R268). -/
def floatS (t : DT) (v : Word) : FVal := decodeF (fmtOf t) (lowW t.width v)

/-- A scalar float result rounded once, with its draw (R268). -/
def scalarFloat (s : State) (f : FmtA) (op : Bool → FVal → FVal → FVal → FVal) : Out :=
  onWarp s fun w =>
    let c := scalarRound w f.dt f.cc
    let x := op (decide (c.mode = .rdn)) (floatS f.dt (w.getS f.a)) (floatS f.dt (scalarB w f)) (floatS f.dt (w.getS f.c))
    (drawScalar w f.dt f.cc).setS f.d (BitVec.ofNat 64 (narrow (fmtOf f.dt) c x))

/-! ## Integer arithmetic and logic (R261, R262) -/

/-- x + y. -/
def execAdd (f : FmtA) (s : State) : Out := scalarInt s f fun x y => x + y

/-- x − y. -/
def execSub (f : FmtA) (s : State) : Out := scalarInt s f fun x y => x - y

/-- x × y. -/
def execMul (f : FmtA) (s : State) : Out := scalarInt s f fun x y => x * y

/-- The upper half of the exact 2w-bit product. -/
def execMulhi (f : FmtA) (s : State) : Out := scalarInt s f fun x y => (x * y) / (2 ^ f.dt.width : Int)

/-- The smaller of x and y. -/
def execMin (f : FmtA) (s : State) : Out := scalarInt s f fun x y => min x y

/-- The larger of x and y. -/
def execMax (f : FmtA) (s : State) : Out := scalarInt s f fun x y => max x y

/-- Quotient rounded toward zero (R262). -/
def execDiv (f : FmtA) (s : State) : Out := scalarInt s f fun x y => divI f.dt.width x y

/-- Remainder (R262). -/
def execRem (f : FmtA) (s : State) : Out := scalarInt s f fun x y => remI x y

/-- x AND y. -/
def execAnd (f : FmtA) (s : State) : Out := scalarBits s f fun x y => ((x &&& y : Nat) : Int)

/-- x OR y. -/
def execOr (f : FmtA) (s : State) : Out := scalarBits s f fun x y => ((x ||| y : Nat) : Int)

/-- x XOR y. -/
def execXor (f : FmtA) (s : State) : Out := scalarBits s f fun x y => ((x ^^^ y : Nat) : Int)

/-- x AND NOT y. -/
def execAndn (f : FmtA) (s : State) : Out := scalarBits s f fun x y => ((x &&& (2 ^ f.dt.width - 1 - y) : Nat) : Int)

/-- x shifted left by y mod w. -/
def execShl (f : FmtA) (s : State) : Out := scalarBits s f fun x y => ((shlN f.dt.width x y : Nat) : Int)

/-- x shifted right by y mod w; x is signed for i. -/
def execShr (f : FmtA) (s : State) : Out := scalarInt s f fun x y => x / (2 ^ (lowInt 64 y % f.dt.width) : Int)

/-- x rotated right by y mod w. -/
def execRot (f : FmtA) (s : State) : Out := scalarBits s f fun x y => ((rotN f.dt.width x y : Nat) : Int)

/-- The number of one bits of x. -/
def execPopc (f : FmtA) (s : State) : Out := scalarBits s f fun x _ => ((popN f.dt.width x : Nat) : Int)

/-- Leading zero bits of x in w bits. -/
def execClz (f : FmtA) (s : State) : Out := scalarBits s f fun x _ => ((clzN f.dt.width x : Nat) : Int)

/-- Bit field of x named by y. -/
def execBfx (f : FmtA) (s : State) : Out := scalarBits s f fun x y => bfxI f.dt.signed f.dt.width x y

/-- x with a field replaced from s[C]. -/
def execBfi (f : FmtA) (s : State) : Out :=
  onWarp s fun w =>
    w.setS f.d (extendInt f.dt ((bfiN f.dt.width (lowW f.dt.width (w.getS f.a)) (lowW f.dt.width (scalarB w f))
      (w.getS f.c).toNat : Nat) : Int))

/-! ## Compare and select (R263) -/

/-- 1 when Compare(CC, x, y) holds, else 0; a float DT compares the floats in the low bits. -/
def execSetc (f : FmtA) (s : State) : Out :=
  onWarp s fun w =>
    w.setS f.d (if compareBits (ccOf f.cc) f.dt (lowW f.dt.width (w.getS f.a)) (lowW f.dt.width (scalarB w f)) then 1 else 0)

/-- s[A] when s[C] ≠ 0, else the second operand. -/
def execSel (f : FmtA) (s : State) : Out :=
  onWarp s fun w => w.setS f.d (if w.getS f.c ≠ 0 then w.getS f.a else scalarB w f)

/-! ## Moves (R264, R265) -/

def execMov (f : FmtA) (s : State) : Out := onWarp s fun w => w.setS f.d (extendInt f.dt (readInt f.dt (w.getS f.a)))

def execMovi (f : FmtA) (s : State) : Out := onWarp s fun w => w.setS f.d (extendInt f.dt (readInt f.dt (immA f)))

/-- A live lane's value, or 0; i32 sign-extends and 64-bit types read the pair. -/
def execMfv (f : FmtA) (s : State) : Out :=
  onWarp s fun w =>
    let l := (scalarB w f).toNat % 32
    let lo := laneGet (w.getV f.a) l
    let hi := laneGet (w.vAt (w.pos f.a + 1)) l
    let v : Word := if f.dt.is64 then hi ++ lo else if f.dt = .i32 then lo.signExtend 64 else lo.setWidth 64
    w.setS f.d (if maskBit w.lm l then v else 0)

/-- Every active lane receives s[A]. -/
def execMtv (f : FmtA) (s : State) : Out := onWarp s fun w => writeD w f.d f.dt.is64 fun _ => w.getS f.a

/-! ## Special registers (R266, R267) -/

/-- cadence (R338). -/
def cadenceOf (c : Core) : Word := 0#55 ++ bit1 c.droop ++ 0#3 ++ c.cad

/-- A timeline counter as a warp reads it; in a deterministic launch an engine counter reads the greatest value its own
waits have seen (R177, R185). -/
def tlRead (s : State) (w : Warp) (k : Nat) : Word :=
  if w.det ∧ k < 10 then w.tlSeen.get ⟨k % 10, Nat.mod_lt _ (by decide)⟩ else (s.tl w.ctx w.core).doneOf k

/-- The value of a readable special register. -/
def srRead (s : State) (w : Warp) (n : Nat) : Word :=
  match n with
  | 0x00 => w.em.setWidth 64
  | 0x01 => w.lm.setWidth 64
  | 0x02 => w.nmode.setWidth 64
  | 0x03 => w.regctr
  | 0x04 => w.regpc
  | 0x05 => BitVec.ofNat 64 w.wid
  | 0x06 => (w.bid.get 0).setWidth 64
  | 0x07 => (w.bid.get 1).setWidth 64
  | 0x08 => (w.bid.get 2).setWidth 64
  | 0x09 => BitVec.ofNat 64 w.core
  | 0x0A => BitVec.ofNat 64 w.ctx
  | 0x0B => s.clock
  | 0x0C => w.ashape.setWidth 64
  | 0x0D => cadenceOf (s.core w.core)
  | 0x0E => (s.tl w.ctx w.core).cerr.setWidth 64
  | 0x0F => (s.tl w.ctx w.core).tlerr
  | 0x20 => w.spillbase
  | 0x21 => w.spilllen
  | 0x22 => w.spillcnt
  | 0x23 => w.hintmiss
  | 0x24 => BitVec.ofNat 64 w.winbase
  | 0x28 => w.fcause
  | 0x29 => w.faddr
  | 0x2A => w.fpc
  | 0x2B => w.fnode
  | 0x2C => w.fnpc
  | 0x2D => w.fnreg
  | n => tlRead s w (n - 0x10)

def execMfsr (f : FmtA) (s : State) : Out :=
  onWarp s fun w => w.setS f.d (srRead s w (f.imm16.extractLsb' 0 8).toNat)

/-- Whether a value may stand in nmode: no rounding field holds 110 or 111 (R243). -/
def nmodeOk (v : W32) : Bool := (countFrom 0 8).all fun i => decide (v.toNat / 2 ^ (4 * i) % 8 < 6)

/-- A write of a special register: the new state, or the illegal-operand trap. -/
def srWrite (s : State) (w : Warp) (n : Nat) (v : Word) : Except Trap State :=
  let spilled := decide (w.lo ≠ 0)
  match n with
  | 0x00 => .ok (s.setWarp s.cur { w with em := v.setWidth 32 &&& w.lm })
  | 0x02 => if nmodeOk (v.setWidth 32) then .ok (s.setWarp s.cur { w with nmode := v.setWidth 32 }) else .error Trap.operand
  | 0x0F =>
    let t := s.tl w.ctx w.core
    .ok (s.setTl w.ctx w.core { t with tlerr := t.tlerr &&& ~~~(v &&& 0xFFFF) })
  | 0x20 =>
    if spilled || v.extractLsb' 0 7 != 0 then .error Trap.operand else .ok (s.setWarp s.cur { w with spillbase := v })
  | 0x21 => if spilled then .error Trap.operand else .ok (s.setWarp s.cur { w with spilllen := v })
  | _ => .ok s

def execMtsr (f : FmtA) (s : State) : Out :=
  attempt s fun w => srWrite s w (f.imm16.extractLsb' 0 8).toNat (w.getS f.a)

/-! ## Scalar floating point (R268) -/

/-- a + b. -/
def execFadd (f : FmtA) (s : State) : Out := scalarFloat s f fun rdn a b _ => sumF rdn [a, b]

/-- a − b. -/
def execFsub (f : FmtA) (s : State) : Out := scalarFloat s f fun rdn a b _ => sumF rdn [a, b.neg]

/-- a × b. -/
def execFmul (f : FmtA) (s : State) : Out := scalarFloat s f fun _ a b _ => mulF a b

/-- a × b + c with one rounding. -/
def execFfma (f : FmtA) (s : State) : Out := scalarFloat s f fun rdn a b c => sumF rdn [mulF a b, c]

/-- Conversion from the type in IMM16[3:0] (R268). -/
def execFcvt (f : FmtA) (s : State) : Out :=
  onWarp s fun w =>
    let src := (srcT f).getD .f32
    let c := scalarRound w f.dt f.cc
    let r := convertTo f.dt c (valueOf src (lowW src.width (w.getS f.a)))
    (drawScalar w f.dt f.cc).setS f.d (if f.dt.isFloat then BitVec.ofNat 64 r else extendInt f.dt r)

end Sys2Proof.Machine
end

