-- ==== Sys2Proof/Machine/Traps.lean ====
section
/-! DEFINITION. Traps and their return, breakpoints, system registers, the save area, cooperative pre-emption (R233, R200,
R450 to R460). -/

namespace Sys2Proof.Machine

open Sys2Proof

/-! ## Traps and faults of decode and fetch -/

/-- The number of trap and brk. -/
def trapNo (f : FmtBR) : Word := (f.ofs.extractLsb' 0 16).setWidth 64

/-- Entry of the handler in place of going on at the next header. -/
def trapInto (s : State) (t : Trap) : Out :=
  match s.curWarp with
  | none => .fault .noWarp
  | some w => .next (s.trap s.cur w t (.resume w.pc))

def execTrap (f : FmtBR) (s : State) : Out := trapInto s { cause := Cause.softwareTrap, faddr := trapNo f }

/-- brk: under DBG the context is pre-empted and its warp, once its results have arrived (R207), stops at the next header, else the
breakpoint trap.
(DEDUCED, log 55) -/
def execBrk (f : FmtBR) (s : State) : Out :=
  match s.curWarp with
  | none => .fault .noWarp
  | some w =>
    if !(s.ctx w.ctx).dbg then trapInto s { cause := Cause.breakpoint, faddr := trapNo f }
    else if !w.allReady then .next (s.setWarp s.cur (w.redo .results))
    else
      let s := (s.setCtx w.ctx { s.ctx w.ctx with brk := true }).requestStop w.ctx
      .next (s.setWarp s.cur w.stop)

/-- A word that decode refuses (R220, R233). -/
def execIllegalInstruction (sub : BitVec 8) (s : State) : Out :=
  attempt s fun _ => .error { cause := Cause.illegalInstruction, detail := sub }

/-- A word that cannot be fetched (R200). -/
def execInstructionFetchFault (flt : FetchFault) (s : State) : Out :=
  attempt s fun _ => .error { cause := flt.cause, detail := flt.detail, faddr := flt.faddr }

/-! ## Return (R454) -/

/-- tret: back to user mode at s[S], after the rollback of R382 where that is regpc; a target that is no clause header
halts the context, whose warp, once its results have arrived, stands before the tret (R207). -/
def execTret (f : FmtBR) (s : State) : Out :=
  privileged s fun w =>
    let target := w.getS f.s
    if !targetOk s { w.who with sys := false } target then
      .ok (if !w.allReady then s.setWarp s.cur (w.redo .results)
           else (s.setWarp s.cur { w.holdResults.redo .run with status := .halted }).haltCtx w.ctx)
    else
      let w := if target = w.regpc then w.putTable w.perg.rollback w.tmode else w
      .ok (s.setWarp s.cur (w.leave target))

/-! ## System registers (R453, R455) -/

def sysNumber (f : FmtA) : Nat := (f.imm16.extractLsb' 0 8).toNat

/-- The value of a system register. -/
def sysRead (s : State) (w : Warp) (n : Nat) : Word :=
  let x := s.ctx w.ctx
  match n with
  | 0 => x.tvec
  | 1 => w.tpc
  | 2 => w.tem.setWidth 64
  | 3 => w.tstat
  | 4 => x.seed
  | _ => x.tdata

/-- A system register written. -/
def sysWrite (s : State) (k : Nat) (w : Warp) (n : Nat) (v : Word) : State :=
  let x := s.ctx w.ctx
  match n with
  | 0 => s.setCtx w.ctx { x with tvec := v }
  | 1 => s.setWarp k { w with tpc := v }
  | 2 => s.setWarp k { w with tem := v.setWidth 32 }
  | 3 => s
  | 4 => s.setCtx w.ctx { x with seed := (v.setWidth 32).setWidth 64 }
  | _ => s.setCtx w.ctx { x with tdata := v }

def execMfsys (f : FmtA) (s : State) : Out :=
  privileged s fun w => .ok (s.setWarp s.cur (w.setS f.d (sysRead s w (sysNumber f))))

def execMtsys (f : FmtA) (s : State) : Out :=
  privileged s fun w =>
    let v := w.getS f.a
    if sysNumber f = 0 ∧ v.toNat % 8 ≠ 0 then .error .operand else .ok (sysWrite s s.cur w (sysNumber f) v)

/-! ## The save area (R455) -/

def word8 (v : Word) : List Byte := natBytes 8 v.toNat
def half4 (v : W32) : List Byte := natBytes 4 v.toNat

/-- Scalar register `i` of user mode while the handler runs. -/
def Warp.userS (w : Warp) (i : Nat) : Word :=
  if 56 ≤ i then w.shadow.get ⟨(i - 56) % 8, Nat.mod_lt _ (by decide)⟩ else w.s.get ⟨i % 64, Nat.mod_lt _ (by decide)⟩

/-- The bytes of the save area. -/
def Warp.saveArea (w : Warp) : List Byte :=
  (countFrom 0 64).flatMap (fun i => word8 (w.userS i))
  ++ [w.tem.setWidth 64, w.nmode.setWidth 64, BitVec.ofNat 64 w.winbase, BitVec.ofNat 64 w.lo, w.spillbase, w.spilllen,
      w.ashape.setWidth 64, w.tpc, w.lm.setWidth 64, w.regctr, w.regpc, w.hintmiss, w.spillcnt].flatMap word8
  ++ List.replicate 0x198 0
  ++ (countFrom 0 4).flatMap (fun i => natBytes 128 (w.selAt i).toNat)
  ++ (countFrom 0 32).flatMap (fun i => half4 (w.gens.get ⟨i % 32, Nat.mod_lt _ (by decide)⟩)) ++ half4 w.gs
  ++ List.replicate 0x17C 0
  ++ (countFrom 0 w.budget).flatMap fun i => lanesBytes (w.vAt (w.lo + i))

/-- A word of the area. -/
def areaWord (b : List Byte) (o : Nat) : Word := BitVec.ofNat 64 (fieldB b o 8)

/-- The user state read back: lanes that have exited stay so, and neither pc nor the handler's s56 to s63 change. -/
def Warp.restoreArea (w : Warp) (b : List Byte) : Warp :=
  let lo := fieldB b 0x218 8
  let w1 := { w with s := Vector.ofFn fun i => if 56 ≤ i.val then w.s.get i else areaWord b (8 * i.val)
                     shadow := Vector.ofFn fun i => areaWord b (8 * (56 + i.val))
                     tem := (areaWord b 0x200).setWidth 32
                     nmode := (areaWord b 0x208).setWidth 32
                     winbase := fieldB b 0x210 8
                     lo := lo
                     spillbase := areaWord b 0x220
                     spilllen := areaWord b 0x228
                     ashape := (areaWord b 0x230).setWidth 32
                     tpc := areaWord b 0x238
                     lm := (areaWord b 0x240).setWidth 32 &&& w.lm
                     regctr := areaWord b 0x248
                     regpc := areaWord b 0x250
                     hintmiss := areaWord b 0x258
                     spillcnt := areaWord b 0x260
                     sel := Vector.ofFn fun i => BitVec.ofNat 1024 (fieldB b (0x400 + 128 * i.val) 128)
                     gens := Vector.ofFn fun i => BitVec.ofNat 32 (fieldB b (0x600 + 4 * i.val) 4)
                     gs := BitVec.ofNat 32 (fieldB b 0x680 4) }
  (countFrom 0 w.budget).foldl (fun w i => w.setVAt (lo + i) (lanesOfBytes ((b.drop (0x800 + 128 * i)).take 128))) w1

/-- The addresses of the area's lines. -/
def areaLines (w : Warp) (va : Word) : List Word := (countFrom 0 (16 + w.budget)).map fun i => va + BitVec.ofNat 64 (128 * i)

/-- The checks of R19 over the save area, and then its alignment. -/
def areaFault (s : State) (w : Warp) (need : Need) (va : Word) : Option Trap :=
  match classCheck w.sys va (128 * (16 + w.budget)) with
  | .error c => some (Trap.addr c 0 va)
  | .ok _ =>
    let bad := (areaLines w va).findSome? fun a => (addressFault s w.who need a 128).map fun c => Trap.addr c 0 a
    bad.orElse fun _ => if va.toNat % 128 ≠ 0 then some (Trap.addr Cause.alignment 0 va) else none

/-- An access to the save area at s[A] once every result has arrived; the counts of its own clause's instructions that have not
issued stay (R205). -/
def areaInstr (f : FmtA) (s : State) (need : Need) (body : Warp → Word → Except Halt State) : Out :=
  privilegedH s fun w =>
    let va := w.getS f.a
    match areaFault s w need va with
    | some t => .error (.trap t)
    | none => if !w.allReady then .error (.wait .results) else body w.deliver va

def execCtxsave (f : FmtA) (s : State) : Out :=
  areaInstr f s .store fun w va =>
    match linePlaces s w .store (areaLines w va) with
    | .error h => .error h
    | .ok (s, l) =>
      let rng := Rng.flat va (0x800 + 128 * w.budget)
      match guardIssue (s.setWarp s.cur w) w [rng] with
      | .error h => .error h
      | .ok s =>
        let w := (s.warp? s.cur).getD w
        let r := s.storeOrHold s.cur w l [rng] w.saveArea
        .ok (r.1.setWarp s.cur r.2)

def execCtxrest (f : FmtA) (s : State) : Out :=
  areaInstr f s .load fun w va =>
    match linePlaces s w .load (areaLines w va) with
    | .error h => .error h
    | .ok (s, l) =>
      let r := loadXlats s w.core w.det (if w.det then w.held else []) l
      .ok (r.1.setWarp s.cur (w.restoreArea r.2))

/-! ## Cooperative pre-emption (R459) -/

/-- preack: once the handler's results have arrived, in its own registers (R207), the warp is saved at tpc in user mode; the
handler's registers are lost. -/
def execPreack (_f : FmtA) (s : State) : Out :=
  privilegedH s fun w =>
    if !w.tstat.getLsbD 1 then .error (.trap Trap.operand)
    else if !w.allReady then .error (.wait .results)
    else
      let r := s.freeLanes
      let w := (w.holdResults.leave w.tpc).stop
      .ok (r.2.setWarp s.cur
        { w with preacked := true
                 shadow := Vector.ofFn fun i => laneGet r.1 (2 * i.val + 1) ++ laneGet r.1 (2 * i.val) })

/-- A user-mode warp of a context that is to stop cooperatively enters its handler at a clause boundary.
(DEDUCED, log 55) -/
def execCoopPreemptEntry (s : State) : Out :=
  onEventWarp s fun k w =>
    let x := s.ctx w.ctx
    if x.preq && x.co && !x.kill && w.status == .live && (match w.wait with | .run | .header _ => true | _ => false) && w.clause.left == 0 && !w.sys && !w.qend && w.allReady then
      .next (s.trap k { w with ipc := w.pc } { cause := Cause.preEmpt } (.resume w.pc))
    else .fault .noSuchEvent

/-- A warp that has not acknowledged within 100 µs is stopped, once its results have arrived (R459, R207). -/
def execPreackTimeout (s : State) : Out :=
  onEventWarp s fun k w =>
    let x := s.ctx w.ctx
    if x.preq && x.co && w.status == .live && !w.preacked && !s.owedWarp w then .next (s.setWarp k w.stop) else .fault .noSuchEvent

end Sys2Proof.Machine
end

