-- ==== Sys2Proof/Machine/Dispatch.lean ====
section
/-! DEFINITION. One arm for each constructor of Instr. -/

namespace Sys2Proof.Machine

open Sys2Proof

def exec (i : Instr) (s : State) : Host.Outcome State Fault Refusal :=
  match i with
  | .clauseHeader f => Sys2Proof.Machine.execClauseHeader f s
  | .add f => Sys2Proof.Machine.execAdd f s
  | .sub f => Sys2Proof.Machine.execSub f s
  | .mul f => Sys2Proof.Machine.execMul f s
  | .mulhi f => Sys2Proof.Machine.execMulhi f s
  | .min f => Sys2Proof.Machine.execMin f s
  | .max f => Sys2Proof.Machine.execMax f s
  | .div f => Sys2Proof.Machine.execDiv f s
  | .rem f => Sys2Proof.Machine.execRem f s
  | .and f => Sys2Proof.Machine.execAnd f s
  | .or f => Sys2Proof.Machine.execOr f s
  | .xor f => Sys2Proof.Machine.execXor f s
  | .andn f => Sys2Proof.Machine.execAndn f s
  | .shl f => Sys2Proof.Machine.execShl f s
  | .shr f => Sys2Proof.Machine.execShr f s
  | .rot f => Sys2Proof.Machine.execRot f s
  | .popc f => Sys2Proof.Machine.execPopc f s
  | .clz f => Sys2Proof.Machine.execClz f s
  | .bfx f => Sys2Proof.Machine.execBfx f s
  | .bfi f => Sys2Proof.Machine.execBfi f s
  | .setc f => Sys2Proof.Machine.execSetc f s
  | .sel f => Sys2Proof.Machine.execSel f s
  | .mov f => Sys2Proof.Machine.execMov f s
  | .movi f => Sys2Proof.Machine.execMovi f s
  | .mfsr f => Sys2Proof.Machine.execMfsr f s
  | .mtsr f => Sys2Proof.Machine.execMtsr f s
  | .mfv f => Sys2Proof.Machine.execMfv f s
  | .mtv f => Sys2Proof.Machine.execMtv f s
  | .fadd f => Sys2Proof.Machine.execFadd f s
  | .fsub f => Sys2Proof.Machine.execFsub f s
  | .fmul f => Sys2Proof.Machine.execFmul f s
  | .ffma f => Sys2Proof.Machine.execFfma f s
  | .fcvt f => Sys2Proof.Machine.execFcvt f s
  | .bra f => Sys2Proof.Machine.execBra f s
  | .brs f => Sys2Proof.Machine.execBrs f s
  | .brv f => Sys2Proof.Machine.execBrv f s
  | .join f => Sys2Proof.Machine.execJoin f s
  | .brany f => Sys2Proof.Machine.execBrany f s
  | .brall f => Sys2Proof.Machine.execBrall f s
  | .call f => Sys2Proof.Machine.execCall f s
  | .ret f => Sys2Proof.Machine.execRet f s
  | .nop f => Sys2Proof.Machine.execNop f s
  | .waitf f => Sys2Proof.Machine.execWaitf f s
  | .region f => Sys2Proof.Machine.execRegion f s
  | .exit f => Sys2Proof.Machine.execExit f s
  | .waitt f => Sys2Proof.Machine.execWaitt f s
  | .tladv f => Sys2Proof.Machine.execTladv f s
  | .waitv cc f => Sys2Proof.Machine.execWaitv cc f s
  | .vaddFloat f => Sys2Proof.Machine.execVaddFloat f s
  | .vsubFloat f => Sys2Proof.Machine.execVsubFloat f s
  | .vmulFloat f => Sys2Proof.Machine.execVmulFloat f s
  | .vfma f => Sys2Proof.Machine.execVfma f s
  | .vmaxFloat f => Sys2Proof.Machine.execVmaxFloat f s
  | .vminFloat f => Sys2Proof.Machine.execVminFloat f s
  | .vabsFloat f => Sys2Proof.Machine.execVabsFloat f s
  | .vsetcFloat f => Sys2Proof.Machine.execVsetcFloat f s
  | .vaddInt f => Sys2Proof.Machine.execVaddInt f s
  | .vsubInt f => Sys2Proof.Machine.execVsubInt f s
  | .vmulInt f => Sys2Proof.Machine.execVmulInt f s
  | .vmad f => Sys2Proof.Machine.execVmad f s
  | .vmaxInt f => Sys2Proof.Machine.execVmaxInt f s
  | .vminInt f => Sys2Proof.Machine.execVminInt f s
  | .vabsInt f => Sys2Proof.Machine.execVabsInt f s
  | .vsetcInt f => Sys2Proof.Machine.execVsetcInt f s
  | .vmulhi f => Sys2Proof.Machine.execVmulhi f s
  | .vand f => Sys2Proof.Machine.execVand f s
  | .vor f => Sys2Proof.Machine.execVor f s
  | .vxor f => Sys2Proof.Machine.execVxor f s
  | .vnot f => Sys2Proof.Machine.execVnot f s
  | .vshl f => Sys2Proof.Machine.execVshl f s
  | .vshr f => Sys2Proof.Machine.execVshr f s
  | .vpopc f => Sys2Proof.Machine.execVpopc f s
  | .vclz f => Sys2Proof.Machine.execVclz f s
  | .vbfx f => Sys2Proof.Machine.execVbfx f s
  | .vbfi f => Sys2Proof.Machine.execVbfi f s
  | .vsel f => Sys2Proof.Machine.execVsel f s
  | .vmov f => Sys2Proof.Machine.execVmov f s
  | .vmovi f => Sys2Proof.Machine.execVmovi f s
  | .vcvt f => Sys2Proof.Machine.execVcvt f s
  | .vcvti f => Sys2Proof.Machine.execVcvti f s
  | .vcvtf f => Sys2Proof.Machine.execVcvtf f s
  | .vpack f => Sys2Proof.Machine.execVpack f s
  | .vunpk f => Sys2Proof.Machine.execVunpk f s
  | .vq4enc f => Sys2Proof.Machine.execVq4enc f s
  | .vq4dec f => Sys2Proof.Machine.execVq4dec f s
  | .vq4scl f => Sys2Proof.Machine.execVq4scl f s
  | .vexp2 f => Sys2Proof.Machine.execVexp2 f s
  | .vlog2 f => Sys2Proof.Machine.execVlog2 f s
  | .vrcp f => Sys2Proof.Machine.execVrcp f s
  | .vrsq f => Sys2Proof.Machine.execVrsq f s
  | .vtanh f => Sys2Proof.Machine.execVtanh f s
  | .vperm f => Sys2Proof.Machine.execVperm f s
  | .vbcast f => Sys2Proof.Machine.execVbcast f s
  | .vany f => Sys2Proof.Machine.execVany f s
  | .vall f => Sys2Proof.Machine.execVall f s
  | .vballot f => Sys2Proof.Machine.execVballot f s
  | .vmatch f => Sys2Proof.Machine.execVmatch f s
  | .vredadd f => Sys2Proof.Machine.execVredadd f s
  | .vredmax f => Sys2Proof.Machine.execVredmax f s
  | .vredmin f => Sys2Proof.Machine.execVredmin f s
  | .vscanadd f => Sys2Proof.Machine.execVscanadd f s
  | .vscanmax f => Sys2Proof.Machine.execVscanmax f s
  | .vfrexp f => Sys2Proof.Machine.execVfrexp f s
  | .vldexp f => Sys2Proof.Machine.execVldexp f s
  | .vexpmax f => Sys2Proof.Machine.execVexpmax f s
  | .ldG f => Sys2Proof.Machine.execLdG f s
  | .ldG2 f => Sys2Proof.Machine.execLdG2 f s
  | .ldG4 f => Sys2Proof.Machine.execLdG4 f s
  | .stG f => Sys2Proof.Machine.execStG f s
  | .stG2 f => Sys2Proof.Machine.execStG2 f s
  | .stG4 f => Sys2Proof.Machine.execStG4 f s
  | .atomAdd f => Sys2Proof.Machine.execAtomAdd f s
  | .atomMin f => Sys2Proof.Machine.execAtomMin f s
  | .atomMax f => Sys2Proof.Machine.execAtomMax f s
  | .atomAnd f => Sys2Proof.Machine.execAtomAnd f s
  | .atomOr f => Sys2Proof.Machine.execAtomOr f s
  | .atomXor f => Sys2Proof.Machine.execAtomXor f s
  | .atomXchg f => Sys2Proof.Machine.execAtomXchg f s
  | .atomCas f => Sys2Proof.Machine.execAtomCas f s
  | .atomFadd f => Sys2Proof.Machine.execAtomFadd f s
  | .atomoAdd f => Sys2Proof.Machine.execAtomoAdd f s
  | .atomoXchg f => Sys2Proof.Machine.execAtomoXchg f s
  | .atomoOr f => Sys2Proof.Machine.execAtomoOr f s
  | .atomoMax f => Sys2Proof.Machine.execAtomoMax f s
  | .fence f => Sys2Proof.Machine.execFence f s
  | .pfence f => Sys2Proof.Machine.execPfence f s
  | .pref f => Sys2Proof.Machine.execPref f s
  | .wback f => Sys2Proof.Machine.execWback f s
  | .copy f => Sys2Proof.Machine.execCopy f s
  | .copy2d f => Sys2Proof.Machine.execCopy2d f s
  | .copykb f => Sys2Proof.Machine.execCopykb f s
  | .gather f => Sys2Proof.Machine.execGather f s
  | .tlbiPg f => Sys2Proof.Machine.execTlbiPg f s
  | .tlbiCtx f => Sys2Proof.Machine.execTlbiCtx f s
  | .tlbiSr f => Sys2Proof.Machine.execTlbiSr f s
  | .tlbiSys f => Sys2Proof.Machine.execTlbiSys f s
  | .tlbiAll f => Sys2Proof.Machine.execTlbiAll f s
  | .tlbisync f => Sys2Proof.Machine.execTlbisync f s
  | .barArrive f => Sys2Proof.Machine.execBarArrive f s
  | .barWait f => Sys2Proof.Machine.execBarWait f s
  | .barSync f => Sys2Proof.Machine.execBarSync f s
  | .krun f => Sys2Proof.Machine.execKrun f s
  | .krd f => Sys2Proof.Machine.execKrd f s
  | .coll f => Sys2Proof.Machine.execColl f s
  | .kpush f => Sys2Proof.Machine.execKpush f s
  | .kelse f => Sys2Proof.Machine.execKelse f s
  | .kpop f => Sys2Proof.Machine.execKpop f s
  | .kread f => Sys2Proof.Machine.execKread f s
  | .kioskColumnRead f => Sys2Proof.Machine.execKioskColumnRead f s
  | .kioskVadd f => Sys2Proof.Machine.execKioskVadd f s
  | .kioskVsub f => Sys2Proof.Machine.execKioskVsub f s
  | .kioskVmul f => Sys2Proof.Machine.execKioskVmul f s
  | .kioskVfma f => Sys2Proof.Machine.execKioskVfma f s
  | .kioskVmax f => Sys2Proof.Machine.execKioskVmax f s
  | .kioskVmin f => Sys2Proof.Machine.execKioskVmin f s
  | .kioskVmov f => Sys2Proof.Machine.execKioskVmov f s
  | .kioskAdd f => Sys2Proof.Machine.execKioskAdd f s
  | .kioskSub f => Sys2Proof.Machine.execKioskSub f s
  | .kioskSetc f => Sys2Proof.Machine.execKioskSetc f s
  | .kioskMovi f => Sys2Proof.Machine.execKioskMovi f s
  | .kioskBra f => Sys2Proof.Machine.execKioskBra f s
  | .kioskBrs f => Sys2Proof.Machine.execKioskBrs f s
  | .kioskExit f => Sys2Proof.Machine.execKioskExit f s
  | .cldb f => Sys2Proof.Machine.execCldb f s
  | .cldg f => Sys2Proof.Machine.execCldg f s
  | .cldk f => Sys2Proof.Machine.execCldk f s
  | .cmac3 f => Sys2Proof.Machine.execCmac3 f s
  | .cmac f => Sys2Proof.Machine.execCmac f s
  | .cshift f => Sys2Proof.Machine.execCshift f s
  | .cdrain f => Sys2Proof.Machine.execCdrain f s
  | .czero f => Sys2Proof.Machine.execCzero f s
  | .cshape f => Sys2Proof.Machine.execCshape f s
  | .celog f => Sys2Proof.Machine.execCelog f s
  | .ceclr f => Sys2Proof.Machine.execCeclr f s
  | .tleaf f => Sys2Proof.Machine.execTleaf f s
  | .tcontract f => Sys2Proof.Machine.execTcontract f s
  | .tewise f => Sys2Proof.Machine.execTewise f s
  | .trowred f => Sys2Proof.Machine.execTrowred f s
  | .tmap f => Sys2Proof.Machine.execTmap f s
  | .tcast f => Sys2Proof.Machine.execTcast f s
  | .tforce f => Sys2Proof.Machine.execTforce f s
  | .tstore f => Sys2Proof.Machine.execTstore f s
  | .tsnap f => Sys2Proof.Machine.execTsnap f s
  | .tmode f => Sys2Proof.Machine.execTmode f s
  | .tdrop f => Sys2Proof.Machine.execTdrop f s
  | .tquery f => Sys2Proof.Machine.execTquery f s
  | .lpnor f => Sys2Proof.Machine.execLpnor f s
  | .lpnortri f => Sys2Proof.Machine.execLpnortri f s
  | .lpnot f => Sys2Proof.Machine.execLpnot f s
  | .lpinit f => Sys2Proof.Machine.execLpinit f s
  | .lprdv f => Sys2Proof.Machine.execLprdv f s
  | .lpwrv f => Sys2Proof.Machine.execLpwrv f s
  | .lpcnt f => Sys2Proof.Machine.execLpcnt f s
  | .lpremap f => Sys2Proof.Machine.execLpremap f s
  | .lpbudget f => Sys2Proof.Machine.execLpbudget f s
  | .lpselVector f => Sys2Proof.Machine.execLpselVector f s
  | .lpselMemory f => Sys2Proof.Machine.execLpselMemory f s
  | .lpstat f => Sys2Proof.Machine.execLpstat f s
  | .lpstatClr f => Sys2Proof.Machine.execLpstatClr f s
  | .lpstatIss f => Sys2Proof.Machine.execLpstatIss f s
  | .glaunch f => Sys2Proof.Machine.execGlaunch f s
  | .gwait f => Sys2Proof.Machine.execGwait f s
  | .phend f => Sys2Proof.Machine.execPhend f s
  | .migpt f => Sys2Proof.Machine.execMigpt f s
  | .tqpush f => Sys2Proof.Machine.execTqpush f s
  | .tqpop f => Sys2Proof.Machine.execTqpop f s
  | .tqpopNw f => Sys2Proof.Machine.execTqpopNw f s
  | .tqsteal f => Sys2Proof.Machine.execTqsteal f s
  | .cancel f => Sys2Proof.Machine.execCancel f s
  | .cancelClr f => Sys2Proof.Machine.execCancelClr f s
  | .ginst f => Sys2Proof.Machine.execGinst f s
  | .yield f => Sys2Proof.Machine.execYield f s
  | .trap f => Sys2Proof.Machine.execTrap f s
  | .tret f => Sys2Proof.Machine.execTret f s
  | .brk f => Sys2Proof.Machine.execBrk f s
  | .mfsys f => Sys2Proof.Machine.execMfsys f s
  | .mtsys f => Sys2Proof.Machine.execMtsys f s
  | .ctxsave f => Sys2Proof.Machine.execCtxsave f s
  | .ctxrest f => Sys2Proof.Machine.execCtxrest f s
  | .preack f => Sys2Proof.Machine.execPreack f s
  | .illegalInstruction sub => Sys2Proof.Machine.execIllegalInstruction sub s
  | .instructionFetchFault flt => Sys2Proof.Machine.execInstructionFetchFault flt s
  | .resultArrive => Sys2Proof.Machine.execResultArrive s
  | .waitvEvaluate => Sys2Proof.Machine.execWaitvEvaluate s
  | .waitvPeriodicEval => Sys2Proof.Machine.execWaitvPeriodicEval s
  | .heldAccessPerform => Sys2Proof.Machine.execHeldAccessPerform s
  | .atomoLaneArrive => Sys2Proof.Machine.execAtomoLaneArrive s
  | .atomoRetry => Sys2Proof.Machine.execAtomoRetry s
  | .copyRetry => Sys2Proof.Machine.execCopyRetry s
  | .trackedWriteDeliver => Sys2Proof.Machine.execTrackedWriteDeliver s
  | .copyComplete => Sys2Proof.Machine.execCopyComplete s
  | .gatherComplete => Sys2Proof.Machine.execGatherComplete s
  | .invalidationComplete => Sys2Proof.Machine.execInvalidationComplete s
  | .walkComplete => Sys2Proof.Machine.execWalkComplete s
  | .walkQueuedStart => Sys2Proof.Machine.execWalkQueuedStart s
  | .krunRetry => Sys2Proof.Machine.execKrunRetry s
  | .collectiveMatch => Sys2Proof.Machine.execCollectiveMatch s
  | .collectiveComplete => Sys2Proof.Machine.execCollectiveComplete s
  | .kioskRunStart => Sys2Proof.Machine.execKioskRunStart s
  | .kioskRefreshPause => Sys2Proof.Machine.execKioskRefreshPause s
  | .kioskOpenRowAccess => Sys2Proof.Machine.execKioskOpenRowAccess s
  | .kioskAccessWaitTimeout => Sys2Proof.Machine.execKioskAccessWaitTimeout s
  | .kioskRowLimit => Sys2Proof.Machine.execKioskRowLimit s
  | .matrixQueueRetry => Sys2Proof.Machine.execMatrixQueueRetry s
  | .matrixDispatch => Sys2Proof.Machine.execMatrixDispatch s
  | .matrixPriorityAge => Sys2Proof.Machine.execMatrixPriorityAge s
  | .cubeKstepBoundary => Sys2Proof.Machine.execCubeKstepBoundary s
  | .cubeRetire => Sys2Proof.Machine.execCubeRetire s
  | .bandPowerUp => Sys2Proof.Machine.execBandPowerUp s
  | .bandPowerOff => Sys2Proof.Machine.execBandPowerOff s
  | .pergolaEvalComplete => Sys2Proof.Machine.execPergolaEvalComplete s
  | .tmodeRetry => Sys2Proof.Machine.execTmodeRetry s
  | .planeQueueRetry => Sys2Proof.Machine.execPlaneQueueRetry s
  | .planeEntryPerform => Sys2Proof.Machine.execPlaneEntryPerform s
  | .glaunchRetry => Sys2Proof.Machine.execGlaunchRetry s
  | .phaseDispatch => Sys2Proof.Machine.execPhaseDispatch s
  | .cancelComplete => Sys2Proof.Machine.execCancelComplete s
  | .yieldExpire => Sys2Proof.Machine.execYieldExpire s
  | .waitResume => Sys2Proof.Machine.execWaitResume s
  | .roundCommit => Sys2Proof.Machine.execRoundCommit s
  | .admitAttempt => Sys2Proof.Machine.execAdmitAttempt s
  | .admitBackoffExpire => Sys2Proof.Machine.execAdmitBackoffExpire s
  | .parkBlock => Sys2Proof.Machine.execParkBlock s
  | .unparkBlock => Sys2Proof.Machine.execUnparkBlock s
  | .gridSubmit => Sys2Proof.Machine.execGridSubmit s
  | .doorbellNotify => Sys2Proof.Machine.execDoorbellNotify s
  | .uqMap => Sys2Proof.Machine.execUqMap s
  | .uqUnmap => Sys2Proof.Machine.execUqUnmap s
  | .uqConsumeUnit => Sys2Proof.Machine.execUqConsumeUnit s
  | .ctxslotWrite => Sys2Proof.Machine.execCtxslotWrite s
  | .ctxctlPreq => Sys2Proof.Machine.execCtxctlPreq s
  | .preemptClassStop => Sys2Proof.Machine.execPreemptClassStop s
  | .coopPreemptEntry => Sys2Proof.Machine.execCoopPreemptEntry s
  | .preackTimeout => Sys2Proof.Machine.execPreackTimeout s
  | .ctxctlResume => Sys2Proof.Machine.execCtxctlResume s
  | .ctxctlKill => Sys2Proof.Machine.execCtxctlKill s
  | .sliceExpire => Sys2Proof.Machine.execSliceExpire s
  | .migration => Sys2Proof.Machine.execMigration s
  | .migrationLapse => Sys2Proof.Machine.execMigrationLapse s
  | .wsrefWrite => Sys2Proof.Machine.execWsrefWrite s
  | .wsRefreshShiftApply => Sys2Proof.Machine.execWsRefreshShiftApply s
  | .wsRefreshSlot => Sys2Proof.Machine.execWsRefreshSlot s
  | .hbmreqWrite => Sys2Proof.Machine.execHbmreqWrite s
  | .hbmGroupRetrainDone => Sys2Proof.Machine.execHbmGroupRetrainDone s
  | .rootWrite => Sys2Proof.Machine.execRootWrite s
  | .inboundEntryWrite => Sys2Proof.Machine.execInboundEntryWrite s
  | .fabricNumberAssign => Sys2Proof.Machine.execFabricNumberAssign s
  | .peerAccessArrive => Sys2Proof.Machine.execPeerAccessArrive s
  | .peerNoRouteTimeout => Sys2Proof.Machine.execPeerNoRouteTimeout s
  | .hostAccess => Sys2Proof.Machine.execHostAccess s
  | .flitReceive => Sys2Proof.Machine.execFlitReceive s
  | .linkTrainStart => Sys2Proof.Machine.execLinkTrainStart s
  | .linkTrainResult => Sys2Proof.Machine.execLinkTrainResult s
  | .linkRetrainEnter => Sys2Proof.Machine.execLinkRetrainEnter s
  | .peerPortDisable => Sys2Proof.Machine.execPeerPortDisable s
  | .qvfWrite => Sys2Proof.Machine.execQvfWrite s
  | .vfRampSegment => Sys2Proof.Machine.execVfRampSegment s
  | .droopDetect => Sys2Proof.Machine.execDroopDetect s
  | .droopEnd => Sys2Proof.Machine.execDroopEnd s
  | .cadenceStep => Sys2Proof.Machine.execCadenceStep s
  | .powerLoss => Sys2Proof.Machine.execPowerLoss s
  | .powerRecover => Sys2Proof.Machine.execPowerRecover s
  | .powerHoldupExpire => Sys2Proof.Machine.execPowerHoldupExpire s
  | .sensorSample => Sys2Proof.Machine.execSensorSample s
  | .powerOnReset => Sys2Proof.Machine.execPowerOnReset s
  | .bootStageCheck => Sys2Proof.Machine.execBootStageCheck s
  | .recoveryImage => Sys2Proof.Machine.execRecoveryImage s
  | .selfTest => Sys2Proof.Machine.execSelfTest s
  | .shockRecord => Sys2Proof.Machine.execShockRecord s
  | .attestationRequest => Sys2Proof.Machine.execAttestationRequest s
  | .bvctlFreeze => Sys2Proof.Machine.execBvctlFreeze s
  | .jtagFreeze => Sys2Proof.Machine.execJtagFreeze s
  | .bvctlThaw => Sys2Proof.Machine.execBvctlThaw s
  | .belvedereReadout => Sys2Proof.Machine.execBelvedereReadout s
  | .registerWrite => Sys2Proof.Machine.execRegisterWrite s
  | .kioskIllegalInstruction => Sys2Proof.Machine.execKioskIllegalInstruction s
  | .bankRefreshDue => Sys2Proof.Machine.execBankRefreshDue s
  | .peerPortEnable => Sys2Proof.Machine.execPeerPortEnable s

end Sys2Proof.Machine
end

