-- ==== Sys2Proof/Machine/Policy.lean ====
section
/-! DEFINITION. What the device does next when its agenda names nothing, and the moves the spec leaves to hardware. -/

namespace Sys2Proof.Machine

open Sys2Proof

/-- Whether the compute dies run: powered, and not frozen (R472, R474, R485). -/
def State.running (s : State) : Bool := !s.frozen && !s.supply.off && !s.supply.rails

/-- Events that need the compute dies powered, though not running: they act on contexts, launches and cores (R474). -/
def railEvent : Instr → Bool
  | .gridSubmit | .uqConsumeUnit | .ctxslotWrite | .ctxctlPreq | .ctxctlResume | .ctxctlKill | .sliceExpire | .kioskRunStart
  | .wsrefWrite | .droopDetect | .droopEnd | .qvfWrite | .vfRampSegment | .cadenceStep
  | .sensorSample | .selfTest => true
  | _ => false

/-- Whether the supply admits an event: a module without power has only a shock to record and its power-on, and one whose
compute rails are off none of the compute dies' events (R472, R474, R483). -/
def State.admitsEvent (s : State) (i : Instr) : Bool :=
  if s.supply.off then i matches .powerOnReset | .shockRecord else !(s.supply.rails && railEvent i)

/-- A choice about power and links carried out: a band's voltage (R468), a flit sent, flits replayed (R478). -/
def State.bandLevel (s : State) (n band : Nat) (below : BitVec 8) : Out :=
  if s.running then s.setBand n band below else .fault .noSuchEvent

/-- A replacement in a core's store (R94, R105). (DESIGN CHOICE, log 60) -/
def Core.evict (c : Core) (st : Store) (line : Nat) : Core :=
  let gone (l : Copies) : Copies := l.filter fun p => p.1 != line
  match st with
  | .l1 => { c with l1 := gone c.l1 }
  | .const => { c with cc := gone c.cc }
  | .tile => { c with tc := gone c.tc }
  | .gather => { c with gc := gone c.gc }
  | .plane => { c with pr := gone c.pr }
  | .tlb => { c with tlb := c.tlb.eraseIdx line }

/-- A dirty line of L2 written back by replacement (R102); a lost one has no data to write (R104). -/
def State.clean (s : State) (line : Nat) : State :=
  if s.lost line then s else { s with l2dirty := s.l2dirty.filter fun p => p.1 != line }

/-- An uncorrectable error found in a line. -/
def State.spoil (s : State) (line : Nat) : State :=
  if s.poison.contains line then s else { s with poison := line :: s.poison }

/-- An error that lay in L2's copy of a clean line is gone once the copy is invalidated: the next access reads memory's value
(R104). (DEDUCED, log 26) -/
def State.recover (s : State) (line : Nat) : State :=
  match regionOf (line * 128) with
  | .hbm | .cap =>
    if (copyGet s.l2dirty line).isSome then s else { s with poison := s.poison.filter fun x => x != line }
  | _ => s

def State.evict (s : State) (n : Nat) (st : Store) (line : Nat) : State := s.setCore n ((s.core n).evict st line)
def State.evictQuad (s : State) (q k : Nat) : State := s.setQuad q { s.quad q with tlb := (s.quad q).tlb.eraseIdx k }
def State.evictWalk (s : State) (d k : Nat) : State := s.setDie d { s.die d with wcache := (s.die d).wcache.eraseIdx k }

/-- The lowest core with a warp that can be picked. -/
def issueDue (s : State) : Option Choice :=
  match s.cores.find? fun p => (pick s p.1).isSome with
  | some p => some (.issue p.1)
  | none => none

/-- A finished tile of a pending node that the evaluator writes to the node's home buffer, which any tile may be at any moment
(R365, R377). It happens where the tile can be evaluated, the entries of its contractions having run, and where no other node
depends on the bytes. (DESIGN CHOICE, log 41) -/
def State.spillTile (s : State) (k idx tr tc : Nat) : Out :=
  match s.warp? k with
  | none => .fault .noSuchEvent
  | some w =>
    match (w.perg.byIdx idx).filter fun n => !n.isLeaf && !w.det && w.status != .exited with
    | none => .fault .noSuchEvent
    | some n =>
      let x : Rect := { r0 := tr * 32, c0 := tc * 32, rows := tileH n.desc tr, cols := tileW n.desc tc }
      let e := evalFor k k w false s.seq 0
      if x.rows = 0 || x.cols = 0 || !(s.guardHits w.ctx w.core [homeRng n.desc x]).isEmpty then .fault .noSuchEvent
      else match evaluate e s w n x with
        | .error _ => .fault .noSuchEvent
        | .ok (t, tiles) =>
          match placeRows e n t (rectRows tiles n x fun r => n.desc.elemVa (x.r0 + r) x.c0) with
          | .error _ => .fault .noSuchEvent
          | .ok (_, ws) => .next (s.matHome w.core w.ctx ws)

/-! ## Events of the compute dies -/

/-- Events that happen on the compute dies, whose clocks a freeze stops (R485). -/
def dieEvent : Instr → Bool
  | .resultArrive | .waitvEvaluate | .waitvPeriodicEval | .heldAccessPerform | .atomoLaneArrive | .atomoRetry
  | .copyRetry | .trackedWriteDeliver | .copyComplete | .gatherComplete | .invalidationComplete | .walkComplete
  | .walkQueuedStart | .krunRetry | .collectiveMatch | .collectiveComplete | .matrixQueueRetry | .matrixDispatch
  | .matrixPriorityAge | .cubeKstepBoundary | .cubeRetire | .bandPowerUp | .bandPowerOff | .pergolaEvalComplete
  | .tmodeRetry | .planeQueueRetry | .planeEntryPerform | .glaunchRetry | .phaseDispatch | .cancelComplete
  | .yieldExpire | .waitResume | .roundCommit | .admitAttempt | .admitBackoffExpire | .parkBlock | .unparkBlock
  | .preemptClassStop | .coopPreemptEntry | .preackTimeout | .migration | .migrationLapse | .wsRefreshShiftApply
  | .wsRefreshSlot | .peerNoRouteTimeout | .kioskRunStart | .gridSubmit | .uqConsumeUnit => true
  | _ => false

/-! ## The default order: one of those that the spec allows -/

/-- Whether an event can happen now. -/
def accepted (s : State) (p : Instr × EvArg) : Bool :=
  match exec p.1 { s with ev := p.2 } with
  | .next _ => true
  | _ => false

/-- Events about one warp, by what it waits for. -/
def warpEvents (s : State) (k : Nat) (w : Warp) : List (Instr × EvArg) :=
  let a : EvArg := { x := k }
  let arrive : List (Instr × EvArg) :=
    match w.pend.findIdx? fun p => p.ready with
    | some i => [(.resultArrive, { x := k, y := i })]
    | none => []
  arrive ++ (if s.ordbuf.any (s.ordDue k) then [(.atomoRetry, a)] else []) ++
    match w.wait with
    | .held _ | .present .. => [(.heldAccessPerform, a)]
    | .refused _ =>
      [(.copyRetry, a), (.krunRetry, a), (.matrixQueueRetry, a), (.tmodeRetry, a), (.planeQueueRetry, a), (.glaunchRetry, a),
       (.pergolaEvalComplete, a)]
    | .waitt .. | .bar .. | .gwait _ | .tlbisync | .peer _ => [(.waitResume, a)]
    | .waitv _ => if w.det then [] else if waitOver s k w then [(.waitvEvaluate, a)] else [(.waitvPeriodicEval, a)]
    | .eval .. | .slots .. => [(.pergolaEvalComplete, a)]
    | .yield => [(.yieldExpire, a)]
    | _ => []

/-- Events about one core's engines. -/
def coreEvents (n : Nat) (c : Core) : List (Instr × EvArg) :=
  ((countFrom 0 c.ops.length).flatMap fun i =>
    let lines := match c.ops[i]? with
      | some o => ((o.pieces.filter fun (p : Piece) => p.dkind = LocKind.scratch).map fun (p : Piece) => lineOf p.dst).eraseDups
      | none => []
    (lines.map fun l => ((.trackedWriteDeliver, { x := n, y := i, z := l }) : Instr × EvArg))
      ++ [(.copyComplete, { x := n, y := i }), (.gatherComplete, { x := n, y := i })])
  ++ (if c.cq.isEmpty then []
      else
        ((countFrom 0 c.cq.length).map fun i => ((.cubeRetire, { x := n, y := i }) : Instr × EvArg))
        ++ [(.cubeKstepBoundary, { x := n }), (.matrixDispatch, { x := n, unit := .load }),
            (.matrixDispatch, { x := n, unit := .compute }), (.matrixDispatch, { x := n, unit := .tile })])
  ++ (if c.pq.isEmpty then [] else [(.planeEntryPerform, { x := n })])

/-- Events about grids: admission. -/
def gridEvents (s : State) (k : Nat) (g : Grid) : List (Instr × EvArg) :=
  if g.retired then []
  else (countFrom 0 g.recd.clusters).flatMap fun lin =>
    let q := s.clusterOf k lin g
    if q.2.admitted then []
    else (countFrom 0 4).flatMap fun d =>
      [(if q.2.backoff.isSome then .admitBackoffExpire else .admitAttempt, { x := d, y := k, z := lin })]

/-- Commits of deterministic launches that have something to do. -/
def commitEvents (s : State) : List (Instr × EvArg) :=
  (s.grids.filter fun p => p.2.recd.det && ((s.blocks.any fun b => b.2.nextPhase) || s.warps.any fun w =>
    w.2.grid == p.1 && (!w.2.held.isEmpty || w.2.qend || match w.2.wait with
      | .tqpop .. | .commit => true
      | .refused c => hasRoom s w.1 w.2 c.body
      | .waitv _ => waitOver s w.1 w.2
      | _ => false))).map
      fun p => (.roundCommit, { x := p.1 })

/-- Events that may be due about warps, grids, blocks and contexts. -/
def dueEvents (s : State) : List (Instr × EvArg) :=
  (s.warps.flatMap fun p => if p.2.status = .live then warpEvents s p.1 p.2 else [])
  ++ ((countFrom 0 s.ordbuf.length).map fun i => (.atomoLaneArrive, { x := i }))
  ++ ((countFrom 0 s.rels.length).map fun i => (.heldAccessPerform, { nums := [i] }))
  ++ (s.kiosks.map fun p => (.kioskRunStart, { x := p.1 }))
  ++ (s.ctxs.flatMap fun p => if p.2.pendCancel.isEmpty then [] else [(.cancelComplete, { x := p.1 })])
  ++ (s.blocks.flatMap fun p => (if p.2.nextPhase then [(.phaseDispatch, { x := p.1 })] else [])
       ++ if p.2.parked then [(.unparkBlock, { x := p.1 })] else [])
  ++ (s.grids.flatMap fun p => gridEvents s p.1 p.2)
  ++ (s.cores.flatMap fun p => if p.2.migreq || p.2.moving then
       (countFrom 0 34).map fun y => ((.migration, { x := p.1, y := y }) : Instr × EvArg) else [])
  ++ (s.uq.flatMap fun p => if p.2.pend = 0 then [] else [(.uqConsumeUnit, { x := p.1 })])

/-- Events that may be due about the engines. -/
def engineEvents (s : State) : List (Instr × EvArg) :=
  (s.cores.flatMap fun p => coreEvents p.1 p.2)
  ++ ((countFrom 0 s.invals.length).map fun i => (.invalidationComplete, { x := i }))
  ++ (s.dies.flatMap fun p => if p.2.walks.isEmpty then [] else
       [(.walkComplete, { x := p.1, y := 0 }), (.walkQueuedStart, { x := p.1 })])
  ++ (s.colls.flatMap fun c => [(.collectiveComplete, { v := c.group, g := c.sq }), (.collectiveMatch, { v := c.group, g := c.sq })])

/-- Steps by which a context that is to stop reaches its boundaries (R457, R459): they come before further issue. -/
def stopEvents (s : State) : List (Instr × EvArg) :=
  (s.ctxs.filter fun p => p.2.preq).flatMap fun p =>
    (s.warps.filter fun q => q.2.ctx == p.1 && q.2.status == .live).map (fun q => ((.coopPreemptEntry, { x := q.1 }) : Instr × EvArg))
    ++ [EngClass.warps, .cube, .copy, .gather, .pergola, .plane, .kiosk, .collective].map fun c =>
        ((.preemptClassStop, { x := p.1, cls := c }) : Instr × EvArg)

/-- What ends once time has passed, when nothing else is left to do. -/
def lateEvents (s : State) : List (Instr × EvArg) :=
  (s.warps.filter fun p => p.2.status == .live).flatMap (fun p =>
    ([(.preackTimeout, { x := p.1 }), (.peerNoRouteTimeout, { x := p.1 })] : List (Instr × EvArg)))
  ++ (s.cores.flatMap fun p => ([(.migrationLapse, { x := p.1 }), (.cadenceStep, { x := p.1 })] : List (Instr × EvArg)))
  ++ (s.quads.map fun p => ((.vfRampSegment, { x := p.1 }) : Instr × EvArg))
  ++ s.hbm.map fun p => ((.hbmGroupRetrainDone, { x := p.1 }) : Instr × EvArg)

/-- Whether a copy waits for the end of the running cycle (R188). -/
def overlapWaits (s : State) : Bool :=
  s.warps.any fun p => match p.2.wait, p.2.held with
    | .overlap .., _ => true
    | _, .overlap _ false :: _ => true
    | _, _ => false

/-- Whether something waits for time to pass. -/
def timed (s : State) : Bool :=
  overlapWaits s
  || (s.cores.any fun p => !p.2.pickedWarps.isEmpty)
  || (s.warps.any fun p => match p.2.wait with
      | .yield | .waitv _ => true
      | .tqpop .. => !p.2.det && waitOver s p.1 p.2
      | _ => false)
  || s.clusters.any fun p => p.2.backoff.isSome

/-- The Kiosk that runs next. -/
def kioskDue (s : State) : Option Choice := (s.kiosks.find? fun p => p.2.run.isSome).map fun p => .kiosk p.1

/-- While something waits for time to pass, engines and Kiosks act in their turn, about once in eight cycles, and not before an
overlap check of the running cycle. -/
def engineTurn (s : State) : Bool := !timed s || (!overlapWaits s && (s.clock.toNat / 8 + s.served) % 2 == 0)

/-- The first event of a list that can happen now. -/
def firstAccepted (s : State) (l : List (Instr × EvArg)) : Option Choice :=
  (l.find? (accepted s)).map fun p => .event p.1 p.2

/-- Blocks that may be parked, while another block waits to be admitted or resumed (R424, R434). -/
def parkEvents (s : State) : List (Instr × EvArg) :=
  let waiting := (s.clusters.any fun p => p.2.backoff.isSome)
    || s.blocks.any fun b => b.2.parked && s.warps.any fun p => p.2.block == b.1 && p.2.status == .parked && waitOver s p.1 p.2
  if waiting then s.blocks.map fun b => (.parkBlock, { x := b.1 }) else []

/-- What the engines, the Kiosks and the commits do next, and last the parking of a block that only waits. -/
def engineChoice (s : State) : Option Choice :=
  match firstAccepted s (engineEvents s) with
  | some c => some c
  | none =>
    match kioskDue s with
    | some c => some c
    | none =>
      match firstAccepted s (commitEvents s) with
      | some c => some c
      | none => firstAccepted s (parkEvents s)

/-- The default choice, and whether it is an engine's: contexts that are to stop, then warps, events that are due, in
their turn the engines and Kiosks, a cycle boundary, and last what only time ends. -/
def nextChoice (s : State) : Option (Bool × Choice) :=
  if !s.running then none
  else match firstAccepted s (stopEvents s) with
    | some c => some (false, c)
    | none =>
      match issueDue s with
      | some c => some (false, c)
      | none =>
        match firstAccepted s (dueEvents s) with
        | some c => some (false, c)
        | none =>
          match (if engineTurn s then engineChoice s else none) with
          | some c => some (true, c)
          | none => if timed s then some (false, .cycle) else (firstAccepted s (lateEvents s)).map fun c => (false, c)

end Sys2Proof.Machine
end

