-- ==== Sys2Proof/Machine/Place.lean ====
section
/-! DEFINITION. Placing one instruction where the next step fetches: a warp whose page is mapped, at a clause header or
inside a clause, or the program of a Kiosk run. -/

namespace Sys2Proof.Machine

open Sys2Proof

/-- The page in which a placed instruction lies. -/
def placeVa : Nat := 0x1000

def placeTlb : Tlb :=
  { tag := none, sysHalf := false, vbase := placeVa, size := 4096, pbase := placeVa, ty := 0, r := true, w := true
    x := true, dirty := true, level := 4, entry := 0, group := false, vals := [] }

/-- The device with core words placed before the warp in turn. -/
def placeCore (s : State) (bytes : List Byte) (header long : Bool) : State :=
  let w := (s.curWarp).getD (Warp.fresh 0 0 0xFFFFFFFF)
  let left := if header then 0 else if long then 2 else 1
  let w := { w with pc := BitVec.ofNat 64 placeVa, wait := .run, status := .live, qend := false
                    clause := { w.clause with left := left, first := !header, hdr := BitVec.ofNat 64 (placeVa - 8) } }
  let c := s.core w.core
  let slots := Vector.ofFn fun i : Fin 8 =>
    if i.val = 0 then { c.slot 0 with valid := true, ctx := BitVec.ofNat 8 w.ctx } else { c.slot i.val with valid := false }
  let c := { c with tlb := placeTlb :: c.tlb, slots := slots, picks := 0, vpicks := 0, spicks := 0
                    pickedWarps := (s.warps.map Prod.fst).filter fun k => k != s.cur }
  { (s.setWarp s.cur w).setCore w.core c with
    mem := memWriteN s.mem placeVa bytes
    poison := s.poison.filter fun l => l != lineOf placeVa
    bvctl := s.bvctl &&& ~~~8#32
    supply := { s.supply with off := false, rails := false }
    agenda := [.issue w.core] }

/-- The device with Kiosk words placed as the program of channel 0's run. -/
def placeKiosk (s : State) (prog : List Word) : State :=
  let k := s.kiosk 0
  let r := match k.run with
    | some r => { r with prog := prog, pc := 0, paused := false }
    | none => KState.fresh .fresh prog
  { s.setKiosk 0 { k with run := some r, postponed := [] } with agenda := [.kiosk 0], supply := { s.supply with off := false, rails := false } }

/-- The device with an instruction placed where it is fetched next. -/
def placeBytes (s : State) (bytes : List Byte) : State :=
  let w0 := bytesWord (bytes.take 8)
  let w1 := bytesWord ((bytes.drop 8).take 8)
  let long := longOf w0
  if isHeader w0 then placeCore s bytes true false
  else
    match decodeCore w0 w1 (if long then 2 else 1) true with
    | .ok _ => placeCore s bytes false long
    | .error _ =>
      match decodeKiosk w0 w1 (if long then 2 else 1) with
      | some _ => placeKiosk s (if long then [w0, w1] else [w0])
      | none => placeCore s bytes false long

end Sys2Proof.Machine
end

