-- ==== Sys2Proof/Machine/Step.lean ====
section
/-! DEFINITION. One step of the device: a pick of a core, an instruction of a Kiosk run, an event, a cycle boundary or
a hardware move. -/

namespace Sys2Proof.Machine

open Sys2Proof

/-- A core picks a warp, which executes the instruction fetched; where its unit is full, it only leaves the cycle's
ready warps (R427); one ordered after ordered atomics of its warp waits for them. -/
def stepIssue (s : State) (n : Nat) : Out :=
  if !s.running then .fault .idle
  else match pick s n with
    | none => .fault .noSuchEvent
    | some (k, w, slot) =>
      let r := fetchNext s w
      match r.2.stall with
      | some p => .next (r.1.stalled n k w slot r.2 p)
      | none =>
        if s.ordHolds k r.2.instr then .next (r.1.heldBack n k w slot r.2 .ordered)
        else if r.2.header || (s.core n).hasSlot r.2.vec then exec r.2.instr (r.1.issued n k w slot r.2)
        else .next (s.setCore n ((s.core n).take k slot false false))

/-- Whether a Kiosk's run has ended. -/
def ended (ch : Nat) : Out → Bool
  | .next t => (t.kiosk ch).run.isNone
  | _ => false

/-- A Kiosk executes the next word of its run; before an all-bank instruction that a bank's postponed refreshes do not
allow, the run pauses and issues them (R136). While the compute dies are frozen it goes on as far as it reaches nothing of theirs: a
read-out into memory and the run's end, which raises tl8, wait (R485). -/
def stepKiosk (s : State) (ch : Nat) : Out :=
  match (s.kiosk ch).run with
  | none => .fault .noRun
  | some r =>
    if s.supply.off then .fault .noSuchEvent
    else if allBank r.fetch.1 && (s.kiosk ch).full then .next (s.pause ch 1)
    else
      let out := exec r.fetch.1 (s.kioskIssued ch (s.kiosk ch) r r.fetch.2)
      if s.frozen && (r.fetch.1 matches .kread _ || ended ch out) then .fault .noSuchEvent else out

/-- Instructions that only an agent's own execution reaches. -/
def ownedByAgent : Instr → Bool
  | .illegalInstruction _ | .instructionFetchFault _ | .kioskIllegalInstruction => true
  | i => i.encodable

/-- One choice carried out. (DESIGN CHOICE, log 2) -/
def runChoice (s : State) : Choice → Out
  | .issue n => stepIssue s n
  | .kiosk ch => stepKiosk s ch
  | .event i a =>
    if ownedByAgent i || (dieEvent i && !s.running) || !s.admitsEvent i then .fault .noSuchEvent else exec i { s with ev := a }
  | .cycle => if s.running then .next s.cycle else .fault .noSuchEvent
  | .evict n st line => if s.running then .next (s.evict n st line) else .fault .noSuchEvent
  | .evictQuad q k => if s.running then .next (s.evictQuad q k) else .fault .noSuchEvent
  | .evictWalk d k => if s.running then .next (s.evictWalk d k) else .fault .noSuchEvent
  | .clean line => if s.running then .next (s.clean line) else .fault .noSuchEvent
  | .error line => if s.supply.off then .fault .noSuchEvent else .next (s.spoil line)
  | .recover line => if s.supply.off then .fault .noSuchEvent else .next (s.recover line)
  | .peerSegment seg shut => .next { s with peerShut := tset s.peerShut seg shut }
  | .collective c src => if s.running then .next (s.collArrive c src) else .fault .noSuchEvent
  | .spillTile k idx tr tc => if s.running then s.spillTile k idx tr tc else .fault .noSuchEvent
  | .bandLevel n band below => s.bandLevel n band below
  | .send port flow payload => if s.supply.off then .fault .noSuchEvent else s.sendFlit port flow payload
  | .resend port => if s.supply.off then .fault .noSuchEvent else s.resendFlits port

/-- One step: the agenda's next choice, or the default one. (DESIGN CHOICE, log 2) -/
def step (s : State) : Host.Outcome State Fault Refusal :=
  match s.agenda with
  | c :: rest => runChoice { s with agenda := rest } c
  | [] =>
    match nextChoice s with
    | some (e, c) => runChoice { s with served := if e then s.served + 1 else s.served } c
    | none => .fault .idle

/-- The state with an instruction stored where the step fetches its next one. (DESIGN CHOICE, log 8) -/
def State.withFetchWord (s : State) (_nbits w : Nat) : State :=
  placeBytes s (wordBytes (BitVec.ofNat 64 w) ++ wordBytes (BitVec.ofNat 64 (w / 2 ^ 64)))

end Sys2Proof.Machine
end

