-- ==== Sys2Proof/Safety.lean ====
section
/-! DEFINITION. What claims call a run, and the invariant that every step keeps. -/

namespace Sys2Proof.Machine

open Sys2Proof

/-- An instruction, completion or event answers this next state. -/
def Ends (i : Instr) (s t : State) : Prop := exec i s = .next t

/-- Some next state is answered. -/
def Completes (i : Instr) (s : State) : Prop := ∃ t, Ends i s t

/-- A predicate that every step keeps. -/
def Kept (p : State → Prop) : Prop := ∀ s t, p s → step s = .next t → p t

/-- A state that some run reaches from another. -/
inductive Reach (s : State) : State → Prop where
  | here : Reach s s
  | step {t u : State} : Reach s t → step t = .next u → Reach s u

/-- The memory of the device, and that of the peers it has written, stand in the one canonical form. -/
def State.memoryOk (s : State) : Prop := Memory.wf s.mem = true ∧ Memory.wf s.peerMem = true

end Sys2Proof.Machine
end

