-- ==== Sys2Proof/Certificates/Slice0/Obligations.lean ====
section
/-! DEFINITION. The statements about the model, with the few notions they are written in. -/

open Sys2Proof Sys2Proof.Machine

namespace Sys2Proof.Machine

/-! ## Notions of the statements -/

/-- Whether words decode to instructions, each word first, then its second word or 0. -/
def reads (l : List (Nat × Instr)) : Bool := l.all fun p => decodeTableWord 128 p.1 == some p.2

/-- Extend(DT, Low(w, v)) on 64-bit words (R260). -/
def widen (t : DT) (v : Word) : Word :=
  if t.signed then (v.setWidth t.width).signExtend 64 else (v.setWidth t.width).setWidth 64

/-- The number an operand stands for: signed for i, natural for n (R260). -/
def numberOf (t : DT) (v : Word) : Int := if t.signed then (widen t v).toInt else (widen t v).toNat

/-- A word from an exact number, cut to the type and extended (R260). -/
def wordOf (t : DT) (n : Int) : Word := widen t (BitVec.ofInt 64 n)

/-- How many of the low `w` bits of a word are one. -/
def onesIn (w : Nat) (v : Word) : Nat := ((List.range w).filter fun i => v.getLsbD i).length

/-- The warp in turn, with scalar register D of a Format A word set. -/
def putS (s : State) (w : Warp) (f : FmtA) (v : Word) : State := s.setWarp s.cur (w.setS f.d v)

/-- A scalar instruction writes one value into its destination, and nothing else changes. -/
def Writes (i : FmtA → Instr) (v : State → Warp → FmtA → Word) : Prop :=
  ∀ s w f, s.curWarp = some w → Ends (i f) s (putS s w f (v s w f))

/-! ## Encoding -/

end Sys2Proof.Machine

/-- Words that the spec prints beside their source lines read as those instructions (R208 to R214). -/
def Obligations.SpecWordsRead : Prop :=
  reads [
    (0xFCC0216D00000000, .clauseHeader { len := 3, wait := 8, fa := 5, fav := true, fb := 6, fbv := true }),
    (0x0002C60000000000309D141062000000,
      .vfma { long := true, dt := .bf16, d := 10, a := 2, b := 3, c := 4, cc := 0, i := false, imm16 := 0, modA := 0
              modB := 0x2C6, modC := 0, ext := 0 }),
    (0x70070A1109100040,
      .ldG { long := false, dt := .b32, d := 5, a := 2, b := 8, scope := .quad, ord := .acq, hint := .normal
             nosplit := false, voff := true, ofs := 0x40, modA := 0, ext := 0 }),
    (0x2242068000000007, .brv { hint := .unlikely, s := 4, v := 3, cc := 2, ofs := 7 }),
    (0x7801800001000004,
      .barArrive { long := false, d := 12, a := 0, b := 0, c := 0, q := 2, prio := 0, imm20 := 4, imm64 := 0 }),
    (0x00800080AA1020009099220A00200000,
      .cmac3 { long := true, d := 9, a := 4, b := 5, c := 0, q := 0, prio := 2, imm20 := 0, imm64 := 0x00800080AA102000 }),
    (0xB000080300004000, .lpnor { col := false, sel := 0, in1 := 2, in2 := 3, in3 := 0, out := 4 }),
    (0xC108A00001800001,
      .tqpopNw { long := false, d := 5, a := 0, b := 0, c := 0, q := 3, prio := 0, imm20 := 1, imm64 := 0 }),
    (0xD11E000000000000, .tret { hint := .none, s := 60, v := 0, cc := 0, ofs := 0 }),
    (0xBB05000800080400,
      .kread { long := false, dt := .bf16, d := 0, a := 1, b := 0, c := 0, cc := 0, i := true, imm16 := 0x400, modA := 0
               modB := 0, modC := 0, ext := 0 })] = true

/-- Every well-formed instruction of a core, in a place its kind admits, is what the decoder reads from its words. -/
def Obligations.CoreWordsRoundTrip : Prop :=
  ∀ (i : Instr) (first : Bool), i.wf = true → (match shapeOf i with | .a .. | .m .. | .e .. | .br .. | .g .. => True | _ => False) →
    (match i with | .region _ => first = true | _ => True) →
    decodeCore ((encode i).getD 0 0) ((encode i).getD 1 0) i.length first = .ok i

/-- Every well-formed Kiosk instruction is what the Kiosk's decoder reads from its words. -/
def Sys2Proof.Machine.KioskWordsRoundTrip : Prop :=
  ∀ (i : Instr) (room : Nat), i.wf = true → (match shapeOf i with | .ka .. | .km .. | .kbr .. => True | _ => False) →
    i.length ≤ room → decodeKiosk ((encode i).getD 0 0) ((encode i).getD 1 0) room = some i

/-- Every well-formed clause header is what the decoder reads in header position, and its word is marked (R201). -/
def Sys2Proof.Machine.HeaderRoundTrip : Prop :=
  ∀ f : Hdr, (Instr.clauseHeader f).wf = true →
    isHeader ((encode (.clauseHeader f)).getD 0 0) = true ∧
    decodeHeader ((encode (.clauseHeader f)).getD 0 0) = .ok (.clauseHeader f)

/-- Every well-formed Kiosk instruction and clause header is what its decoder reads from its words. -/
def Obligations.OtherWordsRoundTrip : Prop := KioskWordsRoundTrip ∧ HeaderRoundTrip

/-! ## Steps -/

/-- When a core is picked and the words at its warp's pc decode to an instruction whose unit has a slot, the step is that
instruction's meaning, run for that warp with its pc past the words; with no word of its clause left, likewise the clause header
there; a split warp rejoins where R98 says; likewise a Kiosk's word and an event. -/
def Sys2Proof.Machine.StepRunsInstruction : Prop :=
  (∀ s n rest k w slot u x w0 w1 i, s.agenda = .issue n :: rest → s.running = true →
    pick { s with agenda := rest } n = some (k, w, slot) → w.clause.left ≠ 0 →
    fetchWord { s with agenda := rest } w.who w.pc = .ok (u, w0) →
    ((longOf w0 = false ∧ x = u ∧ w1 = 0) ∨ (longOf w0 = true ∧ fetchWord u w.who (w.pc + 8) = .ok (x, w1))) →
    decodeCore w0 w1 w.clause.left w.clause.first = .ok i → s.ordHolds k i = false → (s.core n).hasSlot (vectorUnit w0) = true →
    ∃ t, step s = exec i t ∧ t.cur = k ∧ t.mem = x.mem ∧ t.agenda = rest ∧ ∃ v, t.warp? k = some v ∧
      v.ipc = w.pc ∧ v.pc = w.pc + BitVec.ofNat 64 (8 * i.length) ∧ v.wait = .run ∧
      v.clause.left = w.clause.left - i.length ∧ v.s = w.s ∧ v.v = w.v ∧ v.em = w.em ∧
      v.split = w.split.filter fun x => !rejoins x i) ∧
  (∀ s n rest k w slot u w0 i, s.agenda = .issue n :: rest → s.running = true →
    pick { s with agenda := rest } n = some (k, w, slot) → w.clause.left = 0 →
    fetchWord { s with agenda := rest } w.who w.pc = .ok (u, w0) → decodeHeader w0 = .ok i →
    ∃ t, step s = exec i t ∧ t.cur = k ∧ t.mem = u.mem ∧ ∃ v, t.warp? k = some v ∧
      v.ipc = w.pc ∧ v.pc = w.pc + 8 ∧ v.wait = .run ∧ v.s = w.s ∧ v.v = w.v ∧ v.em = w.em ∧
      v.split = w.split.filter fun x => !rejoins x i) ∧
  (∀ s ch rest r w0 room i, s.agenda = .kiosk ch :: rest → s.supply.off = false → s.frozen = false → (s.kiosk ch).run = some r →
    r.prog.drop r.pc = w0 :: room → decodeKiosk w0 (room.headD 0) (room.length + 1) = some i → (allBank i && (s.kiosk ch).full) = false →
    ∃ t, step s = exec i t ∧ t.kcur = ch ∧ t.mem = s.mem ∧ ∃ k x, t.kiosk ch = k ∧ k.run = some x ∧
      x.pc = r.pc + i.length ∧ x.s = r.s ∧ x.k = r.k ∧ x.masks = r.masks) ∧
  (∀ s i a rest, s.agenda = .event i a :: rest → ownedByAgent i = false → (dieEvent i = false ∨ s.running = true) → s.admitsEvent i = true →
    step s = exec i { s with agenda := rest, ev := a })

/-- With nothing on the agenda, the step is the default choice's, which picks a core whenever some warp can be picked and
no context is to stop. -/
def Sys2Proof.Machine.StepDefaultIssues : Prop :=
  ∀ s n, s.agenda = [] → s.running = true → firstAccepted s (stopEvents s) = none → issueDue s = some (.issue n) →
    step s = step { s with agenda := [.issue n] }

/-- A step is the meaning of the instruction it fetches, of the event it takes, or of the default choice's. -/
def Obligations.StepRunsTheInstruction : Prop := StepRunsInstruction ∧ StepDefaultIssues

/-! ## Scalar instructions -/

/-- add, sub, mul, and, or, xor, andn, mov, movi: the exact result cut to the type's width and extended (R260, R261, R264). -/
def Sys2Proof.Machine.ScalarRingAndLogic : Prop :=
  Writes .add (fun _ w f => widen f.dt (w.getS f.a + scalarB w f)) ∧
  Writes .sub (fun _ w f => widen f.dt (w.getS f.a - scalarB w f)) ∧
  Writes .mul (fun _ w f => widen f.dt (w.getS f.a * scalarB w f)) ∧
  Writes .and (fun _ w f => widen f.dt (w.getS f.a &&& scalarB w f)) ∧
  Writes .or (fun _ w f => widen f.dt (w.getS f.a ||| scalarB w f)) ∧
  Writes .xor (fun _ w f => widen f.dt (w.getS f.a ^^^ scalarB w f)) ∧
  Writes .andn (fun _ w f => widen f.dt (w.getS f.a &&& ~~~scalarB w f)) ∧
  Writes .mov (fun _ w f => widen f.dt (w.getS f.a)) ∧
  Writes .movi (fun _ _ f => widen f.dt (immA f))

/-- min, max, mulhi, div, rem, setc, sel: order, the upper product, division with its defined corners, selection (R261 to
R263). setc of a float type compares the floats in the low bits. -/
def Sys2Proof.Machine.ScalarOrderAndDivision : Prop :=
  Writes .min (fun _ w f => widen f.dt
    (if numberOf f.dt (w.getS f.a) ≤ numberOf f.dt (scalarB w f) then w.getS f.a else scalarB w f)) ∧
  Writes .max (fun _ w f => widen f.dt
    (if numberOf f.dt (w.getS f.a) ≤ numberOf f.dt (scalarB w f) then scalarB w f else w.getS f.a)) ∧
  Writes .mulhi (fun _ w f => wordOf f.dt
    (numberOf f.dt (w.getS f.a) * numberOf f.dt (scalarB w f) / 2 ^ f.dt.width)) ∧
  Writes .div (fun _ w f => wordOf f.dt
    (if numberOf f.dt (scalarB w f) = 0 then -1 else (numberOf f.dt (w.getS f.a)).tdiv (numberOf f.dt (scalarB w f)))) ∧
  Writes .rem (fun _ w f => wordOf f.dt
    (if numberOf f.dt (scalarB w f) = 0 then numberOf f.dt (w.getS f.a)
     else (numberOf f.dt (w.getS f.a)).tmod (numberOf f.dt (scalarB w f)))) ∧
  (∀ s w f, s.curWarp = some w → f.dt.isFloat = false →
    Ends (.setc f) s (putS s w f
      (if compareI (ccOf f.cc) (numberOf f.dt (w.getS f.a)) (numberOf f.dt (scalarB w f)) then 1 else 0))) ∧
  (∀ s w f, s.curWarp = some w → f.dt.isFloat = true →
    Ends (.setc f) s (putS s w f
      (if compareF (ccOf f.cc) (floatS f.dt (w.getS f.a)) (floatS f.dt (scalarB w f)) then 1 else 0))) ∧
  Writes .sel (fun _ w f => if w.getS f.c ≠ 0 then w.getS f.a else scalarB w f)

/-- shl, shr, rot, popc, clz, bfx, bfi bit by bit: bit j of the result's low w bits comes from the bit of x that the rule
names (R261; that bfx and bfi read as zero the bits of y at or above the type's width is the model's reading, log 23). -/
def Sys2Proof.Machine.ScalarShiftsAndFields : Prop :=
  Writes .shl (fun _ w f => widen f.dt (w.getS f.a <<< ((scalarB w f).toNat % f.dt.width))) ∧
  Writes .shr (fun _ w f => widen f.dt
    (if f.dt.signed then (widen f.dt (w.getS f.a)).sshiftRight ((scalarB w f).toNat % f.dt.width)
     else widen f.dt (w.getS f.a) >>> ((scalarB w f).toNat % f.dt.width))) ∧
  Writes .rot (fun _ w f => widen f.dt
    (((w.getS f.a).setWidth f.dt.width).rotateRight ((scalarB w f).toNat % f.dt.width) |>.setWidth 64)) ∧
  Writes .popc (fun _ w f => wordOf f.dt (onesIn f.dt.width (w.getS f.a))) ∧
  (∀ s w f, s.curWarp = some w → ∃ n : Nat, n ≤ f.dt.width ∧ Ends (.clz f) s (putS s w f (wordOf f.dt n)) ∧
    (∀ j, f.dt.width - n ≤ j → j < f.dt.width → (w.getS f.a).getLsbD j = false) ∧
    (n < f.dt.width → (w.getS f.a).getLsbD (f.dt.width - n - 1) = true)) ∧
  (∀ s w f, s.curWarp = some w → ∃ r : Word, Ends (.bfx f) s (putS s w f (widen f.dt r)) ∧
    ∀ j, j < f.dt.width → r.getLsbD j =
      (let y := lowW f.dt.width (scalarB w f)
       let pos := y % 64
       let len := y / 256 % 64
       let bit (k : Nat) : Bool := decide (k < f.dt.width) && (w.getS f.a).getLsbD k
       if j < len then bit (pos + j) else f.dt.signed && decide (0 < len) && bit (pos + len - 1))) ∧
  (∀ s w f, s.curWarp = some w → ∃ r : Word, Ends (.bfi f) s (putS s w f (widen f.dt r)) ∧
    ∀ j, j < f.dt.width → r.getLsbD j =
      (let y := lowW f.dt.width (scalarB w f)
       let pos := y % 64
       let len := y / 256 % 64
       if pos ≤ j ∧ j < pos + len then (w.getS f.c).getLsbD (j - pos) else (w.getS f.a).getLsbD j))

/-- Scalar integer instructions: each one's exact result, cut to the type's width and extended (R260 to R263); what the model
chooses or infers is marked in the parts: log 23. -/
def Obligations.ScalarIntegers : Prop := ScalarRingAndLogic ∧ ScalarOrderAndDivision ∧ ScalarShiftsAndFields

/-- fadd, fsub, fmul, ffma, fcvt: the exact value rounded once under the type's slot or the override, written
zero-extended; one draw of the scalar generator under SR (R268). -/
def Obligations.ScalarFloat : Prop :=
  ∀ s w f, s.curWarp = some w →
    (let r := scalarRound w f.dt f.cc
     let x := floatS f.dt (w.getS f.a)
     let y := floatS f.dt (scalarB w f)
     let z := floatS f.dt (w.getS f.c)
     let down := decide (r.mode = .rdn)
     let put (v : FVal) : State :=
       s.setWarp s.cur ((drawScalar w f.dt f.cc).setS f.d (BitVec.ofNat 64 (narrow (fmtOf f.dt) r v)))
     Ends (.fadd f) s (put (sumF down [x, y])) ∧
     Ends (.fsub f) s (put (sumF down [x, y.neg])) ∧
     Ends (.fmul f) s (put (mulF x y)) ∧
     Ends (.ffma f) s (put (sumF down [mulF x y, z])) ∧
     (∀ t, srcT f = some t → Ends (.fcvt f) s (s.setWarp s.cur ((drawScalar w f.dt f.cc).setS f.d
       (let v := convertTo f.dt r (valueOf t (lowW t.width (w.getS f.a)))
        if f.dt.isFloat then BitVec.ofNat 64 v else widen f.dt (BitVec.ofNat 64 v)))))) ∧
    ((drawScalar w f.dt f.cc).gs = if modeOf w.nmode f.dt f.cc = .sr then stepLfsr w.gs else w.gs)

/-- mfsr and mtsr: what each special register reads as, and what a write of em, nmode, tlerr, spillbase and spilllen does
or traps on (R265 to R267). -/
def Sys2Proof.Machine.SpecialRegisters : Prop :=
  ∀ s w f, s.curWarp = some w →
    (∃ x, Ends (.mfsr f) s (putS s w f x) ∧
      (let n := (f.imm16.extractLsb' 0 8).toNat
       let t := s.tl w.ctx w.core
       let c := s.core w.core
       (∀ p ∈ [(0x00, w.em.setWidth 64), (0x01, w.lm.setWidth 64), (0x02, w.nmode.setWidth 64), (0x03, w.regctr),
          (0x04, w.regpc), (0x05, BitVec.ofNat 64 w.wid), (0x06, (w.bid.get 0).setWidth 64),
          (0x07, (w.bid.get 1).setWidth 64), (0x08, (w.bid.get 2).setWidth 64), (0x09, BitVec.ofNat 64 w.core),
          (0x0A, BitVec.ofNat 64 w.ctx), (0x0B, s.clock), (0x0C, w.ashape.setWidth 64),
          (0x0D, BitVec.ofNat 64 (c.cad.toNat + if c.droop then 256 else 0)), (0x0E, t.cerr.setWidth 64), (0x0F, t.tlerr),
          (0x20, w.spillbase), (0x21, w.spilllen), (0x22, w.spillcnt), (0x23, w.hintmiss),
          (0x24, BitVec.ofNat 64 w.winbase), (0x28, w.fcause), (0x29, w.faddr), (0x2A, w.fpc), (0x2B, w.fnode),
          (0x2C, w.fnpc), (0x2D, w.fnreg)], n = p.1 → x = p.2) ∧
       (∀ k : Fin 16, n = 0x10 + k.val → (w.det = false ∨ 10 ≤ k.val) → x = t.doneOf k.val) ∧
       ∀ k : Fin 10, n = 0x10 + k.val → w.det = true → x = w.tlSeen.get k)) ∧
    (f.imm16 = 0 → Ends (.mtsr f) s (s.setWarp s.cur { w with em := (w.getS f.a).setWidth 32 &&& w.lm })) ∧
    (f.imm16 = 2 → nmodeOk ((w.getS f.a).setWidth 32) = true →
      Ends (.mtsr f) s (s.setWarp s.cur { w with nmode := (w.getS f.a).setWidth 32 })) ∧
    (f.imm16 = 2 → nmodeOk ((w.getS f.a).setWidth 32) = false →
      Ends (.mtsr f) s (s.trap s.cur w.unretire Trap.operand .fault)) ∧
    (f.imm16 = 0xF → ∃ t, Ends (.mtsr f) s t ∧ t.warps = s.warps ∧
      (t.tl w.ctx w.core).tlerr = (s.tl w.ctx w.core).tlerr &&& ~~~(w.getS f.a &&& 0xFFFF)) ∧
    (f.imm16 = 0x20 → w.lo = 0 → (w.getS f.a).extractLsb' 0 7 = 0 →
      Ends (.mtsr f) s (s.setWarp s.cur { w with spillbase := w.getS f.a })) ∧
    (f.imm16 = 0x21 → w.lo = 0 → Ends (.mtsr f) s (s.setWarp s.cur { w with spilllen := w.getS f.a })) ∧
    ((f.imm16 = 0x20 ∧ (w.lo ≠ 0 ∨ (w.getS f.a).extractLsb' 0 7 ≠ 0)) ∨ (f.imm16 = 0x21 ∧ w.lo ≠ 0) →
      Ends (.mtsr f) s (s.trap s.cur w.unretire Trap.operand .fault))

/-- mfv and mtv: a live lane's value or 0, and a scalar in every active lane (R265). -/
def Sys2Proof.Machine.LaneMoves : Prop :=
  ∀ s w f, s.curWarp = some w →
    (let l := (scalarB w f).toNat % 32
     let lo := laneGet (w.vAt (w.pos f.a)) l
     let v : Word := if f.dt = .i64 ∨ f.dt = .n64 then laneGet (w.vAt (w.pos f.a + 1)) l ++ lo
       else if f.dt = .i32 then lo.signExtend 64 else lo.setWidth 64
     Ends (.mfv f) s (putS s w f (if w.lm.getLsbD l then v else 0))) ∧
    ∃ v, Ends (.mtv f) s (s.setWarp s.cur v) ∧ v = { w with v := v.v } ∧
      (∀ l, l < 32 → laneGet (v.vAt (w.pos f.d)) l =
        if w.em.getLsbD l then (w.getS f.a).setWidth 32 else laneGet (w.vAt (w.pos f.d)) l) ∧
      (f.dt.is64 = true → ∀ l, l < 32 → laneGet (v.vAt (w.pos f.d + 1)) l =
        if w.em.getLsbD l then (w.getS f.a >>> 32).setWidth 32 else laneGet (w.vAt (w.pos f.d + 1)) l) ∧
      ∀ p, p ≠ w.pos f.d → (f.dt.is64 = false ∨ p ≠ w.pos f.d + 1) → v.vAt p = w.vAt p

/-- Special registers read and written, and values moved between scalar and vector registers (R265 to R267). -/
def Obligations.RegisterMoves : Prop := SpecialRegisters ∧ LaneMoves

/-! ## Vector instructions -/

namespace Sys2Proof.Machine

/-- Warp `v` is `w` but for the lanes of `m` at stack position `p` (and `p` + 1 for a pair) and the generators. -/
def OnlyLanes (v w : Warp) (m : W32) (p : Nat) (pair : Bool) : Prop :=
  v = { w with v := v.v, gens := v.gens } ∧
  (∀ l, l < 32 → m.getLsbD l = false →
    laneGet (v.vAt p) l = laneGet (w.vAt p) l ∧ laneGet (v.vAt (p + 1)) l = laneGet (w.vAt (p + 1)) l) ∧
  (pair = false → v.vAt (p + 1) = w.vAt (p + 1)) ∧
  ∀ q, q ≠ p → q ≠ p + 1 → v.vAt q = w.vAt q

/-- A vector instruction gives element j of each active lane of D the value `g l j` cut to the type, leaves its other lanes
and every other register, and draws `n` times from the generator of each active lane where the result rounds by SR (R247,
R283). -/
def LaneWrites (i : FmtA → Instr) (n : Nat) (g : Warp → FmtA → Nat → Nat → Nat) (s : State) (w : Warp) (f : FmtA) : Prop :=
  ∃ v, Ends (i f) s (s.setWarp s.cur v) ∧ OnlyLanes v w w.em (w.pos f.d) f.dt.is64 ∧
    (∀ l, l < 32 → w.em.getLsbD l = true → ∀ j, j < f.dt.elems →
      elemGet f.dt.width (oldD v f l) j = g w f l j % 2 ^ f.dt.width) ∧
    ∀ l (h : l < 32), v.gens.get ⟨l, h⟩ =
      if w.em.getLsbD l = true ∧ 0 < n ∧ modeOf w.nmode f.dt f.cc = .sr then stepLfsrN n (w.gens.get ⟨l, h⟩)
      else w.gens.get ⟨l, h⟩

/-- Element j of a lane of each source, as its modifier draws it (R218). -/
def elA (w : Warp) (f : FmtA) (l j : Nat) : Nat := elemGet f.dt.width (srcA w f f.dt l) j
def elB (w : Warp) (f : FmtA) (l j : Nat) : Nat := elemGet f.dt.width (srcB w f f.dt l) j
def elC (w : Warp) (f : FmtA) (l j : Nat) : Nat := elemGet f.dt.width (srcC w f f.dt l) j

/-- An exact integer result of major 0x31: clamped for an 8- or 16-bit type whose slot saturates, else wrapped (R288). -/
def narrowed (w : Warp) (t : DT) (n : Int) : Nat :=
  lowInt t.width (if t.width ≤ 16 ∧ satOf w.nmode t = true then max (minInt t) (min (maxInt t) n) else n)

/-- A float source element, and a result rounded once under the type's slot or the override (R285). -/
def flA (w : Warp) (f : FmtA) (l j : Nat) : FVal := valueOf f.dt (elA w f l j)
def flB (w : Warp) (f : FmtA) (l j : Nat) : FVal := valueOf f.dt (elB w f l j)
def flC (w : Warp) (f : FmtA) (l j : Nat) : FVal := valueOf f.dt (elC w f l j)
def rounded (w : Warp) (f : FmtA) (l j : Nat) (x : FVal) : Nat := narrow (fmtOf f.dt) (laneRound w f.dt f.cc l j) x
def downward (w : Warp) (f : FmtA) : Bool := modeOf w.nmode f.dt f.cc == .rdn

end Sys2Proof.Machine

/-- Integer lanes: vadd, vsub, vmul, vmad, vabs, vmax, vmin, vsetc and vmulhi of major 0x31, at every integer type (R287,
R288). -/
def Sys2Proof.Machine.VectorInteger : Prop :=
  ∀ s w f, s.curWarp = some w → f.dt.isInt = true →
    LaneWrites .vaddInt 0 (fun w f l j => narrowed w f.dt (intOf f.dt (elA w f l j) + intOf f.dt (elB w f l j))) s w f ∧
    LaneWrites .vsubInt 0 (fun w f l j => narrowed w f.dt (intOf f.dt (elA w f l j) - intOf f.dt (elB w f l j))) s w f ∧
    LaneWrites .vmulInt 0 (fun w f l j => narrowed w f.dt (intOf f.dt (elA w f l j) * intOf f.dt (elB w f l j))) s w f ∧
    LaneWrites .vmad 0 (fun w f l j =>
      narrowed w f.dt (intOf f.dt (elA w f l j) * intOf f.dt (elB w f l j) + intOf f.dt (elC w f l j))) s w f ∧
    LaneWrites .vabsInt 0 (fun w f l j => narrowed w f.dt (intOf f.dt (elA w f l j)).natAbs) s w f ∧
    LaneWrites .vmaxInt 0 (fun w f l j => lowInt f.dt.width (max (intOf f.dt (elA w f l j)) (intOf f.dt (elB w f l j)))) s w f ∧
    LaneWrites .vminInt 0 (fun w f l j => lowInt f.dt.width (min (intOf f.dt (elA w f l j)) (intOf f.dt (elB w f l j)))) s w f ∧
    LaneWrites .vsetcInt 0 (fun w f l j =>
      if compareI (ccOf f.cc) (intOf f.dt (elA w f l j)) (intOf f.dt (elB w f l j)) then 2 ^ f.dt.width - 1 else 0) s w f ∧
    LaneWrites .vmulhi 0 (fun w f l j =>
      lowInt f.dt.width (intOf f.dt (elA w f l j) * intOf f.dt (elB w f l j) / 2 ^ f.dt.width)) s w f

/-- Bit lanes of major 0x32: logic, shifts by the second operand modulo the width, counts, fields, select and moves
(R289). -/
def Sys2Proof.Machine.VectorBits : Prop :=
  ∀ s w f, s.curWarp = some w →
    (f.dt = .b32 →
      LaneWrites .vand 0 (fun w f l j => elA w f l j &&& elB w f l j) s w f ∧
      LaneWrites .vor 0 (fun w f l j => elA w f l j ||| elB w f l j) s w f ∧
      LaneWrites .vxor 0 (fun w f l j => elA w f l j ^^^ elB w f l j) s w f ∧
      LaneWrites .vnot 0 (fun w f l j => (~~~ BitVec.ofNat 32 (elA w f l j)).toNat) s w f ∧
      LaneWrites .vpopc 0 (fun w f l j => onesIn 32 (BitVec.ofNat 64 (elA w f l j))) s w f ∧
      LaneWrites .vclz 0 (fun w f l j => 32 - bitLen (elA w f l j)) s w f ∧
      LaneWrites .vsel 0 (fun w f l j =>
        let m := BitVec.ofNat 32 (elC w f l j)
        ((BitVec.ofNat 32 (elA w f l j) &&& m) ||| (BitVec.ofNat 32 (elB w f l j) &&& ~~~m)).toNat) s w f ∧
      LaneWrites .vmovi 0 (fun _ f _ _ => lowW 32 (immA f)) s w { f with i := true }) ∧
    (f.dt.isInt = true →
      LaneWrites .vshl 0 (fun w f l j => elA w f l j * 2 ^ (elB w f l j % f.dt.width)) s w f ∧
      LaneWrites .vshr 0 (fun w f l j =>
        lowInt f.dt.width (intOf f.dt (elA w f l j) / 2 ^ (elB w f l j % f.dt.width))) s w f) ∧
    (f.dt = .i32 ∨ f.dt = .n32 →
      LaneWrites .vbfx 0 (fun w f l j => lowInt 32 (bfxI f.dt.signed 32 (elA w f l j) (elB w f l j))) s w f ∧
      LaneWrites .vbfi 0 (fun w f l j => bfiN 32 (elA w f l j) (elB w f l j) (elC w f l j)) s w f) ∧
    LaneWrites .vmov 0 (fun w f l j => elA w f l j) s w f

/-- Vector integer and bitwise instructions, lane by lane. -/
def Obligations.VectorIntegers : Prop := VectorInteger ∧ VectorBits

/-- Float lanes of major 0x30: one rounding an element of the exact result, maximum, minimum, absolute value and compare
without one (R285, R286). -/
def Sys2Proof.Machine.VectorFloat : Prop :=
  ∀ s w f, s.curWarp = some w → f.dt.is64 = false →
    LaneWrites .vaddFloat f.dt.elems (fun w f l j => rounded w f l j (sumF (downward w f) [flA w f l j, flB w f l j])) s w f ∧
    LaneWrites .vsubFloat f.dt.elems
      (fun w f l j => rounded w f l j (sumF (downward w f) [flA w f l j, (flB w f l j).neg])) s w f ∧
    LaneWrites .vmulFloat f.dt.elems (fun w f l j => rounded w f l j (mulF (flA w f l j) (flB w f l j))) s w f ∧
    LaneWrites .vfma f.dt.elems
      (fun w f l j => rounded w f l j (sumF (downward w f) [mulF (flA w f l j) (flB w f l j), flC w f l j])) s w f ∧
    LaneWrites .vmaxFloat 0 (fun w f l j => narrow (fmtOf f.dt) rne (pickF true (flA w f l j) (flB w f l j))) s w f ∧
    LaneWrites .vminFloat 0 (fun w f l j => narrow (fmtOf f.dt) rne (pickF false (flA w f l j) (flB w f l j))) s w f ∧
    LaneWrites .vabsFloat 0 (fun w f l j => narrow (fmtOf f.dt) rne (flA w f l j).abs) s w f ∧
    LaneWrites .vsetcFloat 0 (fun w f l j =>
      if compareBits (ccOf f.cc) f.dt (elA w f l j) (elB w f l j) then 2 ^ f.dt.width - 1 else 0) s w f

/-- Conversions: one element of D converted, its other elements kept; packing of two results into a half of D; q4 codes in
one nibble (R290 to R294). -/
def Sys2Proof.Machine.VectorConversions : Prop :=
  ∀ s w f, s.curWarp = some w →
    (∀ t, srcT f = some t →
      let g := fun w f l j =>
        if j = delt f then
          convertTo f.dt (laneRound w f.dt f.cc l 0) (valueOf t (elemGet t.width (readSrc w f.a f.modA t l) (selt f)))
        else elemGet f.dt.width (oldD w f l) j
      LaneWrites .vcvt 1 g s w f ∧ LaneWrites .vcvti 1 g s w f ∧ LaneWrites .vcvtf 1 g s w f) ∧
    (f.dt.is64 = false → LaneWrites .vpack 2 (fun w f l j =>
      if j = 2 * half f then rounded w f l 0 (f32At w f.a f.modA l)
      else if j = 2 * half f + 1 then rounded w f l 1 (f32At w f.b f.modB l) else elemGet f.dt.width (oldD w f l) j) s w f) ∧
    (f.dt = .q4 → LaneWrites .vq4enc 1 (fun w f l j =>
      if j = nibble f then
        (let b := scaleByte w f l
         (q4Encode { laneRound w .q4 f.cc l 0 with sat := true } (if b % 64 = 63 then b - 1 else b) (f32At w f.a f.modA l)).1)
      else elemGet 4 (oldD w f l) j) s w f) ∧
    (f.dt = .f32 → LaneWrites .vq4dec 0 (fun w f l _ =>
      narrow (fmtOf .f32) rne (q4Value (scaleByte w f l)
        (elemGet 4 ((readLane w (w.pos f.a) f.modA .b32 l).setWidth 64) (nibble f)))) s w f)

/-- Vector floating-point arithmetic and conversions, lane by lane. -/
def Obligations.VectorFloats : Prop := VectorFloat ∧ VectorConversions

/-- vunpk widens two elements exactly into D and D + 1; vfrexp splits a value into significand and exponent; vldexp scales
by a power of two; vexpmax takes the larger of an exponent and a ceiling (R292, R301 to R303). -/
def Sys2Proof.Machine.UnpackAndExponents : Prop :=
  ∀ s w f, s.curWarp = some w →
    (∃ v, Ends (.vunpk f) s (s.setWarp s.cur v) ∧ OnlyLanes v w w.em (w.pos f.d) true ∧ v.gens = w.gens ∧
      ∀ l, l < 32 → w.em.getLsbD l = true →
        (laneGet (v.vAt (w.pos f.d)) l).toNat = narrow (fmtOf .f32) rne (flA w f l (2 * half f)) % 2 ^ 32 ∧
        (laneGet (v.vAt (w.pos f.d + 1)) l).toNat = narrow (fmtOf .f32) rne (flA w f l (2 * half f + 1)) % 2 ^ 32) ∧
    (∃ v, Ends (.vfrexp f) s (s.setWarp s.cur v) ∧ OnlyLanes v w w.em (w.pos f.d) true ∧ v.gens = w.gens ∧
      ∀ l, l < 32 → w.em.getLsbD l = true →
        let m := (laneGet (v.vAt (w.pos f.d)) l).toNat
        let e := laneGet (v.vAt (w.pos f.d + 1)) l
        let d := decodeF (fmtOf .f32) m
        match f32At w f.a f.modA l with
        | .nan => m = 0x7FC00000 ∧ e = 0
        | .inf neg => d = .inf neg ∧ e = 0
        | .fin neg k g =>
          if k = 0 then m = (if neg then 0x80000000 else 0) ∧ e = 0
          else cmpF (mulF d (.fin false 1 e.toInt)) (.fin neg k g) = 0 ∧ 0 ≤ cmpF d.abs (.fin false 1 0) ∧
            cmpF d.abs (.fin false 1 1) < 0) ∧
    (f.dt.is64 = false → LaneWrites .vldexp 0 (fun w f l j =>
      scaleF (fmtOf f.dt) (satOf w.nmode f.dt) (flA w f l j)
        (if f.i then (immA f).setWidth 32 else readLane w (w.pos f.b) f.modB .i32 l : W32).toInt) s w f) ∧
    (f.dt = .f32 → LaneWrites .vexpmax 0 (fun w f l _ =>
      lowInt 32 (max (readLane w (w.pos f.a) f.modA .i32 l).toInt (ceilInt (f32At w f.b f.modB l)))) s w f)

/-- vq4scl gives every active lane the element type and the least exponent whose largest code holds the largest magnitude
among the active lanes, 63 for a NaN or, without saturation, for a magnitude that no exponent holds (R293). -/
def Sys2Proof.Machine.ScaleOfABlock : Prop :=
  ∀ s w f, s.curWarp = some w → f.dt.is64 = false →
    ∃ v e, Ends (.vq4scl f) s (s.setWarp s.cur v) ∧ OnlyLanes v w w.em (w.pos f.d) false ∧ v.gens = w.gens ∧ e < 64 ∧
      (∀ l, l < 32 → w.em.getLsbD l = true →
        laneGet (v.vAt (w.pos f.d)) l = BitVec.ofNat 32 ((f.imm16.extractLsb' 0 2).toNat * 64 + e)) ∧
      (let mx := match (f.imm16.extractLsb' 0 2).toNat with | 0 => 7 | 1 => 6 | 2 => 8 | _ => 12
       let fits (k l : Nat) : Prop := cmpF (f32At w f.a f.modA l).abs (.fin false mx ((k : Int) - 32)) ≤ 0
       ((∃ l, l < 32 ∧ w.em.getLsbD l = true ∧ f32At w f.a f.modA l = .nan) → e = 63) ∧
       ((∀ l, l < 32 → w.em.getLsbD l = true → f32At w f.a f.modA l ≠ .nan) →
         (e < 62 → ∀ l, l < 32 → w.em.getLsbD l = true → fits e l) ∧
         (e < 63 → ∀ k, k < e → ∃ l, l < 32 ∧ w.em.getLsbD l = true ∧ ¬ fits k l) ∧
         (e = 62 → satOf w.nmode .q4 = false → ∀ l, l < 32 → w.em.getLsbD l = true → fits 62 l) ∧
         (e = 63 → satOf w.nmode .q4 = false ∧ ∃ l, l < 32 ∧ w.em.getLsbD l = true ∧ ¬ fits 62 l)))

/-- Special functions: each active lane's correctly rounded values are owed to D under flag B, and nothing is owed when no
lane is active (R283, R296). -/
def Sys2Proof.Machine.SpecialFunctions : Prop :=
  ∀ s w f, s.curWarp = some w → f.dt.is64 = false →
    ∀ i fn, (i, fn) ∈ [(Instr.vexp2, SFun.exp2), (.vlog2, .log2), (.vrcp, .rcp), (.vrsq, .rsq), (.vtanh, .tanh)] →
      (w.em = 0 → Ends (i f) s (s.setWarp s.cur w.noResultB)) ∧
      (w.em ≠ 0 → ∃ t v x, Ends (i f) s t ∧ t.mem = s.mem ∧ t.warps = tset s.warps s.cur v ∧ v.v = w.v ∧ v.s = w.s ∧
        v.pend = w.pend ++ [{ tok := s.nextId, flag := w.clause.fb, ready := true, writes := [.v (w.pos f.d) w.em x] }] ∧
        ∀ l, l < 32 → w.em.getLsbD l = true → ∀ j, j < f.dt.elems →
          elemGet f.dt.width ((laneGet x l).setWidth 64) j =
            specialBits fn (fmtOf f.dt) (laneRound w f.dt f.cc l j) (flA w f l j) % 2 ^ f.dt.width)

/-- Unpacking, exponent support, block scales and special functions. -/
def Obligations.VectorSupport : Prop := UnpackAndExponents ∧ ScaleOfABlock ∧ SpecialFunctions

/-! ## Cross-lane instructions -/

namespace Sys2Proof.Machine

/-- A cross-lane instruction gives each active lane of D (a pair for a 64-bit type) the word `g l`. -/
def LaneGets (i : FmtA → Instr) (pair : FmtA → Bool) (g : Warp → FmtA → Nat → Word) (s : State) (w : Warp) (f : FmtA) : Prop :=
  ∃ v, Ends (i f) s (s.setWarp s.cur v) ∧ OnlyLanes v w w.em (w.pos f.d) (pair f) ∧ v.gens = w.gens ∧
    ∀ l, l < 32 → w.em.getLsbD l = true →
      laneGet (v.vAt (w.pos f.d)) l = (g w f l).setWidth 32 ∧
      (pair f = true → laneGet (v.vAt (w.pos f.d + 1)) l = (g w f l >>> 32).setWidth 32)

/-- Whether lane j is active and holds a nonzero value in the source of a vote. -/
def yes (w : Warp) (f : FmtA) (j : Nat) : Bool := w.em.getLsbD j && readLane w (w.pos f.a) f.modA .b32 j != 0

/-- The sum over the active lanes of their source values, as 32-bit numbers. -/
def activeSum (w : Warp) (f : FmtA) (below : Nat) : Nat :=
  ((List.range below).filter fun j => w.em.getLsbD j).foldl (fun n j => n + (srcA w f f.dt j).toNat) 0

end Sys2Proof.Machine

/-- Permutes and votes: vperm, vbcast, vany, vall, vballot, vmatch (R298, R299). -/
def Sys2Proof.Machine.PermutesAndVotes : Prop :=
  ∀ s w f, s.curWarp = some w →
    LaneGets .vperm (fun f => f.dt.is64) (fun w f l =>
      srcA w f f.dt (if f.i then (immA f).toNat % 32 else (readLane w (w.pos f.b) f.modB .i32 l).toNat % 32)) s w f ∧
    (∀ j, j < 32 → w.em.getLsbD j = true → (∀ k, k < j → w.em.getLsbD k = false) →
      LaneGets .vbcast (fun f => f.dt.is64) (fun w f _ => srcA w f f.dt j) s w f) ∧
    LaneGets .vany (fun _ => false) (fun w f _ => if (List.range 32).any (yes w f) then 1 else 0) s w f ∧
    LaneGets .vall (fun _ => false) (fun w f _ =>
      if (List.range 32).all (fun j => !w.em.getLsbD j || yes w f j) then 1 else 0) s w f ∧
    (∃ m : W32, (∀ j, j < 32 → m.getLsbD j = yes w f j) ∧
      LaneGets .vballot (fun _ => false) (fun _ _ _ => m.setWidth 64) s w f) ∧
    (∃ m : Nat → W32, (∀ l j, l < 32 → j < 32 → (m l).getLsbD j =
        (w.em.getLsbD j && decide (srcA w f f.dt j = srcA w f f.dt l))) ∧
      LaneGets .vmatch (fun _ => false) (fun _ _ l => (m l).setWidth 64) s w f)

/-- Reductions and scans combine the lanes by steps at distances 1, 2, 4, 8 and 16, absent lanes entering as the
identity (R251, R300); an integer vredadd is the sum over the active lanes, and an integer inclusive vscanadd the sum up to the
lane. -/
def Sys2Proof.Machine.ReductionsAndScans : Prop :=
  (∀ s w f, s.curWarp = some w →
    ∀ i k, (i, k) ∈ [(Instr.vredadd, Comb.add), (.vredmax, .max), (.vredmin, .min)] →
      LaneGets i (fun f => f.dt.is64) (fun w f l =>
        ([1, 2, 4, 8, 16].foldl (redStep w f.dt k) (enterLanes w f k)).getD l 0) s w f) ∧
  (∀ s w f, s.curWarp = some w → ∀ i k, (i, k) ∈ [(Instr.vscanadd, Comb.add), (.vscanmax, .max)] →
      LaneGets i (fun f => f.dt.is64) (fun w f l =>
        let x := [1, 2, 4, 8, 16].foldl (scanStep w f.dt k) (enterLanes w f k)
        if f.imm16.getLsbD 0 = false then canonLane f.dt (x.getD l 0)
        else if l = 0 then unitLane f.dt k else canonLane f.dt (x.getD (l - 1) 0)) s w f) ∧
  (∀ s w f, s.curWarp = some w → f.dt = .i32 ∨ f.dt = .n32 →
    LaneGets .vredadd (fun _ => false) (fun w f _ => BitVec.ofNat 64 (activeSum w f 32)) s w f ∧
    (f.imm16.getLsbD 0 = false →
      LaneGets .vscanadd (fun _ => false) (fun w f l => BitVec.ofNat 64 (activeSum w f (l + 1))) s w f))

/-- Permutes, votes, reductions and scans. -/
def Obligations.CrossLane : Prop := PermutesAndVotes ∧ ReductionsAndScans

/-! ## Control -/

/-- Division: by zero the quotient is all ones and the remainder x; the most negative number by −1 gives itself and 0; every
other result is exact before Low; no trap, no other effect (R262). -/
def Obligations.DivisionCorners : Prop :=
  ∀ s w f, s.curWarp = some w → f.dt.isInt = true →
    let x := numberOf f.dt (w.getS f.a)
    let y := numberOf f.dt (scalarB w f)
    (y = 0 → Ends (.div f) s (putS s w f (widen f.dt (BitVec.allOnes 64))) ∧ Ends (.rem f) s (putS s w f (wordOf f.dt x))) ∧
    (f.dt.signed = true → x = -(2 ^ (f.dt.width - 1)) → y = -1 →
      Ends (.div f) s (putS s w f (wordOf f.dt x)) ∧ Ends (.rem f) s (putS s w f 0)) ∧
    (y ≠ 0 → ∃ q r : Int, x = q * y + r ∧ r.natAbs < y.natAbs ∧ (r = 0 ∨ (0 < r ↔ 0 < x)) ∧
      Ends (.div f) s (putS s w f (wordOf f.dt q)) ∧ Ends (.rem f) s (putS s w f (wordOf f.dt r)))

/-- mov and movi write Extend(DT, Low(w, ·)) of s[A] and of the immediate; mov needs B = 0 and I = 0, movi needs I = 1 and
A = 0 (R264). -/
def Obligations.MovesAtEveryWidth : Prop :=
  Writes .mov (fun _ w f => widen f.dt (w.getS f.a)) ∧ Writes .movi (fun _ _ f => widen f.dt (immA f)) ∧
  (∀ f, (Instr.mov f).wf = true → f.b = 0 ∧ f.i = false) ∧ ∀ f, (Instr.movi f).wf = true → f.i = true ∧ f.a = 0

/-- A clause issues only once the unflagged count is zero and every flag of WAIT is clear; its A- and B-class results then
count under their flags, or as unflagged where the valid bit is clear (R205). Until then the warp waits before its header. -/
def Sys2Proof.Machine.ClauseHeaders : Prop :=
  ∀ s w f, s.curWarp = some w → (Instr.clauseHeader f).wf = true →
    ((w.unflClear && w.maskClear f.wait) = false →
      Ends (.clauseHeader f) s (s.setWarp s.cur { w with pc := w.ipc, wait := .header f.wait })) ∧
    ((w.unflClear && w.maskClear f.wait) = true →
      ∃ v na nb, (na, nb) = countClasses s w.who f.len.toNat w.pc false ∧ Ends (.clauseHeader f) s (s.setWarp s.cur v) ∧
        v = { w with clause := v.clause, flags := v.flags, unfl := v.unfl } ∧
        v.clause.left = f.len.toNat ∧ v.clause.hdr = w.ipc ∧ v.clause.owedA = na ∧ v.clause.owedB = nb ∧
        (∀ k, k < 12 → v.flagCount k = w.flagCount k + (if f.fav = true ∧ f.fa.toNat = k then na else 0)
          + if f.fbv = true ∧ f.fb.toNat = k then nb else 0) ∧
        v.unfl = w.unfl + (if f.fav then 0 else na) + if f.fbv then 0 else nb)

/-- bra, brs, brany, brall: decided once for the warp, to a clause header OFS words from the branch; not taken, the warp
falls through; any other target faults as illegal-target (R203, R269, R270). -/
def Sys2Proof.Machine.UniformBranches : Prop :=
  ∀ s w f, s.curWarp = some w →
    let target := w.ipc + 8 * f.ofs.signExtend 64
    let holds (l : Nat) : Bool := compareI (ccOf f.cc) (laneGet (w.vAt (w.pos f.v)) l).toInt 0
    let jump := s.setWarp s.cur { w with pc := target }
    let bad := s.trap s.cur w.unretire { cause := Cause.illegalTarget } .fault
    ∀ i taken, (i, taken) ∈ [(Instr.bra, true), (.brs, compareI (ccOf f.cc) (w.getS f.s).toInt 0),
        (.brany, (List.range 32).any fun l => w.em.getLsbD l && holds l),
        (.brall, (List.range 32).all fun l => !w.em.getLsbD l || holds l)] →
      (taken = false → Ends (i f) s s) ∧
      (taken = true → targetOk s w.who target = true → Ends (i f) s jump) ∧
      (taken = true → targetOk s w.who target = false → Ends (i f) s bad)

/-- brv splits the active lanes by its condition and records the side not yet run; join switches to it, then rejoins
(R271, R272). -/
def Sys2Proof.Machine.DivergeAndRejoin : Prop :=
  ∀ s w f, s.curWarp = some w →
    let target := w.ipc + 8 * f.ofs.signExtend 64
    (targetOk s w.who target = false →
      Ends (.brv f) s (s.trap s.cur w.unretire { cause := Cause.illegalTarget } .fault)) ∧
    (targetOk s w.who target = true → ∃ t n : W32,
      (∀ l, l < 32 → t.getLsbD l =
        (w.em.getLsbD l && compareI (ccOf f.cc) (laneGet (w.vAt (w.pos f.v)) l).toInt 0)) ∧ n = w.em &&& ~~~t ∧
      Ends (.brv f) s (s.setWarp s.cur
        (if t ≠ 0 ∧ n ≠ 0 ∧ f.hint = .unlikely then { (w.setS f.s (t ++ w.em)).setS (f.s + 1) target with em := n }
         else if t ≠ 0 ∧ n ≠ 0 then
           { (w.setS f.s (n ++ w.em)).setS (f.s + 1) w.pc with
               em := t, pc := target, hintmiss := w.hintmiss + if f.hint = .uniform then 1 else 0 }
         else { (w.setS f.s (0#32 ++ w.em)).setS (f.s + 1) target with pc := if t ≠ 0 then target else w.pc }))) ∧
    (let p : W32 := (w.getS f.s).extractLsb' 32 32
     let m : W32 := (w.getS f.s).extractLsb' 0 32
     (p = 0 → Ends (.join f) s (s.setWarp s.cur { w with em := m &&& w.lm })) ∧
     (p ≠ 0 → targetOk s w.who (w.getS (f.s + 1)) = true →
       Ends (.join f) s (s.setWarp s.cur { w.setS f.s (0#32 ++ m) with em := p &&& w.lm, pc := w.getS (f.s + 1) })) ∧
     (p ≠ 0 → targetOk s w.who (w.getS (f.s + 1)) = false →
       Ends (.join f) s (s.trap s.cur w.unretire { cause := Cause.illegalTarget } .fault)))

/-- A call whose window stays resident writes the link and advances the window by F, and its callee's v0 to v7 are the caller's
vF to vF + 7; a ret whose caller is resident goes back, changing no register (R274 to R276). A ret with a bad F or target
faults as illegal-target. -/
def Sys2Proof.Machine.CallAndReturn : Prop :=
  ∀ s w f, s.curWarp = some w →
    (∀ target, target = (if f.ofs = 0 then w.getS f.v else w.ipc + 8 * f.ofs.signExtend 64) →
      targetOk s w.who target = true → w.winbase + 8 * f.cc.toNat + 48 ≤ w.lo + w.budget →
      ∃ t v, Ends (.call f) s t ∧ t.mem = s.mem ∧ t.warps = tset s.warps s.cur v ∧
        v = { w.setS f.s (w.pc ||| f.cc.setWidth 64) with winbase := w.winbase + 8 * f.cc.toNat, pc := target, v := v.v } ∧
        ∀ q, (q < w.winbase + 8 * f.cc.toNat + 8 ∨ w.winbase + 8 * f.cc.toNat + 48 ≤ q) → v.vAt q = w.vAt q) ∧
    (let x := w.getS f.s
     let n := 8 * (x.toNat % 8)
     let target := x &&& ~~~7
     (n ≠ 0 → n ≤ 40 → n ≤ w.winbase → targetOk s w.who target = true → w.lo ≤ w.winbase - n →
       Ends (.ret f) s (s.setWarp s.cur { w with winbase := w.winbase - n, pc := target })) ∧
     (n = 0 ∨ 40 < n ∨ w.winbase < n ∨ targetOk s w.who target = false →
       Ends (.ret f) s (s.trap s.cur w.unretire { cause := Cause.illegalTarget } .fault)))

/-- A call whose window does not stay resident spills the lowest positions, as many as the window is past the budget, rounded up
to 8, to their places in the spill area, each whole, and then goes on; one past the area faults as spill-exhausted with the first
byte beyond it; a ret whose caller was spilled fills the positions from its window to the lowest resident one; a place that fails
its check faults (R276, R277). In a deterministic launch the spill is held for the commit (R172). -/
def Sys2Proof.Machine.SpillsAndFills : Prop :=
  ∀ s w f, s.curWarp = some w →
    let va (p : Nat) : Word := w.spillbase + BitVec.ofNat 64 (p * 128)
    let vas (lo n : Nat) : List Word := (List.range n).map fun i => va (lo + i)
    let bad (i : Instr) (t : Trap) : Prop := Ends i s (s.trap s.cur w.unretire t .fault)
    (∀ target, target = (if f.ofs = 0 then w.getS f.v else w.ipc + 8 * f.ofs.signExtend 64) →
      targetOk s w.who target = true →
      let base := w.winbase + 8 * f.cc.toNat
      let n := (base + 48 - (w.lo + w.budget) + 7) / 8 * 8
      w.lo + w.budget < base + 48 →
      (w.spilllen.toNat < (w.lo + n) * 128 →
        let o := max (w.lo * 128) w.spilllen.toNat
        bad (.call f) { cause := Cause.spillExhausted, index := BitVec.ofNat 16 (o % 128 / 4), faddr := w.spillbase + BitVec.ofNat 64 o }) ∧
      ((w.lo + n) * 128 ≤ w.spilllen.toNat →
        (∀ t, linePlaces s w .store (vas w.lo n) = .error (.trap t) → bad (.call f) t) ∧
        ∀ u l, linePlaces s w .store (vas w.lo n) = .ok (u, l) → (∀ x ∈ l, x.kind ≠ .reg) →
          (∀ o ∈ u.ordbuf, o.arrived = true → ∀ x ∈ l, lineOf o.lane.pa ≠ lineOf (u.homePa x.kind x.pa)) →
          guardIssue u w ((vas w.lo n).map fun a => Rng.flat a 128) = .ok u →
          ∃ t v, Ends (.call f) s t ∧ t.warp? s.cur = some v ∧
            v = { w.setS f.s (w.pc ||| f.cc.setWidth 64) with
                    winbase := base, lo := w.lo + n, spillcnt := w.spillcnt + BitVec.ofNat 64 n, pc := target, v := v.v
                    held := v.held } ∧
            (∀ q, (q < base + 8 ∨ base + 48 ≤ q) → v.vAt q = w.vAt q) ∧
            (w.det = true → t.mem = u.mem ∧ v.held.length = w.held.length + 1) ∧
            (w.det = false → v.held = w.held) ∧
            (w.det = false → (∀ x ∈ l, x.kind = .cached ∨ x.kind = .cap ∨ x.kind = .scratch) → Memory.wf u.mem = true →
              l.Pairwise (fun x y => x.pa + 128 ≤ y.pa ∨ y.pa + 128 ≤ x.pa) →
              (∀ i x, l[i]? = some x → memReadN t.mem x.pa 128 =
                (List.range 32).flatMap fun j => natBytes 4 (laneGet (w.vAt (w.lo + i)) j).toNat) ∧
              ∀ a, (∀ x ∈ l, a < x.pa ∨ x.pa + 128 ≤ a) → memRead t.mem a = memRead u.mem a))) ∧
    (let x := w.getS f.s
     let n := 8 * (x.toNat % 8)
     let target := x &&& ~~~7
     let base := w.winbase - n
     n ≠ 0 → n ≤ 40 → n ≤ w.winbase → targetOk s w.who target = true → base < w.lo →
     (∀ t, linePlaces s w .load (vas base (w.lo - base)) = .error (.trap t) → bad (.ret f) t) ∧
     ∀ u l, linePlaces s w .load (vas base (w.lo - base)) = .ok (u, l) →
       ∃ t v, Ends (.ret f) s t ∧ t.mem = u.mem ∧ t.warp? s.cur = some v ∧
         v = { w with winbase := base, lo := base, spillcnt := w.spillcnt + BitVec.ofNat 64 (w.lo - base), pc := target, v := v.v } ∧
         (∀ q, (q < base ∨ w.lo ≤ q) → v.vAt q = w.vAt q) ∧
         (w.det = false → (u.core w.core).l1 = [] →
           (∀ y ∈ l, (y.kind = .cached ∨ y.kind = .cap ∨ y.kind = .scratch) ∧ y.pa % 128 = 0) →
           ∀ i y, l[i]? = some y → ∀ j, j < 32 →
             laneGet (v.vAt (base + i)) j = BitVec.ofNat 32 (bytesNat (memReadN u.mem (y.pa + 4 * j) 4))))

/-- Uniform branches, divergence and rejoining, calls and returns. -/
def Obligations.BranchesAndCalls : Prop := UniformBranches ∧ DivergeAndRejoin ∧ CallAndReturn ∧ SpillsAndFills

/-- nop has no effect; waitf goes on once its flags are clear and waits before itself until then; region arrives every
result, each lowering its own count (what its clause has not issued yet stays counted: the model's choice, log 80), counts, and
marks its clause; exit retires the active lanes, and a warp with lanes left goes on with none active
(R273, R278, R279). -/
def Sys2Proof.Machine.FlagsRegionsExit : Prop :=
  ∀ s w f, s.curWarp = some w →
    (∃ t, Ends (.nop f) s t ∧ t = { s with warps := t.warps } ∧ ∀ k, t.warp? k = s.warp? k) ∧
    (let m : BitVec 12 := f.imm16.extractLsb' 0 12
     let met := if m = 0 then w.unflClear else w.maskClear m
     (met = true → ∃ t, Ends (.waitf f) s t ∧ t = { s with warps := t.warps } ∧ ∀ k, t.warp? k = s.warp? k) ∧
     (met = false → ∃ v, Ends (.waitf f) s (s.setWarp s.cur v) ∧ v.wait = .flags m ∧ v.pc = w.ipc ∧ v.s = w.s ∧ v.v = w.v)) ∧
    ((w.pend.all fun p => p.ready) = true → ∃ v, Ends (.region f) s (s.setWarp s.cur v) ∧
      v.regctr = w.regctr + 1 ∧ v.regpc = w.clause.hdr ∧ v.pend = [] ∧
      v.unfl = w.unfl - (w.pend.filter fun p => p.flag == none).length ∧
      (∀ k, k < 12 → (∀ p ∈ w.pend, ∀ n, p.flag = some n → n < 12) →
        v.flagCount k = w.flagCount k - (w.pend.filter fun p => p.flag == some k).length) ∧
      v.perg = w.perg.region ∧ v.em = w.em ∧ v.pc = w.pc) ∧
    (w.lm &&& ~~~w.em ≠ 0 →
      Ends (.exit f) s (s.setWarp s.cur { w with lm := w.lm &&& ~~~w.em, em := 0, qend := w.det || w.qend })) ∧
    (w.lm &&& ~~~w.em = 0 → w.det = false → ∃ t v, Ends (.exit f) s t ∧ t.warp? s.cur = some v ∧ v.status = .exited ∧
      v.lm = 0 ∧ v.pend = [] ∧ t.mem = s.mem) ∧
    (w.lm &&& ~~~w.em = 0 → w.det = true →
      Ends (.exit f) s (s.setWarp s.cur { w with lm := 0, em := 0, qend := true, wait := .commit }))

/-- Clause headers, flag waits, regions, exit and the instructions that only advance; what the model chooses or infers is marked in
the parts: log 80. -/
def Obligations.HeadersAndRegions : Prop := ClauseHeaders ∧ FlagsRegionsExit

/-- waitt goes on at once where its counter has reached the value, acquiring; else the warp waits, and a wait that only a
dropped operation could satisfy faults. tladv raises its counter to the larger value; a release, it
is kept while ordered lanes of its warp are outstanding, and the warp goes on (R158, R179, R180, R182, R280, R462). -/
def Obligations.TimelineWaits : Prop :=
  ∀ s w f, s.curWarp = some w →
    (let n := w.getS f.a + f.imm20.signExtend 64
     let k := f.q.toNat
     let ctr := (s.tl w.ctx w.core).doneOf k
     (n.toNat ≤ ctr.toNat → ∃ t v, Ends (.waitt f) s t ∧ t.warp? s.cur = some v ∧ v.wait = .run ∧ v.s = w.s ∧ v.v = w.v ∧
       t.mem = s.mem ∧ (t.core w.core).l1 = [] ∧ t.tls = s.tls) ∧
     (ctr.toNat < n.toNat → s.droppedAt w k n = false →
       Ends (.waitt f) s (s.setWarp s.cur { w with wait := .waitt k n, qend := w.det || w.qend })) ∧
     (ctr.toNat < n.toNat → s.droppedAt w k n = true → Ends (.waitt f) s
       (s.trap s.cur w.unretire { cause := Cause.operationDropped, faddr := BitVec.ofNat 64 k } .fault))) ∧
    (w.det = false → s.gated s.cur s.nextId = false → ∃ t, Ends (.tladv f) s t ∧ t.warps = s.warps ∧ t.mem = s.mem ∧
      (t.tl w.ctx w.core).doneOf f.q.toNat =
        (if (s.tl w.ctx w.core).doneOf f.q.toNat < w.getS f.a then w.getS f.a else (s.tl w.ctx w.core).doneOf f.q.toNat) ∧
      ∀ k, k < 16 → k ≠ f.q.toNat → (t.tl w.ctx w.core).doneOf k = (s.tl w.ctx w.core).doneOf k) ∧
    (w.det = false → s.gated s.cur s.nextId = true → Ends (.tladv f) s { s with
      nextId := s.nextId + 1
      rels := s.rels ++ [{ warp := s.cur, tok := s.nextId, op := .tladv f.q.toNat (w.getS f.a) }] }) ∧
    (w.det = true → Ends (.tladv f) s (s.setWarp s.cur { w with held := w.held ++ [.tladv f.q.toNat (w.getS f.a)] }))

/-! ## Memory -/

namespace Sys2Proof.Machine

/-- Bytes of one lane of an access whose width is its type's. -/
def ownBytes (f : FmtM) : Nat := f.dt.width / 8

/-- The loads and stores, with what each does and how many bytes a lane names. -/
def plainAccesses : List ((FmtM → Instr) × AccKind × (FmtM → Nat)) :=
  [(.ldG, .load, ownBytes), (.ldG2, .load, fun _ => 8), (.ldG4, .load, fun _ => 16),
   (.stG, .store, ownBytes), (.stG2, .store, fun _ => 8), (.stG4, .store, fun _ => 16)]

/-- The atomics. -/
def atomics : List ((FmtM → Instr) × AccKind × (FmtM → Nat)) :=
  [(.atomAdd, .atom .add, ownBytes), (.atomMin, .atom .min, ownBytes), (.atomMax, .atom .max, ownBytes),
   (.atomAnd, .atom .and, ownBytes), (.atomOr, .atom .or, ownBytes), (.atomXor, .atom .xor, ownBytes),
   (.atomXchg, .atom .xchg, ownBytes), (.atomCas, .atom .cas, ownBytes), (.atomFadd, .atom .fadd, ownBytes)]

/-- The ordered atomics. -/
def orderedAtomics : List ((FmtM → Instr) × AccKind × (FmtM → Nat)) :=
  [(.atomoAdd, .atomo .add, ownBytes), (.atomoXchg, .atomo .xchg, ownBytes), (.atomoOr, .atomo .or, ownBytes),
   (.atomoMax, .atomo .max, ownBytes)]

/-- The check of one lane that a kind of access makes. -/
def laneCheck (w : Warp) (f : FmtM) (kind : AccKind) (size : Nat) : State → Nat → Except Trap (State × LaneAcc) :=
  match kind with | .atomo _ => checkOrdered w f size | _ => checkLane w f kind size

/-- An access instruction's active lanes pass their checks, leaving `u`; none has to follow an ordered lane or release of its warp
that is still outstanding, and its writes meet no guarded range. -/
def Admitted (s : State) (w : Warp) (f : FmtM) (kind : AccKind) (size : Nat) (u : State) (lanes : List LaneAcc) : Prop :=
  s.curWarp = some w ∧ w.em ≠ 0 ∧ checkLanes s (laneCheck w f kind size) (lanesIn w.em) = .ok (u, lanes) ∧
  u.ownHits s.cur kind size lanes = false ∧ u.peerBars s.cur f.ord lanes = false ∧ guardIssue u w (writeRngs kind size lanes) = .ok u

/-- The access that an instruction starts once its lanes are checked. -/
def accessOf (w : Warp) (f : FmtM) (kind : AccKind) (size : Nat) (u : State) (lanes : List LaneAcc) : Access :=
  { kind := kind, dt := f.dt, size := size, scope := f.scope, ord := f.ord, d := w.pos f.d, lanes := lanes, ipc := w.ipc
    tok := u.nextId }

/-- Nothing keeps an access back: its lines are present, its peers reachable, its bytes readable; and it is no release that
has earlier ordered lanes or releases of its warp to wait for. -/
def Free (u : State) (w : Warp) (a : Access) : Prop :=
  u.anyAbsent a = false ∧ noRoute u a = false ∧ lanesError u w.core w.det a a.lanes = .ok () ∧
  (w.det = false → u.defers u.cur a = false)

/-- Two lanes name one place or have no byte in common. -/
def SameOrApart (size : Nat) (x y : LaneAcc) : Prop :=
  (x.pa = y.pa ∧ x.kind = y.kind) ∨ x.pa + size ≤ y.pa ∨ y.pa + size ≤ x.pa

/-- Every lane lies in a store whose bytes memory holds: no register, no peer, and device-uncached lanes only by themselves
and where no line is dirty in L2 over their bytes. -/
def InMemory (u : State) (lanes : List LaneAcc) : Prop :=
  (∀ l ∈ lanes, l.kind ≠ .reg ∧ l.kind ≠ .peer) ∧
  ((∀ l ∈ lanes, l.kind ≠ .uncached) ∨ ∀ l ∈ lanes, l.kind = .uncached ∧ copyGet u.l2dirty (lineOf l.pa) = none)

/-- No ordered lane stands buffered at a line that an access writes. -/
def Undisturbed (u : State) (lanes : List LaneAcc) : Prop :=
  ∀ o ∈ u.ordbuf, o.arrived = true → ∀ l ∈ lanes, lineOf o.lane.pa ≠ lineOf (u.homePa l.kind l.pa)

/-- A result joins the outstanding ones, and nothing else of the warp changes but its counts. -/
def Adds (w v : Warp) (p : Pend) : Prop :=
  v = { w with pend := v.pend, flags := v.flags, unfl := v.unfl, clause := v.clause } ∧ v.pend = w.pend ++ [p]

/-- The same of a warp that goes on. -/
def Owes (w v : Warp) (p : Pend) : Prop := Adds { w with wait := .run } v p

end Sys2Proof.Machine

/-- Every load, store and atomic: with no active lane it has no effect, its result counts as arrived, and an atomic ends the
quantum; a lane that fails a check traps, with nothing done; one that has to follow an ordered lane or release of its own warp
that is still outstanding waits, as an acq-rel atomic of a peer does behind all of them (R140, R153); an absent line or an unreachable peer holds the whole access; an uncorrectable or refused lane faults; a release that
earlier ordered lanes of its warp keep back is kept, and its warp goes on (R20, R81, R85, R141, R152, R158, R171, R305, R307; that
the access is held whole is the model's reading, log 30, and the way a release is kept its choice, log 4). -/
def Obligations.AccessOutcomes : Prop :=
  ∀ p ∈ plainAccesses ++ atomics ++ orderedAtomics, ∀ s w f, s.curWarp = some w →
    let kind := p.2.1
    let size := p.2.2 f
    (w.em = 0 → Ends (p.1 f) s (s.setWarp s.cur
      (if kind = .store then w else if kind = .load then w.noResultA else { w.noResultA with qend := w.det || w.qend }))) ∧
    (∀ t, checkLanes s (laneCheck w f kind size) (lanesIn w.em) = .error t →
      Ends (p.1 f) s (s.trap s.cur w.unretire t .fault)) ∧
    (∀ u lanes, checkLanes s (laneCheck w f kind size) (lanesIn w.em) = .ok (u, lanes) →
      u.ownHits s.cur kind size lanes = true ∨ u.peerBars s.cur f.ord lanes = true →
      Ends (p.1 f) s (s.setWarp s.cur (w.redo .ordered))) ∧
    (∀ u lanes, Admitted s w f kind size u lanes →
      let a := accessOf w f kind size u lanes
      let v := w.constRejoin lanes
      (u.anyAbsent a = true → ∃ t, Ends (p.1 f) s t ∧ t.warp? s.cur = some { v with wait := .held a } ∧ t.mem = u.mem) ∧
      (u.anyAbsent a = false → noRoute u a = true →
        ∃ t, Ends (p.1 f) s t ∧ t.warp? s.cur = some { v with wait := .peer a } ∧ t.mem = u.mem) ∧
      (∀ e, u.anyAbsent a = false → noRoute u a = false → lanesError u w.core w.det a lanes = .error e →
        Ends (p.1 f) s (s.trap s.cur w.unretire e .fault)) ∧
      (w.det = false → u.anyAbsent a = false → noRoute u a = false → lanesError u w.core w.det a lanes = .ok () →
        u.defers s.cur a = true → ∃ t x, Ends (p.1 f) s t ∧ t.warp? s.cur = some x ∧ t.mem = u.mem ∧
          t.rels = u.rels ++ [{ warp := s.cur, tok := u.nextId, op := .acc a }] ∧
          (kind = .store → x = { v with wait := .run }) ∧
          (kind ≠ .store → Owes v x { tok := u.nextId, flag := w.clause.fa, ready := false, writes := [] })))

/-- A load's result: a short element extended by DT in its lane's register, a longer one in consecutive registers; at quad
scope or wider, and where no line is cached yet, the bytes are the home's, and an acquire discards L1 (R149, R157, R308,
R309). No byte of memory changes. -/
def Sys2Proof.Machine.Loads : Prop :=
  ∀ p ∈ plainAccesses, p.2.1 = .load → ∀ s w f u lanes, Admitted s w f .load (p.2.2 f) u lanes →
    let size := p.2.2 f
    Free u w (accessOf w f .load size u lanes) →
    ∃ (t : State) (v : Warp) (bytes : LaneAcc → List Byte), Ends (p.1 f) s t ∧ t.warp? s.cur = some v ∧ t.mem = u.mem ∧
      Owes { w with split := v.split } v
        { tok := u.nextId, flag := w.clause.fa, ready := true
          writes := resultWrites f.dt size (w.pos f.d) (lanes.map fun l => (l.lane, bytes l)) } ∧
      (w.det = false → InMemory u lanes →
        f.scope.ge .quad = true ∨ ((u.core w.core).l1 = [] ∧ (u.core w.core).cc = [] ∧
          ∀ l ∈ lanes, l.pa % 128 + size ≤ 128) →
        ∀ l ∈ lanes, bytes l = memReadN u.mem l.pa size) ∧
      ((lanes.any fun l => acquires f.ord (l.kind.scope f.scope)) = true → (t.core w.core).l1 = [])

/-- A load splits its warp exactly when it is relaxed and may read L1, does not forbid it, the warp is not split already, no
lane takes the constant path, and some of its lanes hit in L1 while others miss; each split counts once; a load through the
constant path rejoins (R96, R98, R100; that lanes which bypass L1 count as neither hit nor miss, that a constant-path load ends the
split, and the counter are the model's reading, log 25). -/
def Obligations.WaveSplits : Prop :=
  ∀ p ∈ plainAccesses, p.2.1 = .load → ∀ s w f u lanes, Admitted s w f .load (p.2.2 f) u lanes →
    Free u w (accessOf w f .load (p.2.2 f) u lanes) → w.det = false →
    let hit (l : LaneAcc) : Prop := (copyGet (u.core w.core).l1 (lineOf l.pa)).isSome = true
    let through (l : LaneAcc) : Prop := l.kind = .cached ∨ l.kind = .cap
    let forms := f.ord = .relaxed ∧ f.scope.ge .quad = false ∧ f.nosplit = false ∧ w.split = none ∧
      (∀ l ∈ lanes, l.kind ≠ .const) ∧ (∃ l ∈ lanes, through l ∧ hit l) ∧ ∃ l ∈ lanes, through l ∧ ¬hit l
    ∃ t v, Ends (p.1 f) s t ∧ t.warp? s.cur = some v ∧
      (forms → v.split = some w.clause.fa ∧ (t.core w.core).splits = (u.core w.core).splits + 1) ∧
      (¬forms → ((∀ l ∈ lanes, l.kind ≠ .const) → v.split = w.split) ∧ ((∃ l ∈ lanes, l.kind = .const) → v.split = none) ∧
        (t.core w.core).splits = (u.core w.core).splits)

/-- A store writes each active lane's register bytes at its address: where lanes name one place, one lane's bytes; every
other byte of memory is unchanged, and the warp goes on. A store of a deterministic warp is held for its round's commit
(R143, R172, R308). -/
def Sys2Proof.Machine.Stores : Prop :=
  ∀ p ∈ plainAccesses, p.2.1 = .store → ∀ s w f u lanes, Admitted s w f .store (p.2.2 f) u lanes →
    let size := p.2.2 f
    let a := accessOf w f .store size u lanes
    Free u w a →
    ∃ t, Ends (p.1 f) s t ∧
      (w.det = true → t.mem = u.mem ∧
        t.warp? s.cur = some { w.constRejoin lanes with wait := .run, held := w.held ++ [.acc a] }) ∧
      (w.det = false → InMemory u lanes → Undisturbed u lanes → Memory.wf u.mem = true → lanes.Pairwise (SameOrApart size) →
        t.warp? s.cur = some { w.constRejoin lanes with wait := .run } ∧
        (∀ x, (∀ l ∈ lanes, x < l.pa ∨ l.pa + size ≤ x) → memRead t.mem x = memRead u.mem x) ∧
        ∀ l ∈ lanes, ∀ i, i < size → ∃ m ∈ lanes, m.pa = l.pa ∧ some (memRead t.mem (l.pa + i)) = m.data[i]?)

/-- Loads and stores of device registers and of other devices: a load answers the register's value, or the bytes of the peer
as this device knows it, or of its own memory behind the inbound table; a lane's store writes the register by its own rule, or
those bytes, and nothing else of memory (R37, R39, R308; that this device holds what it knows of its peers' bytes and performs a
peer access at issue is the model's
choice, log 3, 4, 68). -/
def Sys2Proof.Machine.DevicePlaces : Prop :=
  (∀ p ∈ plainAccesses, p.2.1 = .load → ∀ s w f u lanes, Admitted s w f .load (p.2.2 f) u lanes →
    let size := p.2.2 f
    Free u w (accessOf w f .load size u lanes) → w.det = false →
    ((∀ l ∈ lanes, l.kind = .reg) ∨ ∀ l ∈ lanes, l.kind = .peer) →
    ∃ (t : State) (v : Warp) (bytes : LaneAcc → List Byte), Ends (p.1 f) s t ∧ t.warp? s.cur = some v ∧ t.mem = u.mem ∧
      Owes { w with split := v.split } v
        { tok := u.nextId, flag := w.clause.fa, ready := true
          writes := resultWrites f.dt size (w.pos f.d) (lanes.map fun l => (l.lane, bytes l)) } ∧
      ∀ l ∈ lanes, bytes l =
        if l.kind = .reg then natBytes size (u.regReadAt l.pa).toNat
        else match peerRoute u l.pa .load with
          | .local a => memReadN u.mem a size
          | _ => memReadN u.peerMem l.pa size) ∧
  ∀ p ∈ plainAccesses, p.2.1 = .store → ∀ s w f u l, Admitted s w f .store (p.2.2 f) u [l] →
    let size := p.2.2 f
    let x : State := { u with nextId := u.nextId + 1 }.setWarp s.cur { w with wait := .run }
    Free u w (accessOf w f .store size u [l]) → w.det = false → Undisturbed u [l] →
    (l.kind = .reg → Ends (p.1 f) s (x.regWriteAt l.pa (BitVec.ofNat 64 (bytesNat l.data)) (some w.ctx))) ∧
    (l.kind = .peer → peerRoute u l.pa .store = .remote → Ends (p.1 f) s { x with peerMem := memWriteN u.peerMem l.pa l.data }) ∧
    ∀ a, l.kind = .peer → peerRoute u l.pa .store = .local a → Memory.wf u.mem = true → l.data.length = size →
      ∃ t, Ends (p.1 f) s t ∧ t.warps = x.warps ∧ memReadN t.mem a size = l.data ∧
        ∀ y, (y < a ∨ a + size ≤ y) → memRead t.mem y = memRead u.mem y

/-- Loads and stores: the bytes each lane reads or writes, and nothing else; what the model chooses or infers is marked in the
parts: log 3, 4, 68. -/
def Obligations.LoadsAndStores : Prop := Loads ∧ Stores ∧ DevicePlaces

/-- An atomic reads its old bytes at the home, writes the operation's value there, and returns the old bytes; it is held for
the commit in a deterministic launch (R310). -/
def Obligations.Atomics : Prop :=
  ∀ p ∈ ([(.atomAdd, fun t o x _ => some ((o + x) % 2 ^ t.width)),
      (.atomMin, fun t o x _ => some (if intOf t x < intOf t o then x else o)),
      (.atomMax, fun t o x _ => some (if intOf t x < intOf t o then o else x)),
      (.atomAnd, fun _ o x _ => some (o &&& x)), (.atomOr, fun _ o x _ => some (o ||| x)),
      (.atomXor, fun _ o x _ => some (o ^^^ x)), (.atomXchg, fun _ _ x _ => some x),
      (.atomCas, fun _ o x y => if o = x then some y else none),
      (.atomFadd, fun _ o x _ => some (narrow (fmtOf .f32) rne (sumF false [decodeF (fmtOf .f32) o, decodeF (fmtOf .f32) x])))]
      : List ((FmtM → Instr) × (DT → Nat → Nat → Nat → Option Nat))),
    ∀ kind q, (p.1, kind, q) ∈ atomics → ∀ s w f u lanes, Admitted s w f kind (q f) u lanes → 0 < q f →
    let size := q f
    let a := accessOf w f kind size u lanes
    Free u w a →
    ∃ t v, Ends (p.1 f) s t ∧ t.warp? s.cur = some v ∧
      (w.det = true → t.mem = u.mem ∧ v.held = w.held ++ [.acc a] ∧ v.qend = true) ∧
      (w.det = false → InMemory u lanes → Undisturbed u lanes → Memory.wf u.mem = true →
        lanes.Pairwise (fun x y => x.pa + size ≤ y.pa ∨ y.pa + size ≤ x.pa) →
        Owes (w.constRejoin lanes) v
          { tok := u.nextId, flag := w.clause.fa, ready := true
            writes := resultWrites f.dt size (w.pos f.d) (lanes.map fun l => (l.lane, memReadN u.mem l.pa size)) } ∧
        (∀ x, (∀ l ∈ lanes, x < l.pa ∨ l.pa + size ≤ x) → memRead t.mem x = memRead u.mem x) ∧
        ∀ l ∈ lanes,
          let old := memReadN u.mem l.pa size
          memReadN t.mem l.pa size =
            match p.2 f.dt (bytesNat old) (bytesNat l.data) (bytesNat l.data2) with
            | some n => natBytes size n
            | none => old)

/-- An ordered atomic's lanes travel to their slices with their tickets, and its result is owed until the last has been
performed (R166, R167, R312; the cause of a lane in a window is the model's choice, log 79). -/
def Sys2Proof.Machine.OrderedAtomicsIssue : Prop :=
  ∀ p ∈ orderedAtomics, ∀ s w f u lanes, Admitted s w f p.2.1 (p.2.2 f) u lanes →
    let a := accessOf w f p.2.1 (p.2.2 f) u lanes
    Free u w a →
    ∃ t v, Ends (p.1 f) s t ∧ t.warp? s.cur = some v ∧ t.mem = u.mem ∧
      (w.det = true → v.held = w.held ++ [.acc a] ∧ v.qend = true) ∧
      (w.det = false → Owes (w.constRejoin lanes) v { tok := u.nextId, flag := w.clause.fa, ready := false, writes := [] } ∧
        t.ordbuf = u.ordbuf ++ lanes.map fun l =>
          { slice := homeSlice l.pa, warp := s.cur, acc := a, lane := l, arrived := false, refused := none })

namespace Sys2Proof.Machine

/-- The new value of each ordered atomic (R312). -/
def orderedNew (op : AtomOp) (t : DT) (old x : Nat) : Nat :=
  match op with
  | .add => (old + x) % 2 ^ t.width
  | .or => old ||| x
  | .max => if intOf t x < intOf t old then old else x
  | _ => x

/-- A lane performed on its data word: the word takes its operation's value, and no other byte changes (R167, R312). -/
def orderedWrite (m : List Host.Cell) (o : OrdBuf) : List Host.Cell :=
  match o.acc.kind with
  | .atomo op => memWriteN m o.lane.pa (natBytes o.acc.size
      (orderedNew op o.acc.dt (bytesNat (memReadN m o.lane.pa o.acc.size)) (bytesNat o.lane.data)))
  | _ => m

/-- Lanes performed one after another, each with the old bytes of its data word. -/
def orderedOlds (m : List Host.Cell) : List OrdBuf → List (OrdBuf × List Byte)
  | [] => []
  | o :: r => (o, memReadN m o.lane.pa o.acc.size) :: orderedOlds (orderedWrite m o) r

/-- An ordered lane of a warp whose word lies in its line beside NEXT, with no error in it. -/
def OrderedAt (s : State) (line : Nat) (o : OrdBuf) : Prop :=
  (o.lane.kind = .cached ∨ o.lane.kind = .cap) ∧ s.badAt o.lane.kind o.lane.pa = false ∧ lineOf o.lane.pa = line ∧
  line * 128 + 8 ≤ o.lane.pa ∧ o.lane.pa + o.acc.size ≤ line * 128 + 128 ∧ (s.warp? o.warp).isSome = true ∧
  (o.acc.kind = .atomo .add ∨ o.acc.kind = .atomo .xchg ∨ o.acc.kind = .atomo .or ∨ o.acc.kind = .atomo .max)

/-- The old values of the lanes `l`, performed in that order, join what their instructions owe, each its own; a result is ready once no
lane of its instruction is outstanding (R167, R312). -/
def OldsDelivered (s t : State) (l : List OrdBuf) : Prop :=
  ∀ k w, s.warp? k = some w → w.det = false → ∃ v : Warp, t.warp? k = some v ∧
    ∀ (i : Nat) (p : Pend), w.pend[i]? = some p → ∃ q : Pend, v.pend[i]? = some q ∧
    q.tok = p.tok ∧ q.flag = p.flag ∧
    q.writes = p.writes ++ (((orderedOlds s.mem l).filter fun y => y.1.warp = k ∧ y.1.acc.tok = p.tok).flatMap fun y =>
      resultWrites y.1.acc.dt y.1.acc.size y.1.acc.d [(y.1.lane.lane, y.2)]) ∧
    ((∃ o ∈ l, o.warp = k ∧ o.acc.tok = p.tok) → (∀ o ∈ t.ordbuf, o.warp = k → o.acc.tok ≠ p.tok) → q.ready = true)

end Sys2Proof.Machine

/-- A lane at its slice: its ticket against NEXT of its line decides. In turn, it takes R312's operation to its data word, its old
value goes to its lane, NEXT advances, and the buffered lanes of its line follow in ticket order, each likewise, until none matches;
ahead, it is buffered; behind, it is performed at once, NEXT stands, and the slice's stale count rises. No other byte changes. A
slice with 63 lanes buffered refuses a lane that would have
to wait, whose warp keeps it, issues nothing, and sends it again once a NEXT of the slice has advanced and its context runs
(R167 to R170). When waiting lanes are compared with NEXT is the model's reading, log 72; which advances count is its choice,
log 83. -/
def Sys2Proof.Machine.OrderedLanes : Prop :=
  (∀ s o l, s.ordbuf[s.ev.x]? = some o → o.arrived = false → o.refused = none → Memory.wf s.mem = true → s.ordbuf.Nodup →
    let line := lineOf o.lane.pa
    let next := bytesNat (memReadN s.mem (line * 128) 8)
    OrderedAt s line o → o.lane.ticket.toNat = next → l.length ≤ 63 →
    (∀ i b, l[i]? = some b → b ∈ s.ordbuf ∧ b.arrived = true ∧ b.slice = homeSlice o.lane.pa ∧ OrderedAt s line b ∧
      b.lane.ticket.toNat = (next + 1 + i) % 2 ^ 64) →
    (∀ b ∈ s.ordbuf, b.arrived = true → lineOf b.lane.pa = line → b ∉ l →
      ∀ i, i ≤ l.length + 1 → b.lane.ticket.toNat ≠ (next + i) % 2 ^ 64) →
    ∃ t, Ends .atomoLaneArrive s t ∧
      bytesNat (memReadN t.mem (line * 128) 8) = (next + 1 + l.length) % 2 ^ 64 ∧
      t.nextsOf (homeSlice o.lane.pa) = s.nextsOf (homeSlice o.lane.pa) + 1 + l.length ∧
      (∀ a, (a < line * 128 ∨ line * 128 + 8 ≤ a) → memRead t.mem a = memRead ((o :: l).foldl orderedWrite s.mem) a) ∧
      OldsDelivered s t (o :: l) ∧ t.stale = s.stale ∧
      t.ordbuf = (s.ordbuf.eraseIdx s.ev.x).filter fun b => !l.contains b) ∧
  (∀ s o, s.ordbuf[s.ev.x]? = some o → o.arrived = false → o.refused = none →
    let line := lineOf o.lane.pa
    let next := bytesNat (memReadN s.mem (line * 128) 8)
    let d := (o.lane.ticket.toNat + 2 ^ 64 - next) % 2 ^ 64
    OrderedAt s line o → (∀ b ∈ s.ordbuf, b.arrived = true → lineOf b.lane.pa = line → b.lane.ticket.toNat ≠ next) →
    (0 < d → d < 2 ^ 63 → (s.ordbuf.filter fun x => x.arrived && x.slice == homeSlice o.lane.pa).length < 63 →
      let b : OrdBuf := { o with slice := homeSlice o.lane.pa, arrived := true }
      Ends .atomoLaneArrive s { s with ordbuf := s.ordbuf.eraseIdx s.ev.x ++ [b] }) ∧
    (2 ^ 63 ≤ d → ∃ t, Ends .atomoLaneArrive s t ∧ t.mem = orderedWrite s.mem o ∧ OldsDelivered s t [o] ∧
      tgetD t.stale (homeSlice o.lane.pa) 0 = tgetD s.stale (homeSlice o.lane.pa) 0 + 1 ∧ t.nexts = s.nexts ∧
      t.ordbuf = s.ordbuf.eraseIdx s.ev.x)) ∧
  (∀ s o, s.ordbuf[s.ev.x]? = some o → o.arrived = false → o.refused = none → s.badAt o.lane.kind o.lane.pa = false →
    let line := lineOf o.lane.pa
    let next := bytesNat (memReadN s.mem (line * 128) 8)
    let d := (o.lane.ticket.toNat + 2 ^ 64 - next) % 2 ^ 64
    0 < d → d < 2 ^ 63 → 63 ≤ (s.ordbuf.filter fun x => x.arrived && x.slice == homeSlice o.lane.pa).length →
    (∀ x ∈ s.ordbuf, x.arrived = true → lineOf x.lane.pa = line → x.lane.ticket.toNat ≠ next) →
    Ends .atomoLaneArrive s { s with ordbuf := s.ordbuf.eraseIdx s.ev.x ++
      [{ o with slice := homeSlice o.lane.pa, refused := some (s.nextsOf (homeSlice o.lane.pa)) }] }) ∧
  (∀ (s : State) k w, (∃ o ∈ s.ordbuf, o.warp = k ∧ o.refused ≠ none) → s.barred k w = true) ∧
  (∀ (s : State) w, s.warp? s.ev.x = some w → s.advances w.ctx .warps = true →
    let due (o : OrdBuf) : Prop := o.warp = s.ev.x ∧ ∃ n, o.refused = some n ∧ n < s.nextsOf o.slice
    (∃ o ∈ s.ordbuf, due o) → ∃ t : State, Ends .atomoRetry s t ∧ t = { s with ordbuf := t.ordbuf } ∧
      t.ordbuf.length = s.ordbuf.length ∧ ∀ (i : Nat) o, s.ordbuf[i]? = some o →
        (due o → t.ordbuf[i]? = some { o with refused := none }) ∧ (¬due o → t.ordbuf[i]? = some o))

/-- Ordered atomics: what issue owes, the order in which a slice performs lanes, what a lane performed writes and returns, and the
lanes that it lets go; what the model chooses or infers is marked in the parts: log 72, 79, 83. -/
def Obligations.OrderedAtomics : Prop := OrderedAtomicsIssue ∧ OrderedLanes

/-- Results arrive one by one in any order: the register takes its lanes, and the result's flag counts one fewer (R205).
A held access is performed once its lines are present; a warp waiting whole issues again (R81, R82). A release kept back is
performed once no ordered lane or release of its warp that precedes it is outstanding: a counter raised, a store written, an ordered
atomic's lanes sent with the mark of a fence behind it, a launch accepted, an arrival counted, a push made (R158, R160; the model's
choice of how, log 4). -/
def Sys2Proof.Machine.ResultsArrive : Prop :=
  (∀ s w p, s.warp? s.ev.x = some w → w.pend[s.ev.y]? = some p → p.ready = true →
    Ends .resultArrive s (s.setWarp s.ev.x ({ (w.paid p.flag).applyWrites p.writes with pend := w.pend.eraseIdx s.ev.y })) ∧
    (∀ m, p.flag = some m → (w.paid p.flag).flagCount m = w.flagCount m - 1) ∧
    (p.flag = none → (w.paid p.flag).unfl = w.unfl - 1)) ∧
  (∀ (w : Warp) pos mask x l, l < 32 → laneGet ((w.applyWrite (.v pos mask x)).vAt pos) l =
    if mask.getLsbD l then laneGet x l else laneGet (w.vAt pos) l) ∧
  (∀ s w a, s.warp? s.ev.x = some w → w.wait = .held a → s.ev.nums = [] → s.anyAbsent a = false →
    (∀ t, startAccess s s.ev.x { w with wait := .run } a = .ok t → Ends .heldAccessPerform s t) ∧
    ∀ e, startAccess s s.ev.x { w with wait := .run } a = .error e →
      Ends .heldAccessPerform s (s.trap s.ev.x { w.unretire with wait := .run } e .fault)) ∧
  (∀ s w pas va st, s.warp? s.ev.x = some w → w.wait = .present pas va st → s.ev.nums = [] → (∀ x ∈ pas, s.placeFree x = true) →
    Ends .heldAccessPerform s (s.setWarp s.ev.x { w with wait := .run })) ∧
  ∀ s i rest r w, s.ev.nums = i :: rest → s.rels[i]? = some r → s.gated r.warp r.tok = false → s.warp? r.warp = some w →
    let u : Warp := { w with wait := if w.wait = .ordered then .run else w.wait }
    let x : State := { s with rels := s.rels.eraseIdx i }.setWarp r.warp u
    (∀ k v, r.op = .tladv k v → k < 16 → ∃ t, Ends .heldAccessPerform s t ∧ (∀ j, t.warp? j = x.warp? j) ∧ t.mem = s.mem ∧
      t.rels = s.rels.eraseIdx i ∧
      (t.tl w.ctx w.core).doneOf k =
        if (s.tl w.ctx w.core).doneOf k < v then v else (s.tl w.ctx w.core).doneOf k) ∧
    (∀ c v l b, r.op = .cmd c → accept (State.wake { s with rels := s.rels.eraseIdx i } r.warp) r.warp u c = .ok v l b →
      Ends .heldAccessPerform s (v.setWarp r.warp (((v.warp? r.warp).getD u).fill c.tok l))) ∧
    (∀ b n d ipc v ph, r.op = .arrive b n d ipc →
      (State.wake { s with rels := s.rels.eraseIdx i } r.warp).barArrive r.warp u b n = .ok (v, ph) →
      Ends .heldAccessPerform s (v.setWarp r.warp (u.settle r.tok [.s d ph]))) ∧
    (∀ q v d, r.op = .push q v d → ∃ t, Ends .heldAccessPerform s t ∧ t.rels = s.rels.eraseIdx i ∧ t.mem = s.mem ∧
      r.warp ∈ (t.core w.core).pickedWarps) ∧
    ∀ a, r.op = .acc a → x.anyAbsent a = false → noRoute x a = false → lanesError x w.core w.det a a.lanes = .ok () →
      (∀ op, a.kind = .atomo op → ∃ t, Ends .heldAccessPerform s t ∧ (∀ j, t.warp? j = x.warp? j) ∧ t.mem = s.mem ∧
        t.rels = s.rels.eraseIdx i ∧ t.ordbuf = s.ordbuf ++ a.lanes.map fun l =>
          { slice := homeSlice l.pa, warp := r.warp, acc := a, lane := l, arrived := false, refused := none, fenced := r.fenced }) ∧
      (a.kind = .store → InMemory x a.lanes → Undisturbed x a.lanes → Memory.wf s.mem = true →
        a.lanes.Pairwise (SameOrApart a.size) → (∀ l ∈ a.lanes, l.data.length = a.size) →
        ∃ t, Ends .heldAccessPerform s t ∧ t.rels = s.rels.eraseIdx i ∧
          (∀ y, (∀ l ∈ a.lanes, y < l.pa ∨ l.pa + a.size ≤ y) → memRead t.mem y = memRead s.mem y) ∧
          ∀ l ∈ a.lanes, ∀ j, j < a.size → ∃ m ∈ a.lanes, m.pa = l.pa ∧ some (memRead t.mem (l.pa + j)) = m.data[j]?)

/-- fence discards L1 where it acquires at quad scope or wider, and where it releases marks the ordered lanes and releases of its
warp that later writes wait for (how is the model's choice, log 4); pfence discards the path caches; pref only caches; wback
writes the dirty lines of L2 that it names to memory and leaves them there clean: none changes a byte that a load of the home reads (R160, R193, R313 to R315). -/
def Obligations.FencesAndHints : Prop :=
  ∀ s w f, s.curWarp = some w →
    (∃ t, Ends (.fence f) s t ∧ t = { s with cores := t.cores, ordbuf := t.ordbuf, rels := t.rels } ∧
      (acquires f.ord f.scope = true → (t.core w.core).l1 = []) ∧ (acquires f.ord f.scope = false → t.cores = s.cores) ∧
      (releasesAt f.ord f.scope = true →
        (∀ o ∈ t.ordbuf, o.warp = s.cur → o.fenced = true) ∧ ∀ r ∈ t.rels, r.warp = s.cur → r.fenced = true) ∧
      (releasesAt f.ord f.scope = false → t.ordbuf = s.ordbuf ∧ t.rels = s.rels) ∧
      (t.ordbuf.map fun o => { o with fenced := false }) = (s.ordbuf.map fun o => { o with fenced := false }) ∧
      (t.rels.map fun r => { r with fenced := false }) = s.rels.map fun r => { r with fenced := false }) ∧
    (∀ g, w.det = false → ∃ t, Ends (.pfence g) s t ∧ t = { s with cores := t.cores } ∧
      (t.core w.core).cc = [] ∧ (t.core w.core).tc = [] ∧ (t.core w.core).gc = [] ∧ (t.core w.core).pr = [] ∧
      (t.core w.core).l1 = (s.core w.core).l1) ∧
    (∀ g, w.det = true → Ends (.pfence g) s (s.setWarp s.cur { w with held := w.held ++ [.pfence] })) ∧
    (∃ t, Ends (.pref f) s t ∧ t.warps = s.warps ∧ t.mem = s.mem ∧ t.poison = s.poison) ∧
    (∀ u lanes, checkLanes s (wbackLane w f) (lanesIn w.em) = .ok (u, lanes) →
      ∃ t, Ends (.wback f) s t ∧ t.mem = u.mem ∧
        (w.det = false → t.warps = s.warps ∧ ∀ l ∈ lanes, l.kind = .cached ∨ l.kind = .cap →
          u.poison.contains (lineOf l.pa) = false → copyGet t.l2dirty (lineOf l.pa) = none)) ∧
    ∀ e, checkLanes s (wbackLane w f) (lanesIn w.em) = .error e → Ends (.wback f) s (s.trap s.cur w.unretire e .fault)

/-- waitv reads its word at the home once the checks of a load pass: where the comparison holds the warp goes on,
acquiring as its ORD says; else it is descheduled and evaluated again, on a write of the line, after 4,096 cycles or at
its own re-evaluations, its address translated anew each time (R281, R282; the new translation is the model's choice, log 69);
while it has to follow an ordered lane or release of its warp it waits whole (R152, R153), and a deterministic warp's is evaluated by the
commit. -/
def Sys2Proof.Machine.MemoryWaits : Prop :=
  (∀ s w cc f u pa k, s.curWarp = some w → k ≠ .peer → k ≠ .reg →
    resolve s w.who .load (w.getS f.b + ofsM f) (ownBytes f) true = .ok (u, pa, k) →
    (w.det = false → u.ownBars s.cur k pa (ownBytes f) = true → Ends (.waitv cc f) s (s.setWarp s.cur (w.redo .ordered))) ∧
    (w.det = true → ∃ r : WaitvRec, Ends (.waitv cc f) s (u.setWarp s.cur { w with wait := .waitv r, qend := true }) ∧
      r.cc = cc ∧ r.pa = pa ∧ r.cmp = w.getS f.d)) ∧
  (∀ s w cc f u pa k, s.curWarp = some w → w.det = false → k ≠ .peer → k ≠ .reg → u.poison.contains (lineOf pa) = false →
    (k = .scratch → u.absentAt pa = 0) → (k = .uncached → copyGet u.l2dirty (lineOf pa) = none) →
    u.ownBars s.cur k pa (ownBytes f) = false → resolve s w.who .load (w.getS f.b + ofsM f) (ownBytes f) true = .ok (u, pa, k) →
    let v := bytesNat (memReadN u.mem pa (ownBytes f))
    ∃ t x, Ends (.waitv cc f) s t ∧ t.mem = u.mem ∧ t.warp? s.cur = some x ∧ x.s = w.s ∧ x.v = w.v ∧
      (x.wait = .run ↔ compareBits cc f.dt v ((w.getS f.d).toNat % 2 ^ f.dt.width) = true) ∧
      (x.wait = .run → acquires f.ord (k.scope f.scope) = true → (t.core w.core).l1 = [])) ∧
  (∀ s w cc f e, s.curWarp = some w → resolve s w.who .load (w.getS f.b + ofsM f) (ownBytes f) true = .error e →
    Ends (.waitv cc f) s (s.trap s.cur w.unretire (e.trap false 0 (w.getS f.b + ofsM f)) .fault)) ∧
  ∀ s w r, s.warp? s.ev.x = some w → w.wait = .waitv r → w.det = false →
    ∀ i, (i = .waitvEvaluate ∨ (i = .waitvPeriodicEval ∧ 4096 ≤ (s.clock - r.last).toNat)) →
    (∀ u pa k, resolve s w.who .load r.va r.size true = .ok (u, pa, k) → k ≠ .peer → k ≠ .reg →
      (k = .scratch → u.absentAt pa = 0) → (k = .uncached → copyGet u.l2dirty (lineOf pa) = none) →
      u.poison.contains (lineOf pa) = false → u.ownBars s.ev.x k pa r.size = false →
      let met := compareBits r.cc r.dt (bytesNat (memReadN u.mem pa r.size)) (r.cmp.toNat % 2 ^ r.dt.width)
      ∃ t, Ends i s t ∧ t.mem = u.mem ∧
        t.warp? s.ev.x =
          some { w with wait := if met then .run else .waitv { r with pa := pa, kind := k, last := s.clock } }) ∧
    ∀ e, resolve s w.who .load r.va r.size true = .error e →
      Ends i s (s.trap s.ev.x { w.unretire with wait := .run } (e.trap false 0 r.va) .fault)

/-- Results arrive, and waits on memory end; what the model chooses or infers is marked in the parts: log 4, 69. -/
def Obligations.ResultsAndMemoryWaits : Prop := ResultsArrive ∧ MemoryWaits

/-! ## Engine commands -/

namespace Sys2Proof.Machine

/-- A number completes where it is its counter's next. -/
def NumberDone (s t : State) (ctx core k num : Nat) : Prop :=
  (s.tl ctx core).early = [] → 0 < num → num < 2 ^ 64 → (s.tl ctx core).doneOf k = BitVec.ofNat 64 num - 1 →
    (t.tl ctx core).doneOf k = BitVec.ofNat 64 num

/-- A command whose issue checks have passed. -/
def commandOf (w : Warp) (body : CmdBody) (d : BitVec 6) (u : State) : Cmd :=
  { body := body, d := d.toNat, ipc := w.ipc, tok := u.nextId }

/-- Whether a copy's destination meets that of an incomplete copy of another queue. -/
def Clashes (u : State) (w : Warp) (body : CmdBody) : Bool :=
  match body with | .copy q _ _ dst => copyClash (u.core w.core) w.ctx q dst | _ => false

/-- The operand planes of a contraction whose set holds, ahead of it, the depth it holds now, and their bytes (R341). -/
def planesOf (s : State) (w : Warp) (o : Ori) (set : Nat) (fa fg : DT) (a g : Word) (x y : Nat) (r : Option Word) (n : Nat) : Planes :=
  macPlanes (((setAhead s w set).b.map Prod.snd).getD 0) o fa fg a g x y r n
def bytesOf (l : Planes) : Nat := (l.map fun p => (p.2.2.map Prod.snd).sum).sum

/-- What the engine of an accepted command holds after it: the command under its number, last of its queue. -/
def Queued (u t : State) (w : Warp) (k : Nat) (cmd : Cmd) (n : Nat) : Prop :=
  match cmd.body with
  | .copy q kb p dst => ∃ o, (t.core w.core).ops = (u.core w.core).ops ++ [o] ∧
      o = { seq := u.seq, ctx := w.ctx, warp := k, ipc := cmd.ipc, tok := cmd.tok, tl := q, num := n, gather := false, kb := kb
            pieces := p, dst := dst, err := false, kbDies := if kb then kbDiesOf p else [], dead := [] } ∧
      ∀ x ∈ o.lines, tgetD (t.core x.1).absent x.2 0 ≠ 0
  | .gather p dst => ∃ o, (t.core w.core).ops = (u.core w.core).ops ++ [o] ∧
      o = { seq := u.seq, ctx := w.ctx, warp := k, ipc := cmd.ipc, tok := cmd.tok, tl := 4, num := n, gather := true, kb := false
            pieces := p, dst := dst, err := false, kbDies := [], dead := [] }
  | .cube c prio sh xl => ∃ e : CubeEnt, (t.core w.core).cq = (u.core w.core).cq ++ [e] ∧ e.cmd = c ∧ e.prio = prio ∧
      e.ashape = sh ∧ e.xl = xl ∧ e.num = n ∧ e.ctx = w.ctx ∧ e.warp = k ∧ e.tok = cmd.tok ∧ e.st = .queued ∧ e.step = 0 ∧
      e.wait = 0 ∧ e.since = u.clock
  | .plane p => ∃ e : PlaneEnt, (t.core w.core).pq = (u.core w.core).pq ++ [e] ∧ e.cmd = p ∧ e.num = n ∧ e.ctx = w.ctx ∧
      e.warp = k ∧ e.tok = cmd.tok
  | .krun r => (t.kiosk r.ch).queue =
        (u.kiosk r.ch).queue ++ [{ r with warp := k, tok := cmd.tok, num := n, seq := u.seq }] ∧
      tget (t.tl w.ctx w.core).kch n = some r.ch
  | .coll c => t.colls = u.colls ++ [{ c with warp := k, tok := cmd.tok, num := n, seqNo := u.seq }]
  | _ => True

/-- The outcome of an engine command whose checks pass in `u`: held for the commit of a deterministic round; refused, its
warp descheduled with it, while its engine is full; else accepted under the next number of its counter, which its result
carries (R173, R177, R187, R344, R399). A copy that meets an incomplete one of another queue waits for the advances of its cycle
(R188; the model's choice, log 32). -/
def Submits (i : Instr) (s u : State) (w : Warp) (body : CmdBody) (d : BitVec 6) : Prop :=
  let c := commandOf w body d u
  (w.det = true → ∃ t v, Ends i s t ∧ t.warp? s.cur = some v ∧ v.held = w.held ++ [.cmd c] ∧ t.mem = u.mem ∧
    t.cores = u.cores ∧ t.tls = u.tls) ∧
  (w.det = false → Clashes u w body = false → hasRoom u s.cur w body = false →
    ∃ t, Ends i s t ∧ t.warp? s.cur = some { w with wait := .refused c } ∧ t.mem = u.mem ∧ t.tls = u.tls) ∧
  (w.det = false → Clashes u w body = false → hasRoom u s.cur w body = true → u.guardHits w.ctx w.core body.guarded = [] →
    ∃ t v, Ends i s t ∧ t.warp? s.cur = some v ∧ t.mem = u.mem ∧
      let n := (u.tl w.ctx w.core).issuedOf body.counter + 1
      (t.tl w.ctx w.core).issuedOf body.counter = n ∧
      (∀ j, j < 10 → j ≠ body.counter % 10 → (t.tl w.ctx w.core).issuedOf j = (u.tl w.ctx w.core).issuedOf j) ∧
      (t.tl w.ctx w.core).done = (u.tl w.ctx w.core).done ∧
      (if body.owes then Owes w v { tok := u.nextId, flag := w.clause.fb, ready := (body.result d.toNat n.toNat).2
                                    writes := (body.result d.toNat n.toNat).1 }
       else v = { w with wait := .run }) ∧
      Queued u t w s.cur c n.toNat) ∧
  (w.det = false → Clashes u w body = true → ∀ q kb p dst, body = .copy q kb p dst →
    Ends i s (s.setWarp s.cur (w.redo (.overlap q dst))))

/-- The rows of a copy: number, source, destination, length. -/
def rowsOf (dst src : Word) (len rows dstr sstr : Nat) : List (Nat × Word × Word × Nat) :=
  (countFrom 0 (if len = 0 then 0 else rows)).map fun i =>
    (i, src + BitVec.ofNat 64 (i * sstr), dst + BitVec.ofNat 64 (i * dstr), len)

/-- The bytes of a copy's destination, and of its source. -/
def copyRng (base : Word) (len rows stride : Nat) : Rng :=
  { base := base, row := len, stride := stride, rows := if len = 0 then 0 else rows }

end Sys2Proof.Machine

/-- copy, copy2d, copykb: rows translated in ascending order, source before destination; an overlap of the two faults; a
copy that passes joins its queue, its destination's scratchpad lines absent (R79, R186 to R189, R316, R317; that order, the faults'
addresses and the order of the checks are the model's reading, log 11, 32 and 33). One that met another queue's copy faults at its
cycle's end if that copy is still incomplete then, and else issues again (R188; that it waits for that, log 82). A weight store is
busy while a kernel or block is resident or parked on its die (R108; how a kernel is counted is the model's reading, log 81). -/
def Sys2Proof.Machine.CopiesIssue : Prop :=
  (∀ (s : State) k (w : Warp) q dst, s.warp? k = some w → w.wait = .overlap q dst →
    (copyClash (s.core w.core) w.ctx q dst = true → s.overlapCheck k = s.trap k { w with wait := .run }
      { cause := Cause.copyOverlap, faddr := (dst.head?.map fun r => r.base).getD 0 } .fault) ∧
    (copyClash (s.core w.core) w.ctx q dst = false → s.overlapCheck k = s.setWarp k { w with wait := .run })) ∧
  ∀ s w f, s.curWarp = some w →
    let dst := w.getS f.a
    let src := w.getS f.b
    let v := (w.getS f.c).toNat
    let runs (i : Instr) (q : Nat) (kb elem : Bool) (len rows dstr sstr : Nat) : Prop :=
      let l := rowsOf dst src len rows dstr sstr
      (∀ e, moveRows s w.who { elem := elem, kb := kb } l = .error e → Ends i s (s.trap s.cur w.unretire e .fault)) ∧
      (∀ u p, moveRows s w.who { elem := elem, kb := kb } l = .ok (u, p) →
        let x := copyRng dst len rows dstr
        let y := copyRng src len rows sstr
        (len ≠ 0 → x.meets y = true →
          Ends i s (s.trap s.cur w.unretire { cause := Cause.copyOverlap, faddr := dst } .fault)) ∧
        (len ≠ 0 → x.meets y = false → kb = true → (kbDiesOf p).any u.dieBusy = true →
          Ends i s (s.trap s.cur w.unretire { cause := Cause.weightStoreBusy, faddr := dst } .fault)) ∧
        (len ≠ 0 → x.meets y = false → (kb = true → (kbDiesOf p).any u.dieBusy = false) → Submits i s u w (.copy q kb p [x]) f.d) ∧
        (len = 0 → (kb = true → (kbDiesOf p).any u.dieBusy = false) → Submits i s u w (.copy q kb p []) f.d))
    let bad (i : Instr) : Prop := Ends i s (s.trap s.cur w.unretire Trap.operand .fault)
    (2 ^ 32 < v → bad (.copy f)) ∧ (v ≤ 2 ^ 32 → runs (.copy f) f.q.toNat false false v 1 0 0) ∧
    (let len := v % 2 ^ 32
     let rows := v / 2 ^ 32 % 2 ^ 16
     let ok := 1 ≤ len ∧ len ≤ 2 ^ 20 ∧ 1 ≤ rows ∧ v < 2 ^ 48
     (¬ ok → bad (.copy2d f)) ∧
     (ok → runs (.copy2d f) f.q.toNat false true len rows (f.imm64.toNat % 2 ^ 32) (f.imm64.toNat / 2 ^ 32))) ∧
    (w.sys = false →
      Ends (.copykb f) s (s.trap s.cur w.unretire { cause := Cause.illegalInstruction, detail := 10 } .fault)) ∧
    (w.sys = true → (2 ^ 32 < v → bad (.copykb f)) ∧ (v ≤ 2 ^ 32 → runs (.copykb f) f.q.toNat true false v 1 0 0))

/-- gather: alignment of its three addresses, each after the checks of R19 that come before it, then its indices, then its elements in
ascending order (R19, R318; the order of the three is the model's reading, log 33). -/
def Sys2Proof.Machine.GatherIssue : Prop :=
  ∀ s w f, s.curWarp = some w →
    let size := 2 ^ (f.imm20.toNat / 65536)
    let count := f.imm20.toNat % 65536
    let dst := w.getS f.a
    let list := w.getS f.b
    let table := w.getS f.c
    let bad (t : Trap) : Prop := Ends (.gather f) s (s.trap s.cur w.unretire t .fault)
    let misaligned (need : Need) (va : Word) (n : Nat) : Prop :=
      (∀ c, count ≠ 0 → addressFault s w.who need va n = some c → bad { cause := c, elem := true, faddr := va }) ∧
      (count = 0 ∨ addressFault s w.who need va n = none → bad { cause := Cause.alignment, faddr := va })
    (dst.toNat % size ≠ 0 → misaligned .store dst size) ∧
    (dst.toNat % size = 0 → list.toNat % 4 ≠ 0 → misaligned .load list 4) ∧
    (dst.toNat % size = 0 → list.toNat % 4 = 0 → table.toNat % size ≠ 0 → misaligned .load table size) ∧
    (dst.toNat % size = 0 → list.toNat % 4 = 0 → table.toNat % size = 0 → ∀ u idx,
      gatherIndices s w list count = .ok (u, idx) →
      let rows := (countFrom 0 count).map fun i =>
        (i, table + BitVec.ofNat 64 (idx.getD i 0 * size), dst + BitVec.ofNat 64 (i * size), size)
      (∀ e, moveRows u w.who { elem := true, kb := false } rows = .error e →
        Ends (.gather f) s (s.trap s.cur w.unretire e .fault)) ∧
      ∀ x p, moveRows u w.who { elem := true, kb := false } rows = .ok (x, p) →
        Submits (.gather f) s x w (.gather p (if count = 0 then [] else [Rng.flat dst (count * size)])) f.d)

/-- Copies and gathers at issue: the checks, the number, the pieces; what the model chooses or infers is marked in the parts: log
11, 32, 33, 81, 82. -/
def Obligations.TransfersIssue : Prop := CopiesIssue ∧ GatherIssue

/-- The bytes of a copy arrive line by line: a line delivered holds the source's bytes, and a scratchpad line counts one write fewer,
so that its absence ends with the last. The operation completes with its other lines, where its bytes are the source's,
every other byte of memory is unchanged and its number is complete; likewise a gather, whose source is read through the gather path
(R80, R82, R84, R177, R186, R194; that all its other lines move, and their
source is read, in the step that completes it is the model's choice, log 9, and what a failed source delivers its reading,
log 28). -/
def Obligations.CopiesComplete : Prop :=
  let Sound (s : State) (o : MemOp) (l : List Piece) : Prop := s.poison = [] ∧
    (if o.gather then (s.core s.ev.x).gc = [] ∧
        ∀ p ∈ l, (p.skind = .cached ∨ p.skind = .cap) ∧ p.dkind ≠ .uncached ∧ p.src % 128 + p.len ≤ 128
      else (∀ p ∈ l, p.skind ≠ .uncached ∧ p.dkind ≠ .uncached) ∨ ((∀ p ∈ l, p.dkind ≠ .cached ∧ p.dkind ≠ .cap) ∧ s.l2dirty = [])) ∧
    l.Pairwise (fun p q => p.dst + p.len ≤ q.dst ∨ q.dst + q.len ≤ p.dst) ∧
    ∀ p ∈ l, ∀ q ∈ l, p.src + p.len ≤ q.dst ∨ q.dst + q.len ≤ p.src
  (∀ s o, s.movingOp s.ev.x s.ev.y = some o →
    let mine := o.pieces.filter fun p => lineOf p.dst = s.ev.z
    mine ≠ [] → o.mayDeliver s.ev.z = true → (∀ p ∈ mine, s.pieceReady o p = true ∧ p.skind ≠ .reg ∧ p.dkind ≠ .reg ∧ p.skind ≠ .peer ∧ p.dkind ≠ .peer) →
    ∃ t x, Ends .trackedWriteDeliver s t ∧ (t.core s.ev.x).ops[s.ev.y]? = some x ∧ x.num = o.num ∧
      x.pieces = o.pieces.filter (fun p => lineOf p.dst ≠ s.ev.z) ∧ t.warps = s.warps ∧
      (∀ p ∈ mine, p.dkind = .scratch → let x := spCoreLine p.dst
        o.dead.contains x = false → tgetD (t.core x.1).absent x.2 0 = tgetD (s.core x.1).absent x.2 0 - 1) ∧
      (Memory.wf s.mem = true →
        (∀ a, (∀ p ∈ mine, a < p.dst ∨ p.dst + p.len ≤ a) → memRead t.mem a = memRead s.mem a) ∧
        (Sound s o mine → ∀ p ∈ mine, memReadN t.mem p.dst p.len = memReadN s.mem p.src p.len))) ∧
  ∀ i gather, (i, gather) ∈ [(Instr.copyComplete, false), (.gatherComplete, true)] → ∀ s o,
    s.movingOp s.ev.x s.ev.y = some o → o.gather = gather →
    (∀ p ∈ o.pieces, s.pieceReady o p = true ∧ p.dkind ≠ .scratch ∧ p.skind ≠ .reg ∧ p.dkind ≠ .reg ∧ p.skind ≠ .peer ∧
      p.dkind ≠ .peer) →
    ∃ t, Ends i s t ∧ (t.core s.ev.x).ops = (s.core s.ev.x).ops.eraseIdx s.ev.y ∧ t.warps = s.warps ∧
      ((s.tl o.ctx s.ev.x).early = [] → (s.tl o.ctx s.ev.x).doneOf o.tl = BitVec.ofNat 64 o.num - 1 → 0 < o.num →
        o.num < 2 ^ 64 → (t.tl o.ctx s.ev.x).doneOf o.tl = BitVec.ofNat 64 o.num) ∧
      (Memory.wf s.mem = true →
        (∀ a, (∀ p ∈ o.pieces, a < p.dst ∨ p.dst + p.len ≤ a) → memRead t.mem a = memRead s.mem a) ∧
        (Sound s o o.pieces → ∀ p ∈ o.pieces, memReadN t.mem p.dst p.len = memReadN s.mem p.src p.len))

/-- tlbi in system mode starts an invalidation of its scope, or traps on operands out of range; in user mode every form traps
with subcode 10; tlbisync waits for the warp's own (R76, R233, R319, R320). -/
def Sys2Proof.Machine.TranslationMaintenance : Prop :=
  ∀ s w f, s.curWarp = some w →
    (∀ i ∈ [Instr.tlbiPg f, .tlbiCtx f, .tlbiSr f, .tlbiSys f, .tlbiAll f, .tlbisync f], w.sys = false →
      Ends i s (s.trap s.cur w.unretire { cause := Cause.illegalInstruction, detail := 10 } .fault)) ∧
    (w.sys = true →
      let a := (w.getS f.a).toNat
      let b := (w.getS f.b).toNat
      let c := (w.getS f.c).toNat
      let starts (i : Instr) (sc : InvScope) : Prop := Ends i s { s with invals := s.invals ++
        [{ warp := s.cur, scope := sc, before := none, untagged := false }] }
      let bad (i : Instr) : Prop := Ends i s (s.trap s.cur w.unretire Trap.operand .fault)
      let page := a ≤ 255 ∧ b % 4096 = 0 ∧ c % 4096 = 0 ∧ b + c ≤ 2 ^ 56
      let range := b % 4096 = 0 ∧ c % 4096 = 0 ∧ 2 ^ 64 - 2 ^ 56 ≤ b ∧ b + c ≤ 2 ^ 64
      (page → starts (.tlbiPg f) (.page a (w.getS f.b) c)) ∧ (¬ page → bad (.tlbiPg f)) ∧
      (a ≤ 255 → starts (.tlbiCtx f) (.ctx a)) ∧ (255 < a → bad (.tlbiCtx f)) ∧
      (range → starts (.tlbiSr f) (.sysRange (w.getS f.b) c)) ∧ (¬ range → bad (.tlbiSr f)) ∧
      starts (.tlbiSys f) .sysAll ∧ starts (.tlbiAll f) .all ∧
      ((∀ x ∈ s.invals, x.warp ≠ s.cur) → Ends (.tlbisync f) s s) ∧
      ((∃ x ∈ s.invals, x.warp = s.cur) → Ends (.tlbisync f) s (s.setWarp s.cur { w with wait := .tlbisync })))

/-- An invalidation removes every leaf and table entry of its scope, and completes once every access that began before in the
contexts those served is performed, leaves that an earlier one still under way has removed counted among them (R75, R76; what is awaited is the model's choice, log 69). The walk of a prefetched page
ends with the misses attached to it; the first that waits starts under the root of that moment (R49, R70). -/
def Sys2Proof.Machine.InvalidationsAndWalks : Prop :=
  (∀ s i, s.invals[s.ev.x]? = some i → i.before = none →
    let j := { i with before := some s.nextId, untagged := (s.gleaves ++ s.invals.flatMap Inval.gone).any i.scope.takesUntagged
                      gone := s.gleaves.filter i.scope.takesUntagged }
    ∃ t, Ends .invalidationComplete s t ∧ t.mem = s.mem ∧ t.warps = s.warps ∧
      t.invals = (if s.translated j s.nextId = true then s.invals.set s.ev.x j else s.invals.eraseIdx s.ev.x) ∧
      (∀ g ∈ t.gleaves, i.scope.takesUntagged g = false) ∧
      (∀ p ∈ t.cores, ∀ e ∈ p.2.tlb, i.scope.takesLeaf e = false) ∧ (∀ p ∈ t.quads, ∀ e ∈ p.2.tlb, i.scope.takesLeaf e = false) ∧
      (∀ p ∈ t.dies, ∀ e ∈ p.2.wcache, i.scope.takesEntry e = false) ∧
      ∀ p ∈ t.dies, ∀ x ∈ p.2.walks, x.started = true → j.covers x.ctx = false) ∧
  (∀ s i b, s.invals[s.ev.x]? = some i → i.before = some b → s.translated i b = false →
    Ends .invalidationComplete s { s with invals := s.invals.eraseIdx s.ev.x }) ∧
  (∀ s x, (s.die s.ev.x).walks[s.ev.y]? = some x → x.started = true →
    ∃ t, Ends .walkComplete s t ∧ t.warps = s.warps ∧
      (t.die s.ev.x).walks = (s.die s.ev.x).walks.filter fun y => y.page != x.page) ∧
  ∀ s x, ((s.die s.ev.x).walks.find? fun x => !x.started) = some x → (s.die s.ev.x).running < 512 →
    ∃ t, Ends .walkQueuedStart s t ∧ t = { s with dies := t.dies } ∧
      (t.die s.ev.x).walks = (s.die s.ev.x).walks.map fun y =>
        if y.page = x.page then { y with started := true, root := s.rootOf x.ctx x.va.toNat } else y

/-- Translation maintenance: prefetches, invalidations, walks; what the model chooses or infers is marked in the parts: log 69. -/
def Obligations.TranslationAndInvalidation : Prop := TranslationMaintenance ∧ InvalidationsAndWalks

/-- Barriers: an arrival counts in the barrier's phase and answers that phase; a count that differs from the phase's faults;
the last arrival advances the phase; a wait is over once the phase is past. An arrival behind ordered lanes or releases of its warp is
kept, and its warp goes on, owed the phase (R158, R321, R322; how it is kept is the model's choice, log 4). -/
def Obligations.Barriers : Prop :=
  ∀ s w f c, s.curWarp = some w → tget s.clusters w.cluster = some c →
    let b := f.q.toNat
    let n := f.imm20.toNat
    let x := c.bar b
    let y := { x with arrived := x.arrived + 1, who := s.cur :: x.who, expect := n }
    let done := (0 < n ∧ n ≤ x.arrived + 1) ∨
      (n = 0 ∧ ∀ p ∈ s.warps, p.2.cluster = w.cluster → p.2.status ≠ .exited → p.1 ∈ s.cur :: x.who)
    (∀ i ∈ [Instr.barArrive f, .barSync f], w.det = false → s.unperformed s.cur = false → x.arrived ≠ 0 → x.expect ≠ n →
      Ends i s (s.trap s.cur w.unretire { cause := Cause.barrierCount } .fault)) ∧
    (w.det = false → s.unperformed s.cur = true → ∃ t, Ends (.barArrive f) s t ∧
      t.warp? s.cur = some (w.oweFixed s.nextId f.d.toNat) ∧ t.mem = s.mem ∧ t.clusters = s.clusters ∧
      t.rels = s.rels ++ [{ warp := s.cur, tok := s.nextId, op := .arrive b n f.d.toNat w.ipc }]) ∧
    (w.det = false → s.unperformed s.cur = false → (x.arrived = 0 ∨ x.expect = n) →
      ∃ t c', Ends (.barArrive f) s t ∧ t.warp? s.cur = some (w.setS f.d x.ph) ∧ t.mem = s.mem ∧
        tget t.clusters w.cluster = some c' ∧
        (done → c'.bar b = { arrived := 0, who := [], expect := 0, ph := x.ph + 1 }) ∧ (¬ done → c'.bar b = y) ∧
        ∀ k, k ≠ b → c'.bar k = c.bar k) ∧
    (w.det = false → (x.arrived = 0 ∨ x.expect = n) → x.ph ≠ BitVec.allOnes 64 →
      ∃ t v, Ends (.barSync f) s t ∧ t.warp? s.cur = some v ∧ t.mem = s.mem ∧ v.getS f.d = x.ph ∧
        (done → v.wait = .run) ∧ (¬ done → v.wait = .bar b x.ph)) ∧
    (∀ i sync, (i, sync) ∈ [(Instr.barArrive f, false), (.barSync f, true)] → w.det = true →
      Ends i s (s.setWarp s.cur { w with held := w.held ++ [.barArrive sync b n f.d.toNat w.ipc], qend := true })) ∧
    (w.getS f.a < x.ph → ∃ t, Ends (.barWait f) s t ∧
      t.warp? s.cur = some { w with wait := .run, qend := w.det || w.qend } ∧ (t.core w.core).l1 = [] ∧ t.mem = s.mem) ∧
    (¬ w.getS f.a < x.ph →
      Ends (.barWait f) s (s.setWarp s.cur { w with wait := .bar b (w.getS f.a), qend := w.det || w.qend }))

/-- coll: a descriptor within the limits of R325, its ranges translated and apart, joins the commands of its group and
sequence number (R325, R326). -/
def Sys2Proof.Machine.CollectivesIssue : Prop :=
  ∀ s w f u b, s.curWarp = some w → readIssue s w (w.getS f.a) 128 128 = .ok (u, b) →
    let c := parseColl w b
    (collOk c b = false → Ends (.coll f) s (s.trap s.cur w.unretire Trap.operand .fault)) ∧
    (collOk c b = true → ∀ u1 src u2 dst, collRange u w.who .load c.srcVa c.srcLen = .ok (u1, src) →
      collRange u1 w.who .store c.dstVa c.dstLen = .ok (u2, dst) →
      let meet := decide (c.srcLen ≠ 0) && decide (c.dstLen ≠ 0) && !(decide (c.op ≤ 1) && c.srcVa == c.dstVa)
        && (Rng.flat c.srcVa c.srcLen).meets (Rng.flat c.dstVa c.dstLen)
      (meet = true → Ends (.coll f) s (s.trap s.cur w.unretire { cause := Cause.copyOverlap, faddr := c.dstVa } .fault)) ∧
      (meet = false → Submits (.coll f) s u2 w (.coll { c with src := src, dst := dst }) f.d))

namespace Sys2Proof.Machine

/-- The bytes of a participant's source: a remote one's as they came, else memory's at its places. -/
def sourceBytes (s : State) (c : CollCmd) : List Byte :=
  match c.remote with
  | some b => b
  | none => c.src.flatMap fun x => memReadN s.mem x.pa x.len

/-- Element e of rank r's source, of participants l. -/
def collCode (s : State) (l : List CollCmd) (r e : Nat) : Nat :=
  match l.find? fun c => c.rank = r with
  | some c => bytesNat (((sourceBytes s c).drop (e * c.elem)).take c.elem)
  | none => 0

/-- What a participant's destination receives (R257, R258, R326): under OP 0 and 1 the exact sum over all ranks of each element,
rounded once; under OP 2 the root's elements; under OP 3 every rank's elements in ascending rank. -/
def collDelivers (s : State) (l : List CollCmd) (c : CollCmd) : List Nat :=
  if c.op ≤ 1 then
    (List.range c.count).map fun e =>
      let m := RMode.ofSlot c.rnd
      narrow (fmtOf c.fmt) { mode := m, sat := false, u := 0 }
        (sumF (decide (m = .rdn)) ((List.range c.npart).map fun r => decodeF (fmtOf c.fmt) (collCode s l r e)))
  else if c.op = 2 then (List.range c.count).map fun e => collCode s l c.root e
  else (List.range c.npart).flatMap fun r => (List.range c.count).map fun e => collCode s l r e

end Sys2Proof.Machine

/-- A collective runs once at least as many commands as it has ranks have been issued (that more may have is the model's choice,
log 35); its completion ends every participant's command and completes its number, writes each destination what R326 gives it under
its OP, and no byte outside the destinations changes; commands that disagree write nothing (R199, R257, R258, R326). -/
def Sys2Proof.Machine.CollectivesComplete : Prop :=
  (∀ s a, (s.collOf s.ev.v s.ev.g).head? = some a → a.npart ≤ (s.collOf s.ev.v s.ev.g).length →
    (s.ev.v, s.ev.g) ∉ s.matched → Ends .collectiveMatch s { s with matched := s.matched ++ [(s.ev.v, s.ev.g)] }) ∧
  ∀ s, (s.ev.v, s.ev.g) ∈ s.matched → s.collOf s.ev.v s.ev.g ≠ [] →
    let l := s.collOf s.ev.v s.ev.g
    let runs := l.flatMap fun c => c.dst
    (∀ c ∈ l,
      (c.remote.isSome = true ∨
        s.advances c.ctx .collective = true ∧ s.gated c.warp c.tok = false ∧ s.owedIn c.seqNo c.src = false) ∧
      ∀ x ∈ c.dst, x.kind ≠ .reg ∧ x.kind ≠ .peer) →
    ∃ t, Ends .collectiveComplete s t ∧ t.collOf s.ev.v s.ev.g = [] ∧ (s.ev.v, s.ev.g) ∉ t.matched ∧ t.warps = s.warps ∧
      (collAgree l = false → t.mem = s.mem) ∧
      (∀ c ∈ l, c.remote = none → (∀ d ∈ l, d.remote = none → d.ctx = c.ctx → d.core = c.core → d = c) →
        NumberDone s t c.ctx c.core 9 c.num) ∧
      (Memory.wf s.mem = true →
        (∀ a, (∀ x ∈ runs, a < x.pa ∨ x.pa + x.len ≤ a) → memRead t.mem a = memRead s.mem a) ∧
        (collAgree l = true → s.poison = [] →
          (∀ c ∈ l, ∀ x ∈ c.src ++ c.dst, x.kind = .cached ∨ x.kind = .cap ∨ x.kind = .scratch) →
          runs.Pairwise (fun x y => x.pa + x.len ≤ y.pa ∨ y.pa + y.len ≤ x.pa) →
          ∀ c ∈ l, let b := (collDelivers s l c).flatMap (natBytes c.elem)
            c.dst ≠ [] → (c.dst.map Xlat.len).sum = b.length →
            (c.dst.flatMap fun x => memReadN t.mem x.pa x.len) = b))

/-- Collectives: issue, matching and completion; what the model chooses or infers is marked in the parts: log 35. -/
def Obligations.Collectives : Prop := CollectivesIssue ∧ CollectivesComplete

/-- A refused command is tried again once its engine has room, and is then accepted under the next number of its counter
(R177, R187). One whose check at issue fails there faults: a contraction's shape and, where its set's depth has changed, its bytes,
which are then translated anew; the plane's owner and the wear of its lines (R340, R341, R402, R404). In a deterministic launch the
commit tries it. -/
def Obligations.RefusedCommands : Prop :=
  (∀ s w c, s.warp? s.ev.x = some w → w.wait = .refused c → w.det = false → hasRoom s s.ev.x w c.body = true →
    let fails (i : Instr) (t : Trap) : Prop := Ends i s (s.trap s.ev.x { w.unretire with wait := .run } t .fault)
    (∀ x, c.body = .plane x → s.ownsPlane w = false → fails .planeQueueRetry { cause := Cause.planeAccess }) ∧
    (∀ x t, c.body = .plane x → s.ownsPlane w = true → wearTrap s s.ev.x w x = some t → fails .planeQueueRetry t) ∧
    (∀ o set fa fg a g x y r z j n p sh xl, c.body = .cube (.mac o set fa fg a g x y r z j n) p sh xl →
      let planes := planesOf s w o set fa fg a g x y r n
      (shapeOk sh o fa fg (setAhead s w set) = false → fails .matrixQueueRetry { cause := Cause.shape }) ∧
      (shapeOk sh o fa fg (setAhead s w set) = true → (xl.map Xlat.len).sum ≠ bytesOf planes →
        (∀ t, cubePlaces s w.who planes = .error (.trap t) → fails .matrixQueueRetry t) ∧
        ∀ u yl, cubePlaces s w.who planes = .ok (u, yl) → (u.core w.core).cq.length < 16 →
          ∃ t e, Ends .matrixQueueRetry s t ∧ (t.core w.core).cq = (u.core w.core).cq ++ [e] ∧ e.xl = yl ∧
            e.cmd = .mac o set fa fg a g x y r z j n ∧ e.num = ((u.tl w.ctx w.core).issuedOf 5 + 1).toNat))) ∧
  ∀ i mine, (i, mine) ∈ ([(.copyRetry, fun | .copy .. => true | _ => false), (.krunRetry, fun | .krun _ => true | _ => false),
      (.matrixQueueRetry, fun | .cube .. => true | _ => false), (.planeQueueRetry, fun | .plane _ => true | _ => false),
      (.tmodeRetry, fun | .tmode _ => true | _ => false), (.glaunchRetry, fun | .glaunch _ => true | _ => false)]
      : List (Instr × (CmdBody → Bool))) →
    ∀ s w c, s.warp? s.ev.x = some w → w.wait = .refused c → w.det = false → mine c.body = true → Clashes s w c.body = false →
    c.body.kbDies.any s.dieBusy = false → (∀ x, c.body = .tmode x → tmodeOk s s.ev.x w x = true) →
    (∀ x, c.body = .plane x → s.ownsPlane w = true ∧ wearTrap s s.ev.x w x = none) →
    (∀ o set fa fg a g x y r z j n p sh xl, c.body = .cube (.mac o set fa fg a g x y r z j n) p sh xl →
      shapeOk sh o fa fg (setAhead s w set) = true ∧ (xl.map Xlat.len).sum = bytesOf (planesOf s w o set fa fg a g x y r n)) → hasRoom s s.ev.x w c.body = true → s.guardHits w.ctx w.core c.body.guarded = [] →
    ∃ t v, Ends i s t ∧ t.warp? s.ev.x = some v ∧ v.wait = .run ∧ v.s = w.s ∧ v.v = w.v ∧ t.mem = s.mem ∧
      (match c.body with
       | .glaunch _ => (t.ctx w.ctx).grids = (s.ctx w.ctx).grids + 1
       | .tmode x => v.tmode = parseTmode x
       | b => (t.tl w.ctx w.core).issuedOf b.counter = (s.tl w.ctx w.core).issuedOf b.counter + 1 ∧
              Queued s t w s.ev.x c ((s.tl w.ctx w.core).issuedOf b.counter + 1).toNat)

/-! ## Kiosk units -/

namespace Sys2Proof.Machine

/-- The ranges of a launch translated in order: program, source, parameters, destination, record (R129). -/
def runRanges (u : State) (wh : Who) (b : List Byte) (u' : State) (prog src param dst recd : List Xlat) : Prop :=
  ∃ u1 u2 u3 u4, runRange u wh .load (BitVec.ofNat 64 (fieldB b 0 8)) (8 * fieldB b 8 4) (fun _ => true) = .ok (u1, prog) ∧
    runRange u1 wh .load (BitVec.ofNat 64 (fieldB b 0x10 8)) (fieldB b 0x18 8) sourceOk = .ok (u2, src) ∧
    runRange u2 wh .load (BitVec.ofNat 64 (fieldB b 0x20 8)) 1024 (fun _ => true) = .ok (u3, param) ∧
    runRange u3 wh .store (BitVec.ofNat 64 (fieldB b 0x28 8)) (fieldB b 0x30 8) memoryPlaces = .ok (u4, dst) ∧
    runRange u4 wh .store (BitVec.ofNat 64 (fieldB b 0x38 8)) 32 memoryPlaces = .ok (u', recd)

/-- The run that a Kiosk executes becomes another, one instruction later; nothing else changes. -/
def RunBecomes (i : Instr) (s : State) (r q : KState) : Prop :=
  Ends i s (s.setKiosk s.kcur { s.kiosk s.kcur with run := some { q with retired := r.retired + 1 } })

/-- The run ends: the Kiosk is free, its rows closed, and the record written says why and where (R133); a record's place is
memory (R129). -/
def RunEnds (i : Instr) (s : State) (r : KState) (status stop retired : Nat) : Prop :=
  (∀ x ∈ r.run.recd, x.kind ≠ .reg) → ∃ t, Ends i s t ∧ (t.kiosk s.kcur).run = none ∧ (t.kiosk s.kcur).openRow = [] ∧ (t.kiosk s.kcur).waiting = [] ∧
    t.warps = s.warps ∧
    ((s.tl r.run.ctx r.run.core).early = [] → 0 < r.run.num → r.run.num < 2 ^ 64 →
      (s.tl r.run.ctx r.run.core).doneOf 8 = BitVec.ofNat 64 r.run.num - 1 →
      (t.tl r.run.ctx r.run.core).doneOf 8 = BitVec.ofNat 64 r.run.num) ∧
    ∀ pa, r.run.recd = [{ va := r.run.recVa, pa := pa, kind := .cached, len := 32 }] → r.run.recVa.toNat % 32 = 0 →
      (s.kiosk s.kcur).waiting = [] → Memory.wf s.mem = true →
      memReadN t.mem pa 32 = natBytes 4 status
        ++ natBytes 4 ((if r.dataErr then 1 else 0) + (if r.preempted then 2 else 0))
        ++ natBytes 4 stop ++ natBytes 4 r.derr ++ natBytes 8 retired ++ natBytes 8 0

/-- A write of k0 to k3 by the lanes of the current masks (R125). -/
def WritesK (i : FmtA → Instr) (v : KState → FmtA → Nat → W32) : Prop :=
  ∀ s r f, (s.kiosk s.kcur).run = some r → f.d.toNat < 4 → ∃ q, RunBecomes (i f) s r q ∧ q = { r with k := q.k } ∧
    (∀ e, e < 512 → tgetD (q.kreg f.d.toNat) e 0 =
      if (r.mask (e / 32)).getLsbD (e % 32) then v r f e else tgetD (r.kreg f.d.toNat) e 0) ∧
    ∀ j, j < 4 → j ≠ f.d.toNat → q.kreg j = r.kreg j

/-- A source's value in one lane position. -/
def kA (r : KState) (f : FmtA) (e : Nat) : FVal := f32Val (r.src f.a f.modA .f32 e)
def kB (r : KState) (f : FmtA) (e : Nat) : FVal := f32Val (r.srcB f e)
def kC (r : KState) (f : FmtA) (e : Nat) : FVal := f32Val (r.src f.c f.modC .f32 e)
/-- Rounded once, a subnormal result the zero of its sign (R124). -/
def kRound (v : FVal) : W32 := flush32 (BitVec.ofNat 32 (narrow (fmtOf .f32) rne v))

end Sys2Proof.Machine

/-- krun: a descriptor within the limits, its ranges in order, then the run queued on the channel of its source; krd answers
the state, channel and place of a numbered run (R128 to R130, R323, R324). -/
def Obligations.KioskLaunchAndStatus : Prop :=
  (∀ s w f u b, s.curWarp = some w → readIssue s w (w.getS f.a) 128 128 = .ok (u, b) →
    (runOk b = false → Ends (.krun f) s (s.trap s.cur w.unretire { cause := Cause.kioskRange } .fault)) ∧
    (runOk b = true → ∀ u' prog src param dst recd u'' desc, runRanges u w.who b u' prog src param dst recd →
      resolveRange u' w.who .load (w.getS f.a) 128 = .ok (u'', desc) →
      let pa := (src.head?.map fun x => x.pa).getD 0
      Submits (.krun f) s u'' w (.krun { parseRun w b with
        ch := (pa - capBase) / 2 ^ 36, prog := prog, src := pa - (capBase + (pa - capBase) / 2 ^ 36 * 2 ^ 36), param := param
        dst := dst, recd := recd, desc := desc }) f.d)) ∧
  ∀ s w f, s.curWarp = some w → ∃ v x, Ends (.krd f) s (s.setWarp s.cur v) ∧
    Adds w v { tok := 0, flag := w.clause.fa, ready := true, writes := [.s f.d.toNat x] } ∧
    let n := w.getS f.a
    let t := s.tl w.ctx w.core
    let ch := tgetD t.kch n.toNat 0
    let q := s.kiosk ch
    let word (st pos : Nat) : Word := BitVec.ofNat 64 (st + ch * 256 + pos * 65536)
    (n = 0 ∨ t.issuedOf 8 < n → x = 0) ∧
    (n ≠ 0 → n ≤ t.issuedOf 8 → n ≤ t.doneOf 8 → x = word 4 0) ∧
    (n ≠ 0 → n ≤ t.issuedOf 8 → t.doneOf 8 < n → (8, n.toNat) ∉ t.dropped →
      (∀ i, q.queue.findIdx? (fun r => r.named w.ctx w.core n.toNat) = some i → x = word 1 i) ∧
      (q.queue.findIdx? (fun r => r.named w.ctx w.core n.toNat) = none → ∀ r, q.run = some r →
        r.run.named w.ctx w.core n.toNat = true → x = word (if r.paused then 3 else 2) 0))

/-- The vector instructions of a Kiosk: FP32 in 512 lane positions under the current masks, each result rounded once and a
subnormal one flushed; kvmov copies bits (R123 to R125). -/
def Sys2Proof.Machine.KioskVectors : Prop :=
  WritesK .kioskVadd (fun r f e => kRound (sumF false [kA r f e, kB r f e])) ∧
  WritesK .kioskVsub (fun r f e => kRound (sumF false [kA r f e, (kB r f e).neg])) ∧
  WritesK .kioskVmul (fun r f e => kRound (mulF (kA r f e) (kB r f e))) ∧
  WritesK .kioskVfma (fun r f e => kRound (sumF false [mulF (kA r f e) (kB r f e), kC r f e])) ∧
  WritesK .kioskVmax (fun r f e => kRound (pickF true (kA r f e) (kB r f e))) ∧
  WritesK .kioskVmin (fun r f e => kRound (pickF false (kA r f e) (kB r f e))) ∧
  WritesK .kioskVmov (fun r f e => r.src f.a f.modA .b32 e)

/-- The scalars of a Kiosk, its branches to words that begin an instruction of its program, and its end (R123, R133). That RETIRED
counts the exit, and that STOPPC at the program's end is the word past it, is the model's reading, log 34; that a long instruction
whose second word lies past the end ends the run with status 1, log 70; that a branch may carry a hint, log 78. -/
def Sys2Proof.Machine.KioskScalarsAndBranches : Prop :=
  ∀ s r, (s.kiosk s.kcur).run = some r →
    (∀ f, let x := numberOf f.dt (r.getS f.a)
      let y := numberOf f.dt (if f.i then immA f else r.getS f.b)
      RunBecomes (.kioskAdd f) s r (r.setS f.d (wordOf f.dt (x + y))) ∧
      RunBecomes (.kioskSub f) s r (r.setS f.d (wordOf f.dt (x - y))) ∧
      RunBecomes (.kioskSetc f) s r (r.setS f.d (wordOf f.dt (if compareI (ccOf f.cc) x y then 1 else 0))) ∧
      RunBecomes (.kioskMovi f) s r (r.setS f.d (wordOf f.dt y)) ∧
      RunEnds (.kioskExit f) s r 0 (r.pc - if f.long then 2 else 1) (r.retired + 1)) ∧
    (∀ f : FmtBR, let target : Int := (r.pc : Int) - 1 + f.ofs.toInt
      let lands := 0 ≤ target ∧ target.toNat ∈ runStarts r.prog.length 0 r.prog
      let taken := compareI (ccOf f.cc) (r.getS f.s).toInt 0 = true
      (lands → RunBecomes (.kioskBra f) s r { r with pc := target.toNat }) ∧
      (¬ lands → RunEnds (.kioskBra f) s r 2 (r.pc - 1) r.retired) ∧
      (¬ taken → RunBecomes (.kioskBrs f) s r r) ∧
      (taken → lands → RunBecomes (.kioskBrs f) s r { r with pc := target.toNat }) ∧
      (taken → ¬ lands → RunEnds (.kioskBrs f) s r 2 (r.pc - 1) r.retired)) ∧
    (r.pc < r.prog.length → RunEnds .kioskIllegalInstruction s r 1 r.pc r.retired) ∧
    (r.prog.length ≤ r.pc → RunEnds .kioskIllegalInstruction s r 3 r.pc r.retired)

/-- A Kiosk's vector and scalar instructions and branches; what the model chooses or infers is marked in the parts: log 34, 70, 78. -/
def Obligations.KioskArithmetic : Prop := KioskVectors ∧ KioskScalarsAndBranches

/-- kpush narrows every bank's mask by a condition and keeps the old ones, at most four deep; kelse takes the other lanes of
the kept masks; kpop brings them back (R126, R327). -/
def Sys2Proof.Machine.KioskMasks : Prop :=
  ∀ s r f, (s.kiosk s.kcur).run = some r →
    (r.mstack.length = 4 → RunEnds (.kpush f) s r 4 (r.pc - if f.long then 2 else 1) r.retired) ∧
    (r.mstack.length ≠ 4 → ∃ q, RunBecomes (.kpush f) s r q ∧ q = { r with masks := q.masks, mstack := r.masks :: r.mstack } ∧
      ∀ e, e < 512 → (q.mask (e / 32)).getLsbD (e % 32) = ((r.mask (e / 32)).getLsbD (e % 32) &&
        compareF (ccOf f.cc) (valueOf .f32 (r.src f.a f.modA .f32 e).toNat) (valueOf .f32 (r.src f.b f.modB .f32 e).toNat))) ∧
    (r.mstack = [] → RunEnds (.kelse f) s r 5 (r.pc - if f.long then 2 else 1) r.retired ∧
      RunEnds (.kpop f) s r 5 (r.pc - if f.long then 2 else 1) r.retired) ∧
    ∀ top rest, r.mstack = top :: rest → RunBecomes (.kpop f) s r { r with masks := top, mstack := rest } ∧
      ∃ q, RunBecomes (.kelse f) s r q ∧ q = { r with masks := q.masks } ∧
        ∀ b, b < 16 → q.mask b = top.get ⟨b % 16, Nat.mod_lt _ (by decide)⟩ &&& ~~~(r.mask b)

/-- kread writes 512 elements of its type, BF16 ones rounded and flushed, at its offset in the destination range, or ends the
run beyond it; a column read fills c with a column's BF16 elements widened, from the row it opens in every bank (R124, R127,
R131, R134, R328). -/
def Sys2Proof.Machine.KioskReads : Prop :=
  (∀ s r f, (s.kiosk s.kcur).run = some r →
    let off : Int := if f.i then (immA f).toInt else ((r.getS f.b).toNat : Int)
    let size : Int := (f.dt.width / 8 : Nat)
    let bad := off < 0 ∨ off % size ≠ 0 ∨ (r.run.dlen : Int) < off + 512 * size
    (bad → RunEnds (.kread f) s r 7 (r.pc - if f.long then 2 else 1) r.retired) ∧
    (¬ bad → ∃ t, Ends (.kread f) s t ∧ (t.kiosk s.kcur).run = some { r with retired := r.retired + 1 } ∧
      ∀ pa len, r.run.dst = [{ va := r.run.dstVa, pa := pa, kind := .cached, len := len }] → (f.dt = .bf16 ∨ f.dt = .f32) →
        r.run.dstVa.toNat + r.run.dlen < 2 ^ 64 → r.run.dlen ≤ len → Memory.wf s.mem = true →
        let bytes := f.dt.width / 8
        (∀ e, e < 512 → memReadN t.mem (pa + off.toNat + bytes * e) bytes = natBytes bytes
          (let x := tgetD (r.kreg f.a.toNat) e 0
           if f.dt = .bf16 then
             (let y := narrow (fmtOf .bf16) rne (f32Val x)
              if y / 2 ^ 7 % 2 ^ 8 = 0 then y / 2 ^ 15 * 2 ^ 15 else y)
           else x.toNat)) ∧
        ∀ a, (a < pa + off.toNat ∨ pa + off.toNat + 512 * bytes ≤ a) → memRead t.mem a = memRead s.mem a)) ∧
  ∀ s r f, (s.kiosk s.kcur).run = some r →
    let stripe := (r.getS f.b).toNat
    let off := r.run.src + stripe * 32768 + (r.getS f.a).toNat % 32 * 64
    (r.run.slen / 32768 ≤ stripe → RunEnds (.kioskColumnRead f) s r 6 (r.pc - 1) r.retired) ∧
    (stripe < r.run.slen / 32768 → (s.kiosk s.kcur).waiting = [] → s.poison = [] →
      ∃ t q, Ends (.kioskColumnRead f) s t ∧ (t.kiosk s.kcur).run = some q ∧ t.mem = s.mem ∧ t.warps = s.warps ∧
        q = { r with c := q.c, retired := r.retired + 1, derr := min (2 ^ 32 - 1) r.derr } ∧
        (∀ b, b < 16 → tget (t.kiosk s.kcur).openRow b = some (rowOf (off + b * 2048))) ∧
        ∀ e, e < 512 → tgetD q.c e 0 = flush32 (BitVec.ofNat 32 (narrow (fmtOf .f32) rne (decodeF (fmtOf .bf16)
          (bytesNat (s.dramRead (capBase + s.kcur * 2 ^ 36 + off + e / 32 * 2048 + e % 32 * 2) 2))))))

/-- A Kiosk's lane masks and its reads. -/
def Obligations.KioskLanes : Prop := KioskMasks ∧ KioskReads

/-- A free Kiosk continues its earliest saved run, or starts the first queued run that may advance, with its parameters and
scalars; pauses count and name their cause, and postponed refreshes are issued in them; an ordinary access to another row of
an open bank waits (R130, R131, R135 to R139). A refresh that falls due while a run executes, also between its instructions or in one
that is not all-bank, is postponed up to the allowance and then pauses the run: the model's choice, log 70. -/
def Obligations.KioskEvents : Prop :=
  ∀ s, let k := s.kiosk s.ev.x
    (k.run = none → ∀ i r, k.saved.findIdx? (fun r => s.advances r.run.ctx .kiosk) = some i → k.saved[i]? = some r →
      ∃ t q, Ends .kioskRunStart s t ∧ t.mem = s.mem ∧ (t.kiosk s.ev.x).run = some q ∧
        q = { r with prog := s.loadProg r.run, paused := false } ∧ (t.kiosk s.ev.x).saved = k.saved.eraseIdx i) ∧
    (k.run = none → (∀ r ∈ k.saved, s.advances r.run.ctx .kiosk = false) → ∀ i r,
      k.queue.findIdx? (fun r => s.advances r.ctx .kiosk) = some i → k.queue[i]? = some r →
      s.owedIn r.seq (r.prog ++ r.param ++ r.desc) = false → s.gated r.warp r.tok = false →
      ∃ t q, Ends .kioskRunStart s t ∧ t.mem = s.mem ∧ (t.kiosk s.ev.x).run = some q ∧
        (t.kiosk s.ev.x).queue = k.queue.eraseIdx i ∧ q.run = r ∧ q.pc = 0 ∧ q.mstack = [] ∧ (∀ b, b < 16 → q.mask b = 0xFFFFFFFF) ∧
        (∀ j, j < 8 → q.getS (BitVec.ofNat 6 j) =
          BitVec.ofNat 64 (fieldB ((engineRead s r.desc).map Prod.fst) (0x40 + 8 * j) 8)) ∧
        (∀ j l, j < 8 → l < 32 → q.elem (BitVec.ofNat 6 (4 + j)) l =
          flush32 (BitVec.ofNat 32 (fieldB ((engineRead s r.param).map Prod.fst) ((j * 32 + l) * 4) 4))) ∧
        q.prog.length = r.plen) ∧
    (∀ i cause, (i, cause) ∈ ([(.kioskRefreshPause, 1), (.kioskRowLimit, 4)] : List (Instr × BitVec 4)) → ∀ r, k.run = some r →
      (i = .kioskRefreshPause → ∃ p ∈ k.postponed, Config.allow.toNat ≤ p.2) → (i = .kioskRowLimit → k.openRow ≠ []) →
      Ends i s (s.setKiosk s.ev.x { k with pauses := k.pauses + 1, cause := cause, postponed := []
                                           run := some { r with paused := true } })) ∧
    (k.waiting ≠ [] → ∃ t, Ends .kioskAccessWaitTimeout s t ∧ (t.kiosk s.ev.x).waiting = [] ∧ t.warps = s.warps ∧
      ∀ r, k.run = some r → (t.kiosk s.ev.x).run = some { r with paused := true } ∧ (t.kiosk s.ev.x).cause = 2 ∧
        (t.kiosk s.ev.x).pauses = k.pauses + 1) ∧
    (∀ row, tget k.openRow (bankOf s.ev.y) = some row → row ≠ rowOf s.ev.y →
      Ends .kioskOpenRowAccess s (s.setKiosk s.ev.x { k with waiting := k.waiting ++ [(s.ev.y, s.ev.wr)] })) ∧
    (∀ row, tget k.openRow (bankOf s.ev.y) = some row → row = rowOf s.ev.y →
      ∃ t, Ends .kioskOpenRowAccess s t ∧ t.kiosks = s.kiosks ∧ t.warps = s.warps ∧ (s.ev.wr = none → t = s)) ∧
    (∀ r, k.run = some r → r.paused = false → Config.allow.toNat ≤ tgetD k.postponed (s.ev.y % 16) 0 →
      Ends .bankRefreshDue s (s.setKiosk s.ev.x { k with pauses := k.pauses + 1, cause := 1, postponed := []
                                                         run := some { r with paused := true } })) ∧
    (∀ r, k.run = some r → r.paused = false → tgetD k.postponed (s.ev.y % 16) 0 < Config.allow.toNat →
      ∃ t, Ends .bankRefreshDue s t ∧
      tgetD (t.kiosk s.ev.x).postponed (s.ev.y % 16) 0 = tgetD k.postponed (s.ev.y % 16) 0 + 1 ∧
      (t.kiosk s.ev.x).run = some r ∧ t.mem = s.mem) ∧
    (k.run = none → Ends .bankRefreshDue s s)

/-! ## The cube array -/

namespace Sys2Proof.Machine

/-- Steps 3 and 4 of R341 over the operand planes of a command: (alignment, base, rows) each. -/
def planesAt (s : State) (wh : Who) (planes : List (Nat × Word × List (Word × Nat))) : Except Halt (State × List Xlat) :=
  foldE (fun (a : State × List Xlat) p =>
    match cubeRows a.1 wh p.1 p.2.1 p.2.2 with
    | .error h => Except.error h
    | .ok (s, l) => .ok (s, a.2 ++ l)) (s, []) planes

/-- A cube command whose operands lie in those planes: translated and admitted, it goes to the matrix queue; else the first
failing step's fault (R341, R342). -/
def CubeIssues (i : Instr) (s : State) (w : Warp) (f : FmtE) (cmd : CubeCmd) (planes : List (Nat × Word × List (Word × Nat))) :
    Prop :=
  (∀ t, planesAt s w.who planes = .error (.trap t) → Ends i s (s.trap s.cur w.unretire t .fault)) ∧
  ∀ u xl, planesAt s w.who planes = .ok (u, xl) →
    ((∀ x ∈ xl, sourceFault w.who x = none) → Submits i s u w (.cube cmd f.prio.toNat w.ashape xl) f.d) ∧
    (∀ x c, xl.find? (fun x => (sourceFault w.who x).isSome) = some x → sourceFault w.who x = some c →
      Ends i s (s.trap s.cur w.unretire { cause := c, faddr := x.va } .fault))

/-- The trap of a warp's instruction in turn. -/
def Faults (i : Instr) (s : State) (w : Warp) (t : Trap) : Prop := Ends i s (s.trap s.cur w.unretire t .fault)

/-- The places of a command's operands hold memory that the tile path reads afresh, with no error. -/
def Plain (s : State) (n : Nat) (e : CubeEnt) : Prop :=
  s.poison = [] ∧ (s.core n).tc = [] ∧ ∀ x ∈ e.xl, x.kind ≠ .reg ∧ x.va.toNat % 128 = x.pa % 128

/-- The bytes at a command's operand address, as their home holds them. -/
def bytesAt (s : State) (xl : List Xlat) (va : Word) (len : Nat) : List Byte :=
  (placesAt xl va len).flatMap fun x => s.homeRead x.kind x.pa x.len

/-- The code of element i of a run of bytes. -/
def codeAt (size i : Nat) (b : List Byte) : Nat := bytesNat ((b.drop (i * size)).take size)

/-- One cell through a k-step (R253, R254, R331, R357): of each of n groups of 8f values of k the exact sum of the triple products,
rounded to odd, then the exact sum of those and the accumulator, rounded once. -/
def cellAfter (m : RMode) (n f t : Nat) (prod : Nat → FVal) (acc : W32) : W32 :=
  let down := decide (m = .rdn)
  let w := (List.range n).map fun q =>
    roundOdd (sumF down ((List.range (8 * f)).map fun j => prod (t * (8 * n * f) + q * (8 * f) + j)))
  BitVec.ofNat 32 (narrow (fmtOf .f32) { mode := m, sat := false, u := 0 } (sumF down (w ++ [decodeF (fmtOf .f32) acc.toNat])))

/-- The elements of a plane of k rows of 32 as memory holds them, each row at its stride. -/
def PlaneFrom (s : State) (xl : List Xlat) (fmt : DT) (k : Nat) (src : Word) (stride : Nat) (p : Plane) : Prop :=
  p.fmt = fmt ∧ p.k = k ∧ ∀ r c, r < k → c < 32 →
    p.elems.getD (r * 32 + c) 0 =
      codeAt (elemSize fmt) c (bytesAt s xl (src + BitVec.ofNat 64 (r * stride)) (elemSize fmt * 32))

/-- The same of a q4 plane: column j's blocks of 17 bytes at its stride, the codes and the scale bytes. -/
def PlaneFromQ4 (s : State) (xl : List Xlat) (k : Nat) (src : Word) (stride : Nat) (p : Plane) : Prop :=
  let block (j b : Nat) : List Byte := bytesAt s xl (src + BitVec.ofNat 64 (j * stride + b * 17)) 17
  p.fmt = .q4 ∧ p.k = k ∧ (∀ j b, j < 32 → b < k / 32 → p.scales.getD (j * (k / 32) + b) 0 = ((block j b).getD 0 0).toNat) ∧
  ∀ i j, i < k → k % 32 = 0 → j < 32 → p.elems.getD (i * 32 + j) 0 =
    ((block j (i / 32)).getD (1 + i % 32 / 2) 0).toNat / 2 ^ (4 * (i % 2)) % 16

/-- A B-class instruction completes at once with a scalar. -/
def GivesB (i : Instr) (s u : State) (w : Warp) (d : BitVec 6) (x : Word) : Prop :=
  ∃ v, Ends i s (u.setWarp s.cur v) ∧ Adds w v { tok := 0, flag := w.clause.fb, ready := true, writes := [.s d.toNat x] }

end Sys2Proof.Machine

/-- cldb, cldg, cldk: operands within their limits, rows at their stride, then the matrix queue; q4 columns as runs of
17-byte blocks (R335, R341, R342, R355). -/
def Sys2Proof.Machine.CubeLoads : Prop :=
  ∀ s w f, s.curWarp = some w →
    let fmt := (lFmt f).getD .bf16
    let k := lK f
    let size := if fmt = .q4 then 1 else fmt.width / 8
    let src := w.getS f.a
    let stride := (w.getS f.b).toNat
    let ok := stride < 2 ^ 20 ∧ stride % size = 0 ∧ src.toNat % size = 0
    let lines (n len : Nat) : List (Word × Nat) := (countFrom 0 n).map fun i => (src + BitVec.ofNat 64 (i * stride), len)
    let scale := if lWS f then some (w.getS f.c) else none
    (¬ ok → Faults (.cldb f) s w Trap.operand ∧ Faults (.cldg f) s w Trap.operand) ∧
    (ok → CubeIssues (.cldb f) s w f (.ldb (lSet f) fmt k src stride scale)
        ((size, src, if fmt = .q4 then lines 32 (k / 32 * 17) else lines k (32 * size))
          :: (if lWS f then [(1, w.getS f.c, [(w.getS f.c, 32)])] else [])) ∧
      CubeIssues (.cldg f) s w f (.ldg (lSet f) fmt k src stride) [(size, src, lines k (32 * size))]) ∧
    (src.toNat % size ≠ 0 → Faults (.cldk f) s w Trap.operand) ∧
    (src.toNat % size = 0 → CubeIssues (.cldk f) s w f (.ldk (lSet f) fmt k src) [(size, src, [(src, k * size)])])

/-- cmac3 and cmac: the shape legality table against the sets as the queue will leave them, the operand planes, then the
matrix queue (R333, R340, R341, R345, R356). -/
def Sys2Proof.Machine.CubeContractions : Prop :=
  ∀ s w f i ori, s.curWarp = some w →
    ((i = .cmac f ∧ ori = .none) ∨ (i = .cmac3 f ∧ ori = match mOri f with | 0 => .ik | 1 => .kj | _ => .k)) →
    let fa := (mFA f).getD .bf16
    let fg := (mFG f).getD .bf16
    let v := setAhead s w (mSet f)
    let k := (v.b.map Prod.snd).getD 0
    let m := 32 * mNT f
    let len (t : DT) : Nat := if t = .q4 then k / 32 * 17 else k * (t.width / 8)
    let size (t : DT) : Nat := if t = .q4 then 1 else t.width / 8
    let lines (base : Word) (stride len : Nat) : List (Word × Nat) :=
      (countFrom 0 m).map fun i => (base + BitVec.ofNat 64 (i * stride), len)
    (shapeOk w.ashape ori fa fg v = false → Faults i s w { cause := Cause.shape }) ∧
    (shapeOk w.ashape ori fa fg v = true → CubeIssues i s w f
      (.mac ori (mSet f) fa fg (w.getS f.a) (w.getS f.b) (mAstr f) (mGstr f) (if mRS f then some (w.getS f.c) else none)
        (mZA f) (mT0 f) (mNT f))
      ((size fa, w.getS f.a, lines (w.getS f.a) (mAstr f) (len fa))
        :: (if ori = .ik then [(size fg, w.getS f.b, lines (w.getS f.b) (mGstr f) (len fg))] else [])
          ++ (if mRS f then [(1, w.getS f.c, [(w.getS f.c, m)])] else [])))

/-- cshift, cdrain and czero go to the matrix queue with the tiles they name; cshape sets a legal shape; celog reads a log
entry, oldest first; ceclr clears the error state (R336, R352, R353, R358, R359). -/
def Sys2Proof.Machine.CubeTileCommands : Prop :=
  ∀ s w f, s.curWarp = some w →
    Submits (.cshift f) s s w (.cube (.shift (f.imm20.toNat % 8) (f.imm20.toNat / 8 % 32) (f.imm20.getLsbD 8) w.em
      (w.winbase + f.c.toNat)) f.prio.toNat w.ashape []) f.d ∧
    Submits (.czero f) s s w (.cube (.zero (f.imm20.extractLsb' 0 8)) f.prio.toNat w.ashape []) f.d ∧
    (let tile := w.getS f.a
     let va := accWindow + tile * 4096
     let alloc := ((w.grid? s).map fun g => g.recd.accT).getD 0
     (alloc ≤ tile.toNat → Faults (.cdrain f) s w { cause := Cause.windowRange, faddr := va }) ∧
     (tile.toNat < alloc → ∀ c, windowPlace s w.who .store va 4096 = .error c →
       Faults (.cdrain f) s w { cause := c, faddr := va }) ∧
     (tile.toNat < alloc → ∀ pa k, windowPlace s w.who .store va 4096 = .ok (pa, k) →
       Submits (.cdrain f) s s w (.cube (.drain (f.imm20.toNat % 8) tile.toNat (f.imm20.getLsbD 3)) f.prio.toNat w.ashape
         [{ va := va, pa := pa, kind := k, len := 4096 }]) f.d)) ∧
    (let v : W32 := (w.getS f.a).setWidth 32
     let bands := onesIn 4 (w.getS f.a)
     let ok := v.toNat < 128 ∧ v.toNat / 16 ≤ 4 ∧ (bands = 1 ∨ bands = 2 ∨ bands = 4)
     (ok → Ends (.cshape f) s (s.setWarp s.cur { w with ashape := v })) ∧ (¬ ok → Faults (.cshape f) s w Trap.operand)) ∧
    (w.getS f.a ≤ 15 → GivesB (.celog f) s s w f.d ((s.tl w.ctx w.core).log.getD (w.getS f.a).toNat 0)) ∧
    (15 < w.getS f.a → Faults (.celog f) s w Trap.operand) ∧
    ∃ t, Ends (.ceclr f) s t ∧ t.warps = s.warps ∧ t.mem = s.mem ∧ (t.tl w.ctx w.core).cerr = 0 ∧
      (t.tl w.ctx w.core).log = [] ∧ (t.tl w.ctx w.core).done = (s.tl w.ctx w.core).done

/-- Cube commands at issue: loads, contractions and tile commands. -/
def Obligations.CubeCommands : Prop := CubeLoads ∧ CubeContractions ∧ CubeTileCommands

/-- A unit takes, of the entries that wait for it, depend on no earlier one and need wait for nothing that their issue releases, the highest in effective priority, of those
the oldest, and of two issued in one cycle the owner's first; while an entry of the owner of higher priority could be taken,
no other context's is; an array that passes to another context is kept for its owner, whose save area takes its class's bytes, of
values that the model leaves free (log 38); a full 4,096 cycles of waiting raise an entry by one (R344 to R346, R349). -/
def Sys2Proof.Machine.MatrixDispatch : Prop :=
  (∀ (s : State) (n : Nat) (u : CubeUnit) (e : CubeEnt), let c := s.core n
    let ready (x : CubeEnt) : Prop := x ∈ c.cq ∧ x.waiting = true ∧ c.eligible x = true ∧ s.advances x.ctx .cube = true ∧
      s.gated x.warp x.tok = false
    let level (x : CubeEnt) : Nat := min 7 (x.prio + (if x.waiting then x.wait + (s.clock - x.since).toNat else x.wait) / 4096)
    let kept (x : CubeEnt) : Prop := c.owner = some x.ctx ∨ ∀ y, ready y → c.owner = some y.ctx → level y ≤ level x
    s.takeEnt n u = some e → c.paused = false ∧ ready e ∧ e.cmd.unit = u ∧ kept e ∧
      ∀ x, ready x → x.cmd.unit = u → kept x → level x ≤ level e ∧
        (level x = level e → (∀ y ∈ c.cq, ∀ z ∈ c.cq, y.seq ≤ z.seq → y.born ≤ z.born) →
          e.born < x.born ∨ (e.born = x.born ∧ ((c.owner = some e.ctx ∧ c.owner ≠ some x.ctx) ∨
            ((c.owner = some e.ctx ↔ c.owner = some x.ctx) ∧ e.seq ≤ x.seq))))) ∧
  (∀ (s : State) (e : CubeEnt), let c := s.core s.ev.x
    s.takeEnt s.ev.x s.ev.unit = some e → (∀ x ∈ c.cq, x.cmd.unit = s.ev.unit → x.st ≠ .running) →
    (c.owner = some e.ctx ∨ ∀ x ∈ c.cq, x.st ≠ .running) →
    ∃ t, Ends .matrixDispatch s t ∧ (t.core s.ev.x).owner = some e.ctx ∧
      (t.core s.ev.x).cq = c.cq.map (fun x =>
        if x.seq = e.seq then { e with st := .running, wait := e.waited s.clock } else x) ∧
      (t.core s.ev.x).array = c.arrayOf e.ctx ∧ t.warps = s.warps ∧
      (c.owner = none ∨ c.owner = some e.ctx → t.mem = s.mem) ∧
      ∀ o, c.owner = some o → o ≠ e.ctx → (t.core s.ev.x).arrayOf o = c.array ∧
        let area := (s.ctx o).saveb.toNat + 512 * ackIndex .cube
        (Memory.wf s.mem = true → ∀ a, (a < area ∨ area + 512 ≤ a) → memRead t.mem a = memRead s.mem a)) ∧
  ∀ (s : State) (e : CubeEnt), (s.core s.ev.x).cq[s.ev.y]? = some e → e.waiting = true →
    e.wait / 4096 < (e.wait + (s.clock - e.since).toNat) / 4096 →
    ∃ t, Ends .matrixPriorityAge s t ∧ t.mem = s.mem ∧ (t.core s.ev.x).cq[s.ev.y]? =
      some { e with wait := e.wait + (s.clock - e.since).toNat, since := s.clock }

/-- A k-step streams one slab of a running contraction: its step count grows, its tiles' cells take the group sums of the triple
products of its slab, and no other cell changes (R252 to R255, R331, R334, R357; the rounding of an ACCRND without meaning is the
model's choice, log 77), and the
contraction is done after its last; a running one whose lines or bands are not there gives way to a strictly higher one with
which it shares no tile or set (R332, R345, R347, R357). A drain writes its rows one at a time (R92). Retirement ends an
entry under its number: a load leaves its set's part as memory holds it, czero clears the tiles it names, cshift delivers its row
(R335, R355, R358); while an evaluation has tiles or a set lent to it, what commands leave in the array is not said here (R376); bands power up and, unused, off (R337, R349). -/
def Sys2Proof.Machine.CubeWork : Prop :=
  (∀ (s : State) (e : CubeEnt) ori set fa fg a g astr gstr rs za t0 nt, let n := s.ev.x
    (s.core n).cq.find? (fun e => e.cmd.unit = .compute && e.st == .running) = some e →
    e.cmd = .mac ori set fa fg a g astr gstr rs za t0 nt → kstepReady s n e = true →
    ∃ t x, Ends .cubeKstepBoundary s t ∧ x ∈ (t.core n).cq ∧ x.seq = e.seq ∧ x.num = e.num ∧ x.step = e.step + 1 ∧
      (x.st = .done ↔ (macShape e ori fa fg (((s.core n).arrayOf e.ctx).set set)).steps ≤ e.step + 1) ∧
      t.mem = s.mem ∧ t.warps = s.warps ∧
      (s.lent n e.ctx = [] → ∀ key, (key < t0 * 1024 ∨ (t0 + nt) * 1024 ≤ key) →
        ((t.core n).arrayOf e.ctx).cell key = ((s.core n).arrayOf e.ctx).cell key)) ∧
  (∀ (s : State) (e : CubeEnt) ori set fa fg a g astr gstr rs za t0 nt, let n := s.ev.x
    (s.core n).cq.find? (fun e => e.cmd.unit = .compute && e.st == .running) = some e → s.lent n e.ctx = [] →
    e.cmd = .mac ori set fa fg a g astr gstr rs za t0 nt → kstepReady s n e = true → Plain s n e → fa ≠ .q4 → fg ≠ .q4 →
    let v := ((s.core n).arrayOf e.ctx).set set
    let sh := macShape e ori fa fg v
    let at' (fmt : DT) (base : Word) (stride i k : Nat) : FVal :=
      valueOf fmt (codeAt (elemSize fmt) (k - e.step * sh.d)
        (bytesAt s e.xl (base + BitVec.ofNat 64 (i * stride + e.step * sh.d * elemSize fmt)) (sh.d * elemSize fmt)))
    let rowScaled (i : Nat) (x : FVal) : FVal := match rs with
      | some c => x.scale (scaleExp ((bytesAt s e.xl c (32 * nt)).getD i 0).toNat)
      | none => x
    ∀ b, v.b = some b →
    let stationary (k j : Nat) : FVal :=
      let x := b.value (k * 32 + j) (j * (b.k / 32) + k / 32)
      match v.wscale with | some l => x.scale (scaleExp (l.getD j 0)) | none => x
    let gated (i j k : Nat) (x : FVal) : FVal := match ori with
      | .none => x
      | .ik => mulF x (at' fg g gstr i k)
      | .kj => (v.g.map fun p => mulF x (p.value (k * 32 + j) 0)).getD x
      | .k => (v.kv.map fun p => mulF x (p.value k 0)).getD x
    ∃ t, Ends .cubeKstepBoundary s t ∧ ∀ i j, i < 32 * nt → j < 32 →
      let key := t0 * 1024 + i * 32 + j
      ((t.core n).arrayOf e.ctx).cell key = cellAfter (accRnd e.ashape) sh.n sh.f e.step
        (fun k => gated i j k (mulF (rowScaled i (at' fa a astr i k)) (stationary k j)))
        (if za = true ∧ e.step = 0 then 0 else ((s.core n).arrayOf e.ctx).cell key)) ∧
  (∀ (s : State) (e x : CubeEnt) ori set fa fg a g astr gstr rs za t0 nt, let n := s.ev.x
    (s.core n).cq.find? (fun e => e.cmd.unit = .compute && e.st == .running) = some e →
    e.cmd = .mac ori set fa fg a g astr gstr rs za t0 nt → kstepReady s n e = false → s.bestEnt n .compute = some x →
    e.level s.clock < x.level s.clock → shareTile e.cmd x.cmd = false → shareSet e.cmd x.cmd = false →
    Ends .cubeKstepBoundary s (s.setCore n ((s.core n).setEnt { e with st := .suspended, since := s.clock }))) ∧
  (∀ (s : State) (e : CubeEnt) t0 tile clr, let n := s.ev.x
    (s.core n).cq[s.ev.y]? = some e → e.cmd = .drain t0 tile clr → canRetire s e = true → s.advances e.ctx .cube = true →
    (∀ x ∈ e.xl, x.kind ≠ .reg) → e.step < 31 →
    ∃ t, Ends .cubeRetire s t ∧ (t.core n).cq = (s.core n).cq.map (fun x => if x.seq = e.seq then { e with step := e.step + 1 } else x) ∧
      t.warps = s.warps ∧ ∀ pa va, e.xl = [{ va := va, pa := pa, kind := .scratch, len := 4096 }] → pa % 128 = 0 →
        Memory.wf s.mem = true →
        (memReadN t.mem (pa + e.step * 128) 128 = (List.range 32).flatMap fun c =>
          natBytes 4 (((s.core n).arrayOf e.ctx).cell (t0 * 1024 + e.step * 32 + c)).toNat) ∧
        ∀ y, (y < pa + e.step * 128 ∨ pa + e.step * 128 + 128 ≤ y) → memRead t.mem y = memRead s.mem y) ∧
  (∀ (s : State) (e : CubeEnt), let n := s.ev.x
    (s.core n).cq[s.ev.y]? = some e → canRetire s e = true → s.advances e.ctx .cube = true → (∀ x ∈ e.xl, x.kind ≠ .reg) →
    (∀ t d clr, e.cmd = .drain t d clr → 31 ≤ e.step) →
    ∃ t, Ends .cubeRetire s t ∧ (t.core n).cq = (s.core n).cq.filter (fun x => x.seq != e.seq) ∧
      NumberDone s t e.ctx n 5 e.num ∧
      (∀ m, e.cmd = .zero m → s.lent n e.ctx = [] → t.mem = s.mem ∧ ∀ key, key < 8192 →
        ((t.core n).arrayOf e.ctx).cell key = if m.getLsbD (key / 1024) then 0 else ((s.core n).arrayOf e.ctx).cell key) ∧
      (e.cmd.unit ≠ .tile → t.mem = s.mem ∧ t.warps = s.warps) ∧
      (∀ tile row clr mask pos w, e.cmd = .shift tile row clr mask pos → s.warp? e.warp = some w →
        let cells := (s.core n).arrayOf e.ctx
        let lo := tile * 1024 + row * 32
        (∃ x, t.warp? e.warp = some (w.settle e.tok [.v pos mask x]) ∧ ∀ l, l < 32 → laneGet x l = cells.cell (lo + l)) ∧
        (s.lent n e.ctx = [] → ∀ key, ((t.core n).arrayOf e.ctx).cell key =
          if clr = true ∧ lo ≤ key ∧ key < lo + 32 ∧ key / 1024 = tile then 0 else cells.cell key)) ∧
      (Plain s n e → s.lent n e.ctx = [] →
        let was (i : Nat) : StSet := ((s.core n).arrayOf e.ctx).set i
        let now (i : Nat) : StSet := ((t.core n).arrayOf e.ctx).set i
        (∀ set fmt k src stride scale, e.cmd = .ldb set fmt k src stride scale → ∃ p l, now set =
            { b := some p, wscale := l, g := none, kv := none } ∧
          (fmt ≠ .q4 → PlaneFrom s e.xl fmt k src stride p) ∧ (fmt = .q4 → PlaneFromQ4 s e.xl k src stride p) ∧
          (scale = none → l = none) ∧ ∀ va, scale = some va → ∃ x, l = some x ∧ ∀ j, j < 32 →
            x.getD j 0 = ((bytesAt s e.xl va 32).getD j 0).toNat) ∧
        (∀ set fmt k src stride, e.cmd = .ldg set fmt k src stride → ∃ p, now set = { was set with g := some p } ∧
          PlaneFrom s e.xl fmt k src stride p) ∧
        ∀ set fmt k src, e.cmd = .ldk set fmt k src → ∃ p, now set = { was set with kv := some p } ∧ p.fmt = fmt ∧ p.k = k ∧
          ∀ i, i < k → p.elems.getD i 0 = codeAt (elemSize fmt) i (bytesAt s e.xl src (elemSize fmt * k)))) ∧
  ∀ s : State, let c := s.core s.ev.x
    let b := s.ev.y % 4
    (c.bands.getLsbD b = false → ∃ t, Ends .bandPowerUp s t ∧ (t.core s.ev.x).bands.getLsbD b = true ∧
      (∀ j, j ≠ b → (t.core s.ev.x).bands.getLsbD j = c.bands.getLsbD j)) ∧
    (c.bands.getLsbD b = true → (∀ e ∈ c.cq, e.cmd.unit = .compute → e.ashape.getLsbD b = false) →
      ∃ t, Ends .bandPowerOff s t ∧ (t.core s.ev.x).bands.getLsbD b = false ∧
        (∀ j, j ≠ b → (t.core s.ev.x).bands.getLsbD j = c.bands.getLsbD j))

/-- The matrix queue: dispatch, priority, k-steps and retirement; what the model chooses or infers is marked in the parts: log 38,
77. -/
def Obligations.CubeQueue : Prop := MatrixDispatch ∧ CubeWork

/-! ## Logic planes -/

namespace Sys2Proof.Machine

/-- A plane instruction with this command: only for the context that holds the plane, with the wear check against the plane
as the queue will leave it (R399, R402, R404). -/
def PlaneIssues (i : Instr) (s : State) (w : Warp) (c : PlaneCmd) (d : BitVec 6) : Prop :=
  (∀ t, s.ownsPlane w = true → wearTrap s s.cur w c = some t → Faults i s w t) ∧
  (s.ownsPlane w = true → wearTrap s s.cur w c = none → Submits i s s w (.plane c) d)

/-- Distinct logical lines of an axis stand for distinct physical ones, as every map from reset on does (R401). -/
def LPlane.mapsApart (p : LPlane) : Prop :=
  ∀ c x y, x < 1024 → y < 1024 → p.line c x = p.line c y → x = y

/-- Physical lines are lines of the plane. -/
def LPlane.mapsIn (p : LPlane) : Prop := ∀ c x, x < 1024 → p.line c x < 1024

end Sys2Proof.Machine

/-- Every plane instruction queues its entry for the context that holds the plane of its core; without it, it faults as
plane-access (R398, R399, R411, R412). A line number above 1,023 is an illegal operand. -/
def Sys2Proof.Machine.PlaneIssue : Prop :=
  ∀ s w, s.curWarp = some w →
    (∀ g : FmtG, ∀ i c, (i, c) ∈ [(Instr.lpnor g, PlaneCmd.gate 2 g.col g.sel.toNat g.in1.toNat g.in2.toNat g.in3.toNat g.out.toNat),
        (.lpnortri g, .gate 3 g.col g.sel.toNat g.in1.toNat g.in2.toNat g.in3.toNat g.out.toNat),
        (.lpnot g, .gate 1 g.col g.sel.toNat g.in1.toNat g.in2.toNat g.in3.toNat g.out.toNat),
        (.lpinit g, .init g.col g.sel.toNat g.out.toNat)] →
      (s.ownsPlane w = false → Faults i s w { cause := Cause.planeAccess }) ∧ PlaneIssues i s w c 0) ∧
    ∀ f : FmtA,
      let col := f.imm16.getLsbD 15
      let line := if f.i then f.imm16.toNat % 1024 else (w.getS f.a).toNat
      let bud := w.getS f.b
      (s.ownsPlane w = false → ∀ i ∈ [Instr.lprdv f, .lpwrv f, .lpcnt f, .lpbudget f, .lpremap f, .lpselVector f, .lpselMemory f,
          .lpstat f, .lpstatClr f, .lpstatIss f], Faults i s w { cause := Cause.planeAccess }) ∧
      (s.ownsPlane w = true → 1023 < line → ∀ i ∈ [Instr.lprdv f, .lpwrv f, .lpcnt f, .lpbudget f], Faults i s w Trap.operand) ∧
      (line ≤ 1023 → PlaneIssues (.lprdv f) s w (.rdv col line w.em (w.winbase + f.d.toNat)) f.d ∧
        PlaneIssues (.lpwrv f) s w (.wrv col line w.em (w.vAt (w.winbase + f.d.toNat))) f.d ∧
        PlaneIssues (.lpcnt f) s w (.cnt col line f.d.toNat) f.d ∧
        (bud.toNat < 2 ^ 32 → PlaneIssues (.lpbudget f) s w (.budget col line (bud.setWidth 32)) f.d) ∧
        (2 ^ 32 ≤ bud.toNat → s.ownsPlane w = true → Faults (.lpbudget f) s w Trap.operand)) ∧
      PlaneIssues (.lpremap f) s w (.remap col (f.imm16.toNat % 4)) f.d ∧
      PlaneIssues (.lpselVector f) s w (.selV f.d.toNat (selOfLanes w.lm (w.vAt (w.winbase + f.a.toNat)))) f.d ∧
      PlaneIssues (.lpstat f) s w (.stat false f.d.toNat) f.d ∧ PlaneIssues (.lpstatClr f) s w (.stat true f.d.toNat) f.d ∧
      PlaneIssues (.lpstatIss f) s w (.statIss f.d.toNat) f.d ∧
      ∀ u pa k, s.ownsPlane w = true → resolve s w.who .load (w.getS f.a + immA f) 128 true = .ok (u, pa, k) → k ≠ .peer →
        wearTrap u s.cur w (.selM f.d.toNat pa k) = none → Submits (.lpselMemory f) s u w (.plane (.selM f.d.toNat pa k)) f.d

/-- What entries do to the cells: a gate clears its output where an input is 1 and leaves it elsewhere, an initialisation sets
it, a write of a line takes the active lanes' bits; every other cell is unchanged. A gate whose output is among its inputs leaves
zero. No other entry changes a physical cell (R398). -/
def Sys2Proof.Machine.PlaneCells : Prop :=
  ∀ (p : LPlane) (sel : BitVec 1024), p.mapsApart → p.mapsIn → ∀ col x y, x < 1024 → y < 1024 →
    (∀ n in1 in2 in3 out, in1 < 1024 → in2 < 1024 → in3 < 1024 → out < 1024 →
      (p.apply (.gate n col 0 in1 in2 in3 out) sel).cell col x y =
        (if sel.getLsbD x ∧ y = out then
          p.cell col x out && !(p.cell col x in1 || (decide (2 ≤ n) && p.cell col x in2) || (decide (3 ≤ n) && p.cell col x in3))
        else p.cell col x y) ∧
      (sel.getLsbD x = true → (out = in1 ∨ 2 ≤ n ∧ out = in2 ∨ 3 ≤ n ∧ out = in3) →
        (p.apply (.gate n col 0 in1 in2 in3 out) sel).cell col x out = false)) ∧
    (∀ out, out < 1024 → (p.apply (.init col 0 out) sel).cell col x y = if sel.getLsbD x ∧ y = out then true else p.cell col x y) ∧
    (∀ line mask val, line < 1024 → (p.apply (.wrv col line mask val) sel).cell col x y =
      if x = line ∧ mask.getLsbD (y / 32) then (laneGet val (y / 32)).getLsbD (y % 32) else p.cell col x y) ∧
    (∀ line mask pos l, l < 32 → ∀ b, b < 32 → line < 1024 →
      (laneGet (p.readLine col line) l).getLsbD b = p.cell col line (32 * l + b) ∧
      (PlaneCmd.rdv col line mask pos).delivers p 0 = [.v pos mask (p.readLine col line)]) ∧
    ∀ line v d mask pos bits pa kind i, ∀ c ∈ ([.budget col line v, .stat true d, .stat false d, .statIss d, .remap col i,
        .rdv col line mask pos, .cnt col line d, .selV i bits, .selM i pa kind] : List PlaneCmd), (p.apply c sel).cells = p.cells

/-- The wear check at issue, against the plane as every entry issued before on the core leaves it: an instruction that would raise a
counter past its line's budget faults as plane-wear with the axis and logical line, the output line if it fails, else the lowest
crossing line that does; no other entry raises a counter (R402; that lpwrv's written line takes the place of the output line is the
model's reading, log 45). -/
def Sys2Proof.Machine.PlaneWearCheck : Prop :=
  ∀ (s : State) k (w : Warp) (c : PlaneCmd), let t := afterQueue s k w
    let p := t.plane w.core
    let sel : BitVec 1024 := match c.selOf, t.warp? k with | some i, some w => w.selAt i | _, _ => 0
    let worn (col : Bool) (x : Nat) : Prop :=
      (p.budget (lineKey col (p.line col x))).toNat < (p.count (lineKey col (p.line col x))).toNat + 1
    let faults (col : Bool) (x : Nat) : Prop :=
      wearTrap s k w c = some { cause := Cause.planeWear, faddr := BitVec.ofNat 64 ((if col then 1024 else 0) + x) }
    let checks (col : Bool) (line : Nat) (crosses : Nat → Bool) : Prop :=
      (worn col line → faults col line) ∧
      (¬ worn col line → ∀ x, x < 1024 → crosses x = true → worn (!col) x → (∀ y, y < x → crosses y = true → ¬ worn (!col) y) →
        faults (!col) x) ∧
      (¬ worn col line → (∀ x, x < 1024 → crosses x = true → ¬ worn (!col) x) → wearTrap s k w c = none)
    (∀ n col i in1 in2 in3 out, c = .gate n col i in1 in2 in3 out ∨ c = .init col i out →
      (sel ≠ 0 → checks (!col) out fun x => sel.getLsbD x) ∧ (sel = 0 → wearTrap s k w c = none)) ∧
    (∀ col line mask val, c = .wrv col line mask val →
      (mask ≠ 0 → checks col line fun y => mask.getLsbD (y / 32)) ∧ (mask = 0 → wearTrap s k w c = none)) ∧
    ∀ col line v d mask pos bits pa kind i clr, c ∈ ([.stat clr d, .statIss d, .remap col i, .rdv col line mask pos, .cnt col line d,
      .budget col line v, .selV i bits, .selM i pa kind] : List PlaneCmd) → wearTrap s k w c = none

/-- What an entry that is performed delivers to its warp: lprdv the line's cells, lpcnt BUD × 2^32 + CNT of the physical line, lpstat
the status word, of which lpstat.clr then clears CUT, and lpstat.iss the context's tl7 issue count (R407, R412). -/
def Sys2Proof.Machine.PlaneResults : Prop :=
  ∀ (s : State) (e : PlaneEnt) w, s.planeHead s.ev.x = some e → planeWaits s e = false → s.warp? e.warp = some w →
    let p := s.plane s.ev.x
    let gives (l : RegWrite) (q : LPlane) : Prop :=
      ∃ t, Ends .planeEntryPerform s t ∧ t.warp? e.warp = some (w.settle e.tok [l]) ∧ t.plane s.ev.x = q
    (∀ col line mask pos, e.cmd = .rdv col line mask pos → ∃ x, gives (.v pos mask x) p ∧
      ∀ l, l < 32 → ∀ b, b < 32 → (laneGet x l).getLsbD b = p.cell col line (32 * l + b)) ∧
    (∀ col line d, e.cmd = .cnt col line d → ∃ x : Word, gives (.s d x) p ∧
      x.toNat = (p.budget (lineKey col (p.line col line))).toNat * 2 ^ 32 + (p.count (lineKey col (p.line col line))).toNat) ∧
    (∀ d, e.cmd = .stat false d → gives (.s d p.status) p) ∧
    (∀ d, e.cmd = .stat true d → gives (.s d p.status) { p with status := p.status &&& 0xFFFFFFFF7FFFFFFF }) ∧
    ∀ d, e.cmd = .statIss d → gives (.s d ((s.tl e.ctx s.ev.x).issuedOf 7)) p

/-- Plane commands at issue, their wear check, what an entry does to cells and counters, and what it delivers; what the model
chooses or infers is marked in the parts: log 45. -/
def Obligations.PlaneCommands : Prop := PlaneIssue ∧ PlaneWearCheck ∧ PlaneCells ∧ PlaneResults

/-- lpremap rotates the map of the selected lines: each line of the pool, in ascending order, takes the physical line of the
next, and the last that of the first; with fewer than two lines nothing changes, and no line outside the pool moves (R403). -/
def Obligations.PlaneRemap : Prop :=
  ∀ (p : LPlane) (sel : BitVec 1024) col, let pool := (List.range 1024).filter fun x => sel.getLsbD x
    let q := p.apply (.remap col 0) sel
    (2 ≤ pool.length → ∀ i, i < pool.length → q.line col (pool.getD i 0) = p.line col (pool.getD ((i + 1) % pool.length) 0)) ∧
    (pool.length < 2 → q = p) ∧ (∀ x, x ∉ pool → q.line col x = p.line col x) ∧ (∀ x, q.line (!col) x = p.line (!col) x) ∧
    (2 ≤ pool.length → ∀ i y, i < pool.length → q.cell col (pool.getD i 0) y = p.cell col (pool.getD ((i + 1) % pool.length) 0) y) ∧
    q.cells = p.cells ∧ q.cnt = p.cnt ∧ q.bud = p.bud ∧ (p.mapsApart → q.mapsApart)

/-- Write accounting: a gate, an initialisation and a write of a line count one write of their output line and of each line
that crosses it where they write; no other entry counts or changes a budget but lpbudget (R401, R402). A budget only falls. The plane performs its entries in order,
each ending under its number (R197, R400). -/
def Obligations.PlaneWearAndOrder : Prop :=
  (∀ (p : LPlane) (sel : BitVec 1024), p.mapsApart → p.mapsIn → ∀ col axis x, x < 1024 →
    (∀ n in1 in2 in3 out, out < 1024 → (p.apply (.gate n col 0 in1 in2 in3 out) sel).count (lineKey axis (p.line axis x)) =
      p.count (lineKey axis (p.line axis x)) +
        (if (axis = !col ∧ x = out ∧ sel ≠ 0) ∨ (axis = col ∧ sel.getLsbD x) then 1 else 0)) ∧
    (∀ out, out < 1024 → (p.apply (.init col 0 out) sel).count (lineKey axis (p.line axis x)) =
      p.count (lineKey axis (p.line axis x)) +
        (if (axis = !col ∧ x = out ∧ sel ≠ 0) ∨ (axis = col ∧ sel.getLsbD x) then 1 else 0)) ∧
    (∀ line v d mask pos bits pa kind i, ∀ c ∈ ([.stat true d, .stat false d, .statIss d, .remap col i, .rdv col line mask pos,
        .cnt col line d, .selV i bits, .selM i pa kind] : List PlaneCmd), (p.apply c sel).cnt = p.cnt ∧ (p.apply c sel).bud = p.bud ∧
      (p.apply (.budget col line v) sel).cnt = p.cnt) ∧
    (∀ line mask val, line < 1024 → (p.apply (.wrv col line mask val) sel).count (lineKey axis (p.line axis x)) =
      p.count (lineKey axis (p.line axis x)) +
        (if (axis = col ∧ x = line ∧ mask ≠ 0) ∨ (axis = !col ∧ mask.getLsbD (x / 32)) then 1 else 0)) ∧
    (∀ line v, line < 1024 → let k := lineKey col (p.line col line)
      (p.apply (.budget col line v) sel).budget k = (if v < p.budget k then v else p.budget k) ∧
      (p.apply (.budget col line v) sel).cnt = p.cnt)) ∧
  ∀ (s : State) (e : PlaneEnt), s.planeHead s.ev.x = some e → planeWaits s e = false →
    ∃ t, Ends .planeEntryPerform s t ∧ (t.core s.ev.x).pq = (s.core s.ev.x).pq.filter (fun x => x.seq != e.seq) ∧
      NumberDone s t e.ctx s.ev.x 7 e.num ∧ t.mem = s.mem ∧
      (∀ i, e.cmd.selOf = some i → ∀ w, s.warp? e.warp = some w → t.plane s.ev.x = (s.plane s.ev.x).apply e.cmd (w.selAt i)) ∧
      (e.cmd.selOf = none → t.plane s.ev.x = (s.plane s.ev.x).apply e.cmd 0) ∧
      (∀ i bits w, e.cmd = .selV i bits → s.warp? e.warp = some w → ∃ v, t.warp? e.warp = some v ∧ v.selAt i = bits)

/-! ## Pergola -/

/-- A creating instruction whose checks pass adds a node to its warp's table, its handle the result: the descriptor's fields,
its inputs, the rounding register and shape of the moment (R362, R363, R366, R388). An invalid descriptor, an invalid handle,
a handle where none belongs, or inputs that do not fit, fault in that order. A deterministic warp holds the table for its commit as
well (the model's choice of how, log 10). -/
def Obligations.NodesCreated : Prop :=
  ∀ i k, (i, k) ∈ ([(.tleaf, .leaf), (.tcontract, .contract), (.tewise, .ewise), (.trowred, .rowred), (.tmap, .map), (.tcast, .cast)]
      : List ((FmtE → Instr) × NodeKind)) →
    ∀ s w f u b, s.curWarp = some w → readIssue s w (w.getS f.a) 128 128 = .ok (u, b) →
    let d := parseNode b
    let hs := inputHandles w k f
    let n := (inputCount k d.op).getD 0
    let place := placeFault u w.who (k == .leaf) (elemSize d.fmt) d.home
    (descOk k b = false → Faults (i f) s w Trap.operand) ∧
    (descOk k b = true → ∀ t, place = some t → Faults (i f) s w t) ∧
    (descOk k b = true → place = none →
      ((∃ h ∈ hs.take n, w.perg.find h = none) → Faults (i f) s w { cause := Cause.nodeHandle }) ∧
      ∀ ins, (hs.take n).map w.perg.find = ins.map some →
        ((∃ h ∈ hs.drop n, h ≠ 0) → Faults (i f) s w Trap.operand) ∧
        ((∀ h ∈ hs.drop n, h = 0) →
          (∀ c, inputsFault w k d ins = some c → Faults (i f) s w { cause := c }) ∧
          (inputsFault w k d ins = none → ∀ j, w.perg.freeIdx w.tmode.nq = some j →
            w.perg.used + (sourceRanges k d).length ≤ w.tmode.rq →
            ∃ t v x, Ends (i f) s t ∧ t.warp? s.cur = some v ∧ t.mem = u.mem ∧
              v.perg = { w.perg with nodes := w.perg.nodes ++ [x], created := u.seq + 1 } ∧
              v.pend = w.pend ++ [{ tok := 0, flag := w.clause.fb, ready := true
                                    writes := [.s f.d.toNat (BitVec.ofNat 64 (x.gen * 256 + j))] }] ∧
              (w.det = true → v.held = w.held ++ [.tab v.perg w.tmode]) ∧
              x.idx = j ∧ x.gen = w.perg.genOf j ∧ x.kind = k ∧ x.made = k ∧ x.desc = d ∧ x.inputs = ins.map (fun m => m.idx) ∧
              x.slot = w.nmode ∧ x.ashape = w.ashape ∧ x.dropped = false ∧ x.ord = u.seq)))

/-- tforce and tstore name a node and a rectangle within it; of a LEAF tforce completes at once, else the demand is numbered
and its warp waits for the evaluation, which ends the instruction under that number and writes its elements: tforce those of its home,
tstore those of its destination as well (R389, R390, R196). In a deterministic launch the commit gives the number, and what is written is
held for it (R173, R177; how, log 10). Until
then each of its CONTRACT tiles takes an entry of the matrix queue, without a number (R344, R376); that the tile's own evaluation is
made once its entries have run is the model's choice, log 41, and so is that a round's evaluations see held bytes, log 10; that a
demand whose home write meets the guard faults before it has a number is its reading, log 43. -/
def Sys2Proof.Machine.Demands : Prop :=
  (∀ s w f, s.curWarp = some w →
    (w.perg.find (w.getS f.a).toNat = none → Faults (.tforce f) s w { cause := Cause.nodeHandle } ∧
      Faults (.tstore f) s w { cause := Cause.nodeHandle }) ∧
    ∀ n, w.perg.find (w.getS f.a).toNat = some n →
      let v := (w.getS f.b).toNat
      let r0 := v % 2 ^ 16
      let c0 := v / 2 ^ 16 % 2 ^ 16
      let rows := v / 2 ^ 32 % 2 ^ 16
      let cols := v / 2 ^ 48
      let num := (s.tl w.ctx w.core).issuedOf 6 + 1
      let inside := 1 ≤ rows ∧ 1 ≤ cols ∧ r0 + rows ≤ n.desc.rows ∧ c0 + cols ≤ n.desc.cols
      (¬ inside → Faults (.tforce f) s w Trap.operand ∧ Faults (.tstore f) s w Trap.operand) ∧
      (inside → n.kind = .leaf → w.det = true → ∃ t x, Ends (.tforce f) s t ∧ t.warp? s.cur = some x ∧ t.mem = s.mem ∧
        t.tls = s.tls ∧ x.pend = w.pend ++ [{ tok := s.nextId, flag := w.clause.fb, ready := false, writes := [] }] ∧
        x.held = w.held ++ [.mat [] [] [] (some { tok := s.nextId, d := f.d.toNat, log := [], full := false }) false w.ipc none]) ∧
      (inside → n.kind = .leaf → w.det = false → ∃ t x, Ends (.tforce f) s t ∧ t.warp? s.cur = some x ∧ t.mem = s.mem ∧
        x.pend = w.pend ++ [{ tok := 0, flag := w.clause.fb, ready := true, writes := [.s f.d.toNat num] }] ∧
        NumberDone s t w.ctx w.core 6 num.toNat) ∧
      (inside → n.kind ≠ .leaf →
        guardIssue s w [homeRng n.desc (({ r0 := r0, c0 := c0, rows := rows, cols := cols } : Rect).grid n.desc)] = .ok s →
        ∃ t x tok seq lines, Ends (.tforce f) s t ∧ t.warp? s.cur = some x ∧ t.mem = s.mem ∧
          x.wait = .eval (.force n.idx r0 c0 rows cols f.d.toNat) (if w.det then 0 else num.toNat) tok seq lines ∧
          (t.tl w.ctx w.core).issuedOf 6 = (if w.det then (s.tl w.ctx w.core).issuedOf 6 else num) ∧
          x.pend = w.pend ++ [{ tok := tok, flag := w.clause.fb, ready := false, writes := [] }]) ∧
      (let size := elemSize n.desc.fmt
       let stride := f.imm64.toNat % 2 ^ 32
       let x : Rect := { r0 := r0, c0 := c0, rows := rows, cols := cols }
       (inside → (n.desc.fmt = .q4 ∨ stride % size ≠ 0) → Faults (.tstore f) s w Trap.operand) ∧
       (inside → n.desc.fmt ≠ .q4 → stride % size = 0 → ∀ u xl, storePlaces s w size (w.getS f.c) stride x = .ok (u, xl) →
         guardIssue u w ((if n.isLeaf then [] else [homeRng n.desc (x.grid n.desc)])
           ++ [{ base := w.getS f.c, row := cols * size, stride := stride, rows := rows }]) = .ok u →
         ∃ t y tok seq lines, Ends (.tstore f) s t ∧ t.warp? s.cur = some y ∧ t.mem = u.mem ∧
           y.wait = .eval (.store n.idx r0 c0 rows cols (w.getS f.c) stride xl f.d.toNat) (if w.det then 0 else num.toNat) tok seq
             lines))) ∧
  ∀ s w dm i r0 c0 rows cols d num tok seq lines n out, s.warp? s.ev.x = some w →
    w.wait = .eval dm num tok seq lines → s.advances w.ctx .pergola = true →
    s.gated s.ev.x tok = false → w.perg.byIdx i = some n →
    let x : Rect := { r0 := r0, c0 := c0, rows := rows, cols := cols }
    let c := s.core w.core
    ((dm = .force i r0 c0 rows cols d ∧ out = fun _ => []) ∨ ∃ dst stride xl, dm = .store i r0 c0 rows cols dst stride xl d ∧
      (out = fun tiles => storeRows tiles n x dst stride xl) ∧ s.owedIn seq xl = false ∧ ∀ y ∈ xl, y.kind ≠ .peer) →
    let from' : State := if w.det then s.setTl w.ctx w.core { s.tl w.ctx w.core with log := [], cerr := 0 } else s
    (∀ u ws, demandWrites from' s.ev.x w num seq n x out = .ok (u, ws) → (∀ y ∈ ws, y.kind ≠ .reg ∧ y.kind ≠ .peer) →
      ∃ t, Ends .pergolaEvalComplete s t ∧ ∀ v, u.warp? s.ev.x = some v →
        (w.det = true → t.mem = u.mem ∧ ∃ z rs l full, t.warp? s.ev.x = some z ∧ z.wait = .run ∧ z.pend = v.pend ∧
          z.held = v.held ++ [.mat ws rs lines (some { tok := tok, d := d, log := l, full := full }) false w.ipc none]) ∧
        (w.det = false →
          t.warp? s.ev.x = some { v.fill tok [.s d (BitVec.ofNat 64 num)] with wait := .run } ∧
          NumberDone u t v.ctx v.core 6 num ∧
          (Memory.wf u.mem = true → (∀ y ∈ ws, y.kind ≠ .uncached) →
            ws.Pairwise (fun y z => y.pa + y.data.length ≤ z.pa ∨ z.pa + z.data.length ≤ y.pa) →
            (∀ y ∈ ws, memReadN t.mem y.pa y.data.length = y.data) ∧
            ∀ a, (∀ y ∈ ws, a < y.pa ∨ y.pa + y.data.length ≤ a) → memRead t.mem a = memRead u.mem a))) ∧
    ∀ u a, demandWrites from' s.ev.x w num seq n x out = .error (u, .entry s.ev.x a) →
      ((∀ e ∈ c.cq, e.isEval s.ev.x = false) → c.cq.length < 16 →
        ∃ t e, Ends .pergolaEvalComplete s t ∧ (t.core w.core).cq = c.cq ++ [e] ∧ t.warps = s.warps ∧ t.mem = s.mem ∧
          t.tls = s.tls ∧ e.ctx = w.ctx ∧ e.warp = s.ev.x ∧ e.cmd = .eval w.tmode.ltiles w.tmode.lset ∧ e.prio = w.tmode.eprio ∧
          e.ashape = a ∧ e.st = .queued ∧ e.seq = s.seq) ∧
      ∀ e, c.cq.find? (fun e => e.isEval s.ev.x) = some e → e.st = .running → e.ashape.extractLsb' 0 4 &&& ~~~c.bands = 0 →
        c.paused = false → ∃ t, Ends .pergolaEvalComplete s t ∧ t.mem = s.mem ∧ t.tls = s.tls ∧
          (t.core w.core).cq = c.cq.filter (fun y => y.seq != e.seq) ∧
          t.warp? s.ev.x = some { w with credit := w.credit ++ [(w.tmode.ltiles, w.tmode.lset)] }

/-- What an evaluation reads, computes and writes (R368, R371, R375, R376). Memory changes in its evaluation region alone, whose bytes the
model leaves free (R377; log 41). It runs over the needed tiles of every node, a tile after
those before it. A LEAF's elements are memory's. An element of EWISE, ROWRED, MAP and CAST is R371's function of its inputs' elements,
and one of a CONTRACT its k-steps' result from +0, each rounded once to the node's format. What a demand then writes is, of every row
of its grid rectangle, those elements at the places of the row, and a tstore those of its rectangle at its destination's (R390). -/
def Sys2Proof.Machine.EvaluationValues : Prop :=
  (∀ x s w n rect u tiles, evaluate x s w n rect = .ok (u, tiles) → ∀ m ∈ w.perg.nodes,
    ∀ t ∈ neededTiles m.desc (((needsOf w.perg n rect).filter fun y => y.1 = m.idx).map Prod.snd),
      (m.kind ≠ .leaf → 4 ≤ w.tmode.ecnt) ∧ ∃ env env', evalTile x w.perg m env t = .ok env' ∧
        env.tiles <+: env'.tiles ∧ env'.tiles <+: tiles) ∧
  (∀ x s w n rect u tiles, evaluate x s w n rect = .ok (u, tiles) → Memory.wf s.mem = true →
    let lo := acAlias w.core + (((w.block? s).bind fun b => assocGet b.abase w.core).getD 0 + w.tmode.ebase) * 4096
    ∀ a, (a < lo ∨ lo + w.tmode.ecnt * 4096 ≤ a) → memRead u.mem a = memRead s.mem a) ∧
  (∀ x n acc s va len u l, operandRange s x.who .load acc va len = .ok (u, l) → x.waits u l = [] → x.over n = [] →
    u.poison = [] → (u.core x.who.core).tc = [] → (∀ y ∈ l, y.kind ≠ .reg ∧ y.kind ≠ .peer ∧ y.kind ≠ .uncached) →
    ∃ t, evalRead x n acc s va len = .ok (t, (l.flatMap fun y => memReadN u.mem y.pa y.len).map fun b => (b, none)) ∧
      t.mem = u.mem) ∧
  (∀ x p n env tr tc env', n.kind = .leaf → evalTile x p n env (tr, tc) = .ok env' →
    let d := n.desc
    let w := tileW d tc
    let runs := if d.fmt = .q4 ∧ d.qdir = true then w else tileH d tr
    let va (i : Nat) : Word := if d.fmt = .q4 ∧ d.qdir = true then d.elemVa (tr * 32) (tc * 32 + i) else d.elemVa (tr * 32 + i) (tc * 32)
    ∃ (at' : Nat → State) (b : Nat → List (Byte × Option Nat)) (v : TileV),
      at' 0 = env.s ∧ at' runs = env'.s ∧ env'.tiles = env.tiles ++ [v] ∧ v.idx = n.idx ∧ v.tr = tr ∧ v.tc = tc ∧
      (∀ i, i < runs → evalRead x n true (at' i) (va i) (if d.fmt = .q4 then 17 else w * elemSize d.fmt) = .ok (at' (i + 1), b i)) ∧
      ((∀ i, i < runs → ∀ q ∈ b i, q.2 = none) → ∀ r c, r < tileH d tr → c < w → v.codes.getD (r * w + c) 0 =
        if d.fmt = .q4 then
          let l := (b (if d.qdir then c else r)).map Prod.fst
          let j := if d.qdir then r else c
          (l.getD 0 0).toNat * 16 + (l.getD (1 + j / 2) 0).toNat / 2 ^ (4 * (j % 2)) % 16
        else codeAt (elemSize d.fmt) c ((b r).map Prod.fst))) ∧
  (∀ x p n env tr tc env', n.kind ≠ .leaf → n.kind ≠ .contract → evalTile x p n env (tr, tc) = .ok env' →
    let d := n.desc
    let w := tileW d tc
    ∃ (v : TileV) (e : List Byte), env'.tiles = env.tiles ++ [v] ∧ v.idx = n.idx ∧ v.tr = tr ∧ v.tc = tc ∧
      (¬ (n.kind = .cast ∧ d.op ≠ 0) → e = []) ∧
      (n.kind = .cast → d.op ≠ 0 → ∃ u b, e = b.map Prod.fst ∧ evalRead x n true env.s
        (d.saddr + BitVec.ofNat 64 (if d.op = 1 then tr * 32 else tc * 32)) (if d.op = 1 then tileH d tr else w) = .ok (u, b)) ∧
      ∀ r c, r < tileH d tr → c < w → plainElem p env.tiles n
        (if e = [] then 0 else (e.getD (if d.op = 1 then r else c) 0).toInt) (tr * 32 + r) (tc * 32 + c) =
          .ok (v.codes.getD (r * w + c) 0)) ∧
  (∀ p l (n m : Node) e (r c : Nat), (n.inputs[0]?).bind p.byIdx = some m →
    let place (i : Nat) (c : Nat) : Int × Int := mapAt (n.desc.edgeMap i) r c
    let code (m : Node) (q : Int × Int) : Nat := (elemOf l m q.1.toNat q.2.toNat).1
    let sound (m : Node) (q : Int × Int) : Prop := elemBad l n m q.1.toNat q.2.toNat = none
    let val (m : Node) (q : Int × Int) : FVal := valueIn m (code m q)
    let gives (x : Nat) : Prop := plainElem p l n e r c = .ok x
    let round (x : FVal) : Nat := narrow (fmtOf n.desc.fmt) n.round x
    let down := decide (n.round.mode = .rdn)
    let x := val m (place 0 c)
    (n.kind = .ewise → sound m (place 0 c) →
      ((n.inputs[1]?).bind p.byIdx = none →
        (∀ o y, (o, y) ∈ [(8, x.neg), (9, x.abs), (15, x)] → n.desc.op = o → gives (round y)) ∧
        ∀ o g, (o, g) ∈ [(10, SFun.exp2), (11, .log2), (12, .rcp), (13, .rsq), (14, .tanh)] → n.desc.op = o →
          gives (specialBits g (fmtOf n.desc.fmt) n.round x)) ∧
      ∀ m', (n.inputs[1]?).bind p.byIdx = some m' → sound m' (place 1 c) →
        let y := val m' (place 1 c)
        ∀ o z, (o, z) ∈ [(0, sumF down [x, y]), (1, sumF down [x, y.neg]), (2, mulF x y), (3, pickF true x y), (4, pickF false x y)] →
          n.desc.op = o → gives (round z)) ∧
    (n.kind = .rowred → (∀ t, t < n.desc.klen → sound m (place 0 t)) →
      let v := (List.range n.desc.klen).map fun t => val m (place 0 t)
      (n.desc.op = 0 → gives (round (sumF down v))) ∧
      (n.desc.op ≠ 0 → ∀ a rest, v = a :: rest → gives (round (rest.foldl (pickF true) a)))) ∧
    (n.kind = .map →
      let q := place 0 c
      let inside := 0 ≤ q.1 ∧ q.1 < m.desc.rows ∧ 0 ≤ q.2 ∧ q.2 < m.desc.cols
      (inside → sound m q → gives (if x = .nan ∧ m.desc.fmt ≠ .q4 then round .nan else code m q)) ∧
      (¬ inside → gives (narrow (fmtOf n.desc.fmt) rne (decodeF (fmtOf .f32) n.desc.padv.toNat)))) ∧
    (n.kind = .cast → sound m (place 0 c) → gives (round (x.scale e)))) ∧
  (∀ x p (n a b : Node) env tr tc env', n.kind = .contract → evalTile x p n env (tr, tc) = .ok env' →
    (n.inputs[0]?).bind p.byIdx = some a → (n.inputs[1]?).bind p.byIdx = some b →
    let d := n.desc
    let g := (n.inputs[2]?).bind p.byIdx
    let h := tileH d tr
    let w := tileW d tc
    let nb := bandCount n.ashape
    let f := factorOf ([a.desc.fmt, b.desc.fmt] ++ (if d.op = 3 then [] else g.toList.map fun m => m.desc.fmt))
    let exp (l : List (Byte × Option Nat)) (i : Nat) : Int := match l[i]? with | some (v, none) => scaleExp v.toNat | _ => 0
    let elem (m : Node) (e r c : Nat) : FVal :=
      let q := mapAt (d.edgeMap e) r c
      elemValue env.tiles m q.1.toNat q.2.toNat
    ∃ v rs ws u, env'.tiles = env.tiles ++ [v] ∧ v.idx = n.idx ∧ v.tr = tr ∧ v.tc = tc ∧
      (d.saddr = 0 → rs = [] ∧ u = env.s) ∧
      (d.saddr ≠ 0 → evalRead x n false env.s (d.saddr + BitVec.ofNat 64 (tr * 32)) h = .ok (u, rs)) ∧
      (d.waddr = 0 → ws = []) ∧
      (d.waddr ≠ 0 → ∃ u', evalRead x n false u (d.waddr + BitVec.ofNat 64 (tc * 32)) w = .ok (u', ws)) ∧
      ∀ r c, r < h → c < w →
        let prod (k : Nat) : FVal :=
          let y := mulF ((elem a 0 (tr * 32 + r) k).scale (exp rs r)) ((elem b 1 k (tc * 32 + c)).scale (exp ws c))
          match g with
          | none => y
          | some m => mulF y
            (if d.op = 1 then elem m 2 (tr * 32 + r) k else if d.op = 2 then elem m 2 k (tc * 32 + c) else elem m 2 0 k)
        let cell : W32 := (List.range (d.klen / (8 * nb * f))).foldl (fun y t => cellAfter (accRnd n.ashape) nb f t prod y) 0
        v.codes.getD (r * w + c) 0 = narrow (fmtOf d.fmt) n.round (decodeF (fmtOf .f32) cell.toNat)) ∧
  (∀ s k w num seq n x u ws, n.kind ≠ .leaf → demandWrites s k w num seq n x (fun _ => []) = .ok (u, ws) →
    let g := x.grid n.desc
    ∃ s' tiles, evaluate (evalFor k k w w.det seq num) s w n x = .ok (s', tiles) ∧ ∀ r, r < g.rows →
      let row := (List.range g.cols).flatMap fun c => natBytes (elemSize n.desc.fmt) (elemOf tiles n (g.r0 + r) (g.c0 + c)).1
      let va := n.desc.elemVa (g.r0 + r) g.c0
      ∃ u1 u2 l, operandRange u1 w.who .store true va row.length = .ok (u2, l) ∧
        ∀ z ∈ l, ({ kind := z.kind, pa := z.pa, data := (row.drop (z.va - va).toNat).take z.len } : MatW) ∈ ws) ∧
  ∀ s k w num seq n x dst stride xl u ws, demandWrites s k w num seq n x (fun tiles => storeRows tiles n x dst stride xl) = .ok (u, ws) →
    ∃ s' tiles, evaluate (evalFor k k w w.det seq num) s w n x = .ok (s', tiles) ∧ ∀ r, r < x.rows →
      let row := (List.range x.cols).flatMap fun c => natBytes (elemSize n.desc.fmt) (elemOf tiles n (x.r0 + r) (x.c0 + c)).1
      let va := dst + BitVec.ofNat 64 (r * stride)
      ∀ z ∈ placesAt xl va row.length, ({ kind := z.kind, pa := z.pa, data := (row.drop (z.va - va).toNat).take z.len } : MatW) ∈ ws

/-- tmode sets quotas and modes within their limits, its warp waiting while the core's table has no room; tdrop marks its
node once; tquery answers counts, or a node's state; tsnap gives a LEAF's bytes a new home (R362, R364, R391 to R394). A deterministic
warp's table and mode stand so for its own quantum, and are held for the commit, where they take effect for its held writes in their
place (R173, R386, R392; how, log 10). -/
def Sys2Proof.Machine.NodeTables : Prop :=
  ∀ s w f, s.curWarp = some w →
    let heldTable (x : Warp) : Prop :=
      if w.det then x.held = w.held ++ [.tab x.perg x.tmode] ∧ x.base = some (w.base.getD (w.perg, w.tmode))
      else x.held = w.held ∧ x.base = w.base
    (let v := w.getS f.a
     (tmodeOk s s.cur w v = false → Faults (.tmode f) s w Trap.operand) ∧
     (tmodeOk s s.cur w v = true → s.quotaFits s.cur w.core (parseTmode v) = true →
       ∃ t x, Ends (.tmode f) s t ∧ t = { s with warps := t.warps } ∧ (∀ k, k ≠ s.cur → t.warp? k = s.warp? k) ∧
         t.warp? s.cur = some x ∧ x = { w with tmode := parseTmode v, wait := .run, base := x.base, held := x.held } ∧ heldTable x) ∧
     (tmodeOk s s.cur w v = true → s.quotaFits s.cur w.core (parseTmode v) = false →
       ∃ c, c.body = .tmode v ∧ Ends (.tmode f) s (s.setWarp s.cur { w with wait := .refused c }))) ∧
    (∀ n, w.perg.find (w.getS f.a).toNat = some n → n.dropped = false → ∃ v, Ends (.tdrop f) s (s.setWarp s.cur v) ∧
      v = { w with perg := v.perg, base := v.base, held := v.held } ∧ heldTable v ∧
      v.perg.nodes = w.perg.nodes.map (fun x => if x.idx = n.idx then { n with dropped := true, dropNew := true } else x)) ∧
    ((w.perg.find (w.getS f.a).toNat = none ∨ ∃ n, w.perg.find (w.getS f.a).toNat = some n ∧ n.dropped = true) →
      ∃ v, Ends (.tdrop f) s (s.setWarp s.cur v) ∧ v = { w with base := v.base, held := v.held } ∧ heldTable v) ∧
    (∃ x, GivesB (.tquery f) s s w f.d x ∧
      (w.getS f.a = 0 → x = BitVec.ofNat 64 (w.perg.nodes.length + w.perg.used * 2 ^ 9 + w.tmode.nq * 2 ^ 20)) ∧
      (w.getS f.a ≠ 0 → w.perg.find (w.getS f.a).toNat = none → x = 0) ∧
      ∀ n, w.getS f.a ≠ 0 → w.perg.find (w.getS f.a).toNat = some n →
        x = BitVec.ofNat 64 ((if n.kind ≠ .leaf then 1 else if n.made = .leaf then 2 else 3) + n.made.code * 16
          + if n.dropped then 128 else 0)) ∧
    (w.perg.find (w.getS f.a).toNat = none → Faults (.tsnap f) s w { cause := Cause.nodeHandle }) ∧
    ∀ n, w.perg.find (w.getS f.a).toNat = some n →
      (n.kind ≠ .leaf → Faults (.tsnap f) s w Trap.operand) ∧
      (n.kind = .leaf → ∀ u x u' y, rangePlaces s w .load (elemSize n.desc.fmt) n.desc.home = .ok (u, x) →
        rangePlaces u w .store (elemSize n.desc.fmt) { n.desc.home with base := w.getS f.b } = .ok (u', y) →
        u'.absentIn (x ++ y) = [] → u'.poisonIn x = false → (∀ z ∈ y, z.kind ≠ .reg) →
        ∃ t v, Ends (.tsnap f) s t ∧ t.warp? s.cur = some v ∧ (v.perg.nodes = w.perg.nodes.map fun m =>
          if m.idx = n.idx then { n with desc := { n.desc with haddr := w.getS f.b } } else m) ∧
          (w.det = true → t.mem = u'.mem ∧ ∃ ws, v.held = w.held ++
            [.mat ws [] [] none false w.ipc (some (n.handle, some n.desc.haddr)), .tab v.perg w.tmode]) ∧
          (∀ a b, w.det = false → x = [a] → y = [b] → a.len = b.len → Memory.wf u'.mem = true →
            (∀ z ∈ [a, b], z.kind = .cached ∨ z.kind = .cap ∨ z.kind = .scratch) →
            memReadN t.mem b.pa b.len = memReadN u'.mem a.pa a.len))

/-- Demanded nodes and the node table; what the model chooses or infers is marked in the parts: log 10, 41, 43. -/
def Obligations.DemandsAndTables : Prop := Demands ∧ EvaluationValues ∧ NodeTables

/-! ## Grids, phases, deques, waits -/

/-- glaunch: a record within its limits, a depth below ten and the block's first warp; accepted, a grid of its context is
created, one deeper, its instance number the result; while what its warp released before it is unperformed it is kept as a release, and the warp
goes on with its result owed (R158, R438; log 4). gwait goes on once its grid has retired (R417 to R419, R438, R439). That the record is
checked before the depth, and the depth before the leader, is the model's reading, log 40. -/
def Obligations.Launches : Prop :=
  ∀ s w f, s.curWarp = some w →
    (∀ u b, readIssue s w (w.getS f.a) 128 128 = .ok (u, b) →
      (recordOk b = false → Faults (.glaunch f) s w { cause := Cause.launchRecord }) ∧
      (recordOk b = true → 10 ≤ w.depth u → Faults (.glaunch f) s w { cause := Cause.launchDepth }) ∧
      (recordOk b = true → w.depth u < 10 → w.wid ≠ 0 → Faults (.glaunch f) s w { cause := Cause.launchLeader }) ∧
      (recordOk b = true → w.depth u < 10 → w.wid = 0 → w.det = false → u.unperformed u.cur = true →
        ∃ v, Ends (.glaunch f) s { u.token.2.setWarp u.cur v with
            rels := u.rels ++ [{ warp := u.cur, tok := u.nextId
                                 op := .cmd { body := .glaunch (parseRecord b), d := f.d.toNat, ipc := w.ipc, tok := u.nextId } }] } ∧
          v.wait = w.wait ∧ v.pend = w.pend ++ [{ tok := u.nextId, flag := w.clause.fb, ready := false, writes := [] }]) ∧
      (recordOk b = true → w.depth u < 10 → w.wid = 0 → w.det = false → u.unperformed u.cur = false → u.unretired w.ctx < 4096 →
        ∃ t v g, Ends (.glaunch f) s t ∧ t.warp? s.cur = some v ∧ t.mem = u.mem ∧
          (t.ctx w.ctx).grids = (u.ctx w.ctx).grids + 1 ∧ t.grids = tset u.grids (u.nextId + 1) g ∧
          g.recd = parseRecord b ∧ g.inst = (u.ctx w.ctx).grids + 1 ∧ g.depth = w.depth u + 1 ∧ g.parent = some w.grid ∧
          v.pend = w.pend ++ [{ tok := u.nextId, flag := w.clause.fb, ready := true
                                writes := [.s f.d.toNat (BitVec.ofNat 64 g.inst)] }]) ∧
      (recordOk b = true → w.depth u < 10 → w.wid = 0 → w.det = true →
        ∃ t v c, Ends (.glaunch f) s t ∧ t.warp? s.cur = some v ∧ v.held = w.held ++ [.cmd c] ∧
          c.body = .glaunch (parseRecord b) ∧ v.qend = true)) ∧
    (let v := w.getS f.a
     let named := 1 ≤ v.toNat ∧ v.toNat < 2 ^ 32 ∧ v.toNat ≤ (s.ctx w.ctx).grids
     let retired := ∃ p ∈ s.grids, p.2.ctx = w.ctx ∧ p.2.inst = v.toNat ∧ p.2.retired = true
     (¬ named → Faults (.gwait f) s w Trap.operand) ∧
     (named → retired → ∃ t, Ends (.gwait f) s t ∧ t.warp? s.cur = some { w with wait := .run, qend := w.det || w.qend } ∧
       t.mem = s.mem ∧ (t.core w.core).l1 = []) ∧
     (named → ¬ retired → Ends (.gwait f) s (s.setWarp s.cur { w with wait := .gwait v.toNat, qend := w.det || w.qend })))

/-- phend writes the carried registers to the warp's record in scratchpad, frees its nodes and makes it phase-waiting; migpt
holds the warp of a persistent grid while a migration is asked for; ginst answers the grid's word; yield gives way (R421,
R422, R441, R444). -/
def Obligations.PhasesAndYields : Prop :=
  ∀ s w, s.curWarp = some w →
    (∀ f, (w.recd s = none ∨ (∃ r, w.recd s = some r ∧ r.phased = false) ∨ w.winbase ≠ 0) →
      Faults (.phend f) s w Trap.operand) ∧
    (∀ f r, w.recd s = some r → r.phased = true → w.winbase = 0 →
      (w.det = true → Ends (.phend f) s (s.setWarp s.cur { w with held := w.held ++ [.phend], qend := true })) ∧
      (w.det = false → w.allReady = true → guardIssue s w [recordRng s w r] = .ok s → recordAbsent s w r = [] →
        ∃ t v, Ends (.phend f) s t ∧ t.warp? s.cur = some v ∧ v.status = .phaseWait ∧ v.perg.nodes = [] ∧ v.pend = [] ∧
          (Memory.wf s.mem = true → (∀ p, p < r.carry →
            memReadN t.mem (recordPa s w r + p * 128) 128 = lanesBytes (w.holdResults.vAt p)) ∧
            ∀ a, (a < recordPa s w r ∨ recordPa s w r + r.carry * 128 ≤ a) → memRead t.mem a = memRead s.mem a))) ∧
    (∀ f, let asked := (((w.recd s).map fun r => r.persist).getD false && (s.core w.core).migreq) = true
      (asked → Ends (.migpt f) s (s.setWarp s.cur { w with wait := .migpt, qend := w.det || w.qend })) ∧
      (¬ asked → Ends (.migpt f) s (s.setWarp s.cur { w with qend := w.det || w.qend }))) ∧
    (∀ f, ∃ t v x, Ends (.ginst f) s t ∧ t.warp? s.cur = some v ∧ t.mem = s.mem ∧
      Adds w v { tok := s.nextId, flag := w.clause.fb, ready := true, writes := [.s f.d.toNat x] } ∧
      ∀ g, w.grid? s = some g → x.extractLsb' 0 32 = BitVec.ofNat 32 g.inst ∧ x.extractLsb' 32 4 = BitVec.ofNat 4 g.depth ∧
        x.extractLsb' 36 4 = BitVec.ofNat 4 w.role ∧
        (g.recd.phased = false → x.extractLsb' 40 24 = 0)) ∧
    ∀ f, Ends (.yield f) s (s.setWarp s.cur { w with wait := .yield })

/-- Task deques: a push adds at the bottom in its place among its cycle's pushes, or answers 0 when full; at the end of the
cycle a pop takes the bottom entry that is not cancelled, a steal the top one; an empty deque answers 0 or makes a plain pop
wait; an access needs the grant (R431 to R433, R442). A push that its warp's earlier releases still precede is kept as a release, its
register interlocked, and the warp goes on (R158; log 4). -/
def Sys2Proof.Machine.TaskDeques : Prop :=
  ∀ s w f, s.curWarp = some w →
    let q := f.q.toNat
    let quad := w.core / 4
    let l := s.deque quad q
    let v := w.getS f.a
    (s.ownsDeque w q = false → ∀ i ∈ [Instr.tqpush f, .tqpop f, .tqpopNw f, .tqsteal f],
      Faults i s w { cause := Cause.queueAccess }) ∧
    (s.ownsDeque w q = true → v.toNat < 2 ^ 40 → Faults (.tqpush f) s w Trap.operand) ∧
    (s.ownsDeque w q = true → 2 ^ 40 ≤ v.toNat → w.det = false → s.unperformed s.cur = true →
      Ends (.tqpush f) s { s.token.2.setWarp s.cur (w.oweFixed s.nextId f.d.toNat) with
        rels := s.rels ++ [{ warp := s.cur, tok := s.nextId, op := .push q v f.d.toNat }] }) ∧
    (s.ownsDeque w q = true → 2 ^ 40 ≤ v.toNat → w.det = false → s.unperformed s.cur = false →
      let later (p : Push) : Prop := p.q = q ∧ (w.core < p.core ∨ (w.core = p.core ∧ w.wid < p.wid))
      let n := ((s.quad quad).pushes.filter fun p => p.q == q && coreWidLt w.core w.wid p.core p.wid).length
      ∃ t, Ends (.tqpush f) s t ∧ t.mem = s.mem ∧
        (l.length < 256 → t.deque quad q = l.take n ++ [v] ++ l.drop n ∧ t.warp? s.cur = some (w.setS f.d 1)) ∧
        (256 ≤ l.length → (∀ p ∈ (s.quad quad).pushes, ¬ later p) → t.deque quad q = l ∧ t.warp? s.cur = some (w.setS f.d 0)) ∧
        (256 ≤ l.length → ∀ p ∈ (s.quad quad).pushes, later p →
          (∀ r ∈ (s.quad quad).pushes, r.q = q → r ≠ p → coreWidLt r.core r.wid p.core p.wid = true) →
          t.deque quad q = l.tail.take (n - 1) ++ [v] ++ l.tail.drop (n - 1) ∧
          (p.warp ≠ s.cur → t.warp? s.cur = some (w.setS f.d 1) ∧
            ∀ y, s.warp? p.warp = some y → t.warp? p.warp = some (y.setS (BitVec.ofNat 6 p.d) 0)))) ∧
    (s.ownsDeque w q = true → 2 ^ 40 ≤ v.toNat → w.det = true →
      Ends (.tqpush f) s (s.setWarp s.cur { w with held := w.held ++ [.tqpush q v f.d.toNat], qend := true })) ∧
    (s.ownsDeque w q = true → ∀ i kind, (i, kind) ∈ [(Instr.tqpop f, 0), (.tqpopNw f, 1), (.tqsteal f, 2)] →
      ∃ t x, Ends i s t ∧ t.warp? s.cur = some x ∧ t.mem = s.mem ∧ t.deque quad q = l ∧ x.s = w.s ∧
        x.wait = .tqpop kind q f.d.toNat s.nextId ∧ (w.det = true → x.qend = true) ∧
        x.pend = w.pend ++ [{ tok := s.nextId, flag := w.clause.fb, ready := false, writes := [] }]) ∧
    ∀ k y kind d tok, s.warp? k = some y → y.wait = .tqpop kind q d tok → y.status = .live → y.det = false →
      (s.quad (y.core / 4)).qvf.ticks = true →
      (∀ p ∈ s.warps, p.1 ≠ k → ∀ a b c e, p.2.wait ≠ .tqpop a b c e) →
      let l := s.deque (y.core / 4) q
      let cancels := (s.ctx y.ctx).cancels
      let ends := if kind = 2 then l.reverse else l
      let t := s.popsOfCycle
      t.mem = s.mem ∧
      (∀ e, (ends.find? fun e => !cancels.contains (e.toNat / 2 ^ 40)) = some e →
        t.warp? k = some { y.fill tok [.s d e] with wait := .run } ∧ (t.deque (y.core / 4) q).length < l.length ∧
        (t.core y.core).l1 = []) ∧
      ((ends.find? fun e => !cancels.contains (e.toNat / 2 ^ 40)) = none → t.deque (y.core / 4) q = [] ∧
        t.warp? k = some (if kind = 0 then y else { y.fill tok [.s d 0] with wait := .run }))

/-- cancel enters an instance in its context's table, cancel.clr removes it, and the warp goes on once every deque has applied
it; a full table faults as cancel-full (R432, R443). -/
def Sys2Proof.Machine.Cancels : Prop :=
  (∀ s w f, s.curWarp = some w →
    let v := w.getS f.a
    let x := s.ctx w.ctx
    let named := 1 ≤ v.toNat ∧ v.toNat < 2 ^ 24
    let room := v.toNat ∈ x.cancelTable ∨ x.cancelTable.length < 16
    (¬ named → Faults (.cancel f) s w Trap.operand ∧ Faults (.cancelClr f) s w Trap.operand) ∧
    (named → ¬ room → Faults (.cancel f) s w { cause := Cause.cancelFull }) ∧
    ∀ i clr, (i, clr) ∈ [(Instr.cancel f, false), (.cancelClr f, true)] → named → (clr = true ∨ room) →
      (w.det = false → ∃ t, Ends i s t ∧ t.warp? s.cur = some { w with wait := .cancel clr v.toNat } ∧
        (t.ctx w.ctx).pendCancel = x.pendCancel ++ [(s.cur, clr, v.toNat)] ∧ (t.ctx w.ctx).cancels = x.cancels) ∧
      (w.det = true → Ends i s (s.setWarp s.cur { w with held := w.held ++ [.cancel clr v.toNat w.ipc], qend := true }))) ∧
  ∀ s k clr inst r w, (s.ctx s.ev.x).pendCancel = (k, clr, inst) :: r → s.warp? k = some w → w.wait = .cancel clr inst →
    ∃ t, Ends .cancelComplete s t ∧ t.warp? k = some { w with wait := .run } ∧ (t.ctx s.ev.x).pendCancel = r ∧
      (clr = true → inst ∉ (t.ctx s.ev.x).cancels) ∧ (clr = false → inst ∈ (t.ctx s.ev.x).cancels) ∧
      ∀ j, j ≠ inst → (j ∈ (t.ctx s.ev.x).cancels ↔ j ∈ (s.ctx s.ev.x).cancels)

/-- Task deques and the cancel table; what the model chooses or infers is marked in the parts: log 4. -/
def Obligations.DequesAndCancels : Prop := TaskDeques ∧ Cancels

/-- A wait that is over ends: of a timeline, a barrier, a grid, an invalidation, a migration, a route; a yield after
64 cycles or with no other warp ready that may be scheduled (R280, R321, R434, R439, R441, R444). -/
def Obligations.WaitsEnd : Prop :=
  (∀ s w, s.warp? s.ev.x = some w → w.status = .live → w.qend = false →
    (∀ n v, w.wait = .waitt n v → v ≤ (s.tl w.ctx w.core).doneOf n → ∃ t x, Ends .waitResume s t ∧ t.warp? s.ev.x = some x ∧ x.wait = .run ∧ x.s = w.s ∧
        t.mem = s.mem ∧ (t.core w.core).l1 = []) ∧
    (∀ n v, w.wait = .waitt n v → ¬ v ≤ (s.tl w.ctx w.core).doneOf n → s.droppedAt w n v = true →
      Ends .waitResume s (s.trap s.ev.x { w.unretire with wait := .run }
        { cause := Cause.operationDropped, faddr := BitVec.ofNat 64 n } .fault)) ∧
    (∀ b ph, w.wait = .bar b ph → ph < s.barPhase w b → ∃ t, Ends .waitResume s t ∧
      t.warp? s.ev.x = some { w with wait := .run } ∧ t.mem = s.mem ∧ (t.core w.core).l1 = []) ∧
    (∀ i, w.wait = .gwait i → s.instRetired w.ctx i = true → ∃ t, Ends .waitResume s t ∧
      t.warp? s.ev.x = some { w with wait := .run } ∧ t.mem = s.mem ∧ (t.core w.core).l1 = []) ∧
    (w.wait = .migpt → (s.core w.core).migreq = false → Ends .waitResume s (s.setWarp s.ev.x { w with wait := .run })) ∧
    (w.wait = .tlbisync → s.invalidating s.ev.x = false → Ends .waitResume s (s.setWarp s.ev.x { w with wait := .run })) ∧
    (∀ a t, w.wait = .peer a → noRoute s a = false → startAccess s s.ev.x { w with wait := .run } a = .ok t →
      Ends .waitResume s t)) ∧
  ∀ s w, s.warp? s.ev.x = some w → w.status = .live → w.wait = .yield →
    (64 ≤ s.clock.toNat - w.stamp / 16 ∨ ∀ p ∈ s.warps, p.1 ≠ s.ev.x → p.2.core = w.core → p.2.ready = false ∨ s.barred p.1 p.2 = true) →
    Ends .yieldExpire s (s.setWarp s.ev.x { w with wait := .run })

namespace Sys2Proof.Machine

/-- Whether a warp stands before another in the deterministic order: cluster rank, block rank, wid (R174). -/
def StandsBefore (s : State) (v w : Warp) : Prop :=
  let r (x : Warp) : Nat := ((x.cluster? s).map fun c => c.rank).getD 0
  r v < r w ∨ (r v = r w ∧ (v.rank < w.rank ∨ (v.rank = w.rank ∧ v.wid < w.wid)))

/-- What one held entry of warp `k` does when it is applied (R173): a store writes its lanes' bytes, an atomic its home, its old
values the result it owes; a timeline rises; a deque takes a push; the constant paths are discarded; an accepted command has joined
its engine; a full queue, an absent line and a peer without a route hold the commit; a change of the node table or of the mode of R392
takes its place in the sequence (log 10); a copy over one outstanding waits for the end of the cycle and then, if it still meets it,
faults (R188; log 82). -/
def EntryApplies (s : State) (k : Nat) (w : Warp) : Prop :=
  (∀ a, s.guardHits w.ctx w.core (writeRngs a.kind a.size a.lanes) = [] →
    ((s.anyAbsent a = true ∨ noRoute s a = true) → applyHeld s k w (.acc a) = .hold) ∧
    (s.anyAbsent a = false → noRoute s a = false → lanesError s w.core true a a.lanes = .ok () →
      (a.kind = .store → applyHeld s k w (.acc a) = .ok (performStore s w a)) ∧
      ∀ op, a.kind = .atom op → ∃ t v, applyHeld s k w (.acc a) = .ok t ∧ t.mem = (performAtomic s w a op).1.mem ∧
        t.warp? k = some v ∧ ∀ p ∈ w.pend, p.tok = a.tok → ∃ q ∈ v.pend, q.tok = a.tok ∧ q.ready = true)) ∧
  (∀ c, (∀ u l ready, accept s k w c = .ok u l ready → ∃ t, applyHeld s k w (.cmd c) = .ok t ∧ t.mem = u.mem ∧ t.cores = u.cores ∧
      t.colls = u.colls ∧ t.kiosks = u.kiosks ∧ t.grids = u.grids) ∧
    (accept s k w c = .full → applyHeld s k w (.cmd c) = .hold)) ∧
  (∀ n v, applyHeld s k w (.tladv n v) = .ok (s.raiseTl w.ctx w.core n v)) ∧
  (∀ q v d, ∃ t, applyHeld s k w (.tqpush q v d) = .ok t ∧ t.mem = s.mem ∧
    ((s.deque (quadOf w.core) q).length < 256 → (t.deque (quadOf w.core) q).length = (s.deque (quadOf w.core) q).length + 1)) ∧
  applyHeld s k w .pfence = .ok (s.discardPaths w.core) ∧
  (∀ p m, applyHeld s k w (.tab p m) = .ok (s.setWarp k { w with perg := p, tmode := m })) ∧
  (∀ c, applyHeld s k w (.overlap c true) = .fail s (overlapTrap c.body.guarded) ∧ applyHeld s k w (.overlap c false) = .hold) ∧
  (∀ c l, s.warp? k = some w → w.held = .overlap c false :: l → (∀ q dst, w.wait ≠ .overlap q dst) →
    s.overlapCheck k = s.setWarp k { w with held := (if (clashOf s w c.body).isSome then HeldOp.overlap c true else .cmd c) :: l }) ∧
  ∀ c q l, accept s k w c = .halt (.wait (.overlap q l)) → applyHeld s k w (.cmd c) = .later (.overlap c false)

end Sys2Proof.Machine

/-- A deterministic round commits once every warp of the launch has ended its quantum, waits or has exited (R171 to R174, R421): the
warps' held entries are applied in the deterministic order, each warp's own in the order it left them, an entry that has to wait
holding the commit there; then results arrive, waits and pops are looked at, queued phases start and the round number rises. While it
holds part way, no warp of the launch is picked. With nothing held, no byte of memory changes. An entry's fault ends its warp's entries
there: no later write of it is performed at this commit, and the bytes of finished conversions stay held (R382, R488). Where a commit holds, and that a later
step goes on from there, is the model's reading, log 10. -/
def Obligations.RoundsAndPhases : Prop :=
  (∀ s g, tget s.grids s.ev.x = some g → commitDue s s.ev.x g = true →
    let gid := s.ev.x
    let order := detOrder s gid
    let r := commitAll (if g.committing then s else s.rewindTables gid) order
    (r.2 = true → (g.committing = false ∨ commitMark r.1 ≠ commitMark s) → ∃ t, Ends .roundCommit s t ∧ t.mem = r.1.mem ∧ t.warps = r.1.warps ∧
      ∀ h, tget r.1.grids gid = some h → tget t.grids gid = some { h with committing := true }) ∧
    (r.2 = false → let u := dispatchPhases (order.foldl retryMode (order.foldl endRound r.1)) gid
      ∃ t, Ends .roundCommit s t ∧ t.mem = u.mem ∧ t.warps = u.warps ∧
        ∀ h, tget u.grids gid = some h → tget t.grids gid = some { h with committing := false, round := h.round + 1 }) ∧
    ((∀ p ∈ s.warps, p.2.held = [] ∧ p.2.status = .live ∧ p.2.wait = .run ∧ p.2.grid = gid ∧ p.2.base = none) →
      (∀ b ∈ s.blocks, b.2.nextPhase = false) →
      ∃ t h, Ends .roundCommit s t ∧ t.mem = s.mem ∧ tget t.grids gid = some h ∧ h = { g with committing := false, round := g.round + 1 } ∧
        ∀ k w, s.warp? k = some w → k ∈ order → t.warp? k = some { w.deliver with qend := false, retired := 0 })) ∧
  (∀ (s : State) gid, (s.warps.map Prod.fst).Nodup →
    (detOrder s gid).Pairwise (fun j k => ∀ v w, s.warp? j = some v → s.warp? k = some w → ¬ StandsBefore s w v) ∧
    ∀ k, k ∈ detOrder s gid ↔ ∃ w, s.warp? k = some w ∧ w.grid = gid ∧ w.status ≠ .exited) ∧
  (∀ s k r, commitAll s (k :: r) =
    (let x := commitWarp (((s.warp? k).map fun w => w.held.length).getD 0) s k
     if x.2 then x else commitAll x.1 r)) ∧
  (∀ (s : State) k w op rest n, s.warp? k = some w → w.held = op :: rest →
    EntryApplies s k w ∧
    (∀ t v, applyHeld s k w op = .ok t → t.warp? k = some v →
      commitWarp (n + 1) s k = commitWarp n (t.setWarp k { v with held := v.held.drop 1, credit := [] }) k) ∧
    (applyHeld s k w op = .hold → commitWarp (n + 1) s k = (s, true)) ∧
    (∀ op', applyHeld s k w op = .later op' → commitWarp (n + 1) s k = (s.setWarp k { w with held := op' :: rest }, true)) ∧
    (∀ u x t v, applyHeld s k w op = .fail u t → u.warp? k = some x → commitFault u k op (x.held.drop 1) t = some v →
      commitWarp (n + 1) s k = (v, false))) ∧
  (∀ (s : State) k op rest t u, commitFault s k op rest t = some u → u.mem = s.mem ∧ u.peerMem = s.peerMem ∧
    ∀ v, u.warp? k = some v → v.held = rest.filter HeldOp.conversion) ∧
  (∀ (s : State) gid k w, s.warp? k = some w → ∃ v, (s.rewindTables gid).warp? k = some v ∧ v.held = w.held ∧ v.s = w.s ∧ v.v = w.v ∧
    (w.base = none → v = w) ∧ ∀ b, w.base = some b → w.grid = gid → v.perg = b.1 ∧ v.tmode = b.2 ∧ v.base = none) ∧
  (∀ (s : State) k w g, w.grid? s = some g → g.committing = true → s.barred k w = true) ∧
  ∀ s b, tget s.blocks s.ev.x = some b → s.detBlock s.ev.x = false → ∀ t, dispatchPhase s s.ev.x = some t →
    Ends .phaseDispatch s t ∧ tget t.blocks s.ev.x = some { b with nextPhase := false } ∧ t.mem = s.mem

/-- A die admits a cluster whole or not at all (R414, R415, R423): placed, all its blocks stand on the cores of one group, each warp on
the core of its wid, and its context is resident; refused, nothing is placed and its back-off grows. A parked block leaves its cores
with its cluster's others, its memory kept, and returns with it (R424, R425; when, is the model's choice, log 48). Grids come from
records that pass, and a unit of a user queue advances RD by one and submits or rejects its record (R418, R419, R465; log 53). Which
of a die's groups takes a cluster is the model's choice, log 39. -/
def Obligations.AdmissionAndQueues : Prop :=
  (∀ s g, tget s.grids s.ev.y = some g → g.retired = false → s.ev.z < g.recd.clusters → s.ev.x < 4 →
    let die := s.ev.x
    let gid := s.ev.y
    let lin := s.ev.z
    let q := s.clusterOf gid lin g
    q.2.admitted = false → (g.recd.det = true → g.recd.persist = false → detTurn s die gid lin g = true) → s.advances g.ctx .warps = true →
    let placed (s : State) : Option State := if g.recd.persist then placeAll s die gid g else placeOnDie s die gid lin g
    let refused (t : State) : Prop := t.warps = s.warps ∧ t.blocks = s.blocks ∧ t.cores = s.cores ∧ t.mem = s.mem ∧
      (t.die die).gen = Config.admitNext (s.die die).gen ∧
      ∃ x, tget t.clusters q.1 = some x ∧ x.admitted = false ∧ x.attempt = q.2.attempt + 1 ∧
        x.backoff = some (s.clock.toNat + 2 ^ min (q.2.attempt + 1) 10 * (16 + (Config.admitNext (s.die die).gen).toNat % 16))
    (q.2.backoff = none →
      (∀ t, placed s = some t → ∃ u, Ends .admitAttempt s u ∧ (u.ctx g.ctx).res = true ∧ u.warps = t.warps ∧ u.blocks = t.blocks ∧
        u.clusters = t.clusters) ∧
      (placed s = none → ∃ t, Ends .admitAttempt s t ∧ refused t)) ∧
    ∀ n, q.2.backoff = some n → n ≤ s.clock.toNat →
      let v := s.setCluster q.1 { q.2 with backoff := none }
      v.clusterOf gid lin g = (q.1, { q.2 with backoff := none }) →
      (g.recd.det = true → g.recd.persist = false → detTurn v die gid lin g = true) →
      (∀ t, placed v = some t → ∃ u, Ends .admitBackoffExpire s u ∧ (u.ctx g.ctx).res = true ∧ u.warps = t.warps ∧ u.blocks = t.blocks ∧
        u.clusters = t.clusters) ∧
      (placed v = none → ∃ t, Ends .admitBackoffExpire s t ∧ refused t)) ∧
  (∀ s die gid lin g t, placeOnDie s die gid lin g = some t → (∀ p ∈ s.warps, p.1 < s.nextId) → (∀ p ∈ s.blocks, p.1 < s.nextId) →
    let q := s.clusterOf gid lin g
    ∃ cores ∈ coreGroups die g.recd.cores, (∀ n ∈ cores, dieOf n = die) ∧
      tget t.clusters q.1 = some { q.2 with cores := cores, admitted := true, backoff := none } ∧
      (t.blocks.filter fun p => decide (s.nextId ≤ p.1)).length = g.recd.bpc ∧
      (∀ p ∈ t.blocks, s.nextId ≤ p.1 → p.2.cluster = q.1 ∧ p.2.sbase.map Prod.fst = cores ∧ p.2.abase.map Prod.fst = cores) ∧
      (∀ p ∈ t.warps, s.nextId ≤ p.1 → p.2.cluster = q.1 ∧ cores[p.2.wid % cores.length]? = some p.2.core) ∧
      ∀ k, k < s.nextId → t.warp? k = s.warp? k ∧ tget t.blocks k = tget s.blocks k) ∧
  (∀ s x c g, tget s.blocks s.ev.x = some x → s.homeOf x = some (c, g) →
    let all := s.blocksOf x.cluster
    let die := dieOf (c.cores.headD 0)
    (∃ p ∈ all, mayPark s p.1 p.2 g = true) → (∀ p ∈ all, mayPark s p.1 p.2 g = true ∨ (p.2.parked = false ∧ s.blockDone p.1 = true)) →
    s.parkUsed die + sumNat (all.map fun p => s.parkBytes p.1 p.2 g.recd) ≤ (s.die die).parkcfg.toNat % 4096 * 2 ^ 20 →
    ∃ t, Ends .parkBlock s t ∧ ∀ p ∈ all, (∃ y, tget t.blocks p.1 = some y ∧ y.parked = true ∧ y.cluster = x.cluster) ∧
      ∀ q ∈ t.warps, q.2.block = p.1 → q.2.status ≠ .live) ∧
  (∀ (s : State) l, Memory.wf s.mem = true → Memory.wf (s.moveAllocs l).mem = true ∧
    (∀ a, (∀ b, movedTo l b = a ↔ b = a) → memRead (s.moveAllocs l).mem a = memRead s.mem a) ∧
    ∀ a, movedTo l a ≠ a → (∀ b, movedTo l b = movedTo l a → b = a ∨ b = movedTo l a) →
      (∀ c ∈ s.mem, c.1 = movedTo l a → movedTo l c.1 ≠ c.1) → memRead (s.moveAllocs l).mem (movedTo l a) = memRead s.mem a) ∧
  (∀ s x c g u t, tget s.blocks s.ev.x = some x → s.homeOf x = some (c, g) → x.parked = true → x.freed = false →
    (∃ p ∈ s.warps, p.2.cluster = x.cluster ∧ p.2.status = .parked ∧ waitOver s p.1 p.2 = true) →
    s.advances g.ctx .warps = true → reserveSlots s g.ctx c.cores = some u →
    (u.blocksOf x.cluster).foldl (fun a p => a.bind fun s => s.unpark p.1 g.recd) (some u) = some t →
    Ends .unparkBlock s t ∧ (∃ y, tget t.blocks s.ev.x = some y ∧ y.parked = false) ∧
      ∀ p ∈ t.warps, p.2.block = s.ev.x → p.2.status ≠ .parked) ∧
  (∀ s, s.boot.ready = true → s.unretired s.ev.x < 4096 → ∃ t, Ends .gridSubmit s t ∧
    (∀ u b, readRecord s s.ev.x s.ev.v = (u, some b) → (t.ctx s.ev.x).grids = (u.ctx s.ev.x).grids + (if recordOk b then 1 else 0)) ∧
    (∀ u, readRecord s s.ev.x s.ev.v = (u, none) → t = u)) ∧
  ∀ s, let u := s.uqOf s.ev.x
    let a := u.qaddr.toNat
    s.boot.ready = true → u.mapped = true → u.pend ≠ 0 → s.unretired u.ctx.toNat < 4096 → Memory.wf s.mem = true →
    let rd := memWord s (a + 0x10)
    let entry := memWord s (memWord s a + rd % max (mem32 s (a + 0xC)) 1 * 8)
    let v := s.putWord (a + 0x10) ((rd + 1) % 2 ^ 64)
    let r := submitGrid v u.ctx.toNat (BitVec.ofNat 64 entry)
    r.1.mem = v.mem →
    ∃ t, Ends .uqConsumeUnit s t ∧ memWord t (a + 0x10) = (rd + 1) % 2 ^ 64 ∧ t.grids = r.1.grids ∧
      (t.uqOf s.ev.x).pend = (if u.pend = 1 then BitVec.ofNat 16 (min (mem32 s (a + 8)) 65535) else u.pend - 1) ∧
      (r.2 ≠ 0 → mem32 t (a + 0x18) = (mem32 s (a + 0x18) + 1) % 2 ^ 32 ∧ mem32 t (a + 0x1C) = r.2 ∧ memWord t (a + 0x20) = entry)

/-! ## Traps and contexts -/

namespace Sys2Proof.Machine

/-- The word at a warp's handler, where a fetch of it in system mode succeeds. -/
def handlerWord (s : State) (w : Warp) : Option Word := peekWord s { w.who with sys := true } (s.ctx w.ctx).tvec

/-- Whether a warp has a handler to enter: a vector that is not 0 and points to a clause header, and user mode (R450). -/
def HasHandler (s : State) (w : Warp) : Prop :=
  w.sys = false ∧ (s.ctx w.ctx).tvec ≠ 0 ∧ (s.ctx w.ctx).tvec.toNat % 8 = 0 ∧ ∀ x, handlerWord s w = some x → isHeader x = true

/-- The registers of a handler's entry, from those of the warp (R446, R447, R450). -/
def EntersHandler (w v : Warp) (tvec : Word) (t : Trap) (tpc fpc : Word) : Prop :=
  v.sys = true ∧ v.pc = tvec ∧ v.em = w.lm ∧ v.lm = w.lm ∧ v.tem = w.em ∧ v.tpc = tpc ∧
  v.tstat = (if w.regctr ≠ 0 then 1 else 0) ||| (if t.cause = Cause.preEmpt then 2 else 0) ∧
  v.fcause.extractLsb' 0 8 = t.cause ∧ v.fcause.extractLsb' 16 8 = t.detail ∧ v.fcause.extractLsb' 24 16 = t.index ∧
  v.faddr = t.faddr ∧ v.fpc = fpc ∧ v.fnode = t.fnode ∧ v.fnpc = t.fnpc ∧ v.fnreg = t.fnreg ∧ v.pend = [] ∧
  (∀ r : BitVec 6, r.toNat < 56 → v.getS r = w.getS r) ∧
  (∀ j, j < 8 → v.getS (BitVec.ofNat 6 (56 + j)) = w.shadow.get ⟨j % 8, Nat.mod_lt _ (by decide)⟩) ∧
  (∀ j, j < 8 → v.shadow.get ⟨j % 8, Nat.mod_lt _ (by decide)⟩ = w.getS (BitVec.ofNat 6 (56 + j))) ∧
  v.v = w.v ∧ v.nmode = w.nmode ∧ v.regpc = w.regpc ∧ v.regctr = w.regctr

end Sys2Proof.Machine

/-- TrapEntry (R450): with a result still owed the warp waits for it; else every result arrives and it enters its handler, or
with none, the context is halted with the record saved. Nothing else changes, but for the trigger of R487. -/
def Obligations.TrapEntry : Prop :=
  (∀ s k w t kind, w.allReady = true →
    let h := w.holdResults
    let tpc := match kind with | .fault => w.regpc | .resume n => n
    (HasHandler s w → ∃ v, s.trap k w t kind = (s.trigger t.cause).setWarp k v ∧
      EntersHandler h v (s.ctx w.ctx).tvec t tpc w.ipc) ∧
    (¬ HasHandler s w → ∃ v, (s.trap k w t kind).warp? k = some v ∧ v.status = .halted ∧ v.faddr = t.faddr ∧ v.fpc = w.ipc ∧
      v.fcause.extractLsb' 0 8 = t.cause ∧ v.sys = w.sys ∧ v.s = h.s ∧ v.v = h.v ∧
      ((s.trap k w t kind).ctx w.ctx).halt = true ∧ (s.trap k w t kind).mem = s.mem)) ∧
  (∀ (s : State) (k : Nat) (w : Warp) (t : Trap) (kind : TrapKind), w.allReady = false → ∃ v, s.trap k w t kind = s.setWarp k v ∧ v.wait = .results ∧ v.pc = w.ipc ∧ v.s = w.s ∧
    v.v = w.v ∧ v.pend = w.pend) ∧
  ∀ (s : State) c, s.trigger c =
    (let meets := s.bvctl.getLsbD 0 = true ∧ s.bvctl.extractLsb' 8 8 = c ∧ s.bvctl.getLsbD 3 = false
     { s with bvctl := if meets then s.bvctl ||| 8 else s.bvctl })

/-- trap and brk enter the handler with their number in faddr and the next header in tpc; under DBG brk stops the context
instead; a word that decode refuses and one that cannot be fetched fault under their cause (R200, R220, R233, R450, R454). -/
def Sys2Proof.Machine.TrapInstructions : Prop :=
  ∀ s w, s.curWarp = some w →
    (∀ f, let n : Word := (f.ofs.extractLsb' 0 16).setWidth 64
      Ends (.trap f) s (s.trap s.cur w { cause := 0x04, faddr := n } (.resume w.pc)) ∧
      ((s.ctx w.ctx).dbg = false → Ends (.brk f) s (s.trap s.cur w { cause := 0x05, faddr := n } (.resume w.pc))) ∧
      ((s.ctx w.ctx).dbg = true → w.wait = .run → w.allReady = true → ∃ t v, Ends (.brk f) s t ∧ t.warp? s.cur = some v ∧ v.status = .stopped ∧
        v.pc = w.pc ∧ (t.ctx w.ctx).brk = true ∧ t.mem = s.mem)) ∧
    (∀ sub, Faults (.illegalInstruction sub) s w { cause := 0x01, detail := sub }) ∧
    (∀ x, Faults (.instructionFetchFault x) s w { cause := x.cause, detail := x.detail, faddr := x.faddr }) ∧
    ∀ f, w.allReady = true → HasHandler s w → ∃ v, Ends (.trap f) s ((s.trigger 0x04).setWarp s.cur v) ∧
      EntersHandler w.holdResults v (s.ctx w.ctx).tvec { cause := 0x04, faddr := (f.ofs.extractLsb' 0 16).setWidth 64 } w.pc w.ipc

/-- tret returns to user mode at s[S], after the rollback where that is regpc; a target that is no clause header halts the
context. mfsys and mtsys read and write the six system registers. All are illegal in user mode (R233, R382, R453, R454). -/
def Sys2Proof.Machine.ReturnAndSystemRegisters : Prop :=
  ∀ s w, s.curWarp = some w →
    (w.sys = false → ∀ i, ((∃ f, i = .tret f) ∨ (∃ f, i = .mfsys f) ∨ (∃ f, i = .mtsys f) ∨ (∃ f, i = .ctxsave f) ∨
      (∃ f, i = .ctxrest f) ∨ ∃ f, i = .preack f) → Faults i s w { cause := 0x01, detail := 10 }) ∧
    (w.sys = true →
      (∀ f : FmtBR, targetOk s { w.who with sys := false } (w.getS f.s) = true →
        ∃ v, Ends (.tret f) s (s.setWarp s.cur v) ∧ v.sys = false ∧ v.pc = w.getS f.s ∧ v.em = w.tem &&& w.lm ∧
          (∀ r : BitVec 6, r.toNat < 56 → v.getS r = w.getS r) ∧
          (∀ j, j < 8 → v.getS (BitVec.ofNat 6 (56 + j)) = w.shadow.get ⟨j % 8, Nat.mod_lt _ (by decide)⟩) ∧
          v.perg = (if w.getS f.s = w.regpc then w.perg.rollback else w.perg) ∧ v.v = w.v ∧ v.fcause = w.fcause) ∧
      (∀ f : FmtBR, targetOk s { w.who with sys := false } (w.getS f.s) = false → w.allReady = false →
        Ends (.tret f) s (s.setWarp s.cur (w.redo .results))) ∧
      (∀ f : FmtBR, targetOk s { w.who with sys := false } (w.getS f.s) = false → w.allReady = true → ∃ t v, Ends (.tret f) s t ∧
        t.warp? s.cur = some v ∧ v.status = .halted ∧ (t.ctx w.ctx).halt = true ∧ t.mem = s.mem) ∧
      (∀ f : FmtA, let n := f.imm16.toNat % 256
        ∃ x, Ends (.mfsys f) s (putS s w f x) ∧ (n = 0 → x = (s.ctx w.ctx).tvec) ∧ (n = 1 → x = w.tpc) ∧
          (n = 2 → x = w.tem.setWidth 64) ∧ (n = 3 → x = w.tstat) ∧ (n = 4 → x = (s.ctx w.ctx).seed) ∧
          (n = 5 → x = (s.ctx w.ctx).tdata)) ∧
      ∀ f : FmtA, let n := f.imm16.toNat % 256
        let v := w.getS f.a
        let c := s.ctx w.ctx
        (n = 0 → v.toNat % 8 ≠ 0 → Faults (.mtsys f) s w Trap.operand) ∧
        (n = 0 → v.toNat % 8 = 0 → Ends (.mtsys f) s (s.setCtx w.ctx { c with tvec := v })) ∧
        (n = 1 → Ends (.mtsys f) s (s.setWarp s.cur { w with tpc := v })) ∧
        (n = 2 → Ends (.mtsys f) s (s.setWarp s.cur { w with tem := v.setWidth 32 })) ∧ (n = 3 → Ends (.mtsys f) s s) ∧
        (n = 4 → Ends (.mtsys f) s (s.setCtx w.ctx { c with seed := (v.setWidth 32).setWidth 64 })) ∧
        (n = 5 → Ends (.mtsys f) s (s.setCtx w.ctx { c with tdata := v })))

/-- Instructions that trap, and the return from a trap. -/
def Obligations.TrapsAndReturn : Prop := TrapInstructions ∧ ReturnAndSystemRegisters

/-- ctxsave writes the save area of its warp at s[A]; ctxrest reads one back (R455): the scalar registers, the user's s56 to s63 in the
shadow, the numbered words from 0x200, the selections, the generators and the vector registers come from the area's bytes, while lanes
that have exited stay so and the pc and the handler's own s56 to s63 do not change. Both make the checks of R19 over the area, then
that of its alignment, and then wait for every result. preack saves the warp at tpc in user mode, and without a pre-empt entry is an
illegal operand (R459). That what a stopped warp resumes from lies in the model's own fields, so that preack writes no memory, is the
model's choice, log 38, 55. -/
def Sys2Proof.Machine.SaveAreas : Prop :=
  ∀ s w f, s.curWarp = some w → w.sys = true →
    let va := w.getS f.a
    let x := w.deliver
    let size := 128 * (16 + w.budget)
    (∀ i need, (i, need) ∈ [(Instr.ctxsave f, Need.store), (.ctxrest f, .load)] →
      (∀ t, areaFault s w need va = some t → Faults i s w t) ∧
      (areaFault s w need va = none → w.allReady = false → Ends i s (s.setWarp s.cur (w.redo .results))) ∧
      (∀ c, classCheck true va size = .error c → areaFault s w need va = some (Trap.addr c 0 va)) ∧
      (∀ c, classCheck true va size = .ok c → (c = .user ∨ c = .sysHalf) →
        areaFault s w need va = if va.toNat % 128 = 0 then none else some (Trap.addr Cause.alignment 0 va))) ∧
    (areaFault s w .store va = none → w.allReady = true → w.det = false → ∀ u l, linePlaces s x .store (areaLines x va) = .ok (u, l) →
      guardIssue (u.setWarp s.cur x) x [Rng.flat va (0x800 + 128 * w.budget)] = .ok (u.setWarp s.cur x) →
      (∀ y ∈ l, y.kind = .cached ∧ y.len = 128 ∧ y.pa % 128 = 0) → Memory.wf u.mem = true → u.ordbuf = [] →
      l.Pairwise (fun y z => y.pa ≠ z.pa) →
      ∃ t, Ends (.ctxsave f) s t ∧ t.warp? s.cur = some x ∧
        (∀ i y, l[i]? = some y → memReadN t.mem y.pa 128 = (x.saveArea.drop (128 * i)).take 128) ∧
        ∀ a, (∀ y ∈ l, a < y.pa ∨ y.pa + 128 ≤ a) → memRead t.mem a = memRead u.mem a) ∧
    (areaFault s w .load va = none → w.allReady = true → ∀ u l, linePlaces s x .load (areaLines x va) = .ok (u, l) →
      ∃ t v b, Ends (.ctxrest f) s t ∧ t.warp? s.cur = some v ∧ t.mem = u.mem ∧ b = (loadXlats u w.core w.det (if w.det then x.held else []) l).2 ∧
        (w.det = false → (∀ y ∈ l, y.kind = .cached ∧ y.len = 128 ∧ y.pa % 128 = 0) → (u.core w.core).l1 = [] →
          b = l.flatMap fun y => memReadN u.mem y.pa 128) ∧
        v.pc = w.pc ∧ v.sys = true ∧ v.lm = (BitVec.ofNat 32 (fieldB b 0x240 8) &&& w.lm) ∧
        (∀ j, j < 56 → v.getS (BitVec.ofNat 6 j) = BitVec.ofNat 64 (fieldB b (8 * j) 8)) ∧
        (∀ j, j < 8 → v.getS (BitVec.ofNat 6 (56 + j)) = x.getS (BitVec.ofNat 6 (56 + j)) ∧
          v.shadow.get ⟨j % 8, Nat.mod_lt _ (by decide)⟩ = BitVec.ofNat 64 (fieldB b (8 * (56 + j)) 8)) ∧
        v.tem = BitVec.ofNat 32 (fieldB b 0x200 8) ∧ v.nmode = BitVec.ofNat 32 (fieldB b 0x208 8) ∧ v.winbase = fieldB b 0x210 8 ∧
        v.lo = fieldB b 0x218 8 ∧ v.spillbase = BitVec.ofNat 64 (fieldB b 0x220 8) ∧ v.spilllen = BitVec.ofNat 64 (fieldB b 0x228 8) ∧
        v.ashape = BitVec.ofNat 32 (fieldB b 0x230 8) ∧ v.tpc = BitVec.ofNat 64 (fieldB b 0x238 8) ∧
        v.regctr = BitVec.ofNat 64 (fieldB b 0x248 8) ∧ v.regpc = BitVec.ofNat 64 (fieldB b 0x250 8) ∧
        v.hintmiss = BitVec.ofNat 64 (fieldB b 0x258 8) ∧ v.spillcnt = BitVec.ofNat 64 (fieldB b 0x260 8) ∧
        (∀ j, j < 4 → v.selAt j = BitVec.ofNat 1024 (fieldB b (0x400 + 128 * j) 128)) ∧
        (∀ j, j < 32 → v.gens.get ⟨j % 32, Nat.mod_lt _ (by decide)⟩ = BitVec.ofNat 32 (fieldB b (0x600 + 4 * j) 4)) ∧
        v.gs = BitVec.ofNat 32 (fieldB b 0x680 4) ∧
        ∀ j, j < w.budget → v.vAt (v.lo + j) = lanesOfBytes ((b.drop (0x800 + 128 * j)).take 128)) ∧
    (w.tstat.getLsbD 1 = false → Faults (.preack f) s w Trap.operand) ∧
    (w.tstat.getLsbD 1 = true → w.allReady = false → Ends (.preack f) s (s.setWarp s.cur (w.redo .results))) ∧
    (w.tstat.getLsbD 1 = true → w.allReady = true → w.wait = .run → ∃ t v, Ends (.preack f) s t ∧ t.warp? s.cur = some v ∧
      v.status = .stopped ∧ v.sys = false ∧ v.pc = w.tpc ∧ v.preacked = true ∧ v.em = w.tem &&& w.lm ∧ t.mem = s.mem)

/-- CTXCTL: a pre-emption request marks the classes that hold the context's work, each stops at its point, and with the last
DONE and RES change at once; as the warps stop, the classes that took work of theirs in the meantime are awaited too; RESUME, under which the warps of frozen dies run again only at the thaw (R485); KILL, which stops the context so and then tears it down; slices, cooperative entry and
its time-out; a slot's word of R426, whose WEIGHT takes effect at a cycle boundary (R426, R427, R456 to R462). What a class leaves in
the save area is 512 bytes at its place in the order of ACKS, which the spec does not lay out: log 38; where a stop finds a warp, log 55. -/
def Sys2Proof.Machine.ContextControl : Prop :=
  (∀ s, let c := s.ev.x
    let x := s.ctx c
    ∃ t, Ends .ctxctlPreq s t ∧
      ((x.done = true ∨ x.preq = true) → t = s) ∧
      (x.done = false → x.preq = false → s.classesOf c = 0 →
        t = s.setCtx c { x with acks := 0, done := true, res := false, preq := false }) ∧
      (x.done = false → x.preq = false → s.classesOf c ≠ 0 → t = s.setCtx c { x with acks := s.classesOf c, preq := true })) ∧
  (∀ s, let c := s.ev.x
    let x := s.ctx c
    x.preq = true → x.acks.getLsbD (ackIndex s.ev.cls) = true → mayStop s c s.ev.cls = true →
    let area := x.saveb.toNat + 512 * ackIndex s.ev.cls
    ∃ t, Ends .preemptClassStop s t ∧
      (Memory.wf s.mem = true → ∀ a, (a < area ∨ area + 512 ≤ a) → memRead t.mem a = memRead s.mem a) ∧ (t.ctx c).acks.getLsbD (ackIndex s.ev.cls) = false ∧
      ((t.ctx c).acks = 0 → (t.ctx c).done = true ∧ (t.ctx c).res = false ∧ (x.kill = true → (t.ctx c).kill = false ∧
        (∀ y ∈ t.colls, y.ctx ≠ c) ∧ ∀ p ∈ t.kiosks, ∀ r ∈ p.2.runs, r.ctx ≠ c)) ∧ ((t.ctx c).acks ≠ 0 → (t.ctx c).res = x.res) ∧
      (s.ev.cls = .warps → (∀ p ∈ t.warps, p.2.ctx = c → p.2.status ≠ .live) ∧
        ((∃ p ∈ s.cores, ∃ e ∈ p.2.cq, e.ctx = c) → (t.ctx c).acks.getLsbD 1 = true) ∧
        ((∃ p ∈ s.cores, ∃ e ∈ p.2.pq, e.ctx = c) → (t.ctx c).acks.getLsbD 5 = true) ∧
        ((∃ p ∈ s.kiosks, ∃ r ∈ p.2.runs, r.ctx = c) → (t.ctx c).acks.getLsbD 6 = true) ∧
        ((∃ y ∈ s.colls, y.ctx = c) → (t.ctx c).acks.getLsbD 7 = true))) ∧
  (∀ s, let c := s.ev.x
    ∃ t, Ends .ctxctlResume s t ∧ t.mem = s.mem ∧ (t.ctx c).res = true ∧ ((s.ctx c).res = true → t = s) ∧
      ((s.ctx c).res = false → (t.ctx c).done = false ∧ (t.ctx c).halt = false ∧
        (s.frozen = true → t.warps = s.warps) ∧
        (s.frozen = false → ∀ p ∈ t.warps, p.2.ctx = c → p.2.status ≠ .stopped ∧ p.2.status ≠ .halted))) ∧
  (∀ s, let c := s.ev.x
    ∃ t, Ends .ctxctlKill s t ∧ t.mem = s.mem ∧
      (s.frozen = true → (t.ctx c).kill = true ∧ t.colls = s.colls ∧ t.kiosks = s.kiosks ∧ t.warps = s.warps) ∧
      (s.frozen = false → ((s.ctx c).done = true ∨ ((s.ctx c).preq = false ∧ s.classesOf c = 0)) → (t.ctx c).done = true ∧ (t.ctx c).kill = false ∧
        (∀ x ∈ t.colls, x.ctx ≠ c) ∧ (∀ p ∈ t.kiosks, ∀ r ∈ p.2.runs, r.ctx ≠ c) ∧ ∀ p ∈ t.cores, p.2.owner ≠ some c) ∧
      ((s.ctx c).done = false → ((s.ctx c).preq = true ∨ s.classesOf c ≠ 0) →
        (t.ctx c).kill = true ∧ (t.ctx c).preq = true ∧ (t.ctx c).done = false ∧ t.colls = s.colls ∧ t.kiosks = s.kiosks ∧ t.warps = s.warps)) ∧
  (∀ s, let c := s.ev.x
    (s.ctx c).res = true → (s.ctx c).slice ≠ 0 →
    (∃ p ∈ s.warps, p.2.ctx = c ∧ p.2.status ≠ .exited ∧ s.wanted c p.2.core = true) →
    Ends .sliceExpire s (s.requestStop c)) ∧
  (∀ s w, s.warp? s.ev.x = some w → (s.ctx w.ctx).preq = true → (s.ctx w.ctx).co = true → w.status = .live →
    ((s.ctx w.ctx).kill = false → w.wait = .run → w.clause.left = 0 → w.sys = false → w.qend = false → w.allReady = true → HasHandler s w →
      ∃ v, Ends .coopPreemptEntry s ((s.trigger Cause.preEmpt).setWarp s.ev.x v) ∧
        EntersHandler w.holdResults v (s.ctx w.ctx).tvec { cause := Cause.preEmpt } w.pc w.pc) ∧
    (w.preacked = false → s.owedWarp w = false → ∃ v, Ends .preackTimeout s (s.setWarp s.ev.x v) ∧ v.status = .stopped ∧ v.sys = w.sys)) ∧
  ∀ s, let v := s.ev.v
    let old := (s.core s.ev.x).slots.get ⟨s.ev.y % 8, Nat.mod_lt _ (by decide)⟩
    ∃ t, Ends .ctxslotWrite s t ∧ t.warps = s.warps ∧ t.mem = s.mem ∧
      ((v.extractLsb' 17 47 ≠ 0 ∨ v.extractLsb' 12 4 ≠ 0) → t = s) ∧
      (v.extractLsb' 17 47 = 0 → v.extractLsb' 12 4 = 0 →
        let x := (t.core s.ev.x).slots.get ⟨s.ev.y % 8, Nat.mod_lt _ (by decide)⟩
        x.valid = v.getLsbD 16 ∧ x.weight = old.weight ∧ x.ctx = v.extractLsb' 0 8 ∧
        x.next = (if v.extractLsb' 8 4 = old.weight then none else some (v.extractLsb' 8 4)) ∧
        ((old.valid = true ∨ v.getLsbD 16 = false) → x.pass = old.pass) ∧
        (old.valid = false → v.getLsbD 16 = true → x.pass = (s.core s.ev.x).freshPass s.ev.y) ∧
        ∀ w, x.next = some w → let y := ((t.core s.ev.x).reweigh s.ev.y).slots.get ⟨s.ev.y % 8, Nat.mod_lt _ (by decide)⟩
          y.weight = w ∧ y.next = none ∧ y.valid = x.valid ∧ y.ctx = x.ctx ∧ (x.weight ≠ 0 → y.pass = x.pass))

/-- Stopping, resuming and ending contexts, and their saved places; what the model chooses or infers is marked in the parts: log 38,
55. -/
def Obligations.ContextsAndSaves : Prop := SaveAreas ∧ ContextControl

/-- User queues and migration: a notify adds its units to PEND of a mapped queue, or to its memory count, and is dropped from
another context; unmapping moves PEND to the memory count and mapping moves the memory count into PEND; a core whose warps all stand at a point sets MOVING, and moves to another
physical core with its plane, cell by cell, once its classes stand still, its caches empty, and its held warps go on (R409, R441, R463,
R464, R467). When a migration begins and ends is the model's choice, log 51; the queue whose count an unmapped slot names, log 53. -/
def Obligations.QueuesAndMigration : Prop :=
  (∀ s, let u := s.uqOf s.ev.x
    ∃ t, Ends .doorbellNotify s t ∧ t.warps = s.warps ∧
      ((s.ev.z = 0 ∨ 65535 < s.ev.z ∨ s.ev.y ≠ u.ctx.toNat) → t = s) ∧
      (0 < s.ev.z → s.ev.y = u.ctx.toNat → u.mapped = true → u.pend.toNat + s.ev.z ≤ 65535 →
        t.mem = s.mem ∧ (t.uqOf s.ev.x).pend = u.pend + BitVec.ofNat 16 s.ev.z) ∧
      (0 < s.ev.z → s.ev.z ≤ 65535 → s.ev.y = u.ctx.toNat → u.mapped = false → Memory.wf s.mem = true →
        let a := (u.last.getD u.qaddr).toNat + 8
        bytesNat (memReadN t.mem a 4) = (bytesNat (memReadN s.mem a 4) + s.ev.z) % 2 ^ 32 ∧ t.uq = s.uq)) ∧
  (∀ s, let u := s.uqOf s.ev.x
    s.ev.v.getLsbD 0 = true → ∃ t, Ends .uqMap s t ∧ t.warps = s.warps ∧
      (u.mapped = false → s.ev.v.extractLsb' 32 32 = 0 → s.ev.v.extractLsb' 1 7 = 0 → uqOk s u.qaddr.toNat = true →
        let a := u.qaddr.toNat + 8
        let n := min (bytesNat (memReadN s.mem a 4)) 65535
        (t.uqOf s.ev.x).mapped = true ∧ (t.uqOf s.ev.x).ctx = s.ev.v.extractLsb' 8 8 ∧ (t.uqOf s.ev.x).pend = BitVec.ofNat 16 n ∧
          (Memory.wf s.mem = true → bytesNat (memReadN t.mem a 4) = bytesNat (memReadN s.mem a 4) - n))) ∧
  (∀ s, let u := s.uqOf s.ev.x
    s.ev.v.getLsbD 0 = false → ∃ t, Ends .uqUnmap s t ∧ t.warps = s.warps ∧
      (u.mapped = true → s.ev.v.extractLsb' 32 32 = 0 → s.ev.v.extractLsb' 1 7 = 0 → s.ev.v.extractLsb' 8 8 = u.ctx →
        let a := u.qaddr.toNat + 8
        (t.uqOf s.ev.x).mapped = false ∧ (t.uqOf s.ev.x).pend = 0 ∧ (t.uqOf s.ev.x).last = some u.qaddr ∧
          (Memory.wf s.mem = true → bytesNat (memReadN t.mem a 4) = (bytesNat (memReadN s.mem a 4) + u.pend.toNat) % 2 ^ 32))) ∧
  (∀ s, let n := s.ev.x
    (s.core n).moving = false → (s.core n).migreq = true → (∀ p ∈ s.warps, p.2.core = n → p.2.status = .exited ∨ atMigrationPoint s p.1 p.2 = true) →
    (∃ p ∈ s.warps, p.2.core = n ∧ honoursMigration p.2 = true) → mayTake s n s.ev.y = true →
    Ends .migration s (s.setCore n { s.core n with moving := true, target := BitVec.ofNat 6 s.ev.y })) ∧
  (∀ s, let n := s.ev.x
    (s.core n).moving = true → (s.core n).migreq = true → (s.core n).target.toNat = s.ev.y → (s.core n).still = true →
    let old := s.planeAt (s.physOf n)
    let dest := dieOf n * 34 + s.ev.y
    ∃ t, Ends .migration s t ∧
      ((∀ col i j, i < 1024 → j < 1024 → old.line col i < 1024 ∧ (old.line col i = old.line col j → i = j)) →
        (old.cells.map Prod.fst).Nodup → ∀ i j, i < 1024 → j < 1024 → (t.planeAt dest).cell false i j = old.cell false i j) ∧
      (∀ col l, (t.planeAt dest).line col l = l) ∧ (∀ k, k < 2048 → (t.planeAt dest).count k = (s.planeAt dest).count k + 1) ∧
      (t.core n).phys = BitVec.ofNat 6 s.ev.y ∧ (t.core n).moving = false ∧ (t.core n).migreq = false ∧ (t.core n).l1 = [] ∧
      (t.core n).tlb = [] ∧ t.mem = s.mem ∧ ∀ p ∈ t.warps, p.2.core = n → p.2.wait ≠ .migpt) ∧
  ∀ s, (s.core s.ev.x).migreq = true → (s.core s.ev.x).moving = false → ∃ t, Ends .migrationLapse s t ∧
    (t.core s.ev.x).migreq = false ∧ (t.sensOf (s.physOf s.ev.x)).migreq = false ∧ t.mem = s.mem ∧
    ∀ p ∈ t.warps, p.2.core = s.ev.x → p.2.wait ≠ .migpt

namespace Sys2Proof.Machine

/-! ## Events of the device -/

/-- A write of SHIFT waits for the next frame boundary and is ignored while a kernel runs on the die; it then governs; a slot
ends every 512 cycles and changes nothing that is read (R109, R111). -/
def RefreshEvents : Prop :=
  ∀ s : State,
    (s.kernelOn s.ev.x = true → Ends .wsrefWrite s s) ∧
    (s.kernelOn s.ev.x = false → ∃ t, Ends .wsrefWrite s t ∧ t.mem = s.mem ∧ t.warps = s.warps ∧
      (t.die s.ev.x).shift = (s.die s.ev.x).shiftNow s.clock ∧ (t.die s.ev.x).shiftPend = some (s.ev.v.extractLsb' 6 6, s.clock)) ∧
    (∀ v c, (s.die s.ev.x).shiftPend = some (v, c) → c ≠ s.clock → s.clock.toNat % 2 ^ 15 = 0 →
      ∃ t, Ends .wsRefreshShiftApply s t ∧ (t.die s.ev.x).shift = v ∧ (t.die s.ev.x).shiftPend = none ∧ t.mem = s.mem) ∧
    (s.clock.toNat % 512 = 0 → Ends .wsRefreshSlot s s) ∧
    ∀ d, let now := (s.die d).shiftNow s.clock
      (∀ v c, (s.die d).shiftPend = some (v, c) → c ≠ s.clock → s.clock.toNat % 2 ^ 15 = 0 → now = v) ∧
      ((s.die d).shiftPend = none ∨ s.clock.toNat % 2 ^ 15 ≠ 0 → now = (s.die d).shift) ∧
      (s.wsref d).extractLsb' 0 6 = BitVec.ofNat 6 (s.clock.toNat / 512 % 64) - now ∧
      (s.wsref d).extractLsb' 6 6 = now ∧ (s.wsref d).getLsbD 15 = s.kernelOn d

/-- A root is written unless its base lies outside HBM5 or a reserved bit is set; an inbound entry unless a reserved bit is
set, and then it is what peer accesses meet; bring-up assigns the device's number; another register takes an aligned write
of its own width (R37, R40, R42, R48, R49). -/
def RegisterEvents : Prop :=
  ∀ s : State,
    (let v := s.ev.v
     let ok := v.extractLsb' 52 12 = 0 ∧ v.extractLsb' 1 11 = 0 ∧ regionOf (v.toNat / 4096 * 4096) = .hbm
     (∀ c, s.ev.ctx = some c → ∃ t, Ends .rootWrite s t ∧ t.roots = s.roots ∧ t.mem = s.mem ∧
       ((ok → (t.ctx c).rootu = v) ∧ (¬ ok → t = s)) ∧ ∀ d, d ≠ c → t.ctx d = s.ctx d) ∧
     (s.ev.ctx = none → (ok → Ends .rootWrite s { s with roots := v }) ∧ (¬ ok → Ends .rootWrite s s))) ∧
    (s.ev.x < 512 →
      let ok := s.ev.v.extractLsb' 52 12 = 0 ∧ s.ev.v.extractLsb' 3 27 = 0
      (ok → ∃ t, Ends .inboundEntryWrite s t ∧ tgetD t.inbound s.ev.x 0 = s.ev.v ∧
        t = { s with inbound := t.inbound } ∧ ∀ e, e ≠ s.ev.x → tgetD t.inbound e 0 = tgetD s.inbound e 0) ∧
      (¬ ok → Ends .inboundEntryWrite s s)) ∧
    (s.ev.x < 4096 → ∃ t, Ends .fabricNumberAssign s t ∧ t = { s with devnum := t.devnum } ∧ t.devnum.getLsbD 12 = true ∧
      t.devnum.toNat % 4096 = s.ev.x) ∧
    (∀ r width, s.ev.v.toNat = regBase + r → regionOf (regBase + r) = .regs →
      (∃ id, regAt r = some (id, 0, width) ∧ (∀ q, id ≠ .doorbellPad q) ∧ s.ev.x = width) →
      Ends .registerWrite s (s.regWriteAt (regBase + r) s.ev.g none))

/-- HBM5: a request that names the settled target, or has a reserved bit, does nothing; one while no group retrains starts
group 0; one during a change supersedes it, and the groups that the change had still to retrain come first. A group that finishes
takes the state it started towards, and the next one starts towards the newest target (R114, R116 to R118). That a change that
supersedes asks for all four groups again, that a request equal to TARGET while PEND is nonzero is one, and that a group's PEND bit is
cleared as it starts, is the model's choice, log 71. -/
def HbmEvents : Prop :=
  ∀ s : State,
    let h := s.hbmOf s.ev.x
    let r := s.ev.v.extractLsb' 0 2
    (∀ g : Hbm, ∀ j, j < 4 → (g.pend.getLsbD j = true ↔ j ∈ g.todo)) ∧
    (s.ev.v.extractLsb' 2 30 ≠ 0 ∨ (r = h.target ∧ h.pend = 0) → Ends .hbmreqWrite s s) ∧
    (s.ev.v.extractLsb' 2 30 = 0 → ¬ (r = h.target ∧ h.pend = 0) →
      ∃ t g, Ends .hbmreqWrite s t ∧ t.hbmOf s.ev.x = g ∧ t.mem = s.mem ∧ g.target = r ∧ g.gstate = h.gstate ∧
        g.pcount = h.pcount ∧
        (h.cur = none → g.cur = some (0, r) ∧ g.todo = [1, 2, 3] ∧ g.super = h.super) ∧
        (∀ k st, h.cur = some (k, st) → g.cur = h.cur ∧ g.pend = 0xF ∧ (g.super = if h.reached then h.super else h.super + 1) ∧
          ∃ l, g.todo = h.todo ++ l ∧ l.Pairwise (· < ·) ∧ ∀ j, j ∈ l ↔ j < 4 ∧ j ∉ h.todo)) ∧
    ∀ k st, h.cur = some (k, st) → k < 4 →
      ∃ t g, Ends .hbmGroupRetrainDone s t ∧ t.hbmOf s.ev.x = g ∧ t.mem = s.mem ∧ g.pcount = h.pcount + 1 ∧
        g.target = h.target ∧ g.super = h.super ∧
        (∀ j, j < 4 → g.gstate.toList.getD j 0 = if j = k then st else h.gstate.toList.getD j 0) ∧
        (h.todo = [] → g.cur = none ∧ g.todo = []) ∧
        (∀ n rest, h.todo = n :: rest → g.cur = some (n, h.target) ∧ g.todo = rest)

/-- QVF: a write outside its ranges is discarded whole; else its fields change, and a step other than the newest target is
asked for unless a throttle holds the quad. The segment in progress completes first; each moves the frequency one step or the
voltage by at most two units towards the newest target, and the frequency rises only once the voltage is there (R469, R470). -/
def RampEvents : Prop :=
  (∀ s : State, s.ev.x < 32 →
    let v := s.ev.v
    let req := v.extractLsb' 0 5
    let droop := v.extractLsb' 8 5
    let cad := v.extractLsb' 16 5
    let q := (s.quad s.ev.x).qvf
    let ok := v.extractLsb' 48 16 = 0 ∧ v.extractLsb' 21 5 = 0 ∧ v.extractLsb' 13 3 = 0 ∧ v.extractLsb' 5 3 = 0 ∧
      4 ≤ req.toNat ∧ req.toNat ≤ 28 ∧ 4 ≤ droop.toNat ∧ droop.toNat ≤ 28 ∧ 1 ≤ cad.toNat ∧ cad.toNat ≤ 16
    (¬ ok → Ends .qvfWrite s s) ∧
    (ok → ∃ t p, Ends .qvfWrite s t ∧ (t.quad s.ev.x).qvf = p ∧ t.mem = s.mem ∧ p.reqf = req ∧ p.droopf = droop ∧
      p.cadbase = cad ∧ p.curf = q.curf ∧ p.curv = q.curv ∧
      (s.quadHeld s.ev.x = true ∨ req = q.target → p.target = q.target ∧ p.ramp = q.ramp ∧ p.super = q.super ∧ p.seg = q.seg) ∧
      (s.quadHeld s.ev.x = false → req ≠ q.target → p.target = req ∧ (p.super = if q.ramp then q.super + 1 else q.super) ∧
        (q.seg ≠ none → p.seg = q.seg ∧ p.ramp = q.ramp) ∧ (q.seg = none → p.seg = p.ahead ∧ p.ramp = p.ahead.isSome)))) ∧
  (∀ q : Qvf, let want := Config.volts q.target.toNat
    (q.curf.toNat < q.target.toNat → q.curv.toNat < want.toNat → ∃ v, q.ahead = some (v, q.curf) ∧ q.curv.toNat < v.toNat ∧
      v.toNat ≤ want.toNat ∧ v.toNat ≤ q.curv.toNat + 2) ∧
    (q.curf.toNat < q.target.toNat → want.toNat ≤ q.curv.toNat → q.ahead = some (q.curv, q.curf + 1)) ∧
    (q.target.toNat < q.curf.toNat → q.ahead = some (q.curv, q.curf - 1)) ∧
    (q.curf = q.target → q.curv ≠ want → ∃ v, q.ahead = some (v, q.curf) ∧ v.toNat ≤ q.curv.toNat + 2 ∧ q.curv.toNat ≤ v.toNat + 2) ∧
    (q.curf = q.target → q.curv = want → q.ahead = none)) ∧
  ∀ s : State, (s.quad s.ev.x).qvf.ramp = true →
    let q := (s.quad s.ev.x).qvf
    ∃ t p, Ends .vfRampSegment s t ∧ (t.quad s.ev.x).qvf = p ∧ t.mem = s.mem ∧ p.target = q.target ∧ p.super = q.super ∧
      (∀ x, q.seg = some x → p.curv = x.1 ∧ p.curf = x.2) ∧ (q.seg = none → p.curv = q.curv ∧ p.curf = q.curf) ∧
      p.seg = p.ahead ∧ p.ramp = p.ahead.isSome

/-- A droop: every core's CAD becomes 16 and DROOP 1, and each quad that no throttle holds is asked for its DROOPF; its end
clears DROOP and asks for REQF; afterwards CAD falls by one, to CADBASE at least (R471). -/
def DroopEvents : Prop :=
  (∀ s : State, s.supply.droop = false →
    ∃ t, Ends .droopDetect s t ∧ t.supply.droop = true ∧ t.mem = s.mem ∧ t.warps = s.warps ∧
      (∀ n, n < 128 → (t.core n).cad = 16 ∧ (t.core n).droop = true) ∧
      ∀ u, u < 32 → s.quadHeld u = false → (t.quad u).qvf.target = (s.quad u).qvf.droopf) ∧
  (∀ s : State, s.supply.droop = true →
    ∃ t, Ends .droopEnd s t ∧ t.supply.droop = false ∧ t.mem = s.mem ∧ t.warps = s.warps ∧
      (∀ n, n < 128 → (t.core n).droop = false ∧ (t.core n).cad = (s.core n).cad) ∧
      ∀ u, u < 32 → s.quadHeld u = false → (t.quad u).qvf.target = (s.quad u).qvf.reqf) ∧
  ∀ s : State, s.supply.droop = false → s.quadHeld (s.ev.x / 4) = false →
    ((s.quad (s.ev.x / 4)).qvf.cadbase).toNat < ((s.core s.ev.x).cad).toNat →
    Ends .cadenceStep s (s.setCore s.ev.x { s.core s.ev.x with cad := (s.core s.ev.x).cad - 1 })

/-- A piece from a peer or the host lies within one line; an atomic is one of R310's, of its type's size and aligned to it. -/
def Piece1 (r : OutReq) : Prop :=
  1 ≤ r.bytes.length ∧ r.addr % 128 + r.bytes.length ≤ 128 ∧
  ∀ op dt, r.op = .atom op dt → dt ∈ atomTypes op ∧ r.bytes.length = dt.width / 8 ∧ r.addr % (dt.width / 8) = 0 ∧
    (op = .cas → r.bytes2.length = dt.width / 8)

/-- What a flit carries: such pieces, and at most 240 bytes of their data (R478; how pieces are laid out in a flit is log 52). -/
def Payload (l : List OutReq) : Prop := (∀ r ∈ l, Piece1 r) ∧ sumNat (l.map OutReq.carried) ≤ 240

/-- The state and answer after a piece performed at sound memory. -/
def Served (r : OutReq) (pa : Nat) (s t : State) : Prop :=
  let n := r.bytes.length
  let old := memReadN s.mem pa n
  (r.op = .load → t.mem = s.mem ∧ t.answers = s.answers ++ [some old]) ∧
  (r.op = .store → t.answers = s.answers ++ [some []] ∧ memReadN t.mem pa n = r.bytes) ∧
  (∀ op dt, r.op = .atom op dt → t.answers = s.answers ++ [some old] ∧
    let x := bytesNat old
    let y := bytesNat r.bytes
    memReadN t.mem pa n =
      match op with
      | .add => natBytes n ((x + y) % 2 ^ (8 * n))
      | .min => if intOf dt y < intOf dt x then r.bytes else old
      | .max => if intOf dt y < intOf dt x then old else r.bytes
      | .and => natBytes n (x &&& y)
      | .or => natBytes n (x ||| y)
      | .xor => natBytes n (x ^^^ y)
      | .xchg => r.bytes
      | .cas => if old = r.bytes then r.bytes2 else old
      | .fadd => natBytes n (narrow (fmtOf .f32) rne (sumF false [valueOf .f32 x, valueOf .f32 y]))) ∧
  (∀ a, (a < pa ∨ pa + n ≤ a) → memRead t.mem a = memRead s.mem a) ∧ t.warps = s.warps

/-- A peer piece is performed once where the inbound table admits it and is answered with an error where it does not or no
number is assigned; a host piece is performed at its physical address (R39, R40, R140, R477). A peer access, a waitv or
a tstore's evaluation that has found no route faults, the last with its number complete (R141, R381). That PEER then reads 3, that the access has not been performed, and what a route is, is the model's
choice, log 52, 68. -/
def OutsideAccesses : Prop :=
  (∀ s : State, Memory.wf s.mem = true → Piece1 s.ev.req → s.frozen = false →
    let r := s.ev.req
    (∀ pa, s.devnum.getLsbD 12 = true → inboundPa s (r.addr % 2 ^ 39) (outNeed r.op) = some pa → lineOf pa ∉ s.poison →
      ∃ t, Ends .peerAccessArrive s t ∧ Served r pa s t) ∧
    (s.devnum.getLsbD 12 = false ∨ inboundPa s (r.addr % 2 ^ 39) (outNeed r.op) = none →
      Ends .peerAccessArrive s { s with answers := s.answers ++ [none] })) ∧
  (∀ s : State, Memory.wf s.mem = true → Piece1 s.ev.req →
    let r := s.ev.req
    (regionOf r.addr = .hbm ∨ regionOf r.addr = .cap → lineOf r.addr ∉ s.poison →
      ∃ t, Ends .hostAccess s t ∧ Served r r.addr s t) ∧
    (regionOf r.addr = .regs → regCheck r.addr r.bytes.length (outNeed r.op) = .ok () → r.op = .load →
      Ends .hostAccess s { s with answers := s.answers ++ [some (natBytes r.bytes.length (s.regReadAt r.addr).toNat)] })) ∧
  (∀ s w a, s.ev.nums = [] → s.warp? s.ev.x = some w → w.wait = .peer a → noRoute s a = true →
    ∃ l tr, l ∈ a.lanes ∧ Ends .peerNoRouteTimeout s (s.trap s.ev.x { w.unretire with wait := .run } tr .fault) ∧
      tr.cause = Cause.peerAccess ∧ tr.index = BitVec.ofNat 16 l.lane ∧ tr.faddr = l.va ∧
      tr.peer = (if a.kind.need.writes then 3 else 0) ∧ l.kind = .peer ∧ peerRoute s l.pa a.kind.need = .none) ∧
  (∀ s w r, s.ev.nums = [] → s.warp? s.ev.x = some w → w.wait = .waitv r → r.kind = .peer → peerRoute s r.pa .load = .none →
    w.allReady = true → Ends .peerNoRouteTimeout s (s.trap s.ev.x { w.unretire with wait := .run }
      { cause := Cause.peerAccess, faddr := r.va } .fault)) ∧
  ∀ s w i r0 c0 rows cols dst stride xl d num tok seq lines, s.ev.nums = [] → s.warp? s.ev.x = some w →
    w.wait = .eval (.store i r0 c0 rows cols dst stride xl d) num tok seq lines → w.det = false → s.peerIn .store .none xl = true →
    let v := { w.forget tok with wait := .run }
    v.allReady = true → ∃ x ∈ xl, x.kind = .peer ∧ peerRoute s x.pa .store = .none ∧
      Ends .peerNoRouteTimeout s ((endDemand (s.setWarp s.ev.x v) v num lines).trap s.ev.x v.unretire
        { cause := Cause.peerAccess, peer := 3, faddr := x.va } .fault)

/-- A port: DOWN enters TRAIN; 8 lanes make it UP, 4 DEGRADED, a third failure DOWN; a loss of lock is counted and retrains;
DIS disables it until it is cleared. A flit in sequence delivers its pieces once and in order, one that fails its CRC is
replayed, any other is discarded; its acknowledgement frees what the port has sent up to it. A flit sent waits in a buffer of
512 for its acknowledgement, and no flit of a flow is sent while another port has unacknowledged ones of it that it has not replayed
since it last left service (R478 to R480). How sequence numbers and acknowledgements run, that a bad CRC raises REPLAY, and which bytes count towards a flit's payload, is the
model's choice, log 52. -/
def LinkEvents : Prop :=
  (∀ s : State, s.ev.x < 16 →
    let p := s.portOf s.ev.x
    (p.st = .down → p.dis = false → Ends .linkTrainStart s (s.setPort s.ev.x { p with st := .train })) ∧
    ((p.st = .train ∨ p.st = .retrain) → ∃ t q, Ends .linkTrainResult s t ∧ t.portOf s.ev.x = q ∧ t.mem = s.mem ∧
      q.dis = p.dis ∧ q.replay = p.replay ∧ q.retrains = p.retrains ∧
      (s.ev.y = 8 → q.st = .up ∧ q.lanes = 8) ∧ (s.ev.y = 4 → q.st = .degraded ∧ q.lanes = 4) ∧
      (s.ev.y ≠ 8 → s.ev.y ≠ 4 → 2 ≤ p.fails → q.st = .down ∧ q.lanes = 0) ∧
      (s.ev.y ≠ 8 → s.ev.y ≠ 4 → p.fails < 2 → q.st = p.st ∧ q.fails = p.fails + 1)) ∧
    ((p.st = .up ∨ p.st = .degraded) → ∃ t q, Ends .linkRetrainEnter s t ∧ t.portOf s.ev.x = q ∧ q.st = .retrain ∧
      q.retrains = p.retrains + 1 ∧ q.nextSeq = p.nextSeq ∧ q.sent = p.sent.map (fun f => { f with replayed := false }) ∧
      t.mem = s.mem) ∧
    (∃ t q, Ends .peerPortDisable s t ∧ t.portOf s.ev.x = q ∧ q.st = .disabled ∧ q.dis = true ∧ t.mem = s.mem ∧
      q.sent = p.sent.map fun f => { f with replayed := false }) ∧
    (p.dis = true → ∃ t q, Ends .peerPortEnable s t ∧ t.portOf s.ev.x = q ∧ q.dis = false ∧ t.mem = s.mem ∧
      (p.st = .disabled → q.st = .down ∧ q.fails = 0) ∧ (p.st ≠ .disabled → q.st = p.st ∧ q.fails = p.fails))) ∧
  (∀ (s : State) n flow payload rest, let p := s.portOf n
    s.agenda = .send n flow payload :: rest → s.supply.off = false → s.frozen = false → (p.st = .up ∨ p.st = .degraded) →
    p.sent.length < 512 → (∀ m, m < 16 → m ≠ n → ∀ f ∈ (s.portOf m).sent, f.flow ≠ flow ∨ f.replayed = true) →
    (Payload payload → step s = .next (State.setPort { s with agenda := rest } n { p with
      sent := p.sent ++ [{ seq := p.sendSeq, flow := flow, payload := payload, replayed := false }], sendSeq := p.sendSeq + 1 })) ∧
    (¬ Payload payload → step s = .fault .noSuchEvent)) ∧
  (∀ (s : State) n rest, let p := s.portOf n
    s.agenda = .resend n :: rest → s.supply.off = false → s.frozen = false → (p.st = .up ∨ p.st = .degraded) → p.sent ≠ [] →
    step s = .next (State.setPort { s with agenda := rest } n { p with
      sent := p.sent.map fun f => { f with replayed := true }, replay := p.replay + BitVec.ofNat 32 p.sent.length })) ∧
  (∀ (p : Port) ack, p.acked ack = { p with sent := (p.acked ack).sent } ∧
    ∀ f, f ∈ (p.acked ack).sent ↔ f ∈ p.sent ∧ 1 ≤ (f.seq - ack).toNat ∧ (f.seq - ack).toNat < 2 ^ 15) ∧
  ∀ s : State,
    let p := s.portOf s.ev.x
    let f := s.ev.flit
    (p.st = .up ∨ p.st = .degraded) → s.frozen = false → Payload f.payload →
    (f.crcOk = false → Ends .flitReceive s (s.setPort s.ev.x { p with replay := p.replay + 1 })) ∧
    (f.crcOk = true → f.seq ≠ p.nextSeq → Ends .flitReceive s (s.setPort s.ev.x (p.acked f.ack))) ∧
    (f.crcOk = true → f.seq = p.nextSeq → ∃ t, Ends .flitReceive s t ∧
      t = f.payload.foldl servePeer (s.setPort s.ev.x { p.acked f.ack with nextSeq := p.nextSeq + 1 }) ∧
      t.answers.length = s.answers.length + f.payload.length)

/-- When power fails firmware asks every resident context to stop; those that have stopped resume once none of them is still
stopping, one that runs again already holding nothing up. When the hold-up runs
out only planes, shock records and what lies outside the module survive, every plane whole but one whose entry is cut; power-on starts
the boot path from a reset device (R46, R406, R472, R483). Whether an entry had begun is free, log 46; the conditions under which a
power-on comes are the model's, log 50. -/
def PowerEvents : Prop :=
  (∀ s : State, s.supply.holdup = false →
    ∃ t, Ends .powerLoss s t ∧ t.supply.holdup = true ∧ t.mem = s.mem ∧ t.warps = s.warps ∧
      t.supply.stopped = (s.ctxs.filter fun p => p.2.res).map Prod.fst ∧
      ∀ c ∈ t.supply.stopped, (t.ctx c).preq = true ∨ (t.ctx c).done = true) ∧
  (∀ s : State, s.supply.holdup = true → (s.supply.rails = true ∨ ∀ c ∈ s.supply.stopped, (s.ctx c).preq = false) →
    ∃ t, Ends .powerRecover s t ∧ t.supply.holdup = false ∧ t.supply.stopped = [] ∧ t.mem = s.mem ∧
      ∀ c ∈ s.supply.stopped, ((s.ctx c).res = true → t.ctx c = s.ctx c) ∧
        ((s.ctx c).res = false → (t.ctx c).res = true ∧ (t.ctx c).done = false ∧ (t.ctx c).halt = false ∧
          (s.frozen = false → ∀ p ∈ t.warps, p.2.ctx = c → p.2.status ≠ .stopped ∧ p.2.status ≠ .halted))) ∧
  (∀ s : State, s.supply.holdup = true →
    ∃ t, Ends .powerHoldupExpire s t ∧ t.supply.off = true ∧ t.mem = [] ∧ t.warps = [] ∧ t.ctxs = [] ∧
      t.boot.shocks = s.boot.shocks ∧ t.boot.flash = s.boot.flash ∧ t.boot.ready = false ∧ t.peerMem = s.peerMem ∧
      ∀ ph, (∀ p ∈ s.cores, s.planeHead p.1 ≠ none → s.physOf p.1 ≠ ph) → t.planeAt ph = s.planeAt ph) ∧
  (∀ s : State, s.supply.off = true →
    (∃ t, Ends .shockRecord s t ∧ t = { s with boot := { s.boot with shocks := t.boot.shocks } } ∧
      (10000 < s.ev.x → t.boot.shocks = s.boot.shocks ++ [s.ev.x]) ∧ (s.ev.x ≤ 10000 → t.boot.shocks = s.boot.shocks))) ∧
  ∀ s : State, (s.supply.off = true ∨ s.supply.rails = true ∨ s.boot.stage = 0) →
    ∃ t, Ends .powerOnReset s t ∧ t.planes = s.planes ∧ t.cores = [] ∧ t.mem = [] ∧ t.warps = [] ∧
      t.supply.off = false ∧ t.supply.rails = false ∧ t.boot.stage = 0 ∧ t.boot.flash = s.boot.flash ∧ t.boot.shock = !s.boot.shocks.isEmpty ∧
      ∀ n, n < 128 → (t.core n).phys = BitVec.ofNat 6 (n % 32)

/-- A sample changes no memory, register of a program or order: it takes readings, each new declaration logged to the boot
flash, and applies limits. A core too hot turns the compute rails off, logged too: while they are on, none that was sampled
is; what HBM5 holds and the I/O die's registers stay (R473, R474, R36). What the compute dies lose with their rails, and how a run of
unchanged samples is judged, is the model's choice, log 49. -/
def SensorEvents : Prop :=
  ∀ s : State, s.supply.rails = false → (∀ r ∈ s.ev.sample, r.phys < 136) →
    ∃ t, Ends .sensorSample s t ∧ t.roots = s.roots ∧ t.inbound = s.inbound ∧
      (t.supply.rails = true → t.warps = [] ∧ t.grids = [] ∧
        (∀ n, (t.core n).phys = (s.core n).phys ∧ (t.core n).slots = (s.core n).slots ∧ (t.core n).l1 = [] ∧ (t.core n).ops = [] ∧
          (t.core n).cq = []) ∧
        (∀ c, (t.ctx c).rootu = (s.ctx c).rootu ∧ (t.ctx c).saveb = (s.ctx c).saveb) ∧ t.boot.flash.head? = some .shutdown ∧
        (Memory.wf s.mem = true → s.l2dirty = [] → ∀ a, a < wsBase → memRead t.mem a = memRead s.mem a)) ∧
      (t.supply.rails = false → t.mem = s.mem ∧ t.warps = s.warps ∧ t.planes = s.planes ∧
        ∀ r ∈ s.ev.sample, (t.sensOf r.phys).shutdown = false) ∧
      ∀ r, s.ev.sample = [r] → t.supply.rails = false →
        (let x := t.sensOf r.phys
         (x.tfault.getLsbD 0 = false → x.t0 = some r.t0) ∧ (x.tfault.getLsbD 1 = false → x.t1 = some r.t1) ∧
         ((s.sensOf r.phys).tfault.getLsbD 0 = true → x.tfault.getLsbD 0 = true) ∧
         (r.t0 < -40 ∨ 150 < r.t0 → x.tfault.getLsbD 0 = true) ∧ (r.t1 < -40 ∨ 150 < r.t1 → x.tfault.getLsbD 1 = true) ∧
         x.cfault = ((s.sensOf r.phys).cfault ||| r.cfault) ∧
         (∀ b, b < 4 → x.current.getD b 0 = if x.cfault.getLsbD b then Config.bandRated else r.current.getD b 0) ∧
         (∀ i, i < 2 → x.tfault.getLsbD i = true → (s.sensOf r.phys).tfault.getLsbD i = false →
           FlashLog.thermal r.phys i ∈ t.boot.flash) ∧
         ∀ b, b < 4 → x.cfault.getLsbD b = true → (s.sensOf r.phys).cfault.getLsbD b = false → FlashLog.current r.phys b ∈ t.boot.flash)

/-- A boot stage that passes extends the measurement and hands over; one that fails falls back to slot B, then to recovery,
where an image that passes becomes the first stage. The self-test begins, an extended one emptying the volatile storage and training
the links that are down; it ends by giving faulty cores' numbers to spares and accepting launches, or fails on a die with fewer than 32
sound cores; an attestation request is answered over the measurement (R45 to R47, R481 to R484). The stages' order and causes after
slot B, the two steps of the self-test, what the extended one does to storage, and the byte order of messages, are the model's choice,
log 50; that SHA3 and ML-DSA are those of their standards, log 85; which spare takes which number, log 73. -/
def BootEvents : Prop :=
  ∀ s : State,
    let i := s.ev.image
    let signed := (sha3 i.pubKey = Config.fusedKey ∧ mlDsaVerify i.pubKey (bytes32 (sha3 i.bytes)) i.signature = true)
    let fresh := s.boot.svn.toNat ≤ i.version
    let sound (f : List Nat) (d : Nat) : List Nat := (List.range 34).filter fun p => !f.contains (d * 34 + p)
    let extended (m : BitVec 256) : BitVec 256 := sha3 (bytes32 m ++ bytes32 (sha3 i.bytes))
    (s.boot.recovery = false → s.boot.stage.toNat < 2 →
      (signed → fresh → Ends .bootStageCheck s { s with boot := { s.boot with m := extended s.boot.m, stage := s.boot.stage + 1 } }) ∧
      (¬ signed → s.boot.slot = false → Ends .bootStageCheck s { s with boot := { s.boot with
        slot := true, stage := 0, cause := 1, m := 0 } }) ∧
      (signed → ¬ fresh → s.boot.slot = false → Ends .bootStageCheck s { s with boot := { s.boot with
        slot := true, stage := 0, cause := 2, m := 0 } }) ∧
      (¬ (signed ∧ fresh) → s.boot.slot = true → Ends .bootStageCheck s { s with boot := { s.boot with
        stage := 0xFF, cause := 3, recovery := true, m := 0 } })) ∧
    (s.boot.recovery = true →
      (signed → fresh → Ends .recoveryImage s { s with boot := { s.boot with
        m := extended 0, stage := 1, cause := 0, recovery := false } }) ∧
      (¬ (signed ∧ fresh) → Ends .recoveryImage s s)) ∧
    (s.boot.stage = 2 → ∃ t, Ends .selfTest s t ∧ t.boot.stage = 3 ∧ t.boot.ready = s.boot.ready ∧ t.faulty = s.ev.nums ∧
      t.boot.stext = !s.boot.shocks.isEmpty ∧ t.planes = s.planes ∧
      (s.boot.shocks = [] → t.mem = s.mem ∧ t.ports = s.ports) ∧
      (s.boot.shocks ≠ [] → t.mem = [] ∧ ∀ n, n < 16 →
        (t.portOf n).st = if (s.portOf n).st = .down ∧ (s.portOf n).dis = false then .train else (s.portOf n).st) ∧
      ∀ n, n < 128 → (t.core n).phys = (s.core n).phys ∧
        ((∀ d, d < 4 → 32 ≤ (sound s.ev.nums d).length) → (s.core n).phys = BitVec.ofNat 6 (n % 32) →
          (t.core n).moving = s.ev.nums.contains (n / 32 * 34 + n % 32))) ∧
    (s.boot.stage = 3 → s.boot.stext = true → (∃ n, n < 16 ∧ (s.portOf n).st = .train) → exec .selfTest s = .fault .noSuchEvent) ∧
    (s.boot.stage = 3 → (s.boot.stext = false ∨ ∀ n, n < 16 → (s.portOf n).st ≠ .train) →
      ((∀ d, d < 4 → 32 ≤ (sound s.faulty d).length) →
        ∃ t, Ends .selfTest s t ∧ t.boot.ready = true ∧ t.boot.stage = 4 ∧ t.boot.shocks = [] ∧ t.mem = s.mem ∧
          t.planes = s.planes ∧ (∀ ph, ph < 136 → (t.sensOf ph).t0 ≠ none) ∧
          (∀ n, n < 128 → (t.core n).moving = false ∧ (t.core n).phys.toNat < 34 ∧
            s.faulty.contains (n / 32 * 34 + (t.core n).phys.toNat) = false) ∧
          (∀ m n, m < 128 → n < 128 → m / 32 = n / 32 → (t.core m).phys = (t.core n).phys → m = n) ∧
          ∀ n, n < 128 → s.faulty.contains (n / 32 * 34 + n % 32) = false → (t.core n).phys = BitVec.ofNat 6 (n % 32)) ∧
      ∀ d, d < 4 → (sound s.faulty d).length < 32 → (∀ e, e < d → 32 ≤ (sound s.faulty e).length) →
        ∃ t, Ends .selfTest s t ∧ t.boot.stage = 0xFF ∧ t.boot.cause = 4 ∧ t.boot.die = BitVec.ofNat 2 d ∧
          t.boot.ready = s.boot.ready) ∧
    Ends .attestationRequest s { s with boot := { s.boot with
      answer := Config.mlDsaSign (sha3 (bytes32 s.boot.m ++ bytes32 s.ev.nonce)) } }

/-- A freeze changes one bit, and so does a thaw where no KILL and no resumed warp waits for it; a frozen device issues nothing and performs no event of its dies; read-out changes
nothing (R485 to R487). -/
def FreezeEvents : Prop :=
  (∀ s : State, ∀ i ∈ [Instr.bvctlFreeze, .jtagFreeze], ∃ t, Ends i s t ∧ t = { s with bvctl := t.bvctl } ∧
    t.frozen = true ∧ ∀ k, k ≠ 3 → t.bvctl.getLsbD k = s.bvctl.getLsbD k) ∧
  (∀ s : State, ∃ t, Ends .bvctlThaw s t ∧ t.frozen = false ∧ (∀ k, k ≠ 3 → t.bvctl.getLsbD k = s.bvctl.getLsbD k) ∧
    ((∀ p ∈ s.ctxs, p.2.kill = false ∨ p.2.done = false) → (∀ p ∈ s.warps, p.2.status ≠ .stopped ∧ p.2.status ≠ .halted) →
      t = { s with bvctl := t.bvctl }) ∧
    (∀ c x, tget s.ctxs c = some x → x.res = true → x.preq = false →
      ∀ p ∈ t.warps, p.2.ctx = c → p.2.status ≠ .stopped ∧ p.2.status ≠ .halted) ∧
    ∀ c, (s.ctx c).kill = true → (s.ctx c).done = true → (t.ctx c).kill = false) ∧
  (∀ s : State, s.frozen = true → Ends .belvedereReadout s s) ∧
  (∀ (s : State) n rest, s.frozen = true → s.agenda = .issue n :: rest → step s = .fault .idle) ∧
  ∀ (s : State) i a rest, s.frozen = true → s.agenda = .event i a :: rest → dieEvent i = true → step s = .fault .noSuchEvent

/-! ## The whole machine -/

/-- Scalar instructions that only write registers of their warp. -/
def scalarOnly : List (FmtA → Instr) :=
  [.add, .sub, .mul, .mulhi, .min, .max, .div, .rem, .and, .or, .xor, .andn, .shl, .shr, .rot, .popc, .clz, .bfx, .bfi, .setc,
   .sel, .mov, .movi, .mfv, .mtv, .mfsr, .fadd, .fsub, .fmul, .ffma, .fcvt]

/-- Vector instructions that only write registers of their warp. -/
def vectorOnly : List (FmtA → Instr) :=
  [.vaddFloat, .vsubFloat, .vmulFloat, .vfma, .vmaxFloat, .vminFloat, .vabsFloat, .vsetcFloat, .vaddInt, .vsubInt, .vmulInt,
   .vmad, .vabsInt, .vmaxInt, .vminInt, .vsetcInt, .vmulhi, .vand, .vor, .vxor, .vnot, .vshl, .vshr, .vpopc, .vclz, .vbfx,
   .vbfi, .vsel, .vmov, .vmovi, .vcvt, .vcvti, .vcvtf, .vpack, .vunpk, .vq4scl, .vq4enc, .vq4dec, .vexp2, .vlog2, .vrcp,
   .vrsq, .vtanh, .vfrexp, .vldexp, .vexpmax]

/-- Cross-lane instructions that only write registers of their warp. -/
def crossOnly : List (FmtA → Instr) :=
  [.vperm, .vbcast, .vany, .vall, .vballot, .vmatch, .vredadd, .vredmax, .vredmin, .vscanadd, .vscanmax]

end Sys2Proof.Machine

/-- Weight-store refresh, roots, the inbound table, the device number and other registers: RefreshEvents, RegisterEvents. -/
def Obligations.RefreshAndRegisters : Prop := RefreshEvents ∧ RegisterEvents

/-- HBM5 frequency changes (the order of groups under a superseding change is log 71) and quad ramps: HbmEvents, RampEvents, DroopEvents. -/
def Obligations.FrequencyChanges : Prop := HbmEvents ∧ RampEvents ∧ DroopEvents

/-- Accesses from peers and the host, and the links they come by (the model's choices are log 52 and 68): OutsideAccesses, LinkEvents. -/
def Obligations.AccessesFromOutside : Prop := OutsideAccesses ∧ LinkEvents

/-- Loss of power, power-on and sensor samples (the model's choices are log 46, 49 and 50): PowerEvents, SensorEvents. -/
def Obligations.PowerAndSensors : Prop := PowerEvents ∧ SensorEvents

/-- The boot path and Belvedere (the model's choices are log 50, 73 and 85): BootEvents, FreezeEvents. -/
def Obligations.BootAndFreeze : Prop := BootEvents ∧ FreezeEvents

/-- Reset: every register reads the value its table gives (R40, R45, R48, R111, R117, R139, R392, R426, R456, R470, R475, R476, R480,
R484, R487); that no memory is listed is the model's choice, log 3, and so are the seeds of the dies' admission generators, log 16. -/
def Obligations.ResetState : Prop :=
  let s := State.reset
  s.mem = [] ∧ s.memoryOk ∧ s.warps = [] ∧ s.grids = [] ∧ s.poison = [] ∧ s.devnum = 0 ∧ s.roots = 0 ∧ s.thcfg = 95 ∧
  s.bvctl = 0 ∧ (∀ e, tgetD s.inbound e 0 = 0) ∧
  (∀ n, n < 128 → (s.core n).phys = BitVec.ofNat 6 (n % 32) ∧ (s.core n).cad = 1 ∧ (s.core n).droop = false ∧
    (s.core n).moving = false ∧ ∀ j, ((s.core n).slot j).word = 0) ∧
  (∀ c, (s.ctx c).ctl = 0 ∧ (s.ctx c).rootu = 0 ∧ (s.ctx c).saveb = 0) ∧
  (∀ k, (s.hbmOf k).status = 0) ∧ (∀ p, (s.portOf p).word = 0) ∧ (∀ n, (s.sensOf n).word = 0) ∧
  (∀ q, (s.uqOf q).pend = 0 ∧ (s.uqOf q).mapped = false ∧ (s.uqOf q).qaddr = 0) ∧
  (∀ u, (s.quad u).qvf.reqf = 28 ∧ (s.quad u).qvf.droopf = 14 ∧ (s.quad u).qvf.cadbase = 1 ∧ (s.quad u).qvf.curf = 28 ∧
    (s.quad u).qvf.super = 0 ∧ (s.quad u).qvf.ramp = false) ∧
  (∀ d, (s.die d).shift = 0 ∧ (s.die d).parkcfg = 0 ∧ (s.die d).gen = BitVec.ofNat 32 (d + 1)) ∧
  s.boot.ready = false ∧ s.boot.stage = 0 ∧ s.boot.cause = 0 ∧ s.boot.slot = false ∧ s.boot.shock = false

/-- Bytes written are read back, and every other byte of memory is what it was. -/
def Obligations.MemoryReadsBack : Prop :=
  ∀ m a b, Memory.wf m = true →
    memReadN (memWriteN m a b) a b.length = b ∧
    ∀ c, (c < a ∨ a + b.length ≤ c) → memRead (memWriteN m a b) c = memRead m c

/-- A register-only instruction changes nothing but its warp, and of that warp only the destination registers, the rounding
generators and what is outstanding. -/
def Obligations.RegisterOnlyFrame : Prop :=
  ∀ g, (g ∈ scalarOnly ∨ g ∈ vectorOnly ∨ g ∈ crossOnly) → ∀ s f t, exec (g f) s = .next t →
    ∃ w v, s.curWarp = some w ∧ t = { s with warps := tset s.warps s.cur v, nextId := t.nextId } ∧
      v = { w with s := v.s, v := v.v, gens := v.gens, gs := v.gs, pend := v.pend, flags := v.flags, unfl := v.unfl
                   clause := v.clause } ∧
      (∀ r, r ≠ f.d → v.getS r = w.getS r) ∧ ∀ p, p ≠ w.pos f.d → p ≠ w.pos f.d + 1 → v.vAt p = w.vAt p

/-- Every step keeps memory in its canonical form, whatever it does. -/
def Obligations.StepKeepsMemory : Prop := Kept State.memoryOk
/-! ## Where every form completes -/

namespace Sys2Proof.Machine

/-- exec answers a next state in which the warp goes on from where it stands: no trap is taken. -/
def GoesOn (i : Instr) (s : State) (w : Warp) : Prop :=
  ∃ t v, exec i s = .next t ∧ t.warp? s.cur = some v ∧ v.pc = w.pc ∧ v.sys = w.sys ∧ v.fcause = w.fcause ∧ v.em = w.em

/-- exec answers a next state in which a command that finds room has joined its engine under the next number of its counter. -/
def Joins (i : Instr) (s u : State) (w : Warp) (body : CmdBody) : Prop :=
  w.det = false → Clashes u w body = false → hasRoom u s.cur w body = true → u.guardHits w.ctx w.core body.guarded = [] →
  ∃ t, exec i s = .next t ∧ t.mem = u.mem ∧
    (t.tl w.ctx w.core).issuedOf body.counter = (u.tl w.ctx w.core).issuedOf body.counter + 1

/-- exec answers a next state in which the run of the Kiosk has executed one instruction more. -/
def RunGoesOn (i : Instr) (s : State) (r : KState) : Prop :=
  ∃ t q, exec i s = .next t ∧ (t.kiosk s.kcur).run = some q ∧ q.run = r.run ∧ q.retired = r.retired + 1

/-- Every instruction that only writes registers completes in every state: mfsr, mfv, mtv, the scalar and vector arithmetic,
vunpk, vq4scl, the special functions, vfrexp, vldexp, vexpmax and the cross-lane instructions among them. -/
def RegisterForms : Prop :=
  (∀ g, (g ∈ scalarOnly ∨ g ∈ vectorOnly ∨ g ∈ crossOnly) → ∀ s w f, s.curWarp = some w →
    ∃ t v, exec (g f) s = .next t ∧ t = { s with warps := tset s.warps s.cur v, nextId := t.nextId } ∧
      v = { w with s := v.s, v := v.v, gens := v.gens, gs := v.gs, pend := v.pend, flags := v.flags, unfl := v.unfl
                   clause := v.clause } ∧
      (∀ r, r ≠ f.d → v.getS r = w.getS r) ∧ ∀ p, p ≠ w.pos f.d → p ≠ w.pos f.d + 1 → v.vAt p = w.vAt p) ∧
  ∀ s w f, s.curWarp = some w →
    (f.imm16 = 0 → ∃ t v, exec (.mtsr f) s = .next t ∧ t = s.setWarp s.cur v ∧
      v = { w with em := (w.getS f.a).setWidth 32 &&& w.lm }) ∧
    ((f.imm16 = 2 ∧ nmodeOk ((w.getS f.a).setWidth 32) = true) ∨ f.imm16 = 0xF ∨
      (f.imm16 = 0x20 ∧ w.lo = 0 ∧ (w.getS f.a).extractLsb' 0 7 = 0) ∨ (f.imm16 = 0x21 ∧ w.lo = 0) → GoesOn (.mtsr f) s w)

/-- ld, st, atom and atomo complete where their lanes pass the checks of R20 and nothing keeps the access back; fence, pfence
and pref always; wback where its lanes pass; barriers where the counts agree; translation maintenance in system mode. -/
def MemoryForms : Prop :=
  (∀ p ∈ plainAccesses ++ atomics ++ orderedAtomics, ∀ s w f u lanes, Admitted s w f p.2.1 (p.2.2 f) u lanes →
    Free u w (accessOf w f p.2.1 (p.2.2 f) u lanes) → GoesOn (p.1 f) s w) ∧
  (∀ s w f, s.curWarp = some w → (∀ i ∈ [Instr.fence f, .pfence f, .pref f], GoesOn i s w) ∧
    ∀ u lanes, checkLanes s (wbackLane w f) (lanesIn w.em) = .ok (u, lanes) → GoesOn (.wback f) s w) ∧
  ∀ s w f, s.curWarp = some w →
    (w.sys = true →
      let a := (w.getS f.a).toNat
      let b := (w.getS f.b).toNat
      let c := (w.getS f.c).toNat
      (a ≤ 255 → b % 4096 = 0 → c % 4096 = 0 → b + c ≤ 2 ^ 56 → GoesOn (.tlbiPg f) s w) ∧
      (a ≤ 255 → GoesOn (.tlbiCtx f) s w) ∧
      (b % 4096 = 0 → c % 4096 = 0 → 2 ^ 64 - 2 ^ 56 ≤ b → b + c ≤ 2 ^ 64 → GoesOn (.tlbiSr f) s w) ∧
      GoesOn (.tlbiSys f) s w ∧ GoesOn (.tlbiAll f) s w ∧ GoesOn (.tlbisync f) s w) ∧
    GoesOn (.barWait f) s w ∧
    ∀ c, tget s.clusters w.cluster = some c → w.det = false →
      ((c.bar f.q.toNat).arrived = 0 ∨ (c.bar f.q.toNat).expect = f.imm20.toNat) →
      GoesOn (.barArrive f) s w ∧ GoesOn (.barSync f) s w

/-- copy, copy2d, copykb, gather, krun, coll, the cube's and the planes' commands complete where their operands are within
their limits, their ranges translate and do not meet, and their engine has room; krd, cshape, celog and ceclr at once. -/
def EngineForms : Prop :=
  (∀ s w f, s.curWarp = some w →
    let dst := w.getS f.a
    let src := w.getS f.b
    let v := (w.getS f.c).toNat
    let joins (i : Instr) (q : Nat) (kb elem : Bool) (len rows dstr sstr : Nat) : Prop :=
      ∀ u p, moveRows s w.who { elem := elem, kb := kb } (rowsOf dst src len rows dstr sstr) = .ok (u, p) →
        (len ≠ 0 → (copyRng dst len rows dstr).meets (copyRng src len rows sstr) = false) →
        (kb = true → (kbDiesOf p).any u.dieBusy = false) →
        Joins i s u w (.copy q kb p (if len = 0 then [] else [copyRng dst len rows dstr]))
    (v ≤ 2 ^ 32 → joins (.copy f) f.q.toNat false false v 1 0 0) ∧
    (1 ≤ v % 2 ^ 32 → v % 2 ^ 32 ≤ 2 ^ 20 → 1 ≤ v / 2 ^ 32 % 2 ^ 16 → v < 2 ^ 48 →
      joins (.copy2d f) f.q.toNat false true (v % 2 ^ 32) (v / 2 ^ 32 % 2 ^ 16) (f.imm64.toNat % 2 ^ 32) (f.imm64.toNat / 2 ^ 32)) ∧
    (w.sys = true → v ≤ 2 ^ 32 → joins (.copykb f) f.q.toNat true false v 1 0 0)) ∧
  (∀ s w f, s.curWarp = some w →
    let size := 2 ^ (f.imm20.toNat / 65536)
    let count := f.imm20.toNat % 65536
    (w.getS f.a).toNat % size = 0 → (w.getS f.b).toNat % 4 = 0 → (w.getS f.c).toNat % size = 0 → ∀ u idx x p,
    gatherIndices s w (w.getS f.b) count = .ok (u, idx) →
    moveRows u w.who { elem := true, kb := false } ((countFrom 0 count).map fun i =>
      (i, w.getS f.c + BitVec.ofNat 64 (idx.getD i 0 * size), w.getS f.a + BitVec.ofNat 64 (i * size), size)) = .ok (x, p) →
    Joins (.gather f) s x w (.gather p (if count = 0 then [] else [Rng.flat (w.getS f.a) (count * size)]))) ∧
  (∀ s w f u b u' prog src param dst recd u'' desc, s.curWarp = some w → readIssue s w (w.getS f.a) 128 128 = .ok (u, b) →
    runOk b = true → runRanges u w.who b u' prog src param dst recd →
    resolveRange u' w.who .load (w.getS f.a) 128 = .ok (u'', desc) →
    let pa := (src.head?.map fun x => x.pa).getD 0
    Joins (.krun f) s u'' w (.krun { parseRun w b with
      ch := (pa - capBase) / 2 ^ 36, prog := prog, src := pa - (capBase + (pa - capBase) / 2 ^ 36 * 2 ^ 36), param := param
      dst := dst, recd := recd, desc := desc })) ∧
  (∀ s w f u b u1 src u2 dst, s.curWarp = some w → readIssue s w (w.getS f.a) 128 128 = .ok (u, b) →
    let c := parseColl w b
    collOk c b = true → collRange u w.who .load c.srcVa c.srcLen = .ok (u1, src) →
    collRange u1 w.who .store c.dstVa c.dstLen = .ok (u2, dst) →
    (c.srcLen = 0 ∨ c.dstLen = 0 ∨ (c.op ≤ 1 ∧ c.srcVa = c.dstVa) ∨
      (Rng.flat c.srcVa c.srcLen).meets (Rng.flat c.dstVa c.dstLen) = false) →
    Joins (.coll f) s u2 w (.coll { c with src := src, dst := dst })) ∧
  (∀ s w f, s.curWarp = some w → GoesOn (.krd f) s w ∧ GoesOn (.ceclr f) s w ∧ (w.getS f.a ≤ 15 → GoesOn (.celog f) s w) ∧
    (((w.getS f.a).setWidth 32 : W32).toNat < 128 → ((w.getS f.a).setWidth 32 : W32).toNat / 16 ≤ 4 →
      (onesIn 4 (w.getS f.a) = 1 ∨ onesIn 4 (w.getS f.a) = 2 ∨ onesIn 4 (w.getS f.a) = 4) → GoesOn (.cshape f) s w)) ∧
  (∀ s w f, s.curWarp = some w →
    let joins (i : Instr) (c : CubeCmd) (planes : List (Nat × Word × List (Word × Nat))) : Prop :=
      ∀ u xl, planesAt s w.who planes = .ok (u, xl) → (∀ x ∈ xl, sourceFault w.who x = none) →
        Joins i s u w (.cube c f.prio.toNat w.ashape xl)
    let fmt := (lFmt f).getD .bf16
    let k := lK f
    let size := if fmt = .q4 then 1 else fmt.width / 8
    let src := w.getS f.a
    let stride := (w.getS f.b).toNat
    let rows (n len : Nat) : List (Word × Nat) := (countFrom 0 n).map fun i => (src + BitVec.ofNat 64 (i * stride), len)
    (stride < 2 ^ 20 → stride % size = 0 → src.toNat % size = 0 →
      joins (.cldb f) (.ldb (lSet f) fmt k src stride (if lWS f then some (w.getS f.c) else none))
        ((size, src, if fmt = .q4 then rows 32 (k / 32 * 17) else rows k (32 * size))
          :: (if lWS f then [(1, w.getS f.c, [(w.getS f.c, 32)])] else [])) ∧
      joins (.cldg f) (.ldg (lSet f) fmt k src stride) [(size, src, rows k (32 * size))]) ∧
    (src.toNat % size = 0 → joins (.cldk f) (.ldk (lSet f) fmt k src) [(size, src, [(src, k * size)])]) ∧
    (∀ i ori, ((i = Instr.cmac f ∧ ori = .none) ∨ (i = .cmac3 f ∧ ori = match mOri f with | 0 => .ik | 1 => .kj | _ => .k)) →
      let fa := (mFA f).getD .bf16
      let fg := (mFG f).getD .bf16
      let set := setAhead s w (mSet f)
      let kk := (set.b.map Prod.snd).getD 0
      let m := 32 * mNT f
      let len (t : DT) : Nat := if t = .q4 then kk / 32 * 17 else kk * (t.width / 8)
      let wide (t : DT) : Nat := if t = .q4 then 1 else t.width / 8
      let lines (base : Word) (stride len : Nat) : List (Word × Nat) :=
        (countFrom 0 m).map fun i => (base + BitVec.ofNat 64 (i * stride), len)
      shapeOk w.ashape ori fa fg set = true →
      joins i (.mac ori (mSet f) fa fg (w.getS f.a) (w.getS f.b) (mAstr f) (mGstr f) (if mRS f then some (w.getS f.c) else none)
          (mZA f) (mT0 f) (mNT f))
        ((wide fa, w.getS f.a, lines (w.getS f.a) (mAstr f) (len fa))
          :: (if ori = .ik then [(wide fg, w.getS f.b, lines (w.getS f.b) (mGstr f) (len fg))] else [])
            ++ (if mRS f then [(1, w.getS f.c, [(w.getS f.c, m)])] else []))) ∧
    Joins (.cshift f) s s w (.cube (.shift (f.imm20.toNat % 8) (f.imm20.toNat / 8 % 32) (f.imm20.getLsbD 8) w.em
      (w.winbase + f.c.toNat)) f.prio.toNat w.ashape []) ∧
    Joins (.czero f) s s w (.cube (.zero (f.imm20.extractLsb' 0 8)) f.prio.toNat w.ashape []) ∧
    ∀ pa kind, (w.getS f.a).toNat < ((w.grid? s).map fun g => g.recd.accT).getD 0 →
      windowPlace s w.who .store (accWindow + w.getS f.a * 4096) 4096 = .ok (pa, kind) →
      Joins (.cdrain f) s s w (.cube (.drain (f.imm20.toNat % 8) (w.getS f.a).toNat (f.imm20.getLsbD 3)) f.prio.toNat w.ashape
        [{ va := accWindow + w.getS f.a * 4096, pa := pa, kind := kind, len := 4096 }])) ∧
  ∀ s w, s.curWarp = some w → s.ownsPlane w = true →
    let joins (i : Instr) (c : PlaneCmd) : Prop := wearTrap s s.cur w c = none → Joins i s s w (.plane c)
    (∀ g : FmtG,
      joins (.lpnor g) (.gate 2 g.col g.sel.toNat g.in1.toNat g.in2.toNat g.in3.toNat g.out.toNat) ∧
      joins (.lpnortri g) (.gate 3 g.col g.sel.toNat g.in1.toNat g.in2.toNat g.in3.toNat g.out.toNat) ∧
      joins (.lpnot g) (.gate 1 g.col g.sel.toNat g.in1.toNat g.in2.toNat g.in3.toNat g.out.toNat) ∧
      joins (.lpinit g) (.init g.col g.sel.toNat g.out.toNat)) ∧
    ∀ f : FmtA,
      let col := f.imm16.getLsbD 15
      let line := if f.i then f.imm16.toNat % 1024 else (w.getS f.a).toNat
      (line ≤ 1023 → joins (.lprdv f) (.rdv col line w.em (w.winbase + f.d.toNat)) ∧
        joins (.lpwrv f) (.wrv col line w.em (w.vAt (w.winbase + f.d.toNat))) ∧ joins (.lpcnt f) (.cnt col line f.d.toNat) ∧
        ((w.getS f.b).toNat < 2 ^ 32 → joins (.lpbudget f) (.budget col line ((w.getS f.b).setWidth 32)))) ∧
      joins (.lpremap f) (.remap col (f.imm16.toNat % 4)) ∧
      joins (.lpselVector f) (.selV f.d.toNat (selOfLanes w.lm (w.vAt (w.winbase + f.a.toNat)))) ∧
      joins (.lpstat f) (.stat false f.d.toNat) ∧ joins (.lpstatClr f) (.stat true f.d.toNat) ∧
      joins (.lpstatIss f) (.statIss f.d.toNat) ∧
      ∀ u pa k, resolve s w.who .load (w.getS f.a + immA f) 128 true = .ok (u, pa, k) → k ≠ .peer →
        wearTrap u s.cur w (.selM f.d.toNat pa k) = none → Joins (.lpselMemory f) s u w (.plane (.selM f.d.toNat pa k))

/-- An instruction of a Kiosk run completes with the run going on; exit, and a word that is no instruction, with its end. -/
def KioskForms : Prop :=
  ∀ s r, (s.kiosk s.kcur).run = some r →
    (∀ i ∈ ([.kioskVadd, .kioskVsub, .kioskVmul, .kioskVfma, .kioskVmax, .kioskVmin, .kioskVmov, .kioskAdd, .kioskSub, .kioskSetc,
        .kioskMovi] : List (FmtA → Instr)), ∀ f, RunGoesOn (i f) s r) ∧
    (∀ f, r.mstack.length ≠ 4 → RunGoesOn (.kpush f) s r) ∧
    (∀ f, r.mstack ≠ [] → RunGoesOn (.kelse f) s r ∧ RunGoesOn (.kpop f) s r) ∧
    (∀ f : FmtA, let off : Int := if f.i then (immA f).toInt else ((r.getS f.b).toNat : Int)
      let size : Int := (f.dt.width / 8 : Nat)
      0 ≤ off → off % size = 0 → off + 512 * size ≤ (r.run.dlen : Int) → RunGoesOn (.kread f) s r) ∧
    (∀ f : FmtM, (r.getS f.b).toNat < r.run.slen / 32768 → RunGoesOn (.kioskColumnRead f) s r) ∧
    (∀ f : FmtBR, let target : Int := (r.pc : Int) - 1 + f.ofs.toInt
      let lands := 0 ≤ target ∧ target.toNat ∈ runStarts r.prog.length 0 r.prog
      (lands → RunGoesOn (.kioskBra f) s r) ∧
      (lands ∨ compareI (ccOf f.cc) (r.getS f.s).toInt 0 = false → RunGoesOn (.kioskBrs f) s r)) ∧
    (∀ f, ∃ t, exec (.kioskExit f) s = .next t ∧ (t.kiosk s.kcur).run = none) ∧
    ∃ t, exec .kioskIllegalInstruction s = .next t ∧ (t.kiosk s.kcur).run = none

/-- Deferred tiles: creation where descriptor, inputs and places fit and the table has room; a demand within its node; tsnap of a
LEAF; a legal tmode with room; tdrop and tquery always. -/
def TileForms : Prop :=
  (∀ i k, (i, k) ∈ ([(.tleaf, .leaf), (.tcontract, .contract), (.tewise, .ewise), (.trowred, .rowred), (.tmap, .map), (.tcast, .cast)]
      : List ((FmtE → Instr) × NodeKind)) →
    ∀ s w f u b, s.curWarp = some w → readIssue s w (w.getS f.a) 128 128 = .ok (u, b) →
    let d := parseNode b
    let hs := inputHandles w k f
    let n := (inputCount k d.op).getD 0
    descOk k b = true → placeFault u w.who (k == .leaf) (elemSize d.fmt) d.home = none →
    ∀ ins j, (hs.take n).map w.perg.find = ins.map some → (∀ h ∈ hs.drop n, h = 0) → inputsFault w k d ins = none →
      w.perg.freeIdx w.tmode.nq = some j → w.perg.used + (sourceRanges k d).length ≤ w.tmode.rq → GoesOn (i f) s w) ∧
  ∀ s w f, s.curWarp = some w →
    GoesOn (.tdrop f) s w ∧ GoesOn (.tquery f) s w ∧
    (tmodeOk s s.cur w (w.getS f.a) = true → s.quotaFits s.cur w.core (parseTmode (w.getS f.a)) = true → GoesOn (.tmode f) s w) ∧
    ∀ n, w.perg.find (w.getS f.a).toNat = some n →
      (let v := (w.getS f.b).toNat
       let x : Rect := { r0 := v % 2 ^ 16, c0 := v / 2 ^ 16 % 2 ^ 16, rows := v / 2 ^ 32 % 2 ^ 16, cols := v / 2 ^ 48 }
       1 ≤ x.rows → 1 ≤ x.cols → x.r0 + x.rows ≤ n.desc.rows → x.c0 + x.cols ≤ n.desc.cols →
       ((n.kind = .leaf ∨ guardIssue s w [homeRng n.desc (x.grid n.desc)] = .ok s) → GoesOn (.tforce f) s w) ∧
       (let size := elemSize n.desc.fmt
        let stride := f.imm64.toNat % 2 ^ 32
        n.desc.fmt ≠ .q4 → stride % size = 0 → ∀ u xl, storePlaces s w size (w.getS f.c) stride x = .ok (u, xl) →
        guardIssue u w ((if n.isLeaf then [] else [homeRng n.desc (x.grid n.desc)])
          ++ [{ base := w.getS f.c, row := x.cols * size, stride := stride, rows := x.rows }]) = .ok u → GoesOn (.tstore f) s w)) ∧
      (n.kind = .leaf → ∀ u x u' y, rangePlaces s w .load (elemSize n.desc.fmt) n.desc.home = .ok (u, x) →
        rangePlaces u w .store (elemSize n.desc.fmt) { n.desc.home with base := w.getS f.b } = .ok (u', y) →
        u'.absentIn (x ++ y) = [] → u'.poisonIn x = false → (∀ z ∈ y, z.kind ≠ .reg) → GoesOn (.tsnap f) s w)

/-- Launches, phases, deques, cancels and yields; trap, brk and a refused word, whose effect is to enter the handler; tret, the
system registers, the save area and preack in system mode. -/
def SystemForms : Prop :=
  (∀ s w f u b, s.curWarp = some w → readIssue s w (w.getS f.a) 128 128 = .ok (u, b) → recordOk b = true → w.depth u < 10 →
    w.wid = 0 → w.det = false → u.unretired w.ctx < 4096 → GoesOn (.glaunch f) s w) ∧
  (∀ s w f, s.curWarp = some w →
    let v := (w.getS f.a).toNat
    (1 ≤ v → v < 2 ^ 32 → v ≤ (s.ctx w.ctx).grids → GoesOn (.gwait f) s w) ∧
    GoesOn (.migpt f) s w ∧ GoesOn (.ginst f) s w ∧ GoesOn (.yield f) s w ∧
    (∀ r, w.recd s = some r → r.phased = true → w.winbase = 0 → w.det = false → w.allReady = true →
      guardIssue s w [recordRng s w r] = .ok s → recordAbsent s w r = [] →
      ∃ t x, exec (.phend f) s = .next t ∧ t.warp? s.cur = some x ∧ x.status = .phaseWait) ∧
    (s.ownsDeque w f.q.toNat = true → (2 ^ 40 ≤ v → GoesOn (.tqpush f) s w) ∧ GoesOn (.tqpop f) s w ∧ GoesOn (.tqpopNw f) s w ∧
      GoesOn (.tqsteal f) s w) ∧
    (1 ≤ v → v < 2 ^ 24 → GoesOn (.cancelClr f) s w ∧
      (v ∈ (s.ctx w.ctx).cancelTable ∨ (s.ctx w.ctx).cancelTable.length < 16 → GoesOn (.cancel f) s w))) ∧
  (∀ s w, s.curWarp = some w → w.allReady = true → HasHandler s w →
    let enters (i : Instr) : Prop :=
      ∃ t v, exec i s = .next t ∧ t.warp? s.cur = some v ∧ v.sys = true ∧ v.pc = (s.ctx w.ctx).tvec
    (∀ f, enters (.trap f) ∧ ((s.ctx w.ctx).dbg = false → enters (.brk f))) ∧ (∀ sub, enters (.illegalInstruction sub)) ∧
    ∀ x, enters (.instructionFetchFault x)) ∧
  (∀ s w f, s.curWarp = some w → (s.ctx w.ctx).dbg = true → w.wait = .run → w.allReady = true →
    ∃ t v, exec (.brk f) s = .next t ∧ t.warp? s.cur = some v ∧ v.status = .stopped) ∧
  ∀ s w, s.curWarp = some w → w.sys = true →
    (∀ f : FmtBR, targetOk s { w.who with sys := false } (w.getS f.s) = true →
      ∃ t v, exec (.tret f) s = .next t ∧ t.warp? s.cur = some v ∧ v.sys = false ∧ v.pc = w.getS f.s) ∧
    ∀ f : FmtA, let n := f.imm16.toNat % 256
      let va := w.getS f.a
      GoesOn (.mfsys f) s w ∧ ((n = 0 → va.toNat % 8 = 0) → GoesOn (.mtsys f) s w) ∧
      (w.allReady = true → areaFault s w .store va = none → w.det = false → ∀ u l,
        linePlaces s w.deliver .store (areaLines w.deliver va) = .ok (u, l) →
        guardIssue (u.setWarp s.cur w.deliver) w.deliver [Rng.flat va (0x800 + 128 * w.budget)] =
          .ok (u.setWarp s.cur w.deliver) → (∀ x ∈ l, x.kind = .cached) → GoesOn (.ctxsave f) s w) ∧
      (w.allReady = true → areaFault s w .load va = none → ∀ u l,
        linePlaces s w.deliver .load (areaLines w.deliver va) = .ok (u, l) → GoesOn (.ctxrest f) s w) ∧
      (w.allReady = true → w.tstat.getLsbD 1 = true →
        ∃ t v, exec (.preack f) s = .next t ∧ t.warp? s.cur = some v ∧ v.preacked = true)

/-- Results, held accesses, waits, lanes and engine operations complete where what they wait for is there. -/
def WorkEvents : Prop :=
  (∀ s w, s.warp? s.ev.x = some w →
    (∀ p, w.pend[s.ev.y]? = some p → p.ready = true → Completes .resultArrive s) ∧
    (∀ r, w.wait = .waitv r → w.det = false → ∀ i, (i = .waitvEvaluate ∨ (i = .waitvPeriodicEval ∧ 4096 ≤ (s.clock - r.last).toNat)) →
      ∀ u pa k, resolve s w.who .load r.va r.size true = .ok (u, pa, k) → k ≠ .peer → k ≠ .reg → (k = .scratch → u.absentAt pa = 0) →
      (k = .uncached → copyGet u.l2dirty (lineOf pa) = none) → u.poison.contains (lineOf pa) = false →
      u.ownBars s.ev.x k pa r.size = false → Completes i s) ∧
    (∀ a, s.ev.nums = [] → w.wait = .held a → s.anyAbsent a = false → Completes .heldAccessPerform s) ∧
    (s.advances w.ctx .warps = true → (∃ o ∈ s.ordbuf, o.warp = s.ev.x ∧ ∃ n, o.refused = some n ∧ n < s.nextsOf o.slice) →
      Completes .atomoRetry s) ∧
    (∀ b ph, w.wait = .bar b ph → ph < s.barPhase w b → w.status = .live → w.qend = false → Completes .waitResume s) ∧
    (w.status = .live → w.wait = .yield → (64 ≤ s.clock.toNat - w.stamp / 16) → Completes .yieldExpire s) ∧
    ∀ i mine, (i, mine) ∈ ([(.copyRetry, fun | .copy .. => true | _ => false), (.krunRetry, fun | .krun _ => true | _ => false),
        (.matrixQueueRetry, fun | .cube .. => true | _ => false), (.planeQueueRetry, fun | .plane _ => true | _ => false),
        (.tmodeRetry, fun | .tmode _ => true | _ => false), (.glaunchRetry, fun | .glaunch _ => true | _ => false)]
        : List (Instr × (CmdBody → Bool))) →
      ∀ c, w.wait = .refused c → w.det = false → mine c.body = true → Clashes s w c.body = false → c.body.kbDies.any s.dieBusy = false →
      (∀ x, c.body = .tmode x → tmodeOk s s.ev.x w x = true) →
      (∀ x, c.body = .plane x → s.ownsPlane w = true ∧ wearTrap s s.ev.x w x = none) →
      (∀ ori set fa fg a g as gs rs za t0 nt p sh xl, c.body = .cube (.mac ori set fa fg a g as gs rs za t0 nt) p sh xl →
        shapeOk sh ori fa fg (setAhead s w set) = true ∧
        (xl.map Xlat.len).sum = bytesOf (planesOf s w ori set fa fg a g as gs rs nt)) →
      hasRoom s s.ev.x w c.body = true → s.guardHits w.ctx w.core c.body.guarded = [] → Completes i s) ∧
  (∀ s o, s.ordbuf[s.ev.x]? = some o → o.arrived = false → o.refused = none → s.badAt o.lane.kind o.lane.pa = false →
    Completes .atomoLaneArrive s) ∧
  (∀ s i rest r w a, s.ev.nums = i :: rest → s.rels[i]? = some r → s.relDue r = true → s.warp? r.warp = some w → r.op = .acc a →
    s.anyAbsent a = false → noRoute s a = false → lanesError s w.core w.det a a.lanes = .ok () → Completes .heldAccessPerform s) ∧
  (∀ s o, s.movingOp s.ev.x s.ev.y = some o →
    ((∃ p ∈ o.pieces, lineOf p.dst = s.ev.z) → o.mayDeliver s.ev.z = true →
      (∀ p ∈ o.pieces, lineOf p.dst = s.ev.z → s.pieceReady o p = true ∧ s.pieceFault .refused p = none) → Completes .trackedWriteDeliver s) ∧
    ((∀ p ∈ o.pieces, p.dkind ≠ .scratch ∧ s.pieceReady o p = true ∧ s.pieceFault .refused p = none) →
      Completes (if o.gather then .gatherComplete else .copyComplete) s)) ∧
  (∀ s i, s.invals[s.ev.x]? = some i → i.before = none → Completes .invalidationComplete s) ∧
  (∀ s x, (s.die s.ev.x).walks[s.ev.y]? = some x → x.started = true → Completes .walkComplete s) ∧
  (∀ s x, ((s.die s.ev.x).walks.find? fun x => !x.started) = some x → (s.die s.ev.x).running < 512 → Completes .walkQueuedStart s) ∧
  (∀ s, let l := s.collOf s.ev.v s.ev.g
    (∀ a, l.head? = some a → a.npart ≤ l.length → (s.ev.v, s.ev.g) ∉ s.matched → Completes .collectiveMatch s) ∧
    ((s.ev.v, s.ev.g) ∈ s.matched → l ≠ [] → (∀ c ∈ l, c.remote.isSome = true ∨
      (s.advances c.ctx .collective = true ∧ s.gated c.warp c.tok = false ∧ s.owedIn c.seqNo c.src = false)) → Completes .collectiveComplete s)) ∧
  (∀ s, let k := s.kiosk s.ev.x
    (∀ i r, k.run = none → k.saved = [] → k.queue.findIdx? (fun r => s.advances r.ctx .kiosk) = some i → k.queue[i]? = some r →
      s.owedIn r.seq (r.prog ++ r.param ++ r.desc) = false → s.gated r.warp r.tok = false → Completes .kioskRunStart s) ∧
    (k.run ≠ none → (∃ p ∈ k.postponed, Config.allow.toNat ≤ p.2) → Completes .kioskRefreshPause s) ∧
    (k.run ≠ none → k.openRow ≠ [] → Completes .kioskRowLimit s) ∧
    (k.waiting ≠ [] → Completes .kioskAccessWaitTimeout s) ∧
    (∀ row, tget k.openRow (bankOf s.ev.y) = some row → Completes .kioskOpenRowAccess s) ∧ Completes .bankRefreshDue s) ∧
  (∀ s, let c := s.core s.ev.x
    (∀ e, s.takeEnt s.ev.x s.ev.unit = some e → (∀ x ∈ c.cq, x.cmd.unit = s.ev.unit → x.st ≠ .running) →
      (c.owner = some e.ctx ∨ ∀ x ∈ c.cq, x.st ≠ .running) → Completes .matrixDispatch s) ∧
    (∀ e, c.cq[s.ev.y]? = some e → e.waiting = true → e.wait / 4096 < e.waited s.clock / 4096 → Completes .matrixPriorityAge s) ∧
    (∀ e ori set fa fg a g astr gstr rs za t0 nt, c.cq.find? (fun e => e.cmd.unit = .compute && e.st == .running) = some e →
      e.cmd = .mac ori set fa fg a g astr gstr rs za t0 nt → kstepReady s s.ev.x e = true → Completes .cubeKstepBoundary s) ∧
    (∀ e, c.cq[s.ev.y]? = some e → canRetire s e = true → s.advances e.ctx .cube = true → Completes .cubeRetire s) ∧
    (c.bands.getLsbD (s.ev.y % 4) = false → Completes .bandPowerUp s) ∧
    (c.bands.getLsbD (s.ev.y % 4) = true → c.bandUsed (s.ev.y % 4) = false → Completes .bandPowerOff s)) ∧
  (∀ s e, s.planeHead s.ev.x = some e → planeWaits s e = false → Completes .planeEntryPerform s) ∧
  ∀ s w i r0 c0 rows cols d num tok seq lines n, s.warp? s.ev.x = some w →
    w.wait = .eval (.force i r0 c0 rows cols d) num tok seq lines → s.advances w.ctx .pergola = true → s.gated s.ev.x tok = false →
    w.perg.byIdx i = some n → ∀ u ws,
    demandWrites (s.logApart w) s.ev.x w num seq n { r0 := r0, c0 := c0, rows := rows, cols := cols } (fun _ => []) = .ok (u, ws) →
      Completes .pergolaEvalComplete s

/-- Rounds, phases, admission, queues and contexts complete where their conditions hold. -/
def SchedulingEvents : Prop :=
  (∀ s g, tget s.grids s.ev.x = some g → commitDue s s.ev.x g = true →
    (commitAll (if g.committing then s else s.rewindTables s.ev.x) (detOrder s s.ev.x)).2 = false → Completes .roundCommit s) ∧
  (∀ s t, s.detBlock s.ev.x = false → dispatchPhase s s.ev.x = some t → Completes .phaseDispatch s) ∧
  (∀ s x r, (s.ctx s.ev.x).pendCancel = x :: r → Completes .cancelComplete s) ∧
  (∀ s g, tget s.grids s.ev.y = some g → g.retired = false → s.ev.z < g.recd.clusters → s.ev.x < 4 →
    (s.clusterOf s.ev.y s.ev.z g).2.admitted = false → g.recd.det = false → g.recd.persist = false → s.advances g.ctx .warps = true →
    ((s.clusterOf s.ev.y s.ev.z g).2.backoff = none → Completes .admitAttempt s) ∧
    ∀ n, (s.clusterOf s.ev.y s.ev.z g).2.backoff = some n → n ≤ s.clock.toNat → Completes .admitBackoffExpire s) ∧
  (∀ s x c g, tget s.blocks s.ev.x = some x → s.homeOf x = some (c, g) →
    (let all := s.blocksOf x.cluster
     (∃ p ∈ all, mayPark s p.1 p.2 g = true) → (∀ p ∈ all, mayPark s p.1 p.2 g = true ∨ (p.2.parked = false ∧ s.blockDone p.1 = true)) →
     s.parkUsed (dieOf (c.cores.headD 0)) + sumNat (all.map fun p => s.parkBytes p.1 p.2 g.recd) ≤
       (s.die (dieOf (c.cores.headD 0))).parkcfg.toNat % 4096 * 2 ^ 20 → Completes .parkBlock s) ∧
    (x.parked = true → (∃ p ∈ s.warps, p.2.cluster = x.cluster ∧ p.2.status = .parked ∧ waitOver s p.1 p.2 = true) →
      s.advances g.ctx .warps = true → ∀ u t, reserveSlots s g.ctx c.cores = some u →
      (u.blocksOf x.cluster).foldl (fun a p => a.bind fun s => s.unpark p.1 g.recd) (some u) = some t → Completes .unparkBlock s)) ∧
  (∀ s, s.boot.ready = true → s.unretired s.ev.x < 4096 → Completes .gridSubmit s) ∧
  (∀ s, s.boot.ready = true → (s.uqOf s.ev.x).mapped = true → (s.uqOf s.ev.x).pend ≠ 0 →
    s.unretired (s.uqOf s.ev.x).ctx.toNat < 4096 → Completes .uqConsumeUnit s) ∧
  (∀ s, ∀ i ∈ [Instr.doorbellNotify, .ctxslotWrite, .ctxctlPreq, .ctxctlResume, .ctxctlKill], Completes i s) ∧
  (∀ s, Completes (if s.ev.v.getLsbD 0 then .uqMap else .uqUnmap) s) ∧
  (∀ s, (s.ctx s.ev.x).preq = true → (s.ctx s.ev.x).acks.getLsbD (ackIndex s.ev.cls) = true → mayStop s s.ev.x s.ev.cls = true →
    Completes .preemptClassStop s) ∧
  (∀ s w, s.warp? s.ev.x = some w → (s.ctx w.ctx).preq = true → (s.ctx w.ctx).co = true → w.status = .live →
    ((s.ctx w.ctx).kill = false → w.wait = .run → w.clause.left = 0 → w.sys = false → w.qend = false → w.allReady = true →
      Completes .coopPreemptEntry s) ∧
    (w.preacked = false → s.owedWarp w = false → Completes .preackTimeout s)) ∧
  (∀ s, (s.ctx s.ev.x).res = true → (s.ctx s.ev.x).slice ≠ 0 →
    (∃ p ∈ s.warps, p.2.ctx = s.ev.x ∧ p.2.status ≠ .exited ∧ s.wanted s.ev.x p.2.core = true) → Completes .sliceExpire s) ∧
  ∀ s, let c := s.core s.ev.x
    (c.moving = true → c.migreq = true → c.target.toNat = s.ev.y → c.still = true → Completes .migration s) ∧
    (c.migreq = true → c.moving = false → Completes .migrationLapse s)

/-- What the device and its surroundings do completes where their conditions hold. -/
def DeviceEvents : Prop :=
  (∀ s, ∀ i ∈ [Instr.wsrefWrite, .hbmreqWrite, .rootWrite, .attestationRequest, .bvctlFreeze, .jtagFreeze, .bvctlThaw], Completes i s) ∧
  (∀ s v c, (s.die s.ev.x).shiftPend = some (v, c) → c ≠ s.clock → s.clock.toNat % 2 ^ 15 = 0 → Completes .wsRefreshShiftApply s) ∧
  (∀ s : State, s.clock.toNat % 512 = 0 → Completes .wsRefreshSlot s) ∧
  (∀ s, (s.hbmOf s.ev.x).cur ≠ none → Completes .hbmGroupRetrainDone s) ∧
  (∀ s : State, (s.ev.x < 512 → Completes .inboundEntryWrite s) ∧ (s.ev.x < 4096 → Completes .fabricNumberAssign s) ∧
    (s.ev.x < 32 → Completes .qvfWrite s) ∧ (s.ev.x < 16 → Completes .peerPortDisable s)) ∧
  (∀ s : State, Piece1 s.ev.req → Completes .hostAccess s ∧ (s.frozen = false → Completes .peerAccessArrive s)) ∧
  (∀ s w a, s.ev.nums = [] → s.warp? s.ev.x = some w → w.wait = .peer a → noRoute s a = true → Completes .peerNoRouteTimeout s) ∧
  (∀ s, let p := s.portOf s.ev.x
    ((p.st = .up ∨ p.st = .degraded) → (s.frozen = false → Payload s.ev.flit.payload → Completes .flitReceive s) ∧
      Completes .linkRetrainEnter s) ∧
    (p.st = .down → p.dis = false → s.ev.x < 16 → Completes .linkTrainStart s) ∧
    (p.st = .train ∨ p.st = .retrain → Completes .linkTrainResult s) ∧
    (p.dis = true → s.ev.x < 16 → Completes .peerPortEnable s)) ∧
  (∀ s, (s.quad s.ev.x).qvf.ramp = true → Completes .vfRampSegment s) ∧
  (∀ s : State, (s.supply.droop = false → Completes .droopDetect s) ∧ (s.supply.droop = true → Completes .droopEnd s) ∧
    (s.supply.droop = false → s.quadHeld (s.ev.x / 4) = false →
      ((s.quad (s.ev.x / 4)).qvf.cadbase).toNat < ((s.core s.ev.x).cad).toNat → Completes .cadenceStep s) ∧
    (s.supply.holdup = false → Completes .powerLoss s) ∧
    (s.supply.holdup = true → Completes .powerHoldupExpire s ∧
      ((s.supply.rails = true ∨ ∀ c ∈ s.supply.stopped, (s.ctx c).preq = false) → Completes .powerRecover s)) ∧
    (s.supply.off = true → Completes .shockRecord s) ∧
    (s.supply.off = true ∨ s.supply.rails = true ∨ s.boot.stage = 0 → Completes .powerOnReset s) ∧
    (s.supply.rails = false → (∀ r ∈ s.ev.sample, r.phys < 136) → Completes .sensorSample s) ∧
    (s.boot.recovery = false → s.boot.stage.toNat < 2 → Completes .bootStageCheck s) ∧
    (s.boot.recovery = true → Completes .recoveryImage s) ∧ (s.boot.stage = 2 ∨ (s.boot.stage = 3 ∧ s.boot.stext = false) → Completes .selfTest s) ∧
    (s.frozen = true → Completes .belvedereReadout s) ∧
    (regionOf s.ev.v.toNat = .regs → regCheck s.ev.v.toNat s.ev.x .store = .ok () → Completes .registerWrite s))

end Sys2Proof.Machine

/-- Where every form completes, under conditions on the state and the operands alone: register forms, memory forms, engine
commands, Kiosk instructions, deferred tiles, launches and system instructions, and every completion and event; the control
forms complete where HeadersAndRegions, BranchesAndCalls, TimelineWaits and ResultsAndMemoryWaits say. -/
def Obligations.FormsComplete : Prop :=
  RegisterForms ∧ MemoryForms ∧ EngineForms ∧ KioskForms ∧ TileForms ∧ SystemForms ∧ WorkEvents ∧ SchedulingEvents ∧ DeviceEvents
end

