-- ==== Sys2Proof/Laws/State.lean ====
section
/-! SUPPORT. What each update of the state leaves and sets, one lemma per field. -/

namespace Sys2Proof.Machine

open Sys2Proof

/-! ## State.setWarp -/

@[simp] theorem State.setWarp_mem (s : State) (k : Nat) (w : Warp) : (s.setWarp k w).mem = s.mem := rfl
@[simp] theorem State.setWarp_poison (s : State) (k : Nat) (w : Warp) : (s.setWarp k w).poison = s.poison := rfl
@[simp] theorem State.setWarp_l2dirty (s : State) (k : Nat) (w : Warp) : (s.setWarp k w).l2dirty = s.l2dirty := rfl
@[simp] theorem State.setWarp_warps (s : State) (k : Nat) (w : Warp) : (s.setWarp k w).warps = tset s.warps k w := rfl
@[simp] theorem State.setWarp_cores (s : State) (k : Nat) (w : Warp) : (s.setWarp k w).cores = s.cores := rfl
@[simp] theorem State.setWarp_tls (s : State) (k : Nat) (w : Warp) : (s.setWarp k w).tls = s.tls := rfl
@[simp] theorem State.setWarp_quads (s : State) (k : Nat) (w : Warp) : (s.setWarp k w).quads = s.quads := rfl
@[simp] theorem State.setWarp_dies (s : State) (k : Nat) (w : Warp) : (s.setWarp k w).dies = s.dies := rfl
@[simp] theorem State.setWarp_planes (s : State) (k : Nat) (w : Warp) : (s.setWarp k w).planes = s.planes := rfl
@[simp] theorem State.setWarp_ctxs (s : State) (k : Nat) (w : Warp) : (s.setWarp k w).ctxs = s.ctxs := rfl
@[simp] theorem State.setWarp_grids (s : State) (k : Nat) (w : Warp) : (s.setWarp k w).grids = s.grids := rfl
@[simp] theorem State.setWarp_clusters (s : State) (k : Nat) (w : Warp) : (s.setWarp k w).clusters = s.clusters := rfl
@[simp] theorem State.setWarp_blocks (s : State) (k : Nat) (w : Warp) : (s.setWarp k w).blocks = s.blocks := rfl
@[simp] theorem State.setWarp_kiosks (s : State) (k : Nat) (w : Warp) : (s.setWarp k w).kiosks = s.kiosks := rfl
@[simp] theorem State.setWarp_colls (s : State) (k : Nat) (w : Warp) : (s.setWarp k w).colls = s.colls := rfl
@[simp] theorem State.setWarp_matched (s : State) (k : Nat) (w : Warp) : (s.setWarp k w).matched = s.matched := rfl
@[simp] theorem State.setWarp_invals (s : State) (k : Nat) (w : Warp) : (s.setWarp k w).invals = s.invals := rfl
@[simp] theorem State.setWarp_gleaves (s : State) (k : Nat) (w : Warp) : (s.setWarp k w).gleaves = s.gleaves := rfl
@[simp] theorem State.setWarp_ordbuf (s : State) (k : Nat) (w : Warp) : (s.setWarp k w).ordbuf = s.ordbuf := rfl
@[simp] theorem State.setWarp_rels (s : State) (k : Nat) (w : Warp) : (s.setWarp k w).rels = s.rels := rfl
@[simp] theorem State.setWarp_stale (s : State) (k : Nat) (w : Warp) : (s.setWarp k w).stale = s.stale := rfl
@[simp] theorem State.setWarp_nexts (s : State) (k : Nat) (w : Warp) : (s.setWarp k w).nexts = s.nexts := rfl
@[simp] theorem State.setWarp_roots (s : State) (k : Nat) (w : Warp) : (s.setWarp k w).roots = s.roots := rfl
@[simp] theorem State.setWarp_devnum (s : State) (k : Nat) (w : Warp) : (s.setWarp k w).devnum = s.devnum := rfl
@[simp] theorem State.setWarp_inbound (s : State) (k : Nat) (w : Warp) : (s.setWarp k w).inbound = s.inbound := rfl
@[simp] theorem State.setWarp_hbm (s : State) (k : Nat) (w : Warp) : (s.setWarp k w).hbm = s.hbm := rfl
@[simp] theorem State.setWarp_lpown (s : State) (k : Nat) (w : Warp) : (s.setWarp k w).lpown = s.lpown := rfl
@[simp] theorem State.setWarp_uq (s : State) (k : Nat) (w : Warp) : (s.setWarp k w).uq = s.uq := rfl
@[simp] theorem State.setWarp_sens (s : State) (k : Nat) (w : Warp) : (s.setWarp k w).sens = s.sens := rfl
@[simp] theorem State.setWarp_thcfg (s : State) (k : Nat) (w : Warp) : (s.setWarp k w).thcfg = s.thcfg := rfl
@[simp] theorem State.setWarp_ports (s : State) (k : Nat) (w : Warp) : (s.setWarp k w).ports = s.ports := rfl
@[simp] theorem State.setWarp_reachable (s : State) (k : Nat) (w : Warp) : (s.setWarp k w).reachable = s.reachable := rfl
@[simp] theorem State.setWarp_peerMem (s : State) (k : Nat) (w : Warp) : (s.setWarp k w).peerMem = s.peerMem := rfl
@[simp] theorem State.setWarp_peerShut (s : State) (k : Nat) (w : Warp) : (s.setWarp k w).peerShut = s.peerShut := rfl
@[simp] theorem State.setWarp_boot (s : State) (k : Nat) (w : Warp) : (s.setWarp k w).boot = s.boot := rfl
@[simp] theorem State.setWarp_faulty (s : State) (k : Nat) (w : Warp) : (s.setWarp k w).faulty = s.faulty := rfl
@[simp] theorem State.setWarp_bvctl (s : State) (k : Nat) (w : Warp) : (s.setWarp k w).bvctl = s.bvctl := rfl
@[simp] theorem State.setWarp_supply (s : State) (k : Nat) (w : Warp) : (s.setWarp k w).supply = s.supply := rfl
@[simp] theorem State.setWarp_clock (s : State) (k : Nat) (w : Warp) : (s.setWarp k w).clock = s.clock := rfl
@[simp] theorem State.setWarp_answers (s : State) (k : Nat) (w : Warp) : (s.setWarp k w).answers = s.answers := rfl
@[simp] theorem State.setWarp_nextId (s : State) (k : Nat) (w : Warp) : (s.setWarp k w).nextId = s.nextId := rfl
@[simp] theorem State.setWarp_seq (s : State) (k : Nat) (w : Warp) : (s.setWarp k w).seq = s.seq := rfl
@[simp] theorem State.setWarp_free (s : State) (k : Nat) (w : Warp) : (s.setWarp k w).free = s.free := rfl
@[simp] theorem State.setWarp_served (s : State) (k : Nat) (w : Warp) : (s.setWarp k w).served = s.served := rfl
@[simp] theorem State.setWarp_agenda (s : State) (k : Nat) (w : Warp) : (s.setWarp k w).agenda = s.agenda := rfl
@[simp] theorem State.setWarp_cur (s : State) (k : Nat) (w : Warp) : (s.setWarp k w).cur = s.cur := rfl
@[simp] theorem State.setWarp_kcur (s : State) (k : Nat) (w : Warp) : (s.setWarp k w).kcur = s.kcur := rfl
@[simp] theorem State.setWarp_ev (s : State) (k : Nat) (w : Warp) : (s.setWarp k w).ev = s.ev := rfl

/-! ## State.setCore -/

@[simp] theorem State.setCore_mem (s : State) (n : Nat) (c : Core) : (s.setCore n c).mem = s.mem := rfl
@[simp] theorem State.setCore_poison (s : State) (n : Nat) (c : Core) : (s.setCore n c).poison = s.poison := rfl
@[simp] theorem State.setCore_l2dirty (s : State) (n : Nat) (c : Core) : (s.setCore n c).l2dirty = s.l2dirty := rfl
@[simp] theorem State.setCore_warps (s : State) (n : Nat) (c : Core) : (s.setCore n c).warps = s.warps := rfl
@[simp] theorem State.setCore_cores (s : State) (n : Nat) (c : Core) : (s.setCore n c).cores = tset s.cores n c := rfl
@[simp] theorem State.setCore_tls (s : State) (n : Nat) (c : Core) : (s.setCore n c).tls = s.tls := rfl
@[simp] theorem State.setCore_quads (s : State) (n : Nat) (c : Core) : (s.setCore n c).quads = s.quads := rfl
@[simp] theorem State.setCore_dies (s : State) (n : Nat) (c : Core) : (s.setCore n c).dies = s.dies := rfl
@[simp] theorem State.setCore_planes (s : State) (n : Nat) (c : Core) : (s.setCore n c).planes = s.planes := rfl
@[simp] theorem State.setCore_ctxs (s : State) (n : Nat) (c : Core) : (s.setCore n c).ctxs = s.ctxs := rfl
@[simp] theorem State.setCore_grids (s : State) (n : Nat) (c : Core) : (s.setCore n c).grids = s.grids := rfl
@[simp] theorem State.setCore_clusters (s : State) (n : Nat) (c : Core) : (s.setCore n c).clusters = s.clusters := rfl
@[simp] theorem State.setCore_blocks (s : State) (n : Nat) (c : Core) : (s.setCore n c).blocks = s.blocks := rfl
@[simp] theorem State.setCore_kiosks (s : State) (n : Nat) (c : Core) : (s.setCore n c).kiosks = s.kiosks := rfl
@[simp] theorem State.setCore_colls (s : State) (n : Nat) (c : Core) : (s.setCore n c).colls = s.colls := rfl
@[simp] theorem State.setCore_matched (s : State) (n : Nat) (c : Core) : (s.setCore n c).matched = s.matched := rfl
@[simp] theorem State.setCore_invals (s : State) (n : Nat) (c : Core) : (s.setCore n c).invals = s.invals := rfl
@[simp] theorem State.setCore_gleaves (s : State) (n : Nat) (c : Core) : (s.setCore n c).gleaves = s.gleaves := rfl
@[simp] theorem State.setCore_ordbuf (s : State) (n : Nat) (c : Core) : (s.setCore n c).ordbuf = s.ordbuf := rfl
@[simp] theorem State.setCore_rels (s : State) (n : Nat) (c : Core) : (s.setCore n c).rels = s.rels := rfl
@[simp] theorem State.setCore_stale (s : State) (n : Nat) (c : Core) : (s.setCore n c).stale = s.stale := rfl
@[simp] theorem State.setCore_nexts (s : State) (n : Nat) (c : Core) : (s.setCore n c).nexts = s.nexts := rfl
@[simp] theorem State.setCore_roots (s : State) (n : Nat) (c : Core) : (s.setCore n c).roots = s.roots := rfl
@[simp] theorem State.setCore_devnum (s : State) (n : Nat) (c : Core) : (s.setCore n c).devnum = s.devnum := rfl
@[simp] theorem State.setCore_inbound (s : State) (n : Nat) (c : Core) : (s.setCore n c).inbound = s.inbound := rfl
@[simp] theorem State.setCore_hbm (s : State) (n : Nat) (c : Core) : (s.setCore n c).hbm = s.hbm := rfl
@[simp] theorem State.setCore_lpown (s : State) (n : Nat) (c : Core) : (s.setCore n c).lpown = s.lpown := rfl
@[simp] theorem State.setCore_uq (s : State) (n : Nat) (c : Core) : (s.setCore n c).uq = s.uq := rfl
@[simp] theorem State.setCore_sens (s : State) (n : Nat) (c : Core) : (s.setCore n c).sens = s.sens := rfl
@[simp] theorem State.setCore_thcfg (s : State) (n : Nat) (c : Core) : (s.setCore n c).thcfg = s.thcfg := rfl
@[simp] theorem State.setCore_ports (s : State) (n : Nat) (c : Core) : (s.setCore n c).ports = s.ports := rfl
@[simp] theorem State.setCore_reachable (s : State) (n : Nat) (c : Core) : (s.setCore n c).reachable = s.reachable := rfl
@[simp] theorem State.setCore_peerMem (s : State) (n : Nat) (c : Core) : (s.setCore n c).peerMem = s.peerMem := rfl
@[simp] theorem State.setCore_peerShut (s : State) (n : Nat) (c : Core) : (s.setCore n c).peerShut = s.peerShut := rfl
@[simp] theorem State.setCore_boot (s : State) (n : Nat) (c : Core) : (s.setCore n c).boot = s.boot := rfl
@[simp] theorem State.setCore_faulty (s : State) (n : Nat) (c : Core) : (s.setCore n c).faulty = s.faulty := rfl
@[simp] theorem State.setCore_bvctl (s : State) (n : Nat) (c : Core) : (s.setCore n c).bvctl = s.bvctl := rfl
@[simp] theorem State.setCore_supply (s : State) (n : Nat) (c : Core) : (s.setCore n c).supply = s.supply := rfl
@[simp] theorem State.setCore_clock (s : State) (n : Nat) (c : Core) : (s.setCore n c).clock = s.clock := rfl
@[simp] theorem State.setCore_answers (s : State) (n : Nat) (c : Core) : (s.setCore n c).answers = s.answers := rfl
@[simp] theorem State.setCore_nextId (s : State) (n : Nat) (c : Core) : (s.setCore n c).nextId = s.nextId := rfl
@[simp] theorem State.setCore_seq (s : State) (n : Nat) (c : Core) : (s.setCore n c).seq = s.seq := rfl
@[simp] theorem State.setCore_free (s : State) (n : Nat) (c : Core) : (s.setCore n c).free = s.free := rfl
@[simp] theorem State.setCore_served (s : State) (n : Nat) (c : Core) : (s.setCore n c).served = s.served := rfl
@[simp] theorem State.setCore_agenda (s : State) (n : Nat) (c : Core) : (s.setCore n c).agenda = s.agenda := rfl
@[simp] theorem State.setCore_cur (s : State) (n : Nat) (c : Core) : (s.setCore n c).cur = s.cur := rfl
@[simp] theorem State.setCore_kcur (s : State) (n : Nat) (c : Core) : (s.setCore n c).kcur = s.kcur := rfl
@[simp] theorem State.setCore_ev (s : State) (n : Nat) (c : Core) : (s.setCore n c).ev = s.ev := rfl

/-! ## State.setTl -/

@[simp] theorem State.setTl_mem (s : State) (x n : Nat) (t : TlSet) : (s.setTl x n t).mem = s.mem := rfl
@[simp] theorem State.setTl_poison (s : State) (x n : Nat) (t : TlSet) : (s.setTl x n t).poison = s.poison := rfl
@[simp] theorem State.setTl_l2dirty (s : State) (x n : Nat) (t : TlSet) : (s.setTl x n t).l2dirty = s.l2dirty := rfl
@[simp] theorem State.setTl_warps (s : State) (x n : Nat) (t : TlSet) : (s.setTl x n t).warps = s.warps := rfl
@[simp] theorem State.setTl_cores (s : State) (x n : Nat) (t : TlSet) : (s.setTl x n t).cores = s.cores := rfl
@[simp] theorem State.setTl_tls (s : State) (x n : Nat) (t : TlSet) : (s.setTl x n t).tls = tset s.tls (tlKey x n) t := rfl
@[simp] theorem State.setTl_quads (s : State) (x n : Nat) (t : TlSet) : (s.setTl x n t).quads = s.quads := rfl
@[simp] theorem State.setTl_dies (s : State) (x n : Nat) (t : TlSet) : (s.setTl x n t).dies = s.dies := rfl
@[simp] theorem State.setTl_planes (s : State) (x n : Nat) (t : TlSet) : (s.setTl x n t).planes = s.planes := rfl
@[simp] theorem State.setTl_ctxs (s : State) (x n : Nat) (t : TlSet) : (s.setTl x n t).ctxs = s.ctxs := rfl
@[simp] theorem State.setTl_grids (s : State) (x n : Nat) (t : TlSet) : (s.setTl x n t).grids = s.grids := rfl
@[simp] theorem State.setTl_clusters (s : State) (x n : Nat) (t : TlSet) : (s.setTl x n t).clusters = s.clusters := rfl
@[simp] theorem State.setTl_blocks (s : State) (x n : Nat) (t : TlSet) : (s.setTl x n t).blocks = s.blocks := rfl
@[simp] theorem State.setTl_kiosks (s : State) (x n : Nat) (t : TlSet) : (s.setTl x n t).kiosks = s.kiosks := rfl
@[simp] theorem State.setTl_colls (s : State) (x n : Nat) (t : TlSet) : (s.setTl x n t).colls = s.colls := rfl
@[simp] theorem State.setTl_matched (s : State) (x n : Nat) (t : TlSet) : (s.setTl x n t).matched = s.matched := rfl
@[simp] theorem State.setTl_invals (s : State) (x n : Nat) (t : TlSet) : (s.setTl x n t).invals = s.invals := rfl
@[simp] theorem State.setTl_gleaves (s : State) (x n : Nat) (t : TlSet) : (s.setTl x n t).gleaves = s.gleaves := rfl
@[simp] theorem State.setTl_ordbuf (s : State) (x n : Nat) (t : TlSet) : (s.setTl x n t).ordbuf = s.ordbuf := rfl
@[simp] theorem State.setTl_rels (s : State) (x n : Nat) (t : TlSet) : (s.setTl x n t).rels = s.rels := rfl
@[simp] theorem State.setTl_stale (s : State) (x n : Nat) (t : TlSet) : (s.setTl x n t).stale = s.stale := rfl
@[simp] theorem State.setTl_nexts (s : State) (x n : Nat) (t : TlSet) : (s.setTl x n t).nexts = s.nexts := rfl
@[simp] theorem State.setTl_roots (s : State) (x n : Nat) (t : TlSet) : (s.setTl x n t).roots = s.roots := rfl
@[simp] theorem State.setTl_devnum (s : State) (x n : Nat) (t : TlSet) : (s.setTl x n t).devnum = s.devnum := rfl
@[simp] theorem State.setTl_inbound (s : State) (x n : Nat) (t : TlSet) : (s.setTl x n t).inbound = s.inbound := rfl
@[simp] theorem State.setTl_hbm (s : State) (x n : Nat) (t : TlSet) : (s.setTl x n t).hbm = s.hbm := rfl
@[simp] theorem State.setTl_lpown (s : State) (x n : Nat) (t : TlSet) : (s.setTl x n t).lpown = s.lpown := rfl
@[simp] theorem State.setTl_uq (s : State) (x n : Nat) (t : TlSet) : (s.setTl x n t).uq = s.uq := rfl
@[simp] theorem State.setTl_sens (s : State) (x n : Nat) (t : TlSet) : (s.setTl x n t).sens = s.sens := rfl
@[simp] theorem State.setTl_thcfg (s : State) (x n : Nat) (t : TlSet) : (s.setTl x n t).thcfg = s.thcfg := rfl
@[simp] theorem State.setTl_ports (s : State) (x n : Nat) (t : TlSet) : (s.setTl x n t).ports = s.ports := rfl
@[simp] theorem State.setTl_reachable (s : State) (x n : Nat) (t : TlSet) : (s.setTl x n t).reachable = s.reachable := rfl
@[simp] theorem State.setTl_peerMem (s : State) (x n : Nat) (t : TlSet) : (s.setTl x n t).peerMem = s.peerMem := rfl
@[simp] theorem State.setTl_peerShut (s : State) (x n : Nat) (t : TlSet) : (s.setTl x n t).peerShut = s.peerShut := rfl
@[simp] theorem State.setTl_boot (s : State) (x n : Nat) (t : TlSet) : (s.setTl x n t).boot = s.boot := rfl
@[simp] theorem State.setTl_faulty (s : State) (x n : Nat) (t : TlSet) : (s.setTl x n t).faulty = s.faulty := rfl
@[simp] theorem State.setTl_bvctl (s : State) (x n : Nat) (t : TlSet) : (s.setTl x n t).bvctl = s.bvctl := rfl
@[simp] theorem State.setTl_supply (s : State) (x n : Nat) (t : TlSet) : (s.setTl x n t).supply = s.supply := rfl
@[simp] theorem State.setTl_clock (s : State) (x n : Nat) (t : TlSet) : (s.setTl x n t).clock = s.clock := rfl
@[simp] theorem State.setTl_answers (s : State) (x n : Nat) (t : TlSet) : (s.setTl x n t).answers = s.answers := rfl
@[simp] theorem State.setTl_nextId (s : State) (x n : Nat) (t : TlSet) : (s.setTl x n t).nextId = s.nextId := rfl
@[simp] theorem State.setTl_seq (s : State) (x n : Nat) (t : TlSet) : (s.setTl x n t).seq = s.seq := rfl
@[simp] theorem State.setTl_free (s : State) (x n : Nat) (t : TlSet) : (s.setTl x n t).free = s.free := rfl
@[simp] theorem State.setTl_served (s : State) (x n : Nat) (t : TlSet) : (s.setTl x n t).served = s.served := rfl
@[simp] theorem State.setTl_agenda (s : State) (x n : Nat) (t : TlSet) : (s.setTl x n t).agenda = s.agenda := rfl
@[simp] theorem State.setTl_cur (s : State) (x n : Nat) (t : TlSet) : (s.setTl x n t).cur = s.cur := rfl
@[simp] theorem State.setTl_kcur (s : State) (x n : Nat) (t : TlSet) : (s.setTl x n t).kcur = s.kcur := rfl
@[simp] theorem State.setTl_ev (s : State) (x n : Nat) (t : TlSet) : (s.setTl x n t).ev = s.ev := rfl

/-! ## State.setCtx -/

@[simp] theorem State.setCtx_mem (s : State) (n : Nat) (c : Ctx) : (s.setCtx n c).mem = s.mem := rfl
@[simp] theorem State.setCtx_poison (s : State) (n : Nat) (c : Ctx) : (s.setCtx n c).poison = s.poison := rfl
@[simp] theorem State.setCtx_l2dirty (s : State) (n : Nat) (c : Ctx) : (s.setCtx n c).l2dirty = s.l2dirty := rfl
@[simp] theorem State.setCtx_warps (s : State) (n : Nat) (c : Ctx) : (s.setCtx n c).warps = s.warps := rfl
@[simp] theorem State.setCtx_cores (s : State) (n : Nat) (c : Ctx) : (s.setCtx n c).cores = s.cores := rfl
@[simp] theorem State.setCtx_tls (s : State) (n : Nat) (c : Ctx) : (s.setCtx n c).tls = s.tls := rfl
@[simp] theorem State.setCtx_quads (s : State) (n : Nat) (c : Ctx) : (s.setCtx n c).quads = s.quads := rfl
@[simp] theorem State.setCtx_dies (s : State) (n : Nat) (c : Ctx) : (s.setCtx n c).dies = s.dies := rfl
@[simp] theorem State.setCtx_planes (s : State) (n : Nat) (c : Ctx) : (s.setCtx n c).planes = s.planes := rfl
@[simp] theorem State.setCtx_ctxs (s : State) (n : Nat) (c : Ctx) : (s.setCtx n c).ctxs = tset s.ctxs n c := rfl
@[simp] theorem State.setCtx_grids (s : State) (n : Nat) (c : Ctx) : (s.setCtx n c).grids = s.grids := rfl
@[simp] theorem State.setCtx_clusters (s : State) (n : Nat) (c : Ctx) : (s.setCtx n c).clusters = s.clusters := rfl
@[simp] theorem State.setCtx_blocks (s : State) (n : Nat) (c : Ctx) : (s.setCtx n c).blocks = s.blocks := rfl
@[simp] theorem State.setCtx_kiosks (s : State) (n : Nat) (c : Ctx) : (s.setCtx n c).kiosks = s.kiosks := rfl
@[simp] theorem State.setCtx_colls (s : State) (n : Nat) (c : Ctx) : (s.setCtx n c).colls = s.colls := rfl
@[simp] theorem State.setCtx_matched (s : State) (n : Nat) (c : Ctx) : (s.setCtx n c).matched = s.matched := rfl
@[simp] theorem State.setCtx_invals (s : State) (n : Nat) (c : Ctx) : (s.setCtx n c).invals = s.invals := rfl
@[simp] theorem State.setCtx_gleaves (s : State) (n : Nat) (c : Ctx) : (s.setCtx n c).gleaves = s.gleaves := rfl
@[simp] theorem State.setCtx_ordbuf (s : State) (n : Nat) (c : Ctx) : (s.setCtx n c).ordbuf = s.ordbuf := rfl
@[simp] theorem State.setCtx_rels (s : State) (n : Nat) (c : Ctx) : (s.setCtx n c).rels = s.rels := rfl
@[simp] theorem State.setCtx_stale (s : State) (n : Nat) (c : Ctx) : (s.setCtx n c).stale = s.stale := rfl
@[simp] theorem State.setCtx_nexts (s : State) (n : Nat) (c : Ctx) : (s.setCtx n c).nexts = s.nexts := rfl
@[simp] theorem State.setCtx_roots (s : State) (n : Nat) (c : Ctx) : (s.setCtx n c).roots = s.roots := rfl
@[simp] theorem State.setCtx_devnum (s : State) (n : Nat) (c : Ctx) : (s.setCtx n c).devnum = s.devnum := rfl
@[simp] theorem State.setCtx_inbound (s : State) (n : Nat) (c : Ctx) : (s.setCtx n c).inbound = s.inbound := rfl
@[simp] theorem State.setCtx_hbm (s : State) (n : Nat) (c : Ctx) : (s.setCtx n c).hbm = s.hbm := rfl
@[simp] theorem State.setCtx_lpown (s : State) (n : Nat) (c : Ctx) : (s.setCtx n c).lpown = s.lpown := rfl
@[simp] theorem State.setCtx_uq (s : State) (n : Nat) (c : Ctx) : (s.setCtx n c).uq = s.uq := rfl
@[simp] theorem State.setCtx_sens (s : State) (n : Nat) (c : Ctx) : (s.setCtx n c).sens = s.sens := rfl
@[simp] theorem State.setCtx_thcfg (s : State) (n : Nat) (c : Ctx) : (s.setCtx n c).thcfg = s.thcfg := rfl
@[simp] theorem State.setCtx_ports (s : State) (n : Nat) (c : Ctx) : (s.setCtx n c).ports = s.ports := rfl
@[simp] theorem State.setCtx_reachable (s : State) (n : Nat) (c : Ctx) : (s.setCtx n c).reachable = s.reachable := rfl
@[simp] theorem State.setCtx_peerMem (s : State) (n : Nat) (c : Ctx) : (s.setCtx n c).peerMem = s.peerMem := rfl
@[simp] theorem State.setCtx_peerShut (s : State) (n : Nat) (c : Ctx) : (s.setCtx n c).peerShut = s.peerShut := rfl
@[simp] theorem State.setCtx_boot (s : State) (n : Nat) (c : Ctx) : (s.setCtx n c).boot = s.boot := rfl
@[simp] theorem State.setCtx_faulty (s : State) (n : Nat) (c : Ctx) : (s.setCtx n c).faulty = s.faulty := rfl
@[simp] theorem State.setCtx_bvctl (s : State) (n : Nat) (c : Ctx) : (s.setCtx n c).bvctl = s.bvctl := rfl
@[simp] theorem State.setCtx_supply (s : State) (n : Nat) (c : Ctx) : (s.setCtx n c).supply = s.supply := rfl
@[simp] theorem State.setCtx_clock (s : State) (n : Nat) (c : Ctx) : (s.setCtx n c).clock = s.clock := rfl
@[simp] theorem State.setCtx_answers (s : State) (n : Nat) (c : Ctx) : (s.setCtx n c).answers = s.answers := rfl
@[simp] theorem State.setCtx_nextId (s : State) (n : Nat) (c : Ctx) : (s.setCtx n c).nextId = s.nextId := rfl
@[simp] theorem State.setCtx_seq (s : State) (n : Nat) (c : Ctx) : (s.setCtx n c).seq = s.seq := rfl
@[simp] theorem State.setCtx_free (s : State) (n : Nat) (c : Ctx) : (s.setCtx n c).free = s.free := rfl
@[simp] theorem State.setCtx_served (s : State) (n : Nat) (c : Ctx) : (s.setCtx n c).served = s.served := rfl
@[simp] theorem State.setCtx_agenda (s : State) (n : Nat) (c : Ctx) : (s.setCtx n c).agenda = s.agenda := rfl
@[simp] theorem State.setCtx_cur (s : State) (n : Nat) (c : Ctx) : (s.setCtx n c).cur = s.cur := rfl
@[simp] theorem State.setCtx_kcur (s : State) (n : Nat) (c : Ctx) : (s.setCtx n c).kcur = s.kcur := rfl
@[simp] theorem State.setCtx_ev (s : State) (n : Nat) (c : Ctx) : (s.setCtx n c).ev = s.ev := rfl

/-! ## State.setQuad -/

@[simp] theorem State.setQuad_mem (s : State) (n : Nat) (q : Quad) : (s.setQuad n q).mem = s.mem := rfl
@[simp] theorem State.setQuad_poison (s : State) (n : Nat) (q : Quad) : (s.setQuad n q).poison = s.poison := rfl
@[simp] theorem State.setQuad_l2dirty (s : State) (n : Nat) (q : Quad) : (s.setQuad n q).l2dirty = s.l2dirty := rfl
@[simp] theorem State.setQuad_warps (s : State) (n : Nat) (q : Quad) : (s.setQuad n q).warps = s.warps := rfl
@[simp] theorem State.setQuad_cores (s : State) (n : Nat) (q : Quad) : (s.setQuad n q).cores = s.cores := rfl
@[simp] theorem State.setQuad_tls (s : State) (n : Nat) (q : Quad) : (s.setQuad n q).tls = s.tls := rfl
@[simp] theorem State.setQuad_quads (s : State) (n : Nat) (q : Quad) : (s.setQuad n q).quads = tset s.quads n q := rfl
@[simp] theorem State.setQuad_dies (s : State) (n : Nat) (q : Quad) : (s.setQuad n q).dies = s.dies := rfl
@[simp] theorem State.setQuad_planes (s : State) (n : Nat) (q : Quad) : (s.setQuad n q).planes = s.planes := rfl
@[simp] theorem State.setQuad_ctxs (s : State) (n : Nat) (q : Quad) : (s.setQuad n q).ctxs = s.ctxs := rfl
@[simp] theorem State.setQuad_grids (s : State) (n : Nat) (q : Quad) : (s.setQuad n q).grids = s.grids := rfl
@[simp] theorem State.setQuad_clusters (s : State) (n : Nat) (q : Quad) : (s.setQuad n q).clusters = s.clusters := rfl
@[simp] theorem State.setQuad_blocks (s : State) (n : Nat) (q : Quad) : (s.setQuad n q).blocks = s.blocks := rfl
@[simp] theorem State.setQuad_kiosks (s : State) (n : Nat) (q : Quad) : (s.setQuad n q).kiosks = s.kiosks := rfl
@[simp] theorem State.setQuad_colls (s : State) (n : Nat) (q : Quad) : (s.setQuad n q).colls = s.colls := rfl
@[simp] theorem State.setQuad_matched (s : State) (n : Nat) (q : Quad) : (s.setQuad n q).matched = s.matched := rfl
@[simp] theorem State.setQuad_invals (s : State) (n : Nat) (q : Quad) : (s.setQuad n q).invals = s.invals := rfl
@[simp] theorem State.setQuad_gleaves (s : State) (n : Nat) (q : Quad) : (s.setQuad n q).gleaves = s.gleaves := rfl
@[simp] theorem State.setQuad_ordbuf (s : State) (n : Nat) (q : Quad) : (s.setQuad n q).ordbuf = s.ordbuf := rfl
@[simp] theorem State.setQuad_rels (s : State) (n : Nat) (q : Quad) : (s.setQuad n q).rels = s.rels := rfl
@[simp] theorem State.setQuad_stale (s : State) (n : Nat) (q : Quad) : (s.setQuad n q).stale = s.stale := rfl
@[simp] theorem State.setQuad_nexts (s : State) (n : Nat) (q : Quad) : (s.setQuad n q).nexts = s.nexts := rfl
@[simp] theorem State.setQuad_roots (s : State) (n : Nat) (q : Quad) : (s.setQuad n q).roots = s.roots := rfl
@[simp] theorem State.setQuad_devnum (s : State) (n : Nat) (q : Quad) : (s.setQuad n q).devnum = s.devnum := rfl
@[simp] theorem State.setQuad_inbound (s : State) (n : Nat) (q : Quad) : (s.setQuad n q).inbound = s.inbound := rfl
@[simp] theorem State.setQuad_hbm (s : State) (n : Nat) (q : Quad) : (s.setQuad n q).hbm = s.hbm := rfl
@[simp] theorem State.setQuad_lpown (s : State) (n : Nat) (q : Quad) : (s.setQuad n q).lpown = s.lpown := rfl
@[simp] theorem State.setQuad_uq (s : State) (n : Nat) (q : Quad) : (s.setQuad n q).uq = s.uq := rfl
@[simp] theorem State.setQuad_sens (s : State) (n : Nat) (q : Quad) : (s.setQuad n q).sens = s.sens := rfl
@[simp] theorem State.setQuad_thcfg (s : State) (n : Nat) (q : Quad) : (s.setQuad n q).thcfg = s.thcfg := rfl
@[simp] theorem State.setQuad_ports (s : State) (n : Nat) (q : Quad) : (s.setQuad n q).ports = s.ports := rfl
@[simp] theorem State.setQuad_reachable (s : State) (n : Nat) (q : Quad) : (s.setQuad n q).reachable = s.reachable := rfl
@[simp] theorem State.setQuad_peerMem (s : State) (n : Nat) (q : Quad) : (s.setQuad n q).peerMem = s.peerMem := rfl
@[simp] theorem State.setQuad_peerShut (s : State) (n : Nat) (q : Quad) : (s.setQuad n q).peerShut = s.peerShut := rfl
@[simp] theorem State.setQuad_boot (s : State) (n : Nat) (q : Quad) : (s.setQuad n q).boot = s.boot := rfl
@[simp] theorem State.setQuad_faulty (s : State) (n : Nat) (q : Quad) : (s.setQuad n q).faulty = s.faulty := rfl
@[simp] theorem State.setQuad_bvctl (s : State) (n : Nat) (q : Quad) : (s.setQuad n q).bvctl = s.bvctl := rfl
@[simp] theorem State.setQuad_supply (s : State) (n : Nat) (q : Quad) : (s.setQuad n q).supply = s.supply := rfl
@[simp] theorem State.setQuad_clock (s : State) (n : Nat) (q : Quad) : (s.setQuad n q).clock = s.clock := rfl
@[simp] theorem State.setQuad_answers (s : State) (n : Nat) (q : Quad) : (s.setQuad n q).answers = s.answers := rfl
@[simp] theorem State.setQuad_nextId (s : State) (n : Nat) (q : Quad) : (s.setQuad n q).nextId = s.nextId := rfl
@[simp] theorem State.setQuad_seq (s : State) (n : Nat) (q : Quad) : (s.setQuad n q).seq = s.seq := rfl
@[simp] theorem State.setQuad_free (s : State) (n : Nat) (q : Quad) : (s.setQuad n q).free = s.free := rfl
@[simp] theorem State.setQuad_served (s : State) (n : Nat) (q : Quad) : (s.setQuad n q).served = s.served := rfl
@[simp] theorem State.setQuad_agenda (s : State) (n : Nat) (q : Quad) : (s.setQuad n q).agenda = s.agenda := rfl
@[simp] theorem State.setQuad_cur (s : State) (n : Nat) (q : Quad) : (s.setQuad n q).cur = s.cur := rfl
@[simp] theorem State.setQuad_kcur (s : State) (n : Nat) (q : Quad) : (s.setQuad n q).kcur = s.kcur := rfl
@[simp] theorem State.setQuad_ev (s : State) (n : Nat) (q : Quad) : (s.setQuad n q).ev = s.ev := rfl

/-! ## State.setDie -/

@[simp] theorem State.setDie_mem (s : State) (n : Nat) (d : Die) : (s.setDie n d).mem = s.mem := rfl
@[simp] theorem State.setDie_poison (s : State) (n : Nat) (d : Die) : (s.setDie n d).poison = s.poison := rfl
@[simp] theorem State.setDie_l2dirty (s : State) (n : Nat) (d : Die) : (s.setDie n d).l2dirty = s.l2dirty := rfl
@[simp] theorem State.setDie_warps (s : State) (n : Nat) (d : Die) : (s.setDie n d).warps = s.warps := rfl
@[simp] theorem State.setDie_cores (s : State) (n : Nat) (d : Die) : (s.setDie n d).cores = s.cores := rfl
@[simp] theorem State.setDie_tls (s : State) (n : Nat) (d : Die) : (s.setDie n d).tls = s.tls := rfl
@[simp] theorem State.setDie_quads (s : State) (n : Nat) (d : Die) : (s.setDie n d).quads = s.quads := rfl
@[simp] theorem State.setDie_dies (s : State) (n : Nat) (d : Die) : (s.setDie n d).dies = tset s.dies n d := rfl
@[simp] theorem State.setDie_planes (s : State) (n : Nat) (d : Die) : (s.setDie n d).planes = s.planes := rfl
@[simp] theorem State.setDie_ctxs (s : State) (n : Nat) (d : Die) : (s.setDie n d).ctxs = s.ctxs := rfl
@[simp] theorem State.setDie_grids (s : State) (n : Nat) (d : Die) : (s.setDie n d).grids = s.grids := rfl
@[simp] theorem State.setDie_clusters (s : State) (n : Nat) (d : Die) : (s.setDie n d).clusters = s.clusters := rfl
@[simp] theorem State.setDie_blocks (s : State) (n : Nat) (d : Die) : (s.setDie n d).blocks = s.blocks := rfl
@[simp] theorem State.setDie_kiosks (s : State) (n : Nat) (d : Die) : (s.setDie n d).kiosks = s.kiosks := rfl
@[simp] theorem State.setDie_colls (s : State) (n : Nat) (d : Die) : (s.setDie n d).colls = s.colls := rfl
@[simp] theorem State.setDie_matched (s : State) (n : Nat) (d : Die) : (s.setDie n d).matched = s.matched := rfl
@[simp] theorem State.setDie_invals (s : State) (n : Nat) (d : Die) : (s.setDie n d).invals = s.invals := rfl
@[simp] theorem State.setDie_gleaves (s : State) (n : Nat) (d : Die) : (s.setDie n d).gleaves = s.gleaves := rfl
@[simp] theorem State.setDie_ordbuf (s : State) (n : Nat) (d : Die) : (s.setDie n d).ordbuf = s.ordbuf := rfl
@[simp] theorem State.setDie_rels (s : State) (n : Nat) (d : Die) : (s.setDie n d).rels = s.rels := rfl
@[simp] theorem State.setDie_stale (s : State) (n : Nat) (d : Die) : (s.setDie n d).stale = s.stale := rfl
@[simp] theorem State.setDie_nexts (s : State) (n : Nat) (d : Die) : (s.setDie n d).nexts = s.nexts := rfl
@[simp] theorem State.setDie_roots (s : State) (n : Nat) (d : Die) : (s.setDie n d).roots = s.roots := rfl
@[simp] theorem State.setDie_devnum (s : State) (n : Nat) (d : Die) : (s.setDie n d).devnum = s.devnum := rfl
@[simp] theorem State.setDie_inbound (s : State) (n : Nat) (d : Die) : (s.setDie n d).inbound = s.inbound := rfl
@[simp] theorem State.setDie_hbm (s : State) (n : Nat) (d : Die) : (s.setDie n d).hbm = s.hbm := rfl
@[simp] theorem State.setDie_lpown (s : State) (n : Nat) (d : Die) : (s.setDie n d).lpown = s.lpown := rfl
@[simp] theorem State.setDie_uq (s : State) (n : Nat) (d : Die) : (s.setDie n d).uq = s.uq := rfl
@[simp] theorem State.setDie_sens (s : State) (n : Nat) (d : Die) : (s.setDie n d).sens = s.sens := rfl
@[simp] theorem State.setDie_thcfg (s : State) (n : Nat) (d : Die) : (s.setDie n d).thcfg = s.thcfg := rfl
@[simp] theorem State.setDie_ports (s : State) (n : Nat) (d : Die) : (s.setDie n d).ports = s.ports := rfl
@[simp] theorem State.setDie_reachable (s : State) (n : Nat) (d : Die) : (s.setDie n d).reachable = s.reachable := rfl
@[simp] theorem State.setDie_peerMem (s : State) (n : Nat) (d : Die) : (s.setDie n d).peerMem = s.peerMem := rfl
@[simp] theorem State.setDie_peerShut (s : State) (n : Nat) (d : Die) : (s.setDie n d).peerShut = s.peerShut := rfl
@[simp] theorem State.setDie_boot (s : State) (n : Nat) (d : Die) : (s.setDie n d).boot = s.boot := rfl
@[simp] theorem State.setDie_faulty (s : State) (n : Nat) (d : Die) : (s.setDie n d).faulty = s.faulty := rfl
@[simp] theorem State.setDie_bvctl (s : State) (n : Nat) (d : Die) : (s.setDie n d).bvctl = s.bvctl := rfl
@[simp] theorem State.setDie_supply (s : State) (n : Nat) (d : Die) : (s.setDie n d).supply = s.supply := rfl
@[simp] theorem State.setDie_clock (s : State) (n : Nat) (d : Die) : (s.setDie n d).clock = s.clock := rfl
@[simp] theorem State.setDie_answers (s : State) (n : Nat) (d : Die) : (s.setDie n d).answers = s.answers := rfl
@[simp] theorem State.setDie_nextId (s : State) (n : Nat) (d : Die) : (s.setDie n d).nextId = s.nextId := rfl
@[simp] theorem State.setDie_seq (s : State) (n : Nat) (d : Die) : (s.setDie n d).seq = s.seq := rfl
@[simp] theorem State.setDie_free (s : State) (n : Nat) (d : Die) : (s.setDie n d).free = s.free := rfl
@[simp] theorem State.setDie_served (s : State) (n : Nat) (d : Die) : (s.setDie n d).served = s.served := rfl
@[simp] theorem State.setDie_agenda (s : State) (n : Nat) (d : Die) : (s.setDie n d).agenda = s.agenda := rfl
@[simp] theorem State.setDie_cur (s : State) (n : Nat) (d : Die) : (s.setDie n d).cur = s.cur := rfl
@[simp] theorem State.setDie_kcur (s : State) (n : Nat) (d : Die) : (s.setDie n d).kcur = s.kcur := rfl
@[simp] theorem State.setDie_ev (s : State) (n : Nat) (d : Die) : (s.setDie n d).ev = s.ev := rfl

/-! ## State.setKiosk -/

@[simp] theorem State.setKiosk_mem (s : State) (n : Nat) (k : Kiosk) : (s.setKiosk n k).mem = s.mem := rfl
@[simp] theorem State.setKiosk_poison (s : State) (n : Nat) (k : Kiosk) : (s.setKiosk n k).poison = s.poison := rfl
@[simp] theorem State.setKiosk_l2dirty (s : State) (n : Nat) (k : Kiosk) : (s.setKiosk n k).l2dirty = s.l2dirty := rfl
@[simp] theorem State.setKiosk_warps (s : State) (n : Nat) (k : Kiosk) : (s.setKiosk n k).warps = s.warps := rfl
@[simp] theorem State.setKiosk_cores (s : State) (n : Nat) (k : Kiosk) : (s.setKiosk n k).cores = s.cores := rfl
@[simp] theorem State.setKiosk_tls (s : State) (n : Nat) (k : Kiosk) : (s.setKiosk n k).tls = s.tls := rfl
@[simp] theorem State.setKiosk_quads (s : State) (n : Nat) (k : Kiosk) : (s.setKiosk n k).quads = s.quads := rfl
@[simp] theorem State.setKiosk_dies (s : State) (n : Nat) (k : Kiosk) : (s.setKiosk n k).dies = s.dies := rfl
@[simp] theorem State.setKiosk_planes (s : State) (n : Nat) (k : Kiosk) : (s.setKiosk n k).planes = s.planes := rfl
@[simp] theorem State.setKiosk_ctxs (s : State) (n : Nat) (k : Kiosk) : (s.setKiosk n k).ctxs = s.ctxs := rfl
@[simp] theorem State.setKiosk_grids (s : State) (n : Nat) (k : Kiosk) : (s.setKiosk n k).grids = s.grids := rfl
@[simp] theorem State.setKiosk_clusters (s : State) (n : Nat) (k : Kiosk) : (s.setKiosk n k).clusters = s.clusters := rfl
@[simp] theorem State.setKiosk_blocks (s : State) (n : Nat) (k : Kiosk) : (s.setKiosk n k).blocks = s.blocks := rfl
@[simp] theorem State.setKiosk_kiosks (s : State) (n : Nat) (k : Kiosk) : (s.setKiosk n k).kiosks = tset s.kiosks n k := rfl
@[simp] theorem State.setKiosk_colls (s : State) (n : Nat) (k : Kiosk) : (s.setKiosk n k).colls = s.colls := rfl
@[simp] theorem State.setKiosk_matched (s : State) (n : Nat) (k : Kiosk) : (s.setKiosk n k).matched = s.matched := rfl
@[simp] theorem State.setKiosk_invals (s : State) (n : Nat) (k : Kiosk) : (s.setKiosk n k).invals = s.invals := rfl
@[simp] theorem State.setKiosk_gleaves (s : State) (n : Nat) (k : Kiosk) : (s.setKiosk n k).gleaves = s.gleaves := rfl
@[simp] theorem State.setKiosk_ordbuf (s : State) (n : Nat) (k : Kiosk) : (s.setKiosk n k).ordbuf = s.ordbuf := rfl
@[simp] theorem State.setKiosk_rels (s : State) (n : Nat) (k : Kiosk) : (s.setKiosk n k).rels = s.rels := rfl
@[simp] theorem State.setKiosk_stale (s : State) (n : Nat) (k : Kiosk) : (s.setKiosk n k).stale = s.stale := rfl
@[simp] theorem State.setKiosk_nexts (s : State) (n : Nat) (k : Kiosk) : (s.setKiosk n k).nexts = s.nexts := rfl
@[simp] theorem State.setKiosk_roots (s : State) (n : Nat) (k : Kiosk) : (s.setKiosk n k).roots = s.roots := rfl
@[simp] theorem State.setKiosk_devnum (s : State) (n : Nat) (k : Kiosk) : (s.setKiosk n k).devnum = s.devnum := rfl
@[simp] theorem State.setKiosk_inbound (s : State) (n : Nat) (k : Kiosk) : (s.setKiosk n k).inbound = s.inbound := rfl
@[simp] theorem State.setKiosk_hbm (s : State) (n : Nat) (k : Kiosk) : (s.setKiosk n k).hbm = s.hbm := rfl
@[simp] theorem State.setKiosk_lpown (s : State) (n : Nat) (k : Kiosk) : (s.setKiosk n k).lpown = s.lpown := rfl
@[simp] theorem State.setKiosk_uq (s : State) (n : Nat) (k : Kiosk) : (s.setKiosk n k).uq = s.uq := rfl
@[simp] theorem State.setKiosk_sens (s : State) (n : Nat) (k : Kiosk) : (s.setKiosk n k).sens = s.sens := rfl
@[simp] theorem State.setKiosk_thcfg (s : State) (n : Nat) (k : Kiosk) : (s.setKiosk n k).thcfg = s.thcfg := rfl
@[simp] theorem State.setKiosk_ports (s : State) (n : Nat) (k : Kiosk) : (s.setKiosk n k).ports = s.ports := rfl
@[simp] theorem State.setKiosk_reachable (s : State) (n : Nat) (k : Kiosk) : (s.setKiosk n k).reachable = s.reachable := rfl
@[simp] theorem State.setKiosk_peerMem (s : State) (n : Nat) (k : Kiosk) : (s.setKiosk n k).peerMem = s.peerMem := rfl
@[simp] theorem State.setKiosk_peerShut (s : State) (n : Nat) (k : Kiosk) : (s.setKiosk n k).peerShut = s.peerShut := rfl
@[simp] theorem State.setKiosk_boot (s : State) (n : Nat) (k : Kiosk) : (s.setKiosk n k).boot = s.boot := rfl
@[simp] theorem State.setKiosk_faulty (s : State) (n : Nat) (k : Kiosk) : (s.setKiosk n k).faulty = s.faulty := rfl
@[simp] theorem State.setKiosk_bvctl (s : State) (n : Nat) (k : Kiosk) : (s.setKiosk n k).bvctl = s.bvctl := rfl
@[simp] theorem State.setKiosk_supply (s : State) (n : Nat) (k : Kiosk) : (s.setKiosk n k).supply = s.supply := rfl
@[simp] theorem State.setKiosk_clock (s : State) (n : Nat) (k : Kiosk) : (s.setKiosk n k).clock = s.clock := rfl
@[simp] theorem State.setKiosk_answers (s : State) (n : Nat) (k : Kiosk) : (s.setKiosk n k).answers = s.answers := rfl
@[simp] theorem State.setKiosk_nextId (s : State) (n : Nat) (k : Kiosk) : (s.setKiosk n k).nextId = s.nextId := rfl
@[simp] theorem State.setKiosk_seq (s : State) (n : Nat) (k : Kiosk) : (s.setKiosk n k).seq = s.seq := rfl
@[simp] theorem State.setKiosk_free (s : State) (n : Nat) (k : Kiosk) : (s.setKiosk n k).free = s.free := rfl
@[simp] theorem State.setKiosk_served (s : State) (n : Nat) (k : Kiosk) : (s.setKiosk n k).served = s.served := rfl
@[simp] theorem State.setKiosk_agenda (s : State) (n : Nat) (k : Kiosk) : (s.setKiosk n k).agenda = s.agenda := rfl
@[simp] theorem State.setKiosk_cur (s : State) (n : Nat) (k : Kiosk) : (s.setKiosk n k).cur = s.cur := rfl
@[simp] theorem State.setKiosk_kcur (s : State) (n : Nat) (k : Kiosk) : (s.setKiosk n k).kcur = s.kcur := rfl
@[simp] theorem State.setKiosk_ev (s : State) (n : Nat) (k : Kiosk) : (s.setKiosk n k).ev = s.ev := rfl

/-! ## State.setPlane -/

@[simp] theorem State.setPlane_mem (s : State) (n : Nat) (p : LPlane) : (s.setPlane n p).mem = s.mem := rfl
@[simp] theorem State.setPlane_poison (s : State) (n : Nat) (p : LPlane) : (s.setPlane n p).poison = s.poison := rfl
@[simp] theorem State.setPlane_l2dirty (s : State) (n : Nat) (p : LPlane) : (s.setPlane n p).l2dirty = s.l2dirty := rfl
@[simp] theorem State.setPlane_warps (s : State) (n : Nat) (p : LPlane) : (s.setPlane n p).warps = s.warps := rfl
@[simp] theorem State.setPlane_cores (s : State) (n : Nat) (p : LPlane) : (s.setPlane n p).cores = s.cores := rfl
@[simp] theorem State.setPlane_tls (s : State) (n : Nat) (p : LPlane) : (s.setPlane n p).tls = s.tls := rfl
@[simp] theorem State.setPlane_quads (s : State) (n : Nat) (p : LPlane) : (s.setPlane n p).quads = s.quads := rfl
@[simp] theorem State.setPlane_dies (s : State) (n : Nat) (p : LPlane) : (s.setPlane n p).dies = s.dies := rfl
@[simp] theorem State.setPlane_planes (s : State) (n : Nat) (p : LPlane) : (s.setPlane n p).planes = tset s.planes (s.physOf n) p := rfl
@[simp] theorem State.setPlane_ctxs (s : State) (n : Nat) (p : LPlane) : (s.setPlane n p).ctxs = s.ctxs := rfl
@[simp] theorem State.setPlane_grids (s : State) (n : Nat) (p : LPlane) : (s.setPlane n p).grids = s.grids := rfl
@[simp] theorem State.setPlane_clusters (s : State) (n : Nat) (p : LPlane) : (s.setPlane n p).clusters = s.clusters := rfl
@[simp] theorem State.setPlane_blocks (s : State) (n : Nat) (p : LPlane) : (s.setPlane n p).blocks = s.blocks := rfl
@[simp] theorem State.setPlane_kiosks (s : State) (n : Nat) (p : LPlane) : (s.setPlane n p).kiosks = s.kiosks := rfl
@[simp] theorem State.setPlane_colls (s : State) (n : Nat) (p : LPlane) : (s.setPlane n p).colls = s.colls := rfl
@[simp] theorem State.setPlane_matched (s : State) (n : Nat) (p : LPlane) : (s.setPlane n p).matched = s.matched := rfl
@[simp] theorem State.setPlane_invals (s : State) (n : Nat) (p : LPlane) : (s.setPlane n p).invals = s.invals := rfl
@[simp] theorem State.setPlane_gleaves (s : State) (n : Nat) (p : LPlane) : (s.setPlane n p).gleaves = s.gleaves := rfl
@[simp] theorem State.setPlane_ordbuf (s : State) (n : Nat) (p : LPlane) : (s.setPlane n p).ordbuf = s.ordbuf := rfl
@[simp] theorem State.setPlane_rels (s : State) (n : Nat) (p : LPlane) : (s.setPlane n p).rels = s.rels := rfl
@[simp] theorem State.setPlane_stale (s : State) (n : Nat) (p : LPlane) : (s.setPlane n p).stale = s.stale := rfl
@[simp] theorem State.setPlane_nexts (s : State) (n : Nat) (p : LPlane) : (s.setPlane n p).nexts = s.nexts := rfl
@[simp] theorem State.setPlane_roots (s : State) (n : Nat) (p : LPlane) : (s.setPlane n p).roots = s.roots := rfl
@[simp] theorem State.setPlane_devnum (s : State) (n : Nat) (p : LPlane) : (s.setPlane n p).devnum = s.devnum := rfl
@[simp] theorem State.setPlane_inbound (s : State) (n : Nat) (p : LPlane) : (s.setPlane n p).inbound = s.inbound := rfl
@[simp] theorem State.setPlane_hbm (s : State) (n : Nat) (p : LPlane) : (s.setPlane n p).hbm = s.hbm := rfl
@[simp] theorem State.setPlane_lpown (s : State) (n : Nat) (p : LPlane) : (s.setPlane n p).lpown = s.lpown := rfl
@[simp] theorem State.setPlane_uq (s : State) (n : Nat) (p : LPlane) : (s.setPlane n p).uq = s.uq := rfl
@[simp] theorem State.setPlane_sens (s : State) (n : Nat) (p : LPlane) : (s.setPlane n p).sens = s.sens := rfl
@[simp] theorem State.setPlane_thcfg (s : State) (n : Nat) (p : LPlane) : (s.setPlane n p).thcfg = s.thcfg := rfl
@[simp] theorem State.setPlane_ports (s : State) (n : Nat) (p : LPlane) : (s.setPlane n p).ports = s.ports := rfl
@[simp] theorem State.setPlane_reachable (s : State) (n : Nat) (p : LPlane) : (s.setPlane n p).reachable = s.reachable := rfl
@[simp] theorem State.setPlane_peerMem (s : State) (n : Nat) (p : LPlane) : (s.setPlane n p).peerMem = s.peerMem := rfl
@[simp] theorem State.setPlane_peerShut (s : State) (n : Nat) (p : LPlane) : (s.setPlane n p).peerShut = s.peerShut := rfl
@[simp] theorem State.setPlane_boot (s : State) (n : Nat) (p : LPlane) : (s.setPlane n p).boot = s.boot := rfl
@[simp] theorem State.setPlane_faulty (s : State) (n : Nat) (p : LPlane) : (s.setPlane n p).faulty = s.faulty := rfl
@[simp] theorem State.setPlane_bvctl (s : State) (n : Nat) (p : LPlane) : (s.setPlane n p).bvctl = s.bvctl := rfl
@[simp] theorem State.setPlane_supply (s : State) (n : Nat) (p : LPlane) : (s.setPlane n p).supply = s.supply := rfl
@[simp] theorem State.setPlane_clock (s : State) (n : Nat) (p : LPlane) : (s.setPlane n p).clock = s.clock := rfl
@[simp] theorem State.setPlane_answers (s : State) (n : Nat) (p : LPlane) : (s.setPlane n p).answers = s.answers := rfl
@[simp] theorem State.setPlane_nextId (s : State) (n : Nat) (p : LPlane) : (s.setPlane n p).nextId = s.nextId := rfl
@[simp] theorem State.setPlane_seq (s : State) (n : Nat) (p : LPlane) : (s.setPlane n p).seq = s.seq := rfl
@[simp] theorem State.setPlane_free (s : State) (n : Nat) (p : LPlane) : (s.setPlane n p).free = s.free := rfl
@[simp] theorem State.setPlane_served (s : State) (n : Nat) (p : LPlane) : (s.setPlane n p).served = s.served := rfl
@[simp] theorem State.setPlane_agenda (s : State) (n : Nat) (p : LPlane) : (s.setPlane n p).agenda = s.agenda := rfl
@[simp] theorem State.setPlane_cur (s : State) (n : Nat) (p : LPlane) : (s.setPlane n p).cur = s.cur := rfl
@[simp] theorem State.setPlane_kcur (s : State) (n : Nat) (p : LPlane) : (s.setPlane n p).kcur = s.kcur := rfl
@[simp] theorem State.setPlane_ev (s : State) (n : Nat) (p : LPlane) : (s.setPlane n p).ev = s.ev := rfl

/-! ## Warp.setS -/

@[simp] theorem Warp.setS_ctx (w : Warp) (r : BitVec 6) (x : Word) : (w.setS r x).ctx = w.ctx := rfl
@[simp] theorem Warp.setS_core (w : Warp) (r : BitVec 6) (x : Word) : (w.setS r x).core = w.core := rfl
@[simp] theorem Warp.setS_grid (w : Warp) (r : BitVec 6) (x : Word) : (w.setS r x).grid = w.grid := rfl
@[simp] theorem Warp.setS_cluster (w : Warp) (r : BitVec 6) (x : Word) : (w.setS r x).cluster = w.cluster := rfl
@[simp] theorem Warp.setS_block (w : Warp) (r : BitVec 6) (x : Word) : (w.setS r x).block = w.block := rfl
@[simp] theorem Warp.setS_role (w : Warp) (r : BitVec 6) (x : Word) : (w.setS r x).role = w.role := rfl
@[simp] theorem Warp.setS_wid (w : Warp) (r : BitVec 6) (x : Word) : (w.setS r x).wid = w.wid := rfl
@[simp] theorem Warp.setS_rank (w : Warp) (r : BitVec 6) (x : Word) : (w.setS r x).rank = w.rank := rfl
@[simp] theorem Warp.setS_bid (w : Warp) (r : BitVec 6) (x : Word) : (w.setS r x).bid = w.bid := rfl
@[simp] theorem Warp.setS_sys (w : Warp) (r : BitVec 6) (x : Word) : (w.setS r x).sys = w.sys := rfl
@[simp] theorem Warp.setS_s (w : Warp) (r : BitVec 6) (x : Word) : (w.setS r x).s = w.s.set r.toNat x r.isLt := rfl
@[simp] theorem Warp.setS_shadow (w : Warp) (r : BitVec 6) (x : Word) : (w.setS r x).shadow = w.shadow := rfl
@[simp] theorem Warp.setS_v (w : Warp) (r : BitVec 6) (x : Word) : (w.setS r x).v = w.v := rfl
@[simp] theorem Warp.setS_winbase (w : Warp) (r : BitVec 6) (x : Word) : (w.setS r x).winbase = w.winbase := rfl
@[simp] theorem Warp.setS_lo (w : Warp) (r : BitVec 6) (x : Word) : (w.setS r x).lo = w.lo := rfl
@[simp] theorem Warp.setS_budget (w : Warp) (r : BitVec 6) (x : Word) : (w.setS r x).budget = w.budget := rfl
@[simp] theorem Warp.setS_em (w : Warp) (r : BitVec 6) (x : Word) : (w.setS r x).em = w.em := rfl
@[simp] theorem Warp.setS_lm (w : Warp) (r : BitVec 6) (x : Word) : (w.setS r x).lm = w.lm := rfl
@[simp] theorem Warp.setS_nmode (w : Warp) (r : BitVec 6) (x : Word) : (w.setS r x).nmode = w.nmode := rfl
@[simp] theorem Warp.setS_regctr (w : Warp) (r : BitVec 6) (x : Word) : (w.setS r x).regctr = w.regctr := rfl
@[simp] theorem Warp.setS_regpc (w : Warp) (r : BitVec 6) (x : Word) : (w.setS r x).regpc = w.regpc := rfl
@[simp] theorem Warp.setS_ashape (w : Warp) (r : BitVec 6) (x : Word) : (w.setS r x).ashape = w.ashape := rfl
@[simp] theorem Warp.setS_spillbase (w : Warp) (r : BitVec 6) (x : Word) : (w.setS r x).spillbase = w.spillbase := rfl
@[simp] theorem Warp.setS_spilllen (w : Warp) (r : BitVec 6) (x : Word) : (w.setS r x).spilllen = w.spilllen := rfl
@[simp] theorem Warp.setS_spillcnt (w : Warp) (r : BitVec 6) (x : Word) : (w.setS r x).spillcnt = w.spillcnt := rfl
@[simp] theorem Warp.setS_hintmiss (w : Warp) (r : BitVec 6) (x : Word) : (w.setS r x).hintmiss = w.hintmiss := rfl
@[simp] theorem Warp.setS_sel (w : Warp) (r : BitVec 6) (x : Word) : (w.setS r x).sel = w.sel := rfl
@[simp] theorem Warp.setS_gens (w : Warp) (r : BitVec 6) (x : Word) : (w.setS r x).gens = w.gens := rfl
@[simp] theorem Warp.setS_gs (w : Warp) (r : BitVec 6) (x : Word) : (w.setS r x).gs = w.gs := rfl
@[simp] theorem Warp.setS_flags (w : Warp) (r : BitVec 6) (x : Word) : (w.setS r x).flags = w.flags := rfl
@[simp] theorem Warp.setS_unfl (w : Warp) (r : BitVec 6) (x : Word) : (w.setS r x).unfl = w.unfl := rfl
@[simp] theorem Warp.setS_clause (w : Warp) (r : BitVec 6) (x : Word) : (w.setS r x).clause = w.clause := rfl
@[simp] theorem Warp.setS_pend (w : Warp) (r : BitVec 6) (x : Word) : (w.setS r x).pend = w.pend := rfl
@[simp] theorem Warp.setS_pc (w : Warp) (r : BitVec 6) (x : Word) : (w.setS r x).pc = w.pc := rfl
@[simp] theorem Warp.setS_ipc (w : Warp) (r : BitVec 6) (x : Word) : (w.setS r x).ipc = w.ipc := rfl
@[simp] theorem Warp.setS_fcause (w : Warp) (r : BitVec 6) (x : Word) : (w.setS r x).fcause = w.fcause := rfl
@[simp] theorem Warp.setS_faddr (w : Warp) (r : BitVec 6) (x : Word) : (w.setS r x).faddr = w.faddr := rfl
@[simp] theorem Warp.setS_fpc (w : Warp) (r : BitVec 6) (x : Word) : (w.setS r x).fpc = w.fpc := rfl
@[simp] theorem Warp.setS_fnode (w : Warp) (r : BitVec 6) (x : Word) : (w.setS r x).fnode = w.fnode := rfl
@[simp] theorem Warp.setS_fnpc (w : Warp) (r : BitVec 6) (x : Word) : (w.setS r x).fnpc = w.fnpc := rfl
@[simp] theorem Warp.setS_fnreg (w : Warp) (r : BitVec 6) (x : Word) : (w.setS r x).fnreg = w.fnreg := rfl
@[simp] theorem Warp.setS_tpc (w : Warp) (r : BitVec 6) (x : Word) : (w.setS r x).tpc = w.tpc := rfl
@[simp] theorem Warp.setS_tem (w : Warp) (r : BitVec 6) (x : Word) : (w.setS r x).tem = w.tem := rfl
@[simp] theorem Warp.setS_tstat (w : Warp) (r : BitVec 6) (x : Word) : (w.setS r x).tstat = w.tstat := rfl
@[simp] theorem Warp.setS_tmode (w : Warp) (r : BitVec 6) (x : Word) : (w.setS r x).tmode = w.tmode := rfl
@[simp] theorem Warp.setS_perg (w : Warp) (r : BitVec 6) (x : Word) : (w.setS r x).perg = w.perg := rfl
@[simp] theorem Warp.setS_wait (w : Warp) (r : BitVec 6) (x : Word) : (w.setS r x).wait = w.wait := rfl
@[simp] theorem Warp.setS_status (w : Warp) (r : BitVec 6) (x : Word) : (w.setS r x).status = w.status := rfl
@[simp] theorem Warp.setS_det (w : Warp) (r : BitVec 6) (x : Word) : (w.setS r x).det = w.det := rfl
@[simp] theorem Warp.setS_held (w : Warp) (r : BitVec 6) (x : Word) : (w.setS r x).held = w.held := rfl
@[simp] theorem Warp.setS_base (w : Warp) (r : BitVec 6) (x : Word) : (w.setS r x).base = w.base := rfl
@[simp] theorem Warp.setS_qend (w : Warp) (r : BitVec 6) (x : Word) : (w.setS r x).qend = w.qend := rfl
@[simp] theorem Warp.setS_retired (w : Warp) (r : BitVec 6) (x : Word) : (w.setS r x).retired = w.retired := rfl
@[simp] theorem Warp.setS_tlSeen (w : Warp) (r : BitVec 6) (x : Word) : (w.setS r x).tlSeen = w.tlSeen := rfl
@[simp] theorem Warp.setS_preacked (w : Warp) (r : BitVec 6) (x : Word) : (w.setS r x).preacked = w.preacked := rfl
@[simp] theorem Warp.setS_split (w : Warp) (r : BitVec 6) (x : Word) : (w.setS r x).split = w.split := rfl
@[simp] theorem Warp.setS_credit (w : Warp) (r : BitVec 6) (x : Word) : (w.setS r x).credit = w.credit := rfl
@[simp] theorem Warp.setS_creditAt (w : Warp) (r : BitVec 6) (x : Word) : (w.setS r x).creditAt = w.creditAt := rfl
@[simp] theorem Warp.setS_stamp (w : Warp) (r : BitVec 6) (x : Word) : (w.setS r x).stamp = w.stamp := rfl

/-! ## Warp.setVAt -/

@[simp] theorem Warp.setVAt_ctx (w : Warp) (p : Nat) (x : Lanes) : (w.setVAt p x).ctx = w.ctx := rfl
@[simp] theorem Warp.setVAt_core (w : Warp) (p : Nat) (x : Lanes) : (w.setVAt p x).core = w.core := rfl
@[simp] theorem Warp.setVAt_grid (w : Warp) (p : Nat) (x : Lanes) : (w.setVAt p x).grid = w.grid := rfl
@[simp] theorem Warp.setVAt_cluster (w : Warp) (p : Nat) (x : Lanes) : (w.setVAt p x).cluster = w.cluster := rfl
@[simp] theorem Warp.setVAt_block (w : Warp) (p : Nat) (x : Lanes) : (w.setVAt p x).block = w.block := rfl
@[simp] theorem Warp.setVAt_role (w : Warp) (p : Nat) (x : Lanes) : (w.setVAt p x).role = w.role := rfl
@[simp] theorem Warp.setVAt_wid (w : Warp) (p : Nat) (x : Lanes) : (w.setVAt p x).wid = w.wid := rfl
@[simp] theorem Warp.setVAt_rank (w : Warp) (p : Nat) (x : Lanes) : (w.setVAt p x).rank = w.rank := rfl
@[simp] theorem Warp.setVAt_bid (w : Warp) (p : Nat) (x : Lanes) : (w.setVAt p x).bid = w.bid := rfl
@[simp] theorem Warp.setVAt_sys (w : Warp) (p : Nat) (x : Lanes) : (w.setVAt p x).sys = w.sys := rfl
@[simp] theorem Warp.setVAt_s (w : Warp) (p : Nat) (x : Lanes) : (w.setVAt p x).s = w.s := rfl
@[simp] theorem Warp.setVAt_shadow (w : Warp) (p : Nat) (x : Lanes) : (w.setVAt p x).shadow = w.shadow := rfl
@[simp] theorem Warp.setVAt_v (w : Warp) (p : Nat) (x : Lanes) : (w.setVAt p x).v = tset w.v p x := rfl
@[simp] theorem Warp.setVAt_winbase (w : Warp) (p : Nat) (x : Lanes) : (w.setVAt p x).winbase = w.winbase := rfl
@[simp] theorem Warp.setVAt_lo (w : Warp) (p : Nat) (x : Lanes) : (w.setVAt p x).lo = w.lo := rfl
@[simp] theorem Warp.setVAt_budget (w : Warp) (p : Nat) (x : Lanes) : (w.setVAt p x).budget = w.budget := rfl
@[simp] theorem Warp.setVAt_em (w : Warp) (p : Nat) (x : Lanes) : (w.setVAt p x).em = w.em := rfl
@[simp] theorem Warp.setVAt_lm (w : Warp) (p : Nat) (x : Lanes) : (w.setVAt p x).lm = w.lm := rfl
@[simp] theorem Warp.setVAt_nmode (w : Warp) (p : Nat) (x : Lanes) : (w.setVAt p x).nmode = w.nmode := rfl
@[simp] theorem Warp.setVAt_regctr (w : Warp) (p : Nat) (x : Lanes) : (w.setVAt p x).regctr = w.regctr := rfl
@[simp] theorem Warp.setVAt_regpc (w : Warp) (p : Nat) (x : Lanes) : (w.setVAt p x).regpc = w.regpc := rfl
@[simp] theorem Warp.setVAt_ashape (w : Warp) (p : Nat) (x : Lanes) : (w.setVAt p x).ashape = w.ashape := rfl
@[simp] theorem Warp.setVAt_spillbase (w : Warp) (p : Nat) (x : Lanes) : (w.setVAt p x).spillbase = w.spillbase := rfl
@[simp] theorem Warp.setVAt_spilllen (w : Warp) (p : Nat) (x : Lanes) : (w.setVAt p x).spilllen = w.spilllen := rfl
@[simp] theorem Warp.setVAt_spillcnt (w : Warp) (p : Nat) (x : Lanes) : (w.setVAt p x).spillcnt = w.spillcnt := rfl
@[simp] theorem Warp.setVAt_hintmiss (w : Warp) (p : Nat) (x : Lanes) : (w.setVAt p x).hintmiss = w.hintmiss := rfl
@[simp] theorem Warp.setVAt_sel (w : Warp) (p : Nat) (x : Lanes) : (w.setVAt p x).sel = w.sel := rfl
@[simp] theorem Warp.setVAt_gens (w : Warp) (p : Nat) (x : Lanes) : (w.setVAt p x).gens = w.gens := rfl
@[simp] theorem Warp.setVAt_gs (w : Warp) (p : Nat) (x : Lanes) : (w.setVAt p x).gs = w.gs := rfl
@[simp] theorem Warp.setVAt_flags (w : Warp) (p : Nat) (x : Lanes) : (w.setVAt p x).flags = w.flags := rfl
@[simp] theorem Warp.setVAt_unfl (w : Warp) (p : Nat) (x : Lanes) : (w.setVAt p x).unfl = w.unfl := rfl
@[simp] theorem Warp.setVAt_clause (w : Warp) (p : Nat) (x : Lanes) : (w.setVAt p x).clause = w.clause := rfl
@[simp] theorem Warp.setVAt_pend (w : Warp) (p : Nat) (x : Lanes) : (w.setVAt p x).pend = w.pend := rfl
@[simp] theorem Warp.setVAt_pc (w : Warp) (p : Nat) (x : Lanes) : (w.setVAt p x).pc = w.pc := rfl
@[simp] theorem Warp.setVAt_ipc (w : Warp) (p : Nat) (x : Lanes) : (w.setVAt p x).ipc = w.ipc := rfl
@[simp] theorem Warp.setVAt_fcause (w : Warp) (p : Nat) (x : Lanes) : (w.setVAt p x).fcause = w.fcause := rfl
@[simp] theorem Warp.setVAt_faddr (w : Warp) (p : Nat) (x : Lanes) : (w.setVAt p x).faddr = w.faddr := rfl
@[simp] theorem Warp.setVAt_fpc (w : Warp) (p : Nat) (x : Lanes) : (w.setVAt p x).fpc = w.fpc := rfl
@[simp] theorem Warp.setVAt_fnode (w : Warp) (p : Nat) (x : Lanes) : (w.setVAt p x).fnode = w.fnode := rfl
@[simp] theorem Warp.setVAt_fnpc (w : Warp) (p : Nat) (x : Lanes) : (w.setVAt p x).fnpc = w.fnpc := rfl
@[simp] theorem Warp.setVAt_fnreg (w : Warp) (p : Nat) (x : Lanes) : (w.setVAt p x).fnreg = w.fnreg := rfl
@[simp] theorem Warp.setVAt_tpc (w : Warp) (p : Nat) (x : Lanes) : (w.setVAt p x).tpc = w.tpc := rfl
@[simp] theorem Warp.setVAt_tem (w : Warp) (p : Nat) (x : Lanes) : (w.setVAt p x).tem = w.tem := rfl
@[simp] theorem Warp.setVAt_tstat (w : Warp) (p : Nat) (x : Lanes) : (w.setVAt p x).tstat = w.tstat := rfl
@[simp] theorem Warp.setVAt_tmode (w : Warp) (p : Nat) (x : Lanes) : (w.setVAt p x).tmode = w.tmode := rfl
@[simp] theorem Warp.setVAt_perg (w : Warp) (p : Nat) (x : Lanes) : (w.setVAt p x).perg = w.perg := rfl
@[simp] theorem Warp.setVAt_wait (w : Warp) (p : Nat) (x : Lanes) : (w.setVAt p x).wait = w.wait := rfl
@[simp] theorem Warp.setVAt_status (w : Warp) (p : Nat) (x : Lanes) : (w.setVAt p x).status = w.status := rfl
@[simp] theorem Warp.setVAt_det (w : Warp) (p : Nat) (x : Lanes) : (w.setVAt p x).det = w.det := rfl
@[simp] theorem Warp.setVAt_held (w : Warp) (p : Nat) (x : Lanes) : (w.setVAt p x).held = w.held := rfl
@[simp] theorem Warp.setVAt_base (w : Warp) (p : Nat) (x : Lanes) : (w.setVAt p x).base = w.base := rfl
@[simp] theorem Warp.setVAt_qend (w : Warp) (p : Nat) (x : Lanes) : (w.setVAt p x).qend = w.qend := rfl
@[simp] theorem Warp.setVAt_retired (w : Warp) (p : Nat) (x : Lanes) : (w.setVAt p x).retired = w.retired := rfl
@[simp] theorem Warp.setVAt_tlSeen (w : Warp) (p : Nat) (x : Lanes) : (w.setVAt p x).tlSeen = w.tlSeen := rfl
@[simp] theorem Warp.setVAt_preacked (w : Warp) (p : Nat) (x : Lanes) : (w.setVAt p x).preacked = w.preacked := rfl
@[simp] theorem Warp.setVAt_split (w : Warp) (p : Nat) (x : Lanes) : (w.setVAt p x).split = w.split := rfl
@[simp] theorem Warp.setVAt_credit (w : Warp) (p : Nat) (x : Lanes) : (w.setVAt p x).credit = w.credit := rfl
@[simp] theorem Warp.setVAt_creditAt (w : Warp) (p : Nat) (x : Lanes) : (w.setVAt p x).creditAt = w.creditAt := rfl
@[simp] theorem Warp.setVAt_stamp (w : Warp) (p : Nat) (x : Lanes) : (w.setVAt p x).stamp = w.stamp := rfl

/-! ## Warp.mergeVAt -/

@[simp] theorem Warp.mergeVAt_ctx (w : Warp) (m : W32) (p : Nat) (x : Lanes) : (w.mergeVAt m p x).ctx = w.ctx := rfl
@[simp] theorem Warp.mergeVAt_core (w : Warp) (m : W32) (p : Nat) (x : Lanes) : (w.mergeVAt m p x).core = w.core := rfl
@[simp] theorem Warp.mergeVAt_grid (w : Warp) (m : W32) (p : Nat) (x : Lanes) : (w.mergeVAt m p x).grid = w.grid := rfl
@[simp] theorem Warp.mergeVAt_cluster (w : Warp) (m : W32) (p : Nat) (x : Lanes) : (w.mergeVAt m p x).cluster = w.cluster := rfl
@[simp] theorem Warp.mergeVAt_block (w : Warp) (m : W32) (p : Nat) (x : Lanes) : (w.mergeVAt m p x).block = w.block := rfl
@[simp] theorem Warp.mergeVAt_role (w : Warp) (m : W32) (p : Nat) (x : Lanes) : (w.mergeVAt m p x).role = w.role := rfl
@[simp] theorem Warp.mergeVAt_wid (w : Warp) (m : W32) (p : Nat) (x : Lanes) : (w.mergeVAt m p x).wid = w.wid := rfl
@[simp] theorem Warp.mergeVAt_rank (w : Warp) (m : W32) (p : Nat) (x : Lanes) : (w.mergeVAt m p x).rank = w.rank := rfl
@[simp] theorem Warp.mergeVAt_bid (w : Warp) (m : W32) (p : Nat) (x : Lanes) : (w.mergeVAt m p x).bid = w.bid := rfl
@[simp] theorem Warp.mergeVAt_sys (w : Warp) (m : W32) (p : Nat) (x : Lanes) : (w.mergeVAt m p x).sys = w.sys := rfl
@[simp] theorem Warp.mergeVAt_s (w : Warp) (m : W32) (p : Nat) (x : Lanes) : (w.mergeVAt m p x).s = w.s := rfl
@[simp] theorem Warp.mergeVAt_shadow (w : Warp) (m : W32) (p : Nat) (x : Lanes) : (w.mergeVAt m p x).shadow = w.shadow := rfl
@[simp] theorem Warp.mergeVAt_v (w : Warp) (m : W32) (p : Nat) (x : Lanes) : (w.mergeVAt m p x).v = tset w.v p (laneMerge m (w.vAt p) x) := rfl
@[simp] theorem Warp.mergeVAt_winbase (w : Warp) (m : W32) (p : Nat) (x : Lanes) : (w.mergeVAt m p x).winbase = w.winbase := rfl
@[simp] theorem Warp.mergeVAt_lo (w : Warp) (m : W32) (p : Nat) (x : Lanes) : (w.mergeVAt m p x).lo = w.lo := rfl
@[simp] theorem Warp.mergeVAt_budget (w : Warp) (m : W32) (p : Nat) (x : Lanes) : (w.mergeVAt m p x).budget = w.budget := rfl
@[simp] theorem Warp.mergeVAt_em (w : Warp) (m : W32) (p : Nat) (x : Lanes) : (w.mergeVAt m p x).em = w.em := rfl
@[simp] theorem Warp.mergeVAt_lm (w : Warp) (m : W32) (p : Nat) (x : Lanes) : (w.mergeVAt m p x).lm = w.lm := rfl
@[simp] theorem Warp.mergeVAt_nmode (w : Warp) (m : W32) (p : Nat) (x : Lanes) : (w.mergeVAt m p x).nmode = w.nmode := rfl
@[simp] theorem Warp.mergeVAt_regctr (w : Warp) (m : W32) (p : Nat) (x : Lanes) : (w.mergeVAt m p x).regctr = w.regctr := rfl
@[simp] theorem Warp.mergeVAt_regpc (w : Warp) (m : W32) (p : Nat) (x : Lanes) : (w.mergeVAt m p x).regpc = w.regpc := rfl
@[simp] theorem Warp.mergeVAt_ashape (w : Warp) (m : W32) (p : Nat) (x : Lanes) : (w.mergeVAt m p x).ashape = w.ashape := rfl
@[simp] theorem Warp.mergeVAt_spillbase (w : Warp) (m : W32) (p : Nat) (x : Lanes) : (w.mergeVAt m p x).spillbase = w.spillbase := rfl
@[simp] theorem Warp.mergeVAt_spilllen (w : Warp) (m : W32) (p : Nat) (x : Lanes) : (w.mergeVAt m p x).spilllen = w.spilllen := rfl
@[simp] theorem Warp.mergeVAt_spillcnt (w : Warp) (m : W32) (p : Nat) (x : Lanes) : (w.mergeVAt m p x).spillcnt = w.spillcnt := rfl
@[simp] theorem Warp.mergeVAt_hintmiss (w : Warp) (m : W32) (p : Nat) (x : Lanes) : (w.mergeVAt m p x).hintmiss = w.hintmiss := rfl
@[simp] theorem Warp.mergeVAt_sel (w : Warp) (m : W32) (p : Nat) (x : Lanes) : (w.mergeVAt m p x).sel = w.sel := rfl
@[simp] theorem Warp.mergeVAt_gens (w : Warp) (m : W32) (p : Nat) (x : Lanes) : (w.mergeVAt m p x).gens = w.gens := rfl
@[simp] theorem Warp.mergeVAt_gs (w : Warp) (m : W32) (p : Nat) (x : Lanes) : (w.mergeVAt m p x).gs = w.gs := rfl
@[simp] theorem Warp.mergeVAt_flags (w : Warp) (m : W32) (p : Nat) (x : Lanes) : (w.mergeVAt m p x).flags = w.flags := rfl
@[simp] theorem Warp.mergeVAt_unfl (w : Warp) (m : W32) (p : Nat) (x : Lanes) : (w.mergeVAt m p x).unfl = w.unfl := rfl
@[simp] theorem Warp.mergeVAt_clause (w : Warp) (m : W32) (p : Nat) (x : Lanes) : (w.mergeVAt m p x).clause = w.clause := rfl
@[simp] theorem Warp.mergeVAt_pend (w : Warp) (m : W32) (p : Nat) (x : Lanes) : (w.mergeVAt m p x).pend = w.pend := rfl
@[simp] theorem Warp.mergeVAt_pc (w : Warp) (m : W32) (p : Nat) (x : Lanes) : (w.mergeVAt m p x).pc = w.pc := rfl
@[simp] theorem Warp.mergeVAt_ipc (w : Warp) (m : W32) (p : Nat) (x : Lanes) : (w.mergeVAt m p x).ipc = w.ipc := rfl
@[simp] theorem Warp.mergeVAt_fcause (w : Warp) (m : W32) (p : Nat) (x : Lanes) : (w.mergeVAt m p x).fcause = w.fcause := rfl
@[simp] theorem Warp.mergeVAt_faddr (w : Warp) (m : W32) (p : Nat) (x : Lanes) : (w.mergeVAt m p x).faddr = w.faddr := rfl
@[simp] theorem Warp.mergeVAt_fpc (w : Warp) (m : W32) (p : Nat) (x : Lanes) : (w.mergeVAt m p x).fpc = w.fpc := rfl
@[simp] theorem Warp.mergeVAt_fnode (w : Warp) (m : W32) (p : Nat) (x : Lanes) : (w.mergeVAt m p x).fnode = w.fnode := rfl
@[simp] theorem Warp.mergeVAt_fnpc (w : Warp) (m : W32) (p : Nat) (x : Lanes) : (w.mergeVAt m p x).fnpc = w.fnpc := rfl
@[simp] theorem Warp.mergeVAt_fnreg (w : Warp) (m : W32) (p : Nat) (x : Lanes) : (w.mergeVAt m p x).fnreg = w.fnreg := rfl
@[simp] theorem Warp.mergeVAt_tpc (w : Warp) (m : W32) (p : Nat) (x : Lanes) : (w.mergeVAt m p x).tpc = w.tpc := rfl
@[simp] theorem Warp.mergeVAt_tem (w : Warp) (m : W32) (p : Nat) (x : Lanes) : (w.mergeVAt m p x).tem = w.tem := rfl
@[simp] theorem Warp.mergeVAt_tstat (w : Warp) (m : W32) (p : Nat) (x : Lanes) : (w.mergeVAt m p x).tstat = w.tstat := rfl
@[simp] theorem Warp.mergeVAt_tmode (w : Warp) (m : W32) (p : Nat) (x : Lanes) : (w.mergeVAt m p x).tmode = w.tmode := rfl
@[simp] theorem Warp.mergeVAt_perg (w : Warp) (m : W32) (p : Nat) (x : Lanes) : (w.mergeVAt m p x).perg = w.perg := rfl
@[simp] theorem Warp.mergeVAt_wait (w : Warp) (m : W32) (p : Nat) (x : Lanes) : (w.mergeVAt m p x).wait = w.wait := rfl
@[simp] theorem Warp.mergeVAt_status (w : Warp) (m : W32) (p : Nat) (x : Lanes) : (w.mergeVAt m p x).status = w.status := rfl
@[simp] theorem Warp.mergeVAt_det (w : Warp) (m : W32) (p : Nat) (x : Lanes) : (w.mergeVAt m p x).det = w.det := rfl
@[simp] theorem Warp.mergeVAt_held (w : Warp) (m : W32) (p : Nat) (x : Lanes) : (w.mergeVAt m p x).held = w.held := rfl
@[simp] theorem Warp.mergeVAt_base (w : Warp) (m : W32) (p : Nat) (x : Lanes) : (w.mergeVAt m p x).base = w.base := rfl
@[simp] theorem Warp.mergeVAt_qend (w : Warp) (m : W32) (p : Nat) (x : Lanes) : (w.mergeVAt m p x).qend = w.qend := rfl
@[simp] theorem Warp.mergeVAt_retired (w : Warp) (m : W32) (p : Nat) (x : Lanes) : (w.mergeVAt m p x).retired = w.retired := rfl
@[simp] theorem Warp.mergeVAt_tlSeen (w : Warp) (m : W32) (p : Nat) (x : Lanes) : (w.mergeVAt m p x).tlSeen = w.tlSeen := rfl
@[simp] theorem Warp.mergeVAt_preacked (w : Warp) (m : W32) (p : Nat) (x : Lanes) : (w.mergeVAt m p x).preacked = w.preacked := rfl
@[simp] theorem Warp.mergeVAt_split (w : Warp) (m : W32) (p : Nat) (x : Lanes) : (w.mergeVAt m p x).split = w.split := rfl
@[simp] theorem Warp.mergeVAt_credit (w : Warp) (m : W32) (p : Nat) (x : Lanes) : (w.mergeVAt m p x).credit = w.credit := rfl
@[simp] theorem Warp.mergeVAt_creditAt (w : Warp) (m : W32) (p : Nat) (x : Lanes) : (w.mergeVAt m p x).creditAt = w.creditAt := rfl
@[simp] theorem Warp.mergeVAt_stamp (w : Warp) (m : W32) (p : Nat) (x : Lanes) : (w.mergeVAt m p x).stamp = w.stamp := rfl

end Sys2Proof.Machine
end

