-- ==== Sys2Proof/Laws/Table.lean ====
section
/-! SUPPORT. Tables and memory: what a read after a write gives, and that every memory operation keeps the canonical
form. -/

namespace Sys2Proof.Machine

open Sys2Proof

/-! ## Tables -/

theorem tget_tset {α : Type} (m : AMap α) (n k : Nat) (v : α) :
    tget (tset m n v) k = if k = n then some v else tget m k := by
  induction m with
  | nil => simp [tset, tget, eq_comm]
  | cons p r ih =>
    obtain ⟨a, x⟩ := p
    simp only [tset]
    split
    · subst a; simp only [tget]; split <;> simp_all [eq_comm]
    · split
      · simp only [tget, eq_comm (a := n)]
      · simp only [tget, ih]
        split
        · rw [if_neg]; omega
        · rfl

@[simp] theorem tget_tset_self {α : Type} (m : AMap α) (n : Nat) (v : α) : tget (tset m n v) n = some v := by
  simp [tget_tset]

theorem tget_tset_ne {α : Type} (m : AMap α) {n k : Nat} (v : α) (h : k ≠ n) : tget (tset m n v) k = tget m k := by
  simp [tget_tset, h]

@[simp] theorem tgetD_tset_self {α : Type} (m : AMap α) (n : Nat) (v d : α) : tgetD (tset m n v) n d = v := by
  simp [tgetD]

theorem tgetD_tset_ne {α : Type} (m : AMap α) {n k : Nat} (v d : α) (h : k ≠ n) :
    tgetD (tset m n v) k d = tgetD m k d := by
  simp [tgetD, tget_tset_ne _ _ h]

/-! ## Memory in canonical form -/

theorem memSorted_weaken {lo : Option Nat} {m : List Host.Cell} (h : memSorted lo m = true) : memSorted none m = true := by
  cases m with
  | nil => rfl
  | cons p r => obtain ⟨k, b⟩ := p; simp_all [memSorted]

theorem memSorted_lt {lo k : Nat} {m : List Host.Cell} (hk : lo < k) (h : memSorted (some k) m = true) :
    memSorted (some lo) m = true := by
  cases m with
  | nil => rfl
  | cons p r => obtain ⟨a, b⟩ := p; simp_all [memSorted]; omega

theorem memWrite_sorted {lo : Option Nat} {m : List Host.Cell} (a : Nat) (b : Byte) (h : memSorted lo m = true)
    (ha : ∀ l, lo = some l → l < a) : memSorted lo (memWrite m a b) = true := by
  induction m generalizing lo with
  | nil =>
    simp only [memWrite]
    split
    · rfl
    · cases lo with
      | none => simp_all [memSorted]
      | some l => simp_all [memSorted]
  | cons p r ih =>
    obtain ⟨k, x⟩ := p
    simp only [memSorted, Bool.and_eq_true] at h
    simp only [memWrite]
    split
    · subst k
      split
      · cases lo with
        | none => exact memSorted_weaken h.2
        | some l => exact memSorted_lt (ha l rfl) h.2
      · simp_all [memSorted]
    · split
      · split
        · simp only [memSorted, Bool.and_eq_true]; exact h
        · simp only [memSorted, Bool.and_eq_true]
          refine ⟨⟨?_, by simpa using ‹¬b = unlistedByte›⟩, ⟨by simpa using ‹a < k›, h.1.2⟩, h.2⟩
          cases lo with
          | none => rfl
          | some l => simpa using ha l rfl
      · simp only [memSorted, Bool.and_eq_true]
        refine ⟨h.1, ih h.2 ?_⟩
        intro l hl
        cases hl
        omega

/-- A write of one byte keeps the canonical form. -/
theorem memWrite_wf {m : List Host.Cell} (a : Nat) (b : Byte) (h : Memory.wf m = true) :
    Memory.wf (memWrite m a b) = true :=
  memWrite_sorted a b h (by simp)

/-- A write of several bytes keeps the canonical form. -/
theorem memWriteN_wf {m : List Host.Cell} (a : Nat) (l : List Byte) (h : Memory.wf m = true) :
    Memory.wf (memWriteN m a l) = true := by
  induction l generalizing m a with
  | nil => exact h
  | cons b r ih => exact ih (a + 1) (memWrite_wf a b h)

theorem memFilter_sorted {lo : Option Nat} {m : List Host.Cell} (p : Host.Cell → Bool) (h : memSorted lo m = true) :
    memSorted lo (m.filter p) = true := by
  induction m generalizing lo with
  | nil => rfl
  | cons c r ih =>
    obtain ⟨k, x⟩ := c
    simp only [memSorted, Bool.and_eq_true] at h
    simp only [List.filter]
    split
    · simp only [memSorted, Bool.and_eq_true]; exact ⟨h.1, ih h.2⟩
    · cases lo with
      | none => exact memSorted_weaken (ih h.2)
      | some l => exact memSorted_lt (by simpa using h.1.1) (ih h.2)

/-- Leaving out entries keeps the canonical form. -/
theorem memFilter_wf {m : List Host.Cell} (p : Host.Cell → Bool) (h : Memory.wf m = true) :
    Memory.wf (m.filter p) = true :=
  memFilter_sorted p h

/-- Zeroing a range keeps the canonical form. -/
theorem memZeroN_wf {m : List Host.Cell} (a n : Nat) (h : Memory.wf m = true) : Memory.wf (memZeroN m a n) = true :=
  memFilter_wf _ h

theorem fillCells_sorted (f : Nat → Byte) {lo : Option Nat} {a i n : Nat} (h : ∀ l, lo = some l → l < a) :
    memSorted lo (fillCells f a i n) = true := by
  induction n generalizing lo a i with
  | zero => rfl
  | succ n ih =>
    simp only [fillCells]
    split
    · exact ih fun l hl => Nat.lt_succ_of_lt (h l hl)
    · have hb : f i ≠ unlistedByte := ‹_›
      have hr := ih (lo := some a) (a := a + 1) (i := i + 1) (by simp)
      cases lo with
      | none => simp [memSorted, hr, hb]
      | some l => simp [memSorted, hr, hb, h l rfl]

theorem fillCells_bound (f : Nat → Byte) {a i n : Nat} : ∀ c ∈ fillCells f a i n, a ≤ c.1 ∧ c.1 < a + n := by
  induction n generalizing a i with
  | zero => simp [fillCells]
  | succ n ih =>
    intro c hc
    simp only [fillCells] at hc
    split at hc
    · have := ih c hc; omega
    · rcases List.mem_cons.1 hc with rfl | hc
      · simp
      · have := ih c hc; omega

theorem memSorted_append {lo : Option Nat} {m r : List Host.Cell} (hm : memSorted lo m = true) (hr : memSorted none r = true)
    (h : ∀ x ∈ m, ∀ y ∈ r, x.1 < y.1) (hl : ∀ l, lo = some l → ∀ y ∈ r, l < y.1) : memSorted lo (m ++ r) = true := by
  induction m generalizing lo with
  | nil =>
    cases r with
    | nil => rfl
    | cons p r =>
      obtain ⟨k, b⟩ := p
      cases lo with
      | none => exact hr
      | some l => have := hl l rfl (k, b) (by simp); simp_all [memSorted]
  | cons p m ih =>
    obtain ⟨k, b⟩ := p
    simp only [memSorted, Bool.and_eq_true] at hm
    simp only [List.cons_append, memSorted, Bool.and_eq_true]
    refine ⟨hm.1, ih hm.2 (fun x hx y hy => h x (by simp [hx]) y hy) ?_⟩
    intro l hl' y hy
    cases hl'
    exact h (k, b) (by simp) y hy

/-- Filling a range keeps the canonical form. -/
theorem memFill_wf {m : List Host.Cell} (a n : Nat) (f : Nat → Byte) (h : Memory.wf m = true) :
    Memory.wf (memFill m a n f) = true := by
  refine memSorted_append (memFilter_wf _ h) (memSorted_append (fillCells_sorted f (by simp)) (memFilter_wf _ h) ?_ (by simp)) ?_
    (by simp)
  · intro x hx y hy
    have := fillCells_bound f x hx
    have := (List.mem_filter.1 hy).2
    simp at this
    omega
  · intro x hx y hy
    have hx := (List.mem_filter.1 hx).2
    simp at hx
    rcases List.mem_append.1 hy with hy | hy
    · have := fillCells_bound f y hy; omega
    · have := (List.mem_filter.1 hy).2
      simp at this
      omega

theorem memWf_nil : Memory.wf [] = true := rfl

/-! ## Reads after writes -/

theorem memRead_above {lo : Nat} {m : List Host.Cell} {a : Nat} (h : memSorted (some lo) m = true) (ha : a ≤ lo) :
    memRead m a = unlistedByte := by
  induction m generalizing lo with
  | nil => rfl
  | cons c r ih =>
    obtain ⟨k, x⟩ := c
    simp only [memSorted, Bool.and_eq_true, decide_eq_true_eq] at h
    simp only [memRead]
    rw [if_neg (by omega)]
    exact ih h.2 (by omega)

theorem memRead_write_sorted {lo : Option Nat} {m : List Host.Cell} (a c : Nat) (b : Byte) (h : memSorted lo m = true) :
    memRead (memWrite m a b) c = if c = a then b else memRead m c := by
  induction m generalizing lo with
  | nil =>
    simp only [memWrite]
    split
    · simp_all [memRead]
    · simp [memRead, eq_comm]
  | cons p r ih =>
    obtain ⟨k, x⟩ := p
    simp only [memSorted, Bool.and_eq_true] at h
    simp only [memWrite]
    split
    · subst k
      split
      · subst b
        split
        · subst c; exact memRead_above h.2 (Nat.le_refl _)
        · simp only [memRead]; rw [if_neg (by omega)]
      · simp only [memRead]
        by_cases hc : c = a
        · rw [if_pos hc.symm, if_pos hc]
        · rw [if_neg (Ne.symm hc), if_neg (Ne.symm hc), if_neg hc]
    · split
      · split
        · subst b
          split
          · subst c
            simp only [memRead]
            rw [if_neg (by omega)]
            exact memRead_above h.2 (by omega)
          · rfl
        · simp only [memRead, eq_comm (a := a)]
      · simp only [memRead, ih h.2]
        split
        · rw [if_neg (by omega)]
        · rfl

/-- A read after a write of one byte. -/
theorem memRead_memWrite {m : List Host.Cell} (a c : Nat) (b : Byte) (h : Memory.wf m = true) :
    memRead (memWrite m a b) c = if c = a then b else memRead m c :=
  memRead_write_sorted a c b h

end Sys2Proof.Machine
end

