-- ==== Sys2Proof/Laws/Ops.lean ====
section
/-! SUPPORT. What each shared operation can do, said once: the wrappers of meanings, registers and lanes, taking an
exception, issuing a command. -/

namespace Sys2Proof.Machine

open Sys2Proof

/-! ## Warps, registers, lanes -/

theorem warp_setWarp (s : State) (k j : Nat) (w : Warp) :
    (s.setWarp k w).warp? j = if j = k then some w else s.warp? j := by
  simp [State.warp?, State.setWarp, tget_tset]

@[simp] theorem warp_setWarp_same (s : State) (k : Nat) (w : Warp) : (s.setWarp k w).warp? k = some w := by
  simp [warp_setWarp]

theorem warp_setWarp_ne (s : State) {k j : Nat} (w : Warp) (h : j ≠ k) : (s.setWarp k w).warp? j = s.warp? j := by
  simp [warp_setWarp, h]

theorem getS_setS (w : Warp) (r q : BitVec 6) (v : Word) : (w.setS r v).getS q = if q = r then v else w.getS q := by
  show (w.s.set r.toNat v r.isLt)[q.toNat] = if q = r then v else w.s[q.toNat]
  rw [Vector.getElem_set]
  simp [← BitVec.toNat_inj, eq_comm]

@[simp] theorem getS_setS_same (w : Warp) (r : BitVec 6) (v : Word) : (w.setS r v).getS r = v := by simp [getS_setS]

theorem getS_setS_ne (w : Warp) {r q : BitVec 6} (v : Word) (h : q ≠ r) : (w.setS r v).getS q = w.getS q := by
  simp [getS_setS, h]

theorem vAt_setVAt (w : Warp) (p q : Nat) (x : Lanes) : (w.setVAt p x).vAt q = if q = p then x else w.vAt q := by
  simp only [Warp.vAt, Warp.setVAt, tgetD, tget_tset]
  split <;> simp

@[simp] theorem vAt_mergeVAt_same (w : Warp) (m : W32) (p : Nat) (x : Lanes) :
    (w.mergeVAt m p x).vAt p = laneMerge m (w.vAt p) x := by
  simp [Warp.mergeVAt, vAt_setVAt]

theorem vAt_mergeVAt_ne (w : Warp) (m : W32) {p q : Nat} (x : Lanes) (h : q ≠ p) : (w.mergeVAt m p x).vAt q = w.vAt q := by
  simp [Warp.mergeVAt, vAt_setVAt, h]

theorem laneGet_lanesOf (f : Nat → W32) {l : Nat} (h : l < 32) : laneGet (lanesOf f) l = f l := by
  simp [laneGet, lanesOf, Nat.mod_eq_of_lt h]

theorem laneGet_laneMerge (m : W32) (old new : Lanes) {l : Nat} (h : l < 32) :
    laneGet (laneMerge m old new) l = if m.getLsbD l then laneGet new l else laneGet old l := by
  rw [laneMerge, laneGet_lanesOf _ h]; rfl

/-! ## Meanings of a warp's instruction -/

theorem onWarp_of {s : State} {w : Warp} (h : s.curWarp = some w) (f : Warp → Warp) :
    onWarp s f = .next (s.setWarp s.cur (f w)) := by
  simp [onWarp, h]

theorem onWarp_next {s t : State} {f : Warp → Warp} (h : onWarp s f = .next t) :
    ∃ w, s.curWarp = some w ∧ t = s.setWarp s.cur (f w) := by
  unfold onWarp at h
  split at h
  · cases h
  · rename_i w e; cases h; exact ⟨w, e, rfl⟩

theorem attempt_ok {s t : State} {w : Warp} {body : Warp → Except Trap State} (h : s.curWarp = some w)
    (hb : body w = .ok t) : attempt s body = .next t := by
  simp [attempt, h, hb]

theorem attempt_error {s : State} {w : Warp} {body : Warp → Except Trap State} {t : Trap} (h : s.curWarp = some w)
    (hb : body w = .error t) : attempt s body = .next (s.trap s.cur w.unretire t .fault) := by
  simp [attempt, h, hb]

theorem attempt_next {s t : State} {body : Warp → Except Trap State} (h : attempt s body = .next t) :
    ∃ w, s.curWarp = some w ∧
      (body w = .ok t ∨ ∃ x, body w = .error x ∧ t = s.trap s.cur w.unretire x .fault) := by
  unfold attempt at h
  split at h
  · cases h
  · rename_i w e
    refine ⟨w, e, ?_⟩
    split at h
    · rename_i u hb; cases h; exact .inl hb
    · rename_i x hb; cases h; exact .inr ⟨x, hb, rfl⟩

theorem privileged_user {s : State} {w : Warp} (h : s.curWarp = some w) (hs : w.sys = false) (body : Warp → Except Trap State) :
    privileged s body = .next (s.trap s.cur w.unretire { cause := Cause.illegalInstruction, detail := 10 } .fault) :=
  attempt_error h (by simp [hs])

theorem privileged_system {s : State} {w : Warp} (h : s.curWarp = some w) (hs : w.sys = true) (body : Warp → Except Trap State) :
    privileged s body = attempt s body := by
  simp [privileged, attempt, h, hs]

theorem attemptH_ok {s t : State} {w : Warp} {body : Warp → Except Halt State} (h : s.curWarp = some w)
    (hb : body w = .ok t) : attemptH s body = .next t := by
  simp [attemptH, h, hb]

theorem attemptH_trap {s : State} {w : Warp} {body : Warp → Except Halt State} {t : Trap} (h : s.curWarp = some w)
    (hb : body w = .error (.trap t)) : attemptH s body = .next (s.trap s.cur w.unretire t .fault) := by
  simp [attemptH, h, hb]

theorem attemptH_wait {s : State} {w : Warp} {body : Warp → Except Halt State} {x : Wait} (h : s.curWarp = some w)
    (hb : body w = .error (.wait x)) : attemptH s body = .next (s.setWarp s.cur (w.redo x)) := by
  simp [attemptH, h, hb]

/-- An instruction that may wait completes, traps, traps after effects that stand, or is put back to be issued again. -/
theorem attemptH_next {s t : State} {body : Warp → Except Halt State} (h : attemptH s body = .next t) :
    ∃ w, s.curWarp = some w ∧
      (body w = .ok t ∨ (∃ x, body w = .error (.trap x) ∧ t = s.trap s.cur w.unretire x .fault) ∨
        (∃ u x, body w = .error (.after u x) ∧ t = u.trap s.cur ((u.warp? s.cur).getD w).unretire x .fault) ∨
        ∃ x, body w = .error (.wait x) ∧ t = s.setWarp s.cur (w.redo x)) := by
  unfold attemptH at h
  split at h
  · cases h
  · rename_i w e
    refine ⟨w, e, ?_⟩
    split at h
    · rename_i u hb; cases h; exact .inl hb
    · rename_i x hb; cases h; exact .inr (.inl ⟨x, hb, rfl⟩)
    · rename_i u x hb; cases h; exact .inr (.inr (.inl ⟨u, x, hb, rfl⟩))
    · rename_i x hb; cases h; exact .inr (.inr (.inr ⟨x, hb, rfl⟩))

theorem privilegedH_user {s : State} {w : Warp} (h : s.curWarp = some w) (hs : w.sys = false) (body : Warp → Except Halt State) :
    privilegedH s body = .next (s.trap s.cur w.unretire { cause := Cause.illegalInstruction, detail := 10 } .fault) :=
  attemptH_trap h (by simp [hs])

theorem privilegedH_system {s : State} {w : Warp} (h : s.curWarp = some w) (hs : w.sys = true) (body : Warp → Except Halt State) :
    privilegedH s body = attemptH s body := by
  simp [privilegedH, attemptH, h, hs]

theorem onEventWarp_of {s : State} {w : Warp} (h : s.warp? s.ev.x = some w) (body : Nat → Warp → Out) :
    onEventWarp s body = body s.ev.x w := by
  simp [onEventWarp, h]

theorem onEventWarp_next {s t : State} {body : Nat → Warp → Out} (h : onEventWarp s body = .next t) :
    ∃ w, s.warp? s.ev.x = some w ∧ body s.ev.x w = .next t := by
  unfold onEventWarp at h
  split at h
  · cases h
  · rename_i w e; exact ⟨w, e, h⟩

/-! ## Taking an exception -/

/-- The trigger of R487 touches nothing but BVCTL. -/
theorem trigger_eq (s : State) (c : BitVec 8) : s.trigger c = { s with bvctl := (s.trigger c).bvctl } := by
  unfold State.trigger; split <;> rfl

@[simp] theorem trigger_mem (s : State) (c : BitVec 8) : (s.trigger c).mem = s.mem := by rw [trigger_eq]
@[simp] theorem trigger_warps (s : State) (c : BitVec 8) : (s.trigger c).warps = s.warps := by rw [trigger_eq]
@[simp] theorem trigger_ctxs (s : State) (c : BitVec 8) : (s.trigger c).ctxs = s.ctxs := by rw [trigger_eq]
@[simp] theorem trigger_cores (s : State) (c : BitVec 8) : (s.trigger c).cores = s.cores := by rw [trigger_eq]

/-- A stop of a context changes that context's registers only. -/
theorem requestStop_eq (s : State) (c : Nat) : s.requestStop c = { s with ctxs := (s.requestStop c).ctxs } := by
  unfold State.requestStop; simp only; split
  · rfl
  · split <;> rfl

theorem haltCtx_eq (s : State) (c : Nat) : s.haltCtx c = { s with ctxs := (s.haltCtx c).ctxs } := by
  unfold State.haltCtx; rw [requestStop_eq]; rfl

/-- Taking an exception touches the warp, its context's stop, and the trigger. -/
theorem trap_eq (s : State) (k : Nat) (w : Warp) (t : Trap) (kind : TrapKind) :
    ∃ v c b, s.trap k w t kind = { s with warps := tset s.warps k v, ctxs := c, bvctl := b } := by
  unfold State.trap State.trapEntry
  split
  · exact ⟨_, s.ctxs, s.bvctl, rfl⟩
  · simp only; rw [trigger_eq]; split
    · rw [haltCtx_eq]; exact ⟨_, _, _, rfl⟩
    · exact ⟨_, s.ctxs, _, rfl⟩

@[simp] theorem trap_mem (s : State) (k : Nat) (w : Warp) (t : Trap) (kind : TrapKind) : (s.trap k w t kind).mem = s.mem := by
  obtain ⟨v, c, b, h⟩ := trap_eq s k w t kind; rw [h]

@[simp] theorem trap_peerMem (s : State) (k : Nat) (w : Warp) (t : Trap) (kind : TrapKind) :
    (s.trap k w t kind).peerMem = s.peerMem := by
  obtain ⟨v, c, b, h⟩ := trap_eq s k w t kind; rw [h]

@[simp] theorem trap_cores (s : State) (k : Nat) (w : Warp) (t : Trap) (kind : TrapKind) :
    (s.trap k w t kind).cores = s.cores := by
  obtain ⟨v, c, b, h⟩ := trap_eq s k w t kind; rw [h]

theorem trap_other (s : State) {k j : Nat} (w : Warp) (t : Trap) (kind : TrapKind) (h : j ≠ k) :
    (s.trap k w t kind).warp? j = s.warp? j := by
  obtain ⟨v, c, b, e⟩ := trap_eq s k w t kind; simp [e, State.warp?, tget_tset, h]

/-! ## Commands -/

/-- An instruction whose command has passed its checks is held for its commit, or accepted, refused, or halted now. -/
theorem submit_det {s : State} {w : Warp} (h : w.det = true) (body : CmdBody) (d : BitVec 6) :
    ∃ t, submit s w body d = .ok t ∧ t = { s with warps := t.warps, nextId := s.nextId + 1 } := by
  simp only [submit, h, ↓reduceIte, State.token]
  exact ⟨_, rfl, rfl⟩

theorem submit_free {s : State} {w : Warp} (h : w.det = false) (body : CmdBody) (d : BitVec 6) :
    submit s w body d =
      submitNow { s with nextId := s.nextId + 1 } w { body := body, d := d.toNat, ipc := w.ipc, tok := s.nextId } := by
  simp [submit, h, State.token]

theorem submitNow_cases {s t : State} {w : Warp} {c : Cmd} (h : submitNow s w c = .ok t) :
    (∃ u l ready, accept s s.cur w c = .ok u l ready ∧ t = u.deliver u.cur c l ready) ∨
    (accept s s.cur w c = .full ∧ t = s.setWarp s.cur { w with wait := .refused c }) := by
  unfold submitNow at h
  split at h
  · rename_i u l r e; cases h; exact .inl ⟨u, l, r, e, rfl⟩
  · rename_i e; cases h; exact .inr ⟨e, rfl⟩
  · cases h

/-- What an engine accepts it had room for, and its destination met no other queue's copy. -/
theorem accept_ok {s u : State} {k : Nat} {w : Warp} {c : Cmd} {l : List RegWrite} {ready : Bool}
    (h : accept s k w c = .ok u l ready) : hasRoom s k w c.body = true := by
  by_contra e
  simp only [accept, Bool.not_eq_true] at h e
  simp only [e, Bool.not_false, ↓reduceIte] at h
  repeat' split at h
  all_goals cases h

theorem deliver_mem (s : State) (k : Nat) (c : Cmd) (l : List RegWrite) (ready : Bool) : (s.deliver k c l ready).mem = s.mem := by
  unfold State.deliver; split <;> rfl

/-! ## Numbers -/

theorem doneOf_setDone (t : TlSet) (k : Nat) (v : Word) : (t.setDone k v).doneOf k = v := by
  show (t.done.set (k % 16) v (Nat.mod_lt _ (by decide)))[k % 16]'(Nat.mod_lt _ (by decide)) = v
  simp

/-- A number that is its counter's next completes it. -/
theorem complete_next {t : TlSet} {k n : Nat} (he : t.early = []) (h : (t.doneOf k).toNat + 1 = n) :
    (t.complete k n).doneOf k = t.doneOf k + 1 := by
  show ((t.setDone k _).doneOf k) = _
  rw [doneOf_setDone]
  simp [he, raiseDone, h]

end Sys2Proof.Machine
end

