-- ==== Sys2Proof/Laws/Memory.lean ====
section
/-! SUPPORT. Every operation on memory keeps its canonical form. -/

namespace Sys2Proof.Machine

open Sys2Proof

/-- An operation that leaves both memories as they were keeps their form. -/
theorem memoryOk_of_eq {s t : State} (h : s.memoryOk) (hm : t.mem = s.mem) (hp : t.peerMem = s.peerMem) : t.memoryOk := by
  rw [State.memoryOk, hm, hp]; exact h

theorem memoryOk_write {s : State} (h : s.memoryOk) (a : Nat) (b : List Byte) :
    ({ s with mem := memWriteN s.mem a b } : State).memoryOk := ⟨memWriteN_wf a b h.1, h.2⟩

theorem memoryOk_reset : State.reset.memoryOk := ⟨rfl, rfl⟩

/-- A fold of operations that keep the form keeps it. -/
theorem memoryOk_foldl {α : Type} {f : State → α → State} (hf : ∀ s x, s.memoryOk → (f s x).memoryOk) (l : List α) :
    ∀ {s : State}, s.memoryOk → (l.foldl f s).memoryOk := by
  induction l with
  | nil => exact fun h => h
  | cons x r ih => exact fun h => ih (hf _ _ h)

/-- The same for a fold that carries something beside the state. -/
theorem memoryOk_foldlP {α β : Type} {f : State × β → α → State × β} (hf : ∀ s x, s.1.memoryOk → (f s x).1.memoryOk) (l : List α) :
    ∀ {s : State × β}, s.1.memoryOk → (l.foldl f s).1.memoryOk := by
  induction l with
  | nil => exact fun h => h
  | cons x r ih => exact fun h => ih (hf _ _ h)

/-- The same for a fold that may stop at an error. -/
theorem memoryOk_foldE {α β ε : Type} {f : State × β → α → Except ε (State × β)}
    (hf : ∀ s x t, s.1.memoryOk → f s x = .ok t → t.1.memoryOk) (l : List α) :
    ∀ {s t : State × β}, s.1.memoryOk → foldE f s l = .ok t → t.1.memoryOk := by
  induction l with
  | nil => intro s t h e; cases e; exact h
  | cons x r ih =>
    intro s t h e
    simp only [foldE] at e
    split at e
    · cases e
    · rename_i u hu; exact ih (hf _ _ _ h hu) e

theorem memoryOk_trap {s : State} (h : s.memoryOk) (k : Nat) (w : Warp) (t : Trap) (kind : TrapKind) :
    (s.trap k w t kind).memoryOk := memoryOk_of_eq h (by simp) (by simp)

/-! ## Bytes at their homes -/

theorem dirtyLine_eq (s : State) (line : Nat) : s.dirtyLine line = { s with l2dirty := (s.dirtyLine line).l2dirty } := by
  unfold State.dirtyLine; split <;> rfl

theorem memoryOk_dramWrite {s : State} (h : s.memoryOk) (pa : Nat) (b : List Byte) : (s.dramWrite pa b).memoryOk := by
  unfold State.dramWrite
  split
  · exact memoryOk_of_eq h rfl rfl
  · exact memoryOk_write h pa b

theorem memoryOk_putDirty {s : State} (h : s.memoryOk) (pa : Nat) (b : List Byte) :
    (let t := if b ≠ [] then s.dirtyLine (lineOf pa) else s
     ({ t with mem := memWriteN t.mem pa b } : State)).memoryOk := by
  refine memoryOk_write ?_ pa b
  split
  · rw [dirtyLine_eq]; exact memoryOk_of_eq h rfl rfl
  · exact h

theorem memoryOk_putHome {s : State} (h : s.memoryOk) (kind : LocKind) (pa : Nat) (b : List Byte) : (s.putHome kind pa b).memoryOk := by
  unfold State.putHome
  split
  · exact memoryOk_dramWrite h pa b
  · exact memoryOk_putDirty h pa b
  · exact memoryOk_putDirty h pa b
  · exact memoryOk_write h pa b

theorem memoryOk_peerWrite {s : State} (h : s.memoryOk) (pa : Nat) (b : List Byte) : (s.peerWrite pa b).memoryOk := by
  unfold State.peerWrite
  split
  · exact memoryOk_putHome h _ _ _
  · exact ⟨h.1, memWriteN_wf _ _ h.2⟩
  · exact h

/-! ## Device registers -/

theorem memoryOk_put32 {s : State} (h : s.memoryOk) (a v : Nat) : (s.put32 a v).memoryOk := memoryOk_putHome h _ _ _
theorem memoryOk_putWord {s : State} (h : s.memoryOk) (a v : Nat) : (s.putWord a v).memoryOk := memoryOk_putHome h _ _ _

theorem memoryOk_setUq {s : State} (h : s.memoryOk) (q : Nat) (u : Uq) : (s.setUq q u).memoryOk := h

theorem memoryOk_addCount {s : State} (h : s.memoryOk) (q n : Nat) : (s.addCount q n).memoryOk := by
  unfold State.addCount; simp only; split
  · exact h
  · exact memoryOk_put32 h _ _

theorem memoryOk_takeCount {s : State} (h : s.memoryOk) (q : Nat) : (s.takeCount q).memoryOk := by
  unfold State.takeCount
  extract_lets u a n
  split
  · exact h
  · exact memoryOk_setUq (memoryOk_put32 h _ _) _ _

theorem memoryOk_notify {s : State} (h : s.memoryOk) (q : Nat) (c : Option Nat) (n : Nat) : (s.notify q c n).memoryOk := by
  unfold State.notify
  extract_lets u
  split
  · exact h
  · split
    · exact memoryOk_addCount h _ _
    · split
      · exact memoryOk_setUq h _ _
      · exact memoryOk_addCount (memoryOk_setUq h _ _) _ _

theorem memoryOk_mapUq {s : State} (h : s.memoryOk) (q : Nat) : (s.mapUq q).memoryOk := by
  unfold State.mapUq
  extract_lets u
  split
  · exact memoryOk_takeCount (memoryOk_setUq h _ _) _
  · exact h

theorem memoryOk_unmapUq {s : State} (h : s.memoryOk) (q : Nat) : (s.unmapUq q).memoryOk := by
  unfold State.unmapUq
  extract_lets u
  exact memoryOk_setUq (memoryOk_addCount h _ _) _ _

theorem memoryOk_writeUq0 {s : State} (h : s.memoryOk) (q : Nat) (v : Word) : (s.writeUq0 q v).memoryOk := by
  unfold State.writeUq0
  extract_lets u c
  split
  · exact h
  · have h' : (s.setUq q { u with ctx := c }).memoryOk := memoryOk_setUq h _ _
    split <;> split
    · exact h'
    · exact memoryOk_mapUq h' _
    · exact memoryOk_unmapUq h' _
    · exact h'

/-! ## Contexts stopped and dropped -/

/-- The parts of the device that stand outside memory, as far as its form is concerned. -/
def SameMemory (s t : State) : Prop := t.mem = s.mem ∧ t.peerMem = s.peerMem

theorem sameMemory_rfl (s : State) : SameMemory s s := ⟨rfl, rfl⟩
theorem sameMemory_trans {s t u : State} (h : SameMemory s t) (g : SameMemory t u) : SameMemory s u :=
  ⟨g.1.trans h.1, g.2.trans h.2⟩
theorem memoryOk_same {s t : State} (h : s.memoryOk) (g : SameMemory s t) : t.memoryOk := memoryOk_of_eq h g.1 g.2

theorem sameMemory_foldl {α : Type} {f : State → α → State} (hf : ∀ s x, SameMemory s (f s x)) (l : List α) :
    ∀ s : State, SameMemory s (l.foldl f s) := by
  induction l with
  | nil => exact sameMemory_rfl
  | cons x r ih => exact fun s => sameMemory_trans (hf s x) (ih _)

theorem sameMemory_lineDown (s : State) (x : Nat × Nat) : SameMemory s (s.lineDown x) := ⟨rfl, rfl⟩
theorem sameMemory_lineUp (s : State) (x : Nat × Nat) : SameMemory s (s.lineUp x) := ⟨rfl, rfl⟩
theorem sameMemory_dropNum (s : State) (c n k m : Nat) : SameMemory s (s.dropNum c n k m) := ⟨rfl, rfl⟩
theorem sameMemory_setWarp (s : State) (k : Nat) (w : Warp) : SameMemory s (s.setWarp k w) := ⟨rfl, rfl⟩
theorem sameMemory_requestStop (s : State) (c : Nat) : SameMemory s (s.requestStop c) := by
  rw [requestStop_eq]; exact ⟨rfl, rfl⟩
theorem sameMemory_haltCtx (s : State) (c : Nat) : SameMemory s (s.haltCtx c) := by
  rw [haltCtx_eq]; exact ⟨rfl, rfl⟩
theorem sameMemory_trap (s : State) (k : Nat) (w : Warp) (t : Trap) (kind : TrapKind) : SameMemory s (s.trap k w t kind) :=
  ⟨by simp, by simp⟩

theorem sameMemory_dropCore (s : State) (c n : Nat) : SameMemory s (s.dropCore c n) := by
  unfold State.dropCore
  extract_lets x ops s₁ x₁ cq pq nums toks s₂ s₃
  have h₁ : SameMemory s s₁ := sameMemory_foldl sameMemory_lineDown _ s
  have h₃ : SameMemory s s₃ := by
    refine sameMemory_trans h₁ ?_
    show SameMemory s₁ (if _ then _ else _)
    split <;> exact ⟨rfl, rfl⟩
  refine sameMemory_trans h₃ (sameMemory_foldl (fun u p => ?_) _ _)
  split
  · exact sameMemory_rfl u
  · exact sameMemory_setWarp u _ _

theorem sameMemory_dropHeld (s : State) (k : Nat) (l keep : List HeldOp) : SameMemory s (dropHeld s k l keep) := by
  unfold dropHeld
  extract_lets u
  have h : SameMemory s u := sameMemory_foldl (fun v x => by
    split
    · exact sameMemory_foldl sameMemory_lineDown _ v
    · exact sameMemory_rfl v) _ s
  split
  · exact h
  · exact sameMemory_trans h (sameMemory_setWarp u _ _)

theorem sameMemory_dropOps (s : State) (c : Nat) : SameMemory s (s.dropOps c) := by
  unfold State.dropOps
  extract_lets s₁ runs s₂ s₃ s₄ s₅ gone s₆
  have h₁ : SameMemory s s₁ := sameMemory_foldl (fun u n => sameMemory_dropCore u c n) _ s
  have h₂ : SameMemory s₁ s₂ := sameMemory_foldl (fun u r => sameMemory_dropNum u c _ _ _) _ _
  have h₄ : SameMemory s₃ s₄ := sameMemory_foldl (fun u x =>
    sameMemory_trans (sameMemory_dropNum u c _ _ _) (sameMemory_foldl sameMemory_lineDown _ _)) _ _
  refine sameMemory_trans h₁ (sameMemory_trans h₂ (sameMemory_trans (t := s₃) ⟨rfl, rfl⟩
    (sameMemory_trans h₄ (sameMemory_trans (t := s₅) ⟨rfl, rfl⟩ (sameMemory_trans (t := s₆) ?_
      (sameMemory_foldl (fun u p => ?_) _ _))))))
  · refine sameMemory_trans ⟨rfl, rfl⟩ (sameMemory_foldl (fun u r => ?_) _ _)
    split
    · exact sameMemory_setWarp u _ _
    · exact sameMemory_rfl u
  split
  · exact sameMemory_rfl u
  · extract_lets w
    have h' : SameMemory u w := by
      show SameMemory u (if _ then _ else _)
      split
      · exact sameMemory_rfl u
      · exact sameMemory_dropHeld u _ _ _
    refine sameMemory_trans h' ?_
    split
    · refine sameMemory_trans (t := if p.2.det then w else w.dropNum c p.2.core 6 _) ?_
        (sameMemory_trans (sameMemory_foldl sameMemory_lineDown _ _) (sameMemory_setWarp _ _ _))
      split
      · exact sameMemory_rfl w
      · exact sameMemory_dropNum w c _ _ _
    · exact sameMemory_rfl w

theorem sameMemory_tearDown (s : State) (c : Nat) : SameMemory s (s.tearDown c) :=
  sameMemory_trans (sameMemory_dropOps s c) ⟨rfl, rfl⟩

theorem sameMemory_killCtx (s : State) (c : Nat) : SameMemory s (s.killCtx c) := by
  unfold State.killCtx
  extract_lets u
  have h : SameMemory s u := sameMemory_requestStop s c
  split
  · exact sameMemory_trans h (sameMemory_tearDown u c)
  · exact sameMemory_trans h ⟨rfl, rfl⟩

/-! ## A device register, and bytes at their homes -/

theorem sameMemory_askStep (s : State) (u : Nat) (x : BitVec 5) : SameMemory s (s.askStep u x) := by
  unfold State.askStep; split <;> exact ⟨rfl, rfl⟩

theorem sameMemory_writeQvf (s : State) (u : Nat) (v : Word) : SameMemory s (s.writeQvf u v) := by
  unfold State.writeQvf
  extract_lets
  split
  · exact sameMemory_rfl s
  · exact sameMemory_trans ⟨rfl, rfl⟩ (sameMemory_askStep _ _ _)

theorem sameMemory_wakeCtx (s : State) (c : Nat) : SameMemory s (s.wakeCtx c) := ⟨rfl, rfl⟩

theorem sameMemory_resumeCtx (s : State) (c : Nat) : SameMemory s (s.resumeCtx c) := by
  unfold State.resumeCtx; extract_lets; split
  · exact sameMemory_rfl s
  · split <;> exact ⟨rfl, rfl⟩

theorem sameMemory_ite {s t u : State} {p : Prop} [Decidable p] (h : SameMemory s t) (g : SameMemory s u) :
    SameMemory s (if p then t else u) := by
  split
  · exact h
  · exact g

theorem sameMemory_writeCtxctl (s : State) (c : Nat) (v : Word) : SameMemory s (s.writeCtxctl c v) := by
  unfold State.writeCtxctl
  refine sameMemory_ite (sameMemory_rfl s) ?_
  generalize hx : s.setCtx c { s.ctx c with slice := v.extractLsb' 32 16, dbg := v.getLsbD 7, co := v.getLsbD 6 } = x
  have h₁ : SameMemory s x := hx ▸ ⟨rfl, rfl⟩
  have h₂ (u : State) : SameMemory u (if v.getLsbD 1 then u.requestStop c else u) :=
    sameMemory_ite (sameMemory_requestStop u c) (sameMemory_rfl u)
  have h₃ (u : State) : SameMemory u (if v.getLsbD 2 then u.resumeCtx c else u) :=
    sameMemory_ite (sameMemory_resumeCtx u c) (sameMemory_rfl u)
  have h₄ (u : State) : SameMemory u (if v.getLsbD 3 then u.killCtx c else u) :=
    sameMemory_ite (sameMemory_killCtx u c) (sameMemory_rfl u)
  exact sameMemory_trans h₁ (sameMemory_trans (h₂ x) (sameMemory_trans (h₃ _) (h₄ _)))

theorem sameMemory_writeRoot (s : State) (c : Option Nat) (v : Word) : SameMemory s (s.writeRoot c v) := by
  unfold State.writeRoot
  refine sameMemory_ite (sameMemory_rfl s) ?_
  cases c <;> exact ⟨rfl, rfl⟩

theorem sameMemory_writeInbound (s : State) (e : Nat) (v : Word) : SameMemory s (s.writeInbound e v) := by
  unfold State.writeInbound; exact sameMemory_ite (sameMemory_rfl s) ⟨rfl, rfl⟩

theorem sameMemory_writeHbmreq (s : State) (k : Nat) (v : W32) : SameMemory s (s.writeHbmreq k v) := by
  unfold State.writeHbmreq; exact sameMemory_ite (sameMemory_rfl s) ⟨rfl, rfl⟩

theorem sameMemory_writeLpown (s : State) (n : Nat) (v : Word) : SameMemory s (s.writeLpown n v) := by
  unfold State.writeLpown; exact sameMemory_ite (sameMemory_rfl s) ⟨rfl, rfl⟩

theorem sameMemory_writeTqcfg (s : State) (n : Nat) (v : Word) : SameMemory s (s.writeTqcfg n v) := by
  unfold State.writeTqcfg; exact sameMemory_ite (sameMemory_rfl s) ⟨rfl, rfl⟩

theorem sameMemory_writeCtxslot (s : State) (n j : Nat) (v : Word) : SameMemory s (s.writeCtxslot n j v) := by
  unfold State.writeCtxslot; exact sameMemory_ite (sameMemory_rfl s) ⟨rfl, rfl⟩

theorem sameMemory_writeSaveb (s : State) (c : Nat) (v : Word) : SameMemory s (s.writeSaveb c v) := by
  unfold State.writeSaveb; exact sameMemory_ite (sameMemory_rfl s) ⟨rfl, rfl⟩

theorem sameMemory_writeUq8 (s : State) (q : Nat) (v : Word) : SameMemory s (s.writeUq8 q v) := by
  unfold State.writeUq8; exact sameMemory_ite (sameMemory_rfl s) ⟨rfl, rfl⟩

theorem sameMemory_writeThcfg (s : State) (v : W32) : SameMemory s (s.writeThcfg v) := by
  unfold State.writeThcfg; exact sameMemory_ite (sameMemory_rfl s) ⟨rfl, rfl⟩

theorem sameMemory_writePeerst (s : State) (p : Nat) (v : Word) : SameMemory s (s.writePeerst p v) := by
  unfold State.writePeerst; exact sameMemory_ite (sameMemory_rfl s) ⟨rfl, rfl⟩

theorem sameMemory_writeWsref (s : State) (d : Nat) (v : Word) : SameMemory s (s.writeWsref d v) := by
  unfold State.writeWsref; exact sameMemory_ite (sameMemory_rfl s) ⟨rfl, rfl⟩

theorem sameMemory_writeParkcfg (s : State) (d : Nat) (v : Word) : SameMemory s (s.writeParkcfg d v) := by
  unfold State.writeParkcfg; exact sameMemory_ite (sameMemory_rfl s) ⟨rfl, rfl⟩

theorem sameMemory_writeLpline (s : State) (n a p : Nat) (v : Word) : SameMemory s (s.writeLpline n a p v) := ⟨rfl, rfl⟩

theorem sameMemory_thaw (s : State) : SameMemory s s.thaw :=
  sameMemory_trans (t := { s with bvctl := s.bvctl &&& ~~~8#32 }) ⟨rfl, rfl⟩
    (sameMemory_trans (sameMemory_foldl sameMemory_tearDown _ _) (sameMemory_foldl sameMemory_wakeCtx _ _))

theorem sameMemory_writeBvctl (s : State) (v : W32) : SameMemory s (s.writeBvctl v) := by
  unfold State.writeBvctl
  refine sameMemory_ite (sameMemory_rfl s) ?_
  extract_lets frozen x
  have hx : SameMemory s x := ⟨rfl, rfl⟩
  exact sameMemory_ite (sameMemory_ite (sameMemory_trans hx (sameMemory_thaw x)) hx) (sameMemory_ite ⟨rfl, rfl⟩ hx)

theorem memoryOk_regWrite {s : State} (h : s.memoryOk) (r : RegId) (v : Word) (c : Option Nat) : (s.regWrite r v c).memoryOk := by
  have same {t : State} (g : SameMemory s t) : t.memoryOk := memoryOk_same h g
  cases r with
  | devnum | coreMap | hbmst | kstat | sens | bootst | doorbellPad => exact h
  | rootu n => exact same (sameMemory_writeRoot s (some n) v)
  | roots => exact same (sameMemory_writeRoot s none v)
  | inbound e => exact same (sameMemory_writeInbound s e v)
  | hbmreq k => exact same (sameMemory_writeHbmreq s k (v.setWidth 32))
  | lpown n => exact same (sameMemory_writeLpown s n v)
  | tqcfg i => exact same (sameMemory_writeTqcfg s i v)
  | ctxslot n j => exact same (sameMemory_writeCtxslot s n j v)
  | ctxctl n => exact same (sameMemory_writeCtxctl s n v)
  | ctxsaveb n => exact same (sameMemory_writeSaveb s n v)
  | uq0 q => exact memoryOk_writeUq0 h q v
  | uq8 q => exact same (sameMemory_writeUq8 s q v)
  | qvf u => exact same (sameMemory_writeQvf s u v)
  | thcfg => exact same (sameMemory_writeThcfg s (v.setWidth 32))
  | peerst p => exact same (sameMemory_writePeerst s p v)
  | bvctl => exact same (sameMemory_writeBvctl s (v.setWidth 32))
  | lpline n a p => exact same (sameMemory_writeLpline s n a p v)
  | wsref d => exact same (sameMemory_writeWsref s d v)
  | parkcfg d => exact same (sameMemory_writeParkcfg s d v)
  | doorbell q => exact memoryOk_notify h q c (v.toNat % 2 ^ 32)

theorem memoryOk_regWriteTo {s : State} (h : s.memoryOk) (r : Option (RegId × Nat × Nat)) (v : Word) (c : Option Nat) :
    (s.regWriteTo r v c).memoryOk := by
  cases r with
  | none => exact h
  | some x => exact memoryOk_regWrite h x.1 v c

theorem memoryOk_regWriteAt {s : State} (h : s.memoryOk) (pa : Nat) (v : Word) (c : Option Nat) : (s.regWriteAt pa v c).memoryOk :=
  memoryOk_regWriteTo h (regAt (pa - regBase)) v c

theorem memoryOk_homeWrite {s : State} (h : s.memoryOk) (ctx : Nat) (kind : LocKind) (pa : Nat) (b : List Byte) :
    (s.homeWrite ctx kind pa b).memoryOk := by
  cases kind with
  | reg => exact memoryOk_regWriteAt h pa (BitVec.ofNat 64 (bytesNat b)) (some ctx)
  | peer => exact memoryOk_peerWrite h pa b
  | cached => exact memoryOk_putHome h .cached pa b
  | cap => exact memoryOk_putHome h .cap pa b
  | uncached => exact memoryOk_putHome h .uncached pa b
  | weight => exact memoryOk_putHome h .weight pa b
  | scratch => exact memoryOk_putHome h .scratch pa b
  | acc => exact memoryOk_putHome h .acc pa b
  | const => exact memoryOk_putHome h .const pa b

theorem memoryOk_storeBytes {s : State} (h : s.memoryOk) (n ctx : Nat) (kind : LocKind) (pa : Nat) (b : List Byte) :
    (s.storeBytes n ctx kind pa b).memoryOk := by
  have h' := memoryOk_homeWrite h ctx kind pa b
  unfold State.storeBytes
  extract_lets
  split
  · exact h'
  · split
    · exact memoryOk_of_eq h' rfl rfl
    · exact h'

theorem memoryOk_engineWrite (ctx : Nat) (l : List Xlat) :
    ∀ {s : State} (b : List Byte), s.memoryOk → (engineWrite s ctx l b).memoryOk := by
  induction l with
  | nil => exact fun _ h => h
  | cons x r ih => exact fun b h => ih _ (memoryOk_foldlP (fun a p ha => memoryOk_homeWrite ha _ _ _ _) _ h)

theorem memoryOk_storeXlats (core ctx : Nat) (l : List Xlat) :
    ∀ {s : State} (b : List Byte), s.memoryOk → (storeXlats s core ctx l b).memoryOk := by
  induction l with
  | nil => exact fun _ h => h
  | cons x r ih => exact fun b h => ih _ (memoryOk_foldlP (fun a p ha => memoryOk_storeBytes ha _ _ _ _ _) _ h)

theorem memoryOk_matWrite {s : State} (h : s.memoryOk) (ctx : Nat) (l : List MatW) : (s.matWrite ctx l).memoryOk :=
  memoryOk_foldl (fun _ _ hu => memoryOk_homeWrite hu _ _ _ _) l h

theorem sameMemory_refreshL1 (s : State) (n : Nat) (kind : LocKind) (pa : Nat) : SameMemory s (s.refreshL1 n kind pa) := by
  unfold State.refreshL1
  extract_lets
  repeat' split
  all_goals exact ⟨rfl, rfl⟩

theorem sameMemory_loadBytes (s : State) (n : Nat) (home : Bool) (kind : LocKind) (pa len : Nat) :
    SameMemory s (s.loadBytes n home kind pa len).1 := by
  unfold State.loadBytes
  extract_lets
  repeat' split
  all_goals first | exact sameMemory_refreshL1 s n _ pa | exact ⟨rfl, rfl⟩

/-- What a class's state is saved as keeps the form (R457). -/
theorem memoryOk_saveClass {s : State} (h : s.memoryOk) (c : Nat) (cls : EngClass) : (s.saveClass c cls).memoryOk := by
  unfold State.saveClass
  extract_lets base u
  have hu : u.memoryOk := memoryOk_foldl (fun _ _ hs => memoryOk_putHome hs _ _ _) _ h
  clear_value u
  exact hu

end Sys2Proof.Machine
end

