-- ==== Sys2Proof/Laws/Work.lean ====
section
/-! SUPPORT. What the shared operations of work in flight can do, said once: releases kept back, faults taken late, and the
matrix-queue entries of evaluations. -/

namespace Sys2Proof.Machine

open Sys2Proof

/-- A late fault enters the handler of a warp that is between instructions with nothing owed, and is dropped where the warp has ended
(R450). -/
theorem lateTrap_next {s u : State} {k : Nat} {w : Warp} {ipc : Word} {t : Trap} (h : s.lateTrap k w ipc t = .next u) :
    (w.status = .live ∧ w.allReady = true ∧ w.wait.between = true ∧ u = s.trap k { w with ipc := ipc, wait := .run } t .fault) ∨
    ((w.status = .exited ∨ w.status = .halted) ∧ u = s) := by
  unfold State.lateTrap at h
  split at h
  · next c => exact .inl ⟨c.1, c.2.1, c.2.2, (Host.Outcome.next.inj h).symm⟩
  · split at h
    · next c => exact .inr ⟨c, (Host.Outcome.next.inj h).symm⟩
    · cases h

/-- A warp that waits for its own ordered lanes looks again; every other warp, and everything else, stays as it was. -/
theorem wake_eq (s : State) (k : Nat) : s.wake k = s ∨
    ∃ w, s.warp? k = some w ∧ w.wait = .ordered ∧ s.wake k = s.setWarp k { w with wait := .run } := by
  unfold State.wake
  split
  · next w hw =>
    split
    · next h => exact .inr ⟨w, hw, h, rfl⟩
    · exact .inl rfl
  · exact .inl rfl

/-- A kept release is performed only when nothing that precedes it is outstanding, and leaves the list; what it does then follows
from the warp as it stands after looking again (R158). -/
theorem performRelease_next {s t : State} {i : Nat} (h : s.performRelease i = .next t) :
    ∃ r, s.rels[i]? = some r ∧ s.gated r.warp r.tok = false ∧ let u := State.wake { s with rels := s.rels.eraseIdx i } r.warp
      (u.warp? r.warp = none ∧ t = u) ∨
      ∃ w, u.warp? r.warp = some w ∧
        ((∃ k v, r.op = .tladv k v ∧ t = u.raiseTl w.ctx w.core k v) ∨
         (∃ a, r.op = .acc a ∧ releaseAccess u r.warp w a r.fenced = .next t) ∨
         (∃ c v l b, r.op = .cmd c ∧ accept u r.warp w c = .ok v l b ∧
           t = v.setWarp r.warp (((v.warp? r.warp).getD w).fill c.tok l)) ∨
         (∃ b n d ipc, r.op = .arrive b n d ipc ∧
           ((∃ f, u.barArrive r.warp w b n = .error f ∧
              (u.setWarp r.warp (w.forget r.tok)).lateTrap r.warp (w.forget r.tok) ipc f = .next t) ∨
            ∃ v ph, u.barArrive r.warp w b n = .ok (v, ph) ∧ t = v.setWarp r.warp (w.settle r.tok [.s d ph]))) ∨
         ∃ q v d, r.op = .push q v d ∧
           t = (u.pushInCycle r.warp (w.settle r.tok []) q v (BitVec.ofNat 6 d)).unready r.warp w.core) := by
  unfold State.performRelease State.relDue at h
  split at h
  · cases h
  · next r hr =>
    refine ⟨r, hr, ?_⟩
    split at h
    · cases h
    · next hg =>
      refine ⟨by simpa using hg, ?_⟩
      dsimp only at h
      split at h
      · next hw => exact .inl ⟨hw, (Host.Outcome.next.inj h).symm⟩
      · next w hw =>
        refine .inr ⟨w, hw, ?_⟩
        split at h
        · next k v ho => exact .inl ⟨k, v, ho, (Host.Outcome.next.inj h).symm⟩
        · next a ho => exact .inr (.inl ⟨a, ho, h⟩)
        · next c ho =>
          split at h
          · next v l b hv => exact .inr (.inr (.inl ⟨c, v, l, b, ho, hv, (Host.Outcome.next.inj h).symm⟩))
          · cases h
        · next b n d ipc ho =>
          refine .inr (.inr (.inr (.inl ⟨b, n, d, ipc, ho, ?_⟩)))
          split at h
          · next f hf => exact .inl ⟨f, hf, h⟩
          · next v ph hv => exact .inr ⟨v, ph, hv, (Host.Outcome.next.inj h).symm⟩
        · next q v d ho => exact .inr (.inr (.inr (.inr ⟨q, v, d, ho, (Host.Outcome.next.inj h).symm⟩)))

/-- What becomes free of a definite value in the engine's array changes neither memory nor a warp (R376). -/
theorem freeLent_frame (s : State) (n ctx : Nat) (t : BitVec 8) (l : Bool) :
    (s.freeLent n ctx t l).mem = s.mem ∧ (s.freeLent n ctx t l).warps = s.warps := by
  unfold State.freeLent; split <;> exact ⟨rfl, rfl⟩

/-- An evaluation's next step at the matrix queue: its running entry is used up and counted with the parts its program lends,
which are free from then on, or one joins a queue with room (R344, R376). -/
theorem passEntry_some {s t : State} {by_ k : Nat} {a : W32} (h : s.passEntry by_ k a = some t) :
    ∃ w d, s.warp? k = some w ∧ s.warp? by_ = some d ∧ let c := s.core w.core
      (∃ e ∈ c.cq, e.isEval by_ = true ∧ e.st = .running ∧
        t = ((s.setCore w.core { c with cq := c.cq.filter fun y => y.seq != e.seq }).setWarp by_
          { d with credit := d.credit ++ [(w.tmode.ltiles, w.tmode.lset)] }).freeLent w.core w.ctx w.tmode.ltiles w.tmode.lset) ∨
      (c.cq.length < 16 ∧ t = { s.setCore w.core { c with cq := c.cq ++ [s.evalEntry by_ w a] } with seq := s.seq + 1 }) := by
  unfold State.passEntry at h
  split at h
  · next w d hw hd =>
    refine ⟨w, d, hw, hd, ?_⟩
    dsimp only at h
    split at h
    · next e he =>
      split at h
      · next c =>
        have c : e.st = .running := by simp only [Bool.and_eq_true, decide_eq_true_eq] at c; exact c.1.1
        exact .inl ⟨e, List.mem_of_find?_eq_some he, by simpa using List.find?_some he, c, (Option.some.inj h).symm⟩
      · cases h
    · split at h
      · cases h
      · next hl => exact .inr ⟨by omega, (Option.some.inj h).symm⟩
  · cases h

/-- The entries that ran for an instruction count for it when it issues again, and for no other (R376). -/
theorem begin_credit (w : Warp) (f : Fetched) (now : Nat) (h : f.header = false) :
    (w.begin f now).credit = if w.creditAt = some (w.retired, w.pc) then w.credit else [] := by
  simp [Warp.begin, h]

/-! ## What evaluations leave (R376, R377) -/

/-- An evaluation that leaves the lent set and tiles free writes no memory. -/
theorem sameMemory_freeLent (s : State) (n ctx : Nat) (lt : BitVec 8) (ls : Bool) : SameMemory s (s.freeLent n ctx lt ls) := by
  unfold State.freeLent
  split <;> exact ⟨rfl, rfl⟩

/-- Free bytes in the evaluation region keep the form of memory. -/
theorem memoryOk_freeRegion {s : State} (h : s.memoryOk) (w : Warp) (count : Nat) : (s.freeRegion w count).memoryOk := by
  unfold State.freeRegion
  extract_lets
  split
  · exact h
  · exact ⟨memFill_wf _ _ _ h.1, h.2⟩

theorem memoryOk_finish {env : Env} (h : env.s.memoryOk) (w : Warp) : (env.finish w).memoryOk :=
  memoryOk_freeRegion (memoryOk_same h (sameMemory_freeLent _ _ _ _ _)) _ _

end Sys2Proof.Machine
end

