-- ==== Sys2Proof/Tests/Slice0.lean ====
section
/-! SUPPORT. Checks of the model's own text: well-formedness, words of the encoding tables, and a witness for the premises of
each statement. -/

namespace Sys2Proof.Machine

open Sys2Proof

set_option Elab.async false

/-! ## Well-formedness -/

def a0 : FmtA :=
  { long := false, dt := .i32, d := 2, a := 4, b := 6, c := 0, cc := 0, i := false, imm16 := 0, modA := 0, modB := 0
    modC := 0, ext := 0 }
def aL : FmtA := { a0 with long := true }
def aF : FmtA := { a0 with dt := .f32 }
def a8 : FmtA := { a0 with dt := .i8, d := 0, a := 0, b := 0 }
def aN : FmtA := { a0 with dt := .n64 }
def aB : FmtA := { a0 with dt := .b32, b := 0 }
def m0 : FmtM :=
  { long := false, dt := .b32, d := 4, a := 0, b := 8, scope := .warp, ord := .relaxed, hint := .normal, nosplit := false
    voff := false, ofs := 0, modA := 0, ext := 0 }
def e0 : FmtE := { long := false, d := 1, a := 2, b := 3, c := 4, q := 0, prio := 0, imm20 := 0, imm64 := 0 }
def eZ : FmtE := { e0 with d := 0, a := 0, b := 0, c := 0 }
def b0 : FmtBR := { hint := .none, s := 0, v := 0, cc := 0, ofs := 7 }
def g0 : FmtG := { col := false, sel := 0, in1 := 0, in2 := 0, in3 := 0, out := 9 }
def h0 : Hdr := { len := 3, wait := 0, fa := 5, fav := true, fb := 0, fbv := false }
/-- cmac3 over bf16 planes, orientation ik, from tile 0. -/
def eM : FmtE := { e0 with long := true, b := 0, c := 0, imm64 := 0xA0400000 }

/-- The step of R220 at which an instruction is refused; 0 where only the fields that select it refuse it, 10 where it is
well-formed. -/
def refusedAt (i : Instr) : Nat := if i.wf then 10 else (violation i {}).getD 0

/-- The bases of the refusals below are well-formed. -/
theorem test_well_formed :
    [Instr.add a0, .movi { a0 with i := true, a := 0, b := 0 }, .mtsr { aN with d := 0, b := 0 }, .vaddInt aL, .vaddFloat aF,
     .nop a8, .vsetcFloat aF, .vcvt { aF with b := 0, imm16 := 8 }, .ldG m0, .fence { m0 with dt := .i8, d := 0, b := 0, ord := .acq },
     .copy e0, .tlbiSys eZ, .bra b0, .brv { b0 with s := 2 }, .lpnortri { g0 with in1 := 1, in2 := 2, in3 := 3 },
     .clauseHeader h0, .cmac3 eM, .kread { a0 with dt := .f32, d := 0, a := 1, b := 2 }].all Instr.wf = true := by decide

/-- Format A, step 5: a term for each reserved or unused field (R208, R209, R304). -/
theorem test_ill_formed_a5 :
    [Instr.mov { a0 with i := true, b := 0 }, .add { a0 with i := true }, .movi { a0 with a := 0, b := 0 }, .add { aL with ext := 1 },
     .mtsr { aN with b := 0 }, .movi { a0 with i := true, b := 0 }, .mov a0, .add { a0 with c := 1 }, .add { a0 with imm16 := 1 },
     .nop { a8 with dt := .i32 }, .nop { a8 with cc := 1 }, .exit { a8 with long := true }, .add { aL with modA := 1 },
     .mfv { aL with dt := .b32, i := true, b := 0, modA := 1 }, .vaddInt { aL with i := true, b := 0, modB := 1 },
     .vaddInt { aL with modC := 1 }, .vaddInt { a0 with modA := 1 }].map refusedAt =
      [5, 5, 5, 5, 5, 5, 5, 5, 5, 5, 5, 5, 5, 5, 5, 5, 5] := by decide

/-- Format A, what entries bar at step 5: special registers that may not be read or written, an element beyond its type, a
half that 16-bit types lack, a call whose target is named twice, an immediate plane line with a register. -/
theorem test_ill_formed_a5_entries :
    [Instr.mfsr { aN with a := 0, b := 0, imm16 := 0x30 }, .mtsr { aN with d := 0, b := 0, imm16 := 1 },
     .mfsys { aN with a := 0, b := 0, imm16 := 0xFF }, .mtsys { aN with d := 0, b := 0, imm16 := 0xFF },
     .vcvt { aF with b := 0, imm16 := 0x18 }, .vpack { a0 with dt := .f16, imm16 := 1 }, .call { b0 with s := 2, v := 3, cc := 1 },
     .lprdv { aB with i := true, imm16 := 5 }].map refusedAt =
      [5, 5, 5, 5, 5, 5, 5, 5] := by decide

/-- Format A, steps 6 to 9: a type the entry lacks, a register above 51, an odd pair, a bad modifier, a negated scale byte, a
rounding or comparison code with no name. -/
theorem test_ill_formed_a69 :
    [Instr.add aF, .fcvt { aF with b := 0, imm16 := 0xD }, .vaddInt { a0 with d := 56 }, .vaddInt { a0 with dt := .i64, d := 3 },
     .vcvtf { aF with b := 0, a := 5, imm16 := 6 }, .vfrexp { aF with d := 3, b := 0 }, .vaddInt { aL with modA := 0xE00 },
     .vq4dec { aL with dt := .f32, modB := 1 }, .vaddFloat { aF with cc := 7 }, .setc { a0 with cc := 6 }, .add { a0 with cc := 1 },
     .lpselVector { aB with d := 4 }].map refusedAt =
      [6, 6, 7, 7, 7, 7, 8, 8, 9, 9, 9, 7] := by decide

/-- Format M: one term for each check of violM (R156, R211, R215, R329). -/
theorem test_ill_formed_m :
    [Instr.fence { m0 with dt := .i8, d := 0, b := 0, ord := .acq, ofs := 1 }, .fence { m0 with d := 0, b := 0, ord := .acq },
     .pref { m0 with dt := .i8 }, .waitv .eq { m0 with dt := .i32, voff := true }, .ldG { m0 with a := 1 },
     .pref { m0 with dt := .i8, d := 0, scope := .core }, .pref { m0 with dt := .i8, d := 0, ord := .acq },
     .atomAdd { m0 with dt := .i32, hint := .stream }, .stG { m0 with nosplit := true }, .ldG { m0 with ext := 1 },
     .ldG { m0 with dt := .q4 }, .ldG4 { m0 with d := 2 }, .ldG { m0 with d := 60 }, .ldG { m0 with long := true, modA := 0xE00, voff := true },
     .ldG { m0 with ord := .rel }, .stG { m0 with ord := .acq }, .fence { m0 with dt := .i8, d := 0, b := 0 },
     .waitv .un { m0 with dt := .i32 }].map refusedAt =
      [5, 5, 5, 5, 5, 5, 5, 5, 5, 5, 6, 7, 7, 8, 9, 9, 9, 0] := by decide

/-- Format E: one term for each check of violE and of the cube's and planes' fields (R213, R355, R356). -/
theorem test_ill_formed_e :
    [Instr.tlbiSys { eZ with d := 1 }, .tlbiCtx { eZ with a := 1, b := 1 }, .barWait { eZ with a := 1, c := 1 }, .copy { e0 with long := true },
     .barWait { eZ with a := 1, prio := 1 }, .copy { e0 with imm20 := 1 }, .tlbiSys { eZ with q := 1 }, .copy { e0 with imm64 := 1 },
     .copy { e0 with q := 4 }, .gather { e0 with q := 1 }, .gather { e0 with imm20 := 0x80000 }, .cshift { eZ with d := 1, c := 60 },
     .cldb { e0 with imm20 := 0xA0007 }, .cldb { e0 with imm20 := 0x00020 }, .cmac3 { eM with imm64 := 0xA0400001 },
     .cmac3 { eM with b := 1 }, .cmac3 { eM with imm64 := 0xD0480000 }, .cmac3 { eM with imm64 := 0x400000 },
     .cmac3 { eM with imm64 := 0xA047E000 }].map refusedAt =
      [5, 5, 5, 5, 5, 5, 5, 5, 9, 9, 5, 7, 5, 5, 5, 5, 5, 6, 5] := by decide

/-- Formats BR and G, headers, Kiosk words and the fields that select among words that share a code. -/
theorem test_ill_formed_rest :
    [Instr.bra { b0 with s := 1 }, .bra { b0 with cc := 1 }, .call { b0 with hint := .likely, cc := 1, s := 2 }, .ret { b0 with s := 1 },
     .brv { b0 with s := 3 }, .brv { b0 with s := 2, v := 60 }, .brv { b0 with s := 2, cc := 7 }, .lpinit { g0 with in1 := 1 },
     .lpnot { g0 with in2 := 1 }, .lpnor { g0 with in3 := 1 }, .clauseHeader { h0 with len := 0 }, .clauseHeader { h0 with fa := 12 },
     .clauseHeader { h0 with fb := 1 }, .kread { a0 with dt := .f32, d := 0, a := 4, b := 2 }, .kpush aF, .kelse { a8 with d := 1 },
     .kioskVadd { aF with cc := 1 }, .kioskBra { b0 with s := 1 }, .tqpopNw { eZ with d := 1 }, .cancelClr { eZ with a := 1 }].map refusedAt =
      [5, 5, 5, 5, 7, 7, 9, 5, 5, 5, 1, 1, 1, 2, 2, 2, 2, 2, 0, 0] := by decide


/-! ## Words of the encoding tables -/

/-- A Kiosk's words and what they read as, among two words of program. -/
def kioskReads (l : List (Nat × Instr)) : Bool :=
  l.all fun p => decodeKiosk (BitVec.ofNat 64 p.1) (BitVec.ofNat 64 (p.1 / 2 ^ 64)) 2 == some p.2

/-- scalar: words laid out from the opcode map and the format tables (R208 to R214, R228 to R232). -/
theorem test_decode_scalar_0 : reads [
    (0x2021060000000, .add { long := false, dt := .i32, d := 1, a := 2, b := 3, c := 0, cc := 0, i := false, imm16 := 0, modA := 0, modB := 0, modC := 0, ext := 0 }),
    (0x982100008FFFE, .sub { long := false, dt := .n16, d := 1, a := 2, b := 0, c := 0, cc := 0, i := true, imm16 := 65534, modA := 0, modB := 0, modC := 0, ext := 0 }),
    (0x12021060000000, .mul { long := false, dt := .i32, d := 1, a := 2, b := 3, c := 0, cc := 0, i := false, imm16 := 0, modA := 0, modB := 0, modC := 0, ext := 0 }),
    (0x1A021060000000, .mulhi { long := false, dt := .i32, d := 1, a := 2, b := 3, c := 0, cc := 0, i := false, imm16 := 0, modA := 0, modB := 0, modC := 0, ext := 0 }),
    (0x22021060000000, .min { long := false, dt := .i32, d := 1, a := 2, b := 3, c := 0, cc := 0, i := false, imm16 := 0, modA := 0, modB := 0, modC := 0, ext := 0 }),
    (0x2A021060000000, .max { long := false, dt := .i32, d := 1, a := 2, b := 3, c := 0, cc := 0, i := false, imm16 := 0, modA := 0, modB := 0, modC := 0, ext := 0 }),
    (0x32021060000000, .div { long := false, dt := .i32, d := 1, a := 2, b := 3, c := 0, cc := 0, i := false, imm16 := 0, modA := 0, modB := 0, modC := 0, ext := 0 }),
    (0x3A021060000000, .rem { long := false, dt := .i32, d := 1, a := 2, b := 3, c := 0, cc := 0, i := false, imm16 := 0, modA := 0, modB := 0, modC := 0, ext := 0 }),
    (0x102021060000000, .and { long := false, dt := .i32, d := 1, a := 2, b := 3, c := 0, cc := 0, i := false, imm16 := 0, modA := 0, modB := 0, modC := 0, ext := 0 }),
    (0x10A021060000000, .or { long := false, dt := .i32, d := 1, a := 2, b := 3, c := 0, cc := 0, i := false, imm16 := 0, modA := 0, modB := 0, modC := 0, ext := 0 }),
    (0x112021060000000, .xor { long := false, dt := .i32, d := 1, a := 2, b := 3, c := 0, cc := 0, i := false, imm16 := 0, modA := 0, modB := 0, modC := 0, ext := 0 }),
    (0x11A021060000000, .andn { long := false, dt := .i32, d := 1, a := 2, b := 3, c := 0, cc := 0, i := false, imm16 := 0, modA := 0, modB := 0, modC := 0, ext := 0 })] = true := by decide

/-- scalar: words laid out from the opcode map and the format tables (R208 to R214, R228 to R232). -/
theorem test_decode_scalar_1 : reads [
    (0x12182100008FFFE, .shl { long := false, dt := .n16, d := 1, a := 2, b := 0, c := 0, cc := 0, i := true, imm16 := 65534, modA := 0, modB := 0, modC := 0, ext := 0 }),
    (0x12A021060000000, .shr { long := false, dt := .i32, d := 1, a := 2, b := 3, c := 0, cc := 0, i := false, imm16 := 0, modA := 0, modB := 0, modC := 0, ext := 0 }),
    (0x132021060000000, .rot { long := false, dt := .i32, d := 1, a := 2, b := 3, c := 0, cc := 0, i := false, imm16 := 0, modA := 0, modB := 0, modC := 0, ext := 0 }),
    (0x13A021000000000, .popc { long := false, dt := .i32, d := 1, a := 2, b := 0, c := 0, cc := 0, i := false, imm16 := 0, modA := 0, modB := 0, modC := 0, ext := 0 }),
    (0x142021000000000, .clz { long := false, dt := .i32, d := 1, a := 2, b := 0, c := 0, cc := 0, i := false, imm16 := 0, modA := 0, modB := 0, modC := 0, ext := 0 }),
    (0x14A021060000000, .bfx { long := false, dt := .i32, d := 1, a := 2, b := 3, c := 0, cc := 0, i := false, imm16 := 0, modA := 0, modB := 0, modC := 0, ext := 0 }),
    (0x153821062000000, .bfi { long := false, dt := .n64, d := 1, a := 2, b := 3, c := 4, cc := 0, i := false, imm16 := 0, modA := 0, modB := 0, modC := 0, ext := 0 }),
    (0x202021060200000, .setc { long := false, dt := .i32, d := 1, a := 2, b := 3, c := 0, cc := 2, i := false, imm16 := 0, modA := 0, modB := 0, modC := 0, ext := 0 }),
    (0x20B821062000000, .sel { long := false, dt := .n64, d := 1, a := 2, b := 3, c := 4, cc := 0, i := false, imm16 := 0, modA := 0, modB := 0, modC := 0, ext := 0 }),
    (0x302021000000000, .mov { long := false, dt := .i32, d := 1, a := 2, b := 0, c := 0, cc := 0, i := false, imm16 := 0, modA := 0, modB := 0, modC := 0, ext := 0 }),
    (0xABCDEF1038B8C0000081234, .movi { long := true, dt := .n64, d := 6, a := 0, b := 0, c := 0, cc := 0, i := true, imm16 := 4660, modA := 0, modB := 0, modC := 0, ext := 180150001 }),
    (0x3138C0000000005, .mfsr { long := false, dt := .n64, d := 6, a := 0, b := 0, c := 0, cc := 0, i := false, imm16 := 5, modA := 0, modB := 0, modC := 0, ext := 0 })] = true := by decide

/-- scalar: words laid out from the opcode map and the format tables (R208 to R214, R228 to R232). -/
theorem test_decode_scalar_2 : reads [
    (0x31B803000000000, .mtsr { long := false, dt := .n64, d := 0, a := 6, b := 0, c := 0, cc := 0, i := false, imm16 := 0, modA := 0, modB := 0, modC := 0, ext := 0 }),
    (0x3270C3900000000, .mfv { long := false, dt := .b32, d := 6, a := 7, b := 8, c := 0, cc := 0, i := false, imm16 := 0, modA := 0, modB := 0, modC := 0, ext := 0 }),
    (0x32B903800000000, .mtv { long := false, dt := .n64, d := 8, a := 7, b := 0, c := 0, cc := 0, i := false, imm16 := 0, modA := 0, modB := 0, modC := 0, ext := 0 }),
    (0x404021060200000, .fadd { long := false, dt := .f32, d := 1, a := 2, b := 3, c := 0, cc := 2, i := false, imm16 := 0, modA := 0, modB := 0, modC := 0, ext := 0 }),
    (0x40C021060200000, .fsub { long := false, dt := .f32, d := 1, a := 2, b := 3, c := 0, cc := 2, i := false, imm16 := 0, modA := 0, modB := 0, modC := 0, ext := 0 }),
    (0x414021060200000, .fmul { long := false, dt := .f32, d := 1, a := 2, b := 3, c := 0, cc := 2, i := false, imm16 := 0, modA := 0, modB := 0, modC := 0, ext := 0 }),
    (0x41D021062600000, .ffma { long := false, dt := .bf16, d := 1, a := 2, b := 3, c := 4, cc := 6, i := false, imm16 := 0, modA := 0, modB := 0, modC := 0, ext := 0 }),
    (0x425021000000008, .fcvt { long := false, dt := .bf16, d := 1, a := 2, b := 0, c := 0, cc := 0, i := false, imm16 := 8, modA := 0, modB := 0, modC := 0, ext := 0 })] = true := by decide

/-- control: words laid out from the opcode map and the format tables (R208 to R214, R228 to R232). -/
theorem test_decode_control_0 : reads [
    (0x20200000FFFFFFFA, .bra { hint := .likely, s := 0, v := 0, cc := 0, ofs := 4294967290 }),
    (0x216300400000000C, .brs { hint := .uniform, s := 6, v := 0, cc := 1, ofs := 12 }),
    (0x2242068000000007, .brv { hint := .unlikely, s := 4, v := 3, cc := 2, ofs := 7 }),
    (0x2302000000000000, .join { hint := .none, s := 4, v := 0, cc := 0, ofs := 0 }),
    (0x2400134000000003, .brany { hint := .none, s := 0, v := 9, cc := 5, ofs := 3 }),
    (0x2500130000000003, .brall { hint := .none, s := 0, v := 9, cc := 4, ofs := 3 }),
    (0x260101400000000C, .call { hint := .none, s := 2, v := 0, cc := 5, ofs := 12 }),
    (0x2701000000000000, .ret { hint := .none, s := 2, v := 0, cc := 0, ofs := 0 }),
    (0x2800000000000000, .nop { long := false, dt := .i8, d := 0, a := 0, b := 0, c := 0, cc := 0, i := false, imm16 := 0, modA := 0, modB := 0, modC := 0, ext := 0 }),
    (0x2808000000000028, .waitf { long := false, dt := .i8, d := 0, a := 0, b := 0, c := 0, cc := 0, i := false, imm16 := 40, modA := 0, modB := 0, modC := 0, ext := 0 }),
    (0x2810000000000000, .region { long := false, dt := .i8, d := 0, a := 0, b := 0, c := 0, cc := 0, i := false, imm16 := 0, modA := 0, modB := 0, modC := 0, ext := 0 }),
    (0x2818000000000000, .exit { long := false, dt := .i8, d := 0, a := 0, b := 0, c := 0, cc := 0, i := false, imm16 := 0, modA := 0, modB := 0, modC := 0, ext := 0 })] = true := by decide

/-- control: words laid out from the opcode map and the format tables (R208 to R214, R228 to R232). -/
theorem test_decode_control_1 : reads [
    (0x29000500028FFFFF, .waitt { long := false, d := 0, a := 10, b := 0, c := 0, q := 5, prio := 0, imm20 := 1048575, imm64 := 0 }),
    (0x2908050005800000, .tladv { long := false, d := 0, a := 10, b := 0, c := 0, q := 11, prio := 0, imm20 := 0, imm64 := 0 }),
    (0x2A2B8C0111000040, .waitv .ge { long := false, dt := .n64, d := 6, a := 0, b := 8, scope := .device, ord := .acq, hint := .normal, nosplit := false, voff := false, ofs := 64, modA := 0, ext := 0 })] = true := by decide

/-- vector_float: words laid out from the opcode map and the format tables (R208 to R214, R228 to R232). -/
theorem test_decode_vector_float_0 : reads [
    (0x3004021060200000, .vaddFloat { long := false, dt := .f32, d := 1, a := 2, b := 3, c := 0, cc := 2, i := false, imm16 := 0, modA := 0, modB := 0, modC := 0, ext := 0 }),
    (0x300C021060200000, .vsubFloat { long := false, dt := .f32, d := 1, a := 2, b := 3, c := 0, cc := 2, i := false, imm16 := 0, modA := 0, modB := 0, modC := 0, ext := 0 }),
    (0x3014021060200000, .vmulFloat { long := false, dt := .f32, d := 1, a := 2, b := 3, c := 0, cc := 2, i := false, imm16 := 0, modA := 0, modB := 0, modC := 0, ext := 0 }),
    (0x2C60000000000309D141062000000, .vfma { long := true, dt := .bf16, d := 10, a := 2, b := 3, c := 4, cc := 0, i := false, imm16 := 0, modA := 0, modB := 710, modC := 0, ext := 0 }),
    (0x3024021060000000, .vmaxFloat { long := false, dt := .f32, d := 1, a := 2, b := 3, c := 0, cc := 0, i := false, imm16 := 0, modA := 0, modB := 0, modC := 0, ext := 0 }),
    (0x302C021060000000, .vminFloat { long := false, dt := .f32, d := 1, a := 2, b := 3, c := 0, cc := 0, i := false, imm16 := 0, modA := 0, modB := 0, modC := 0, ext := 0 }),
    (0x3034021000000000, .vabsFloat { long := false, dt := .f32, d := 1, a := 2, b := 0, c := 0, cc := 0, i := false, imm16 := 0, modA := 0, modB := 0, modC := 0, ext := 0 }),
    (0x303C101880200000, .vsetcFloat { long := false, dt := .f32, d := 8, a := 3, b := 4, c := 0, cc := 2, i := false, imm16 := 0, modA := 0, modB := 0, modC := 0, ext := 0 })] = true := by decide

/-- vector_integer: words laid out from the opcode map and the format tables (R208 to R214, R228 to R232). -/
theorem test_decode_vector_integer_0 : reads [
    (0x3100821060000000, .vaddInt { long := false, dt := .n8, d := 1, a := 2, b := 3, c := 0, cc := 0, i := false, imm16 := 0, modA := 0, modB := 0, modC := 0, ext := 0 }),
    (0x3108821060000000, .vsubInt { long := false, dt := .n8, d := 1, a := 2, b := 3, c := 0, cc := 0, i := false, imm16 := 0, modA := 0, modB := 0, modC := 0, ext := 0 }),
    (0x31120A180008FFFF, .vmulInt { long := false, dt := .i32, d := 5, a := 3, b := 0, c := 0, cc := 0, i := true, imm16 := 65535, modA := 0, modB := 0, modC := 0, ext := 0 }),
    (0x311A021062000000, .vmad { long := false, dt := .i32, d := 1, a := 2, b := 3, c := 4, cc := 0, i := false, imm16 := 0, modA := 0, modB := 0, modC := 0, ext := 0 }),
    (0x3120821060000000, .vmaxInt { long := false, dt := .n8, d := 1, a := 2, b := 3, c := 0, cc := 0, i := false, imm16 := 0, modA := 0, modB := 0, modC := 0, ext := 0 }),
    (0x3128821060000000, .vminInt { long := false, dt := .n8, d := 1, a := 2, b := 3, c := 0, cc := 0, i := false, imm16 := 0, modA := 0, modB := 0, modC := 0, ext := 0 }),
    (0x3131021000000000, .vabsInt { long := false, dt := .i16, d := 1, a := 2, b := 0, c := 0, cc := 0, i := false, imm16 := 0, modA := 0, modB := 0, modC := 0, ext := 0 }),
    (0x313B8420C0500000, .vsetcInt { long := false, dt := .n64, d := 2, a := 4, b := 6, c := 0, cc := 5, i := false, imm16 := 0, modA := 0, modB := 0, modC := 0, ext := 0 }),
    (0x3140821060000000, .vmulhi { long := false, dt := .n8, d := 1, a := 2, b := 3, c := 0, cc := 0, i := false, imm16 := 0, modA := 0, modB := 0, modC := 0, ext := 0 })] = true := by decide

/-- vector_bits: words laid out from the opcode map and the format tables (R208 to R214, R228 to R232). -/
theorem test_decode_vector_bits_0 : reads [
    (0x3207021060000000, .vand { long := false, dt := .b32, d := 1, a := 2, b := 3, c := 0, cc := 0, i := false, imm16 := 0, modA := 0, modB := 0, modC := 0, ext := 0 }),
    (0x320F021060000000, .vor { long := false, dt := .b32, d := 1, a := 2, b := 3, c := 0, cc := 0, i := false, imm16 := 0, modA := 0, modB := 0, modC := 0, ext := 0 }),
    (0x3217021060000000, .vxor { long := false, dt := .b32, d := 1, a := 2, b := 3, c := 0, cc := 0, i := false, imm16 := 0, modA := 0, modB := 0, modC := 0, ext := 0 }),
    (0x321F021000000000, .vnot { long := false, dt := .b32, d := 1, a := 2, b := 0, c := 0, cc := 0, i := false, imm16 := 0, modA := 0, modB := 0, modC := 0, ext := 0 }),
    (0x3222021060000000, .vshl { long := false, dt := .i32, d := 1, a := 2, b := 3, c := 0, cc := 0, i := false, imm16 := 0, modA := 0, modB := 0, modC := 0, ext := 0 }),
    (0x322A021060000000, .vshr { long := false, dt := .i32, d := 1, a := 2, b := 3, c := 0, cc := 0, i := false, imm16 := 0, modA := 0, modB := 0, modC := 0, ext := 0 }),
    (0x3237021000000000, .vpopc { long := false, dt := .b32, d := 1, a := 2, b := 0, c := 0, cc := 0, i := false, imm16 := 0, modA := 0, modB := 0, modC := 0, ext := 0 }),
    (0x323F021000000000, .vclz { long := false, dt := .b32, d := 1, a := 2, b := 0, c := 0, cc := 0, i := false, imm16 := 0, modA := 0, modB := 0, modC := 0, ext := 0 }),
    (0x3242021060000000, .vbfx { long := false, dt := .i32, d := 1, a := 2, b := 3, c := 0, cc := 0, i := false, imm16 := 0, modA := 0, modB := 0, modC := 0, ext := 0 }),
    (0x324A821062000000, .vbfi { long := false, dt := .n32, d := 1, a := 2, b := 3, c := 4, cc := 0, i := false, imm16 := 0, modA := 0, modB := 0, modC := 0, ext := 0 }),
    (0x3257021062000000, .vsel { long := false, dt := .b32, d := 1, a := 2, b := 3, c := 4, cc := 0, i := false, imm16 := 0, modA := 0, modB := 0, modC := 0, ext := 0 }),
    (0x325F0A1800000000, .vmov { long := false, dt := .b32, d := 5, a := 3, b := 0, c := 0, cc := 0, i := false, imm16 := 0, modA := 0, modB := 0, modC := 0, ext := 0 })] = true := by decide

/-- vector_bits: words laid out from the opcode map and the format tables (R208 to R214, R228 to R232). -/
theorem test_decode_vector_bits_1 : reads [
    (0x32670A0000080055, .vmovi { long := false, dt := .b32, d := 5, a := 0, b := 0, c := 0, cc := 0, i := true, imm16 := 85, modA := 0, modB := 0, modC := 0, ext := 0 })] = true := by decide

/-- conversion: words laid out from the opcode map and the format tables (R208 to R214, R228 to R232). -/
theorem test_decode_conversion_0 : reads [
    (0x3305021000600048, .vcvt { long := false, dt := .bf16, d := 1, a := 2, b := 0, c := 0, cc := 6, i := false, imm16 := 72, modA := 0, modB := 0, modC := 0, ext := 0 }),
    (0x33080210000000D9, .vcvti { long := false, dt := .i8, d := 1, a := 2, b := 0, c := 0, cc := 0, i := false, imm16 := 217, modA := 0, modB := 0, modC := 0, ext := 0 }),
    (0x3314021000000006, .vcvtf { long := false, dt := .f32, d := 1, a := 2, b := 0, c := 0, cc := 0, i := false, imm16 := 6, modA := 0, modB := 0, modC := 0, ext := 0 }),
    (0x331E021060000001, .vpack { long := false, dt := .e5m2, d := 1, a := 2, b := 3, c := 0, cc := 0, i := false, imm16 := 1, modA := 0, modB := 0, modC := 0, ext := 0 }),
    (0x3325841800000001, .vunpk { long := false, dt := .e4m3, d := 2, a := 3, b := 0, c := 0, cc := 0, i := false, imm16 := 1, modA := 0, modB := 0, modC := 0, ext := 0 }),
    (0x332EAA5280500000, .vq4enc { long := false, dt := .q4, d := 21, a := 10, b := 20, c := 0, cc := 5, i := false, imm16 := 0, modA := 0, modB := 0, modC := 0, ext := 0 }),
    (0x33342CAA80000000, .vq4dec { long := false, dt := .f32, d := 22, a := 21, b := 20, c := 0, cc := 0, i := false, imm16 := 0, modA := 0, modB := 0, modC := 0, ext := 0 }),
    (0x333EA85000000001, .vq4scl { long := false, dt := .q4, d := 20, a := 10, b := 0, c := 0, cc := 0, i := false, imm16 := 1, modA := 0, modB := 0, modC := 0, ext := 0 }),
    (0x3405021000300000, .vexp2 { long := false, dt := .bf16, d := 1, a := 2, b := 0, c := 0, cc := 3, i := false, imm16 := 0, modA := 0, modB := 0, modC := 0, ext := 0 }),
    (0x340D021000300000, .vlog2 { long := false, dt := .bf16, d := 1, a := 2, b := 0, c := 0, cc := 3, i := false, imm16 := 0, modA := 0, modB := 0, modC := 0, ext := 0 }),
    (0x3415021000300000, .vrcp { long := false, dt := .bf16, d := 1, a := 2, b := 0, c := 0, cc := 3, i := false, imm16 := 0, modA := 0, modB := 0, modC := 0, ext := 0 }),
    (0x341D021000300000, .vrsq { long := false, dt := .bf16, d := 1, a := 2, b := 0, c := 0, cc := 3, i := false, imm16 := 0, modA := 0, modB := 0, modC := 0, ext := 0 })] = true := by decide

/-- conversion: words laid out from the opcode map and the format tables (R208 to R214, R228 to R232). -/
theorem test_decode_conversion_1 : reads [
    (0x3425021000300000, .vtanh { long := false, dt := .bf16, d := 1, a := 2, b := 0, c := 0, cc := 3, i := false, imm16 := 0, modA := 0, modB := 0, modC := 0, ext := 0 })] = true := by decide

/-- cross_lane: words laid out from the opcode map and the format tables (R208 to R214, R228 to R232). -/
theorem test_decode_cross_lane_0 : reads [
    (0x60070E1060000000, .vperm { long := false, dt := .b32, d := 7, a := 2, b := 3, c := 0, cc := 0, i := false, imm16 := 0, modA := 0, modB := 0, modC := 0, ext := 0 }),
    (0x600F0E1000000000, .vbcast { long := false, dt := .b32, d := 7, a := 2, b := 0, c := 0, cc := 0, i := false, imm16 := 0, modA := 0, modB := 0, modC := 0, ext := 0 }),
    (0x6107100800000000, .vany { long := false, dt := .b32, d := 8, a := 1, b := 0, c := 0, cc := 0, i := false, imm16 := 0, modA := 0, modB := 0, modC := 0, ext := 0 }),
    (0x610F100800000000, .vall { long := false, dt := .b32, d := 8, a := 1, b := 0, c := 0, cc := 0, i := false, imm16 := 0, modA := 0, modB := 0, modC := 0, ext := 0 }),
    (0x6117100800000000, .vballot { long := false, dt := .b32, d := 8, a := 1, b := 0, c := 0, cc := 0, i := false, imm16 := 0, modA := 0, modB := 0, modC := 0, ext := 0 }),
    (0x611F100800000000, .vmatch { long := false, dt := .b32, d := 8, a := 1, b := 0, c := 0, cc := 0, i := false, imm16 := 0, modA := 0, modB := 0, modC := 0, ext := 0 }),
    (0x62020E0800000000, .vredadd { long := false, dt := .i32, d := 7, a := 1, b := 0, c := 0, cc := 0, i := false, imm16 := 0, modA := 0, modB := 0, modC := 0, ext := 0 }),
    (0x620A0E0800000000, .vredmax { long := false, dt := .i32, d := 7, a := 1, b := 0, c := 0, cc := 0, i := false, imm16 := 0, modA := 0, modB := 0, modC := 0, ext := 0 }),
    (0x62120E0800000000, .vredmin { long := false, dt := .i32, d := 7, a := 1, b := 0, c := 0, cc := 0, i := false, imm16 := 0, modA := 0, modB := 0, modC := 0, ext := 0 }),
    (0x621A0E0800000001, .vscanadd { long := false, dt := .i32, d := 7, a := 1, b := 0, c := 0, cc := 0, i := false, imm16 := 1, modA := 0, modB := 0, modC := 0, ext := 0 }),
    (0x62220E0800000001, .vscanmax { long := false, dt := .i32, d := 7, a := 1, b := 0, c := 0, cc := 0, i := false, imm16 := 1, modA := 0, modB := 0, modC := 0, ext := 0 }),
    (0x6304041800000000, .vfrexp { long := false, dt := .f32, d := 2, a := 3, b := 0, c := 0, cc := 0, i := false, imm16 := 0, modA := 0, modB := 0, modC := 0, ext := 0 })] = true := by decide

/-- cross_lane: words laid out from the opcode map and the format tables (R208 to R214, R228 to R232). -/
theorem test_decode_cross_lane_1 : reads [
    (0x630C1861A0000000, .vldexp { long := false, dt := .f32, d := 12, a := 12, b := 13, c := 0, cc := 0, i := false, imm16 := 0, modA := 0, modB := 0, modC := 0, ext := 0 }),
    (0x6314021060000000, .vexpmax { long := false, dt := .f32, d := 1, a := 2, b := 3, c := 0, cc := 0, i := false, imm16 := 0, modA := 0, modB := 0, modC := 0, ext := 0 })] = true := by decide

/-- loads_stores: words laid out from the opcode map and the format tables (R208 to R214, R228 to R232). -/
theorem test_decode_loads_stores_0 : reads [
    (0x70070A1109100040, .ldG { long := false, dt := .b32, d := 5, a := 2, b := 8, scope := .quad, ord := .acq, hint := .normal, nosplit := false, voff := true, ofs := 64, modA := 0, ext := 0 }),
    (0x700F141100100000, .ldG2 { long := false, dt := .b32, d := 10, a := 2, b := 8, scope := .warp, ord := .relaxed, hint := .normal, nosplit := false, voff := true, ofs := 0, modA := 0, ext := 0 }),
    (0x7017180100600000, .ldG4 { long := false, dt := .b32, d := 12, a := 0, b := 8, scope := .warp, ord := .relaxed, hint := .stream, nosplit := true, voff := false, ofs := 0, modA := 0, ext := 0 }),
    (0x71070C0132000080, .stG { long := false, dt := .b32, d := 6, a := 0, b := 9, scope := .device, ord := .rel, hint := .normal, nosplit := false, voff := false, ofs := 128, modA := 0, ext := 0 }),
    (0x710F0C0120000000, .stG2 { long := false, dt := .b32, d := 6, a := 0, b := 9, scope := .warp, ord := .relaxed, hint := .normal, nosplit := false, voff := false, ofs := 0, modA := 0, ext := 0 }),
    (0x7117100120800000, .stG4 { long := false, dt := .b32, d := 8, a := 0, b := 9, scope := .warp, ord := .relaxed, hint := .retain, nosplit := false, voff := false, ofs := 0, modA := 0, ext := 0 })] = true := by decide

/-- atomics: words laid out from the opcode map and the format tables (R208 to R214, R228 to R232). -/
theorem test_decode_atomics_0 : reads [
    (0x72028E0153000000, .atomAdd { long := false, dt := .n32, d := 7, a := 0, b := 10, scope := .device, ord := .acqrel, hint := .normal, nosplit := false, voff := false, ofs := 0, modA := 0, ext := 0 }),
    (0x720A8E0153000000, .atomMin { long := false, dt := .n32, d := 7, a := 0, b := 10, scope := .device, ord := .acqrel, hint := .normal, nosplit := false, voff := false, ofs := 0, modA := 0, ext := 0 }),
    (0x72128E0153000000, .atomMax { long := false, dt := .n32, d := 7, a := 0, b := 10, scope := .device, ord := .acqrel, hint := .normal, nosplit := false, voff := false, ofs := 0, modA := 0, ext := 0 }),
    (0x721F0E0153000000, .atomAnd { long := false, dt := .b32, d := 7, a := 0, b := 10, scope := .device, ord := .acqrel, hint := .normal, nosplit := false, voff := false, ofs := 0, modA := 0, ext := 0 }),
    (0x72270E0153000000, .atomOr { long := false, dt := .b32, d := 7, a := 0, b := 10, scope := .device, ord := .acqrel, hint := .normal, nosplit := false, voff := false, ofs := 0, modA := 0, ext := 0 }),
    (0x722F0E0153000000, .atomXor { long := false, dt := .b32, d := 7, a := 0, b := 10, scope := .device, ord := .acqrel, hint := .normal, nosplit := false, voff := false, ofs := 0, modA := 0, ext := 0 }),
    (0x72370E0153000000, .atomXchg { long := false, dt := .b32, d := 7, a := 0, b := 10, scope := .device, ord := .acqrel, hint := .normal, nosplit := false, voff := false, ofs := 0, modA := 0, ext := 0 }),
    (0x723F100153000000, .atomCas { long := false, dt := .b32, d := 8, a := 0, b := 10, scope := .device, ord := .acqrel, hint := .normal, nosplit := false, voff := false, ofs := 0, modA := 0, ext := 0 }),
    (0x72440E0144000000, .atomFadd { long := false, dt := .f32, d := 7, a := 0, b := 10, scope := .core, ord := .relaxed, hint := .normal, nosplit := false, voff := false, ofs := 0, modA := 0, ext := 0 }),
    (0x7302900153000000, .atomoAdd { long := false, dt := .n32, d := 8, a := 0, b := 10, scope := .device, ord := .acqrel, hint := .normal, nosplit := false, voff := false, ofs := 0, modA := 0, ext := 0 }),
    (0x730F100153000000, .atomoXchg { long := false, dt := .b32, d := 8, a := 0, b := 10, scope := .device, ord := .acqrel, hint := .normal, nosplit := false, voff := false, ofs := 0, modA := 0, ext := 0 }),
    (0x7317100153000000, .atomoOr { long := false, dt := .b32, d := 8, a := 0, b := 10, scope := .device, ord := .acqrel, hint := .normal, nosplit := false, voff := false, ofs := 0, modA := 0, ext := 0 })] = true := by decide

/-- atomics: words laid out from the opcode map and the format tables (R208 to R214, R228 to R232). -/
theorem test_decode_atomics_1 : reads [
    (0x731A900153000000, .atomoMax { long := false, dt := .n32, d := 8, a := 0, b := 10, scope := .device, ord := .acqrel, hint := .normal, nosplit := false, voff := false, ofs := 0, modA := 0, ext := 0 }),
    (0x7400000013000000, .fence { long := false, dt := .i8, d := 0, a := 0, b := 0, scope := .device, ord := .acqrel, hint := .normal, nosplit := false, voff := false, ofs := 0, modA := 0, ext := 0 }),
    (0x7408000000000000, .pfence { long := false, dt := .i8, d := 0, a := 0, b := 0, scope := .warp, ord := .relaxed, hint := .normal, nosplit := false, voff := false, ofs := 0, modA := 0, ext := 0 }),
    (0x7410000100400040, .pref { long := false, dt := .i8, d := 0, a := 0, b := 8, scope := .warp, ord := .relaxed, hint := .stream, nosplit := false, voff := false, ofs := 64, modA := 0, ext := 0 }),
    (0x7418000100000040, .wback { long := false, dt := .i8, d := 0, a := 0, b := 8, scope := .warp, ord := .relaxed, hint := .normal, nosplit := false, voff := false, ofs := 64, modA := 0, ext := 0 })] = true := by decide

/-- engines: words laid out from the opcode map and the format tables (R208 to R214, R228 to R232). -/
theorem test_decode_engines_0 : reads [
    (0x75014A0060800000, .copy { long := false, d := 10, a := 20, b := 0, c := 12, q := 1, prio := 0, imm20 := 0, imm64 := 0 }),
    (0x10002000375894A0261800000, .copy2d { long := true, d := 10, a := 20, b := 1, c := 12, q := 3, prio := 0, imm20 := 0, imm64 := 4295098371 }),
    (0x75114A0260000000, .copykb { long := false, d := 10, a := 20, b := 1, c := 12, q := 0, prio := 0, imm20 := 0, imm64 := 0 }),
    (0x76016B2A00000022, .gather { long := false, d := 11, a := 22, b := 21, c := 0, q := 0, prio := 0, imm20 := 34, imm64 := 0 }),
    (0x7700008418000000, .tlbiPg { long := false, d := 0, a := 1, b := 2, c := 3, q := 0, prio := 0, imm20 := 0, imm64 := 0 }),
    (0x7708008000000000, .tlbiCtx { long := false, d := 0, a := 1, b := 0, c := 0, q := 0, prio := 0, imm20 := 0, imm64 := 0 }),
    (0x7710000210000000, .tlbiSr { long := false, d := 0, a := 0, b := 1, c := 2, q := 0, prio := 0, imm20 := 0, imm64 := 0 }),
    (0x7718000000000000, .tlbiSys { long := false, d := 0, a := 0, b := 0, c := 0, q := 0, prio := 0, imm20 := 0, imm64 := 0 }),
    (0x7720000000000000, .tlbiAll { long := false, d := 0, a := 0, b := 0, c := 0, q := 0, prio := 0, imm20 := 0, imm64 := 0 }),
    (0x7728000000000000, .tlbisync { long := false, d := 0, a := 0, b := 0, c := 0, q := 0, prio := 0, imm20 := 0, imm64 := 0 }),
    (0x7801800001000004, .barArrive { long := false, d := 12, a := 0, b := 0, c := 0, q := 2, prio := 0, imm20 := 4, imm64 := 0 }),
    (0x7808060001000000, .barWait { long := false, d := 0, a := 12, b := 0, c := 0, q := 2, prio := 0, imm20 := 0, imm64 := 0 })] = true := by decide

/-- engines: words laid out from the opcode map and the format tables (R208 to R214, R228 to R232). -/
theorem test_decode_engines_1 : reads [
    (0x7810000001000004, .barSync { long := false, d := 0, a := 0, b := 0, c := 0, q := 2, prio := 0, imm20 := 4, imm64 := 0 }),
    (0x7900210000000000, .krun { long := false, d := 1, a := 2, b := 0, c := 0, q := 0, prio := 0, imm20 := 0, imm64 := 0 }),
    (0x7908210000000000, .krd { long := false, d := 1, a := 2, b := 0, c := 0, q := 0, prio := 0, imm20 := 0, imm64 := 0 }),
    (0x7A01CB0000000000, .coll { long := false, d := 14, a := 22, b := 0, c := 0, q := 0, prio := 0, imm20 := 0, imm64 := 0 })] = true := by decide

/-- cube: words laid out from the opcode map and the format tables (R208 to R214, R228 to R232). -/
theorem test_decode_cube_0 : reads [
    (0x9001020A000A8100, .cldb { long := false, d := 8, a := 4, b := 5, c := 0, q := 0, prio := 0, imm20 := 688384, imm64 := 0 }),
    (0x9009020A007A0100, .cldg { long := false, d := 8, a := 4, b := 5, c := 0, q := 0, prio := 7, imm20 := 655616, imm64 := 0 }),
    (0x90110200000A0100, .cldk { long := false, d := 8, a := 4, b := 0, c := 0, q := 0, prio := 0, imm20 := 655616, imm64 := 0 }),
    (0x800080AA1020009099220A00200000, .cmac3 { long := true, d := 9, a := 4, b := 5, c := 0, q := 0, prio := 2, imm20 := 0, imm64 := 36029349627961344 }),
    (0x800000A010200090A1220000200000, .cmac { long := true, d := 9, a := 4, b := 0, c := 0, q := 0, prio := 2, imm20 := 0, imm64 := 36028799704375296 }),
    (0x902940003000002A, .cshift { long := false, d := 10, a := 0, b := 0, c := 6, q := 0, prio := 0, imm20 := 42, imm64 := 0 }),
    (0x903141800000000A, .cdrain { long := false, d := 10, a := 3, b := 0, c := 0, q := 0, prio := 0, imm20 := 10, imm64 := 0 }),
    (0x90394000000000FF, .czero { long := false, d := 10, a := 0, b := 0, c := 0, q := 0, prio := 0, imm20 := 255, imm64 := 0 }),
    (0x9040038000000000, .cshape { long := false, d := 0, a := 7, b := 0, c := 0, q := 0, prio := 0, imm20 := 0, imm64 := 0 }),
    (0x9048210000000000, .celog { long := false, d := 1, a := 2, b := 0, c := 0, q := 0, prio := 0, imm20 := 0, imm64 := 0 }),
    (0x9050000000000000, .ceclr { long := false, d := 0, a := 0, b := 0, c := 0, q := 0, prio := 0, imm20 := 0, imm64 := 0 })] = true := by decide

/-- tiles: words laid out from the opcode map and the format tables (R208 to R214, R228 to R232). -/
theorem test_decode_tiles_0 : reads [
    (0xA001220000000000, .tleaf { long := false, d := 9, a := 4, b := 0, c := 0, q := 0, prio := 0, imm20 := 0, imm64 := 0 }),
    (0xA009220A30000000, .tcontract { long := false, d := 9, a := 4, b := 5, c := 6, q := 0, prio := 0, imm20 := 0, imm64 := 0 }),
    (0xA011220A00000000, .tewise { long := false, d := 9, a := 4, b := 5, c := 0, q := 0, prio := 0, imm20 := 0, imm64 := 0 }),
    (0xA019220A00000000, .trowred { long := false, d := 9, a := 4, b := 5, c := 0, q := 0, prio := 0, imm20 := 0, imm64 := 0 }),
    (0xA021220A00000000, .tmap { long := false, d := 9, a := 4, b := 5, c := 0, q := 0, prio := 0, imm20 := 0, imm64 := 0 }),
    (0xA029220A00000000, .tcast { long := false, d := 9, a := 4, b := 5, c := 0, q := 0, prio := 0, imm20 := 0, imm64 := 0 }),
    (0xA101420A00000000, .tforce { long := false, d := 10, a := 4, b := 5, c := 0, q := 0, prio := 0, imm20 := 0, imm64 := 0 }),
    (0x100A189620A30000000, .tstore { long := true, d := 11, a := 4, b := 5, c := 6, q := 0, prio := 0, imm20 := 0, imm64 := 256 }),
    (0xA110210600000000, .tsnap { long := false, d := 1, a := 2, b := 3, c := 0, q := 0, prio := 0, imm20 := 0, imm64 := 0 }),
    (0xA118018000000000, .tmode { long := false, d := 0, a := 3, b := 0, c := 0, q := 0, prio := 0, imm20 := 0, imm64 := 0 }),
    (0xA120018000000000, .tdrop { long := false, d := 0, a := 3, b := 0, c := 0, q := 0, prio := 0, imm20 := 0, imm64 := 0 }),
    (0xA128210000000000, .tquery { long := false, d := 1, a := 2, b := 0, c := 0, q := 0, prio := 0, imm20 := 0, imm64 := 0 })] = true := by decide

/-- plane: words laid out from the opcode map and the format tables (R208 to R214, R228 to R232). -/
theorem test_decode_plane_0 : reads [
    (0xB000080300004000, .lpnor { col := false, sel := 0, in1 := 2, in2 := 3, in3 := 0, out := 4 }),
    (0xB1600402FFC05000, .lpnortri { col := true, sel := 2, in1 := 1, in2 := 2, in3 := 1023, out := 5 }),
    (0xB210040000003000, .lpnot { col := false, sel := 1, in1 := 1, in2 := 0, in3 := 0, out := 3 }),
    (0xB300000000002000, .lpinit { col := false, sel := 0, in1 := 0, in2 := 0, in3 := 0, out := 2 }),
    (0xB4070E0000088002, .lprdv { long := false, dt := .b32, d := 7, a := 0, b := 0, c := 0, cc := 0, i := true, imm16 := 32770, modA := 0, modB := 0, modC := 0, ext := 0 }),
    (0xB40F063000000000, .lpwrv { long := false, dt := .b32, d := 3, a := 6, b := 0, c := 0, cc := 0, i := false, imm16 := 0, modA := 0, modB := 0, modC := 0, ext := 0 }),
    (0xB417120000080000, .lpcnt { long := false, dt := .b32, d := 9, a := 0, b := 0, c := 0, cc := 0, i := true, imm16 := 0, modA := 0, modB := 0, modC := 0, ext := 0 }),
    (0xB41F000000008001, .lpremap { long := false, dt := .b32, d := 0, a := 0, b := 0, c := 0, cc := 0, i := false, imm16 := 32769, modA := 0, modB := 0, modC := 0, ext := 0 }),
    (0xB427000840008000, .lpbudget { long := false, dt := .b32, d := 0, a := 1, b := 2, c := 0, cc := 0, i := false, imm16 := 32768, modA := 0, modB := 0, modC := 0, ext := 0 }),
    (0xB42F000800000000, .lpselVector { long := false, dt := .b32, d := 0, a := 1, b := 0, c := 0, cc := 0, i := false, imm16 := 0, modA := 0, modB := 0, modC := 0, ext := 0 }),
    (0xB42F064800080008, .lpselMemory { long := false, dt := .b32, d := 3, a := 9, b := 0, c := 0, cc := 0, i := true, imm16 := 8, modA := 0, modB := 0, modC := 0, ext := 0 }),
    (0xB437080000000000, .lpstat { long := false, dt := .b32, d := 4, a := 0, b := 0, c := 0, cc := 0, i := false, imm16 := 0, modA := 0, modB := 0, modC := 0, ext := 0 })] = true := by decide

/-- plane: words laid out from the opcode map and the format tables (R208 to R214, R228 to R232). -/
theorem test_decode_plane_1 : reads [
    (0xB437080000000001, .lpstatClr { long := false, dt := .b32, d := 4, a := 0, b := 0, c := 0, cc := 0, i := false, imm16 := 1, modA := 0, modB := 0, modC := 0, ext := 0 }),
    (0xB437080000000002, .lpstatIss { long := false, dt := .b32, d := 4, a := 0, b := 0, c := 0, cc := 0, i := false, imm16 := 2, modA := 0, modB := 0, modC := 0, ext := 0 })] = true := by decide

/-- scheduling: words laid out from the opcode map and the format tables (R208 to R214, R228 to R232). -/
theorem test_decode_scheduling_0 : reads [
    (0xC0018A0000000000, .glaunch { long := false, d := 12, a := 20, b := 0, c := 0, q := 0, prio := 0, imm20 := 0, imm64 := 0 }),
    (0xC008060000000000, .gwait { long := false, d := 0, a := 12, b := 0, c := 0, q := 0, prio := 0, imm20 := 0, imm64 := 0 }),
    (0xC010000000000000, .phend { long := false, d := 0, a := 0, b := 0, c := 0, q := 0, prio := 0, imm20 := 0, imm64 := 0 }),
    (0xC018000000000000, .migpt { long := false, d := 0, a := 0, b := 0, c := 0, q := 0, prio := 0, imm20 := 0, imm64 := 0 }),
    (0xC100830001800000, .tqpush { long := false, d := 4, a := 6, b := 0, c := 0, q := 3, prio := 0, imm20 := 0, imm64 := 0 }),
    (0xC108A00001800000, .tqpop { long := false, d := 5, a := 0, b := 0, c := 0, q := 3, prio := 0, imm20 := 0, imm64 := 0 }),
    (0xC108A00001800001, .tqpopNw { long := false, d := 5, a := 0, b := 0, c := 0, q := 3, prio := 0, imm20 := 1, imm64 := 0 }),
    (0xC110A00001800000, .tqsteal { long := false, d := 5, a := 0, b := 0, c := 0, q := 3, prio := 0, imm20 := 0, imm64 := 0 }),
    (0xC118038000000000, .cancel { long := false, d := 0, a := 7, b := 0, c := 0, q := 0, prio := 0, imm20 := 0, imm64 := 0 }),
    (0xC118038000000001, .cancelClr { long := false, d := 0, a := 7, b := 0, c := 0, q := 0, prio := 0, imm20 := 1, imm64 := 0 }),
    (0xC201200000000000, .ginst { long := false, d := 9, a := 0, b := 0, c := 0, q := 0, prio := 0, imm20 := 0, imm64 := 0 }),
    (0xC208000000000000, .yield { long := false, d := 0, a := 0, b := 0, c := 0, q := 0, prio := 0, imm20 := 0, imm64 := 0 })] = true := by decide

/-- system: words laid out from the opcode map and the format tables (R208 to R214, R228 to R232). -/
theorem test_decode_system_0 : reads [
    (0xD000000000000007, .trap { hint := .none, s := 0, v := 0, cc := 0, ofs := 7 }),
    (0xD11E000000000000, .tret { hint := .none, s := 60, v := 0, cc := 0, ofs := 0 }),
    (0xD200000000000003, .brk { hint := .none, s := 0, v := 0, cc := 0, ofs := 3 }),
    (0xD403F80000000001, .mfsys { long := false, dt := .n64, d := 60, a := 0, b := 0, c := 0, cc := 0, i := false, imm16 := 1, modA := 0, modB := 0, modC := 0, ext := 0 }),
    (0xD40B81E000000000, .mtsys { long := false, dt := .n64, d := 0, a := 60, b := 0, c := 0, cc := 0, i := false, imm16 := 0, modA := 0, modB := 0, modC := 0, ext := 0 }),
    (0xD41381E000000000, .ctxsave { long := false, dt := .n64, d := 0, a := 60, b := 0, c := 0, cc := 0, i := false, imm16 := 0, modA := 0, modB := 0, modC := 0, ext := 0 }),
    (0xD41B81E000000000, .ctxrest { long := false, dt := .n64, d := 0, a := 60, b := 0, c := 0, cc := 0, i := false, imm16 := 0, modA := 0, modB := 0, modC := 0, ext := 0 }),
    (0xD423800000000000, .preack { long := false, dt := .n64, d := 0, a := 0, b := 0, c := 0, cc := 0, i := false, imm16 := 0, modA := 0, modB := 0, modC := 0, ext := 0 })] = true := by decide

/-- The words of a Kiosk program (R123, R235). -/
theorem test_decode_kiosk : kioskReads [
    (0x30040260A0000000, .kioskVadd { long := false, dt := .f32, d := 1, a := 12, b := 5, c := 0, cc := 0, i := false, imm16 := 0, modA := 0, modB := 0, modC := 0, ext := 0 }),
    (0x300C066160000000, .kioskVsub { long := false, dt := .f32, d := 3, a := 12, b := 11, c := 0, cc := 0, i := false, imm16 := 0, modA := 0, modB := 0, modC := 0, ext := 0 }),
    (0x12343094021000085678, .kioskVmul { long := true, dt := .f32, d := 1, a := 2, b := 0, c := 0, cc := 0, i := true, imm16 := 22136, modA := 0, modB := 0, modC := 0, ext := 4660 }),
    (0x3024046060000000, .kioskVmax { long := false, dt := .f32, d := 2, a := 12, b := 3, c := 0, cc := 0, i := false, imm16 := 0, modA := 0, modB := 0, modC := 0, ext := 0 }),
    (0x1000000000030AC026060000000, .kioskVmin { long := true, dt := .f32, d := 1, a := 12, b := 3, c := 0, cc := 0, i := false, imm16 := 0, modA := 0, modB := 1, modC := 0, ext := 0 }),
    (0x301C006080000000, .kioskVfma { long := false, dt := .f32, d := 0, a := 12, b := 4, c := 0, cc := 0, i := false, imm16 := 0, modA := 0, modB := 0, modC := 0, ext := 0 }),
    (0x325F026000000000, .kioskVmov { long := false, dt := .b32, d := 1, a := 12, b := 0, c := 0, cc := 0, i := false, imm16 := 0, modA := 0, modB := 0, modC := 0, ext := 0 }),
    (0x7005180040100000, .kioskColumnRead { long := false, dt := .bf16, d := 12, a := 0, b := 2, scope := .warp, ord := .relaxed, hint := .normal, nosplit := false, voff := true, ofs := 0, modA := 0, ext := 0 }),
    (0x382100008FFFF, .kioskAdd { long := false, dt := .n64, d := 1, a := 2, b := 0, c := 0, cc := 0, i := true, imm16 := 65535, modA := 0, modB := 0, modC := 0, ext := 0 }),
    (0xB021060000000, .kioskSub { long := false, dt := .i64, d := 1, a := 2, b := 3, c := 0, cc := 0, i := false, imm16 := 0, modA := 0, modB := 0, modC := 0, ext := 0 }),
    (0x203821060200000, .kioskSetc { long := false, dt := .n64, d := 1, a := 2, b := 3, c := 0, cc := 2, i := false, imm16 := 0, modA := 0, modB := 0, modC := 0, ext := 0 }),
    (0x30B8E0000080009, .kioskMovi { long := false, dt := .n64, d := 7, a := 0, b := 0, c := 0, cc := 0, i := true, imm16 := 9, modA := 0, modB := 0, modC := 0, ext := 0 }),
    (0x20000000FFFFFFFA, .kioskBra { hint := .none, s := 0, v := 0, cc := 0, ofs := 4294967290 }),
    (0x210300400000000C, .kioskBrs { hint := .none, s := 6, v := 0, cc := 1, ofs := 12 }),
    (0x2818000000000000, .kioskExit { long := false, dt := .i8, d := 0, a := 0, b := 0, c := 0, cc := 0, i := false, imm16 := 0, modA := 0, modB := 0, modC := 0, ext := 0 }),
    (0xB804006080400000, .kpush { long := false, dt := .f32, d := 0, a := 12, b := 4, c := 0, cc := 4, i := false, imm16 := 0, modA := 0, modB := 0, modC := 0, ext := 0 }),
    (0xB900000000000000, .kelse { long := false, dt := .i8, d := 0, a := 0, b := 0, c := 0, cc := 0, i := false, imm16 := 0, modA := 0, modB := 0, modC := 0, ext := 0 }),
    (0xBA00000000000000, .kpop { long := false, dt := .i8, d := 0, a := 0, b := 0, c := 0, cc := 0, i := false, imm16 := 0, modA := 0, modB := 0, modC := 0, ext := 0 }),
    (0xBB05000800080400, .kread { long := false, dt := .bf16, d := 0, a := 1, b := 0, c := 0, cc := 0, i := true, imm16 := 1024, modA := 0, modB := 0, modC := 0, ext := 0 })] = true := by decide

/-! ## Worked examples of the spec: one instruction each, its word and what it leaves -/

def warpW : Warp := { Warp.fresh 0 0 0xFFFFFFFF with ipc := 0x1008, pc := 0x1010 }
def devW (w : Warp) : State := { State.reset with warps := [(0, w)], boot := .init 0 }

/-- The device after a word, with its second word, that stands last in its clause. -/
def runsW (w0 w1 : Word) (s : State) : Option State :=
  match decodeCore w0 w1 (if longOf w0 then 2 else 1) false with
  | .ok i => match exec i s with | .next t => some t | _ => none
  | .error _ => none

def afterW (w0 w1 : Word) (s : State) : Option Warp := (runsW w0 w1 s).bind State.curWarp

/-- Lanes of a vector register, and a scalar register. -/
def laneW (o : Option Warp) (r : Nat) (lanes : List Nat) : Option (List Nat) :=
  o.map fun w => lanes.map fun l => (laneGet (w.getV (BitVec.ofNat 6 r)) l).toNat
def scalarW (o : Option Warp) (r : Nat) : Option Word := o.map fun w => w.getS (BitVec.ofNat 6 r)

/-- The warp of chapter 11's cross-lane table: 16 threads, eight of them active, v1 lane j = j and v2 lane j = 100 + j. -/
def crossW : State :=
  devW { warpW with lm := 0xFFFF, em := 0xFF
                    v := [(1, lanesOf fun l => if l < 16 then BitVec.ofNat 32 l else 0),
                          (2, lanesOf fun l => if l < 16 then BitVec.ofNat 32 (100 + l) else 0)] }

theorem test_rotateWithin16 :
    laneW (afterW 0x31820A0840000000 0x0003100000000000 crossW) 5 [0, 1, 7, 8] = some [108, 110, 122, 0] := by decide +kernel

theorem test_rotateFromUnlaunched :
    laneW (afterW 0x31820C0840000000 0x0003600000000000 crossW) 6 [0, 3, 7] = some [0, 3, 7] := by decide +kernel

theorem test_reduceActiveLanes : laneW (afterW 0x62020E0800000000 0 crossW) 7 [0, 7] = some [28, 28] := by decide +kernel

theorem test_ballotActiveLanes : laneW (afterW 0x6117100800000000 0 crossW) 8 [0, 7] = some [0xFE, 0xFE] := by decide +kernel

/-- The warp of chapter 11's q4 table, with the results of its earlier rows. -/
def blockW : State :=
  devW { warpW with
    v := [(10, lanesOf fun l => if l = 0 then 0x3F400000 else if l = 1 then 0xC0200000 else if l = 2 then 0x40A00000
            else if l = 3 then 0x3DCCCCCD else 0),
          (20, lanesOf fun _ => 0x60),
          (21, lanesOf fun l => if l = 0 then 2 else if l = 1 then 0xC else if l = 2 then 6 else 0)] }

theorem test_blockScale : laneW (afterW 0x333EA85000000001 0 blockW) 20 [0, 31] = some [0x60, 0x60] := by decide +kernel

theorem test_blockCodes :
    laneW (afterW 0x332EAA5280000000 0 (devW { blockW.curWarp.getD warpW with v := (blockW.curWarp.getD warpW).v.take 2 }))
      21 [0, 1, 2, 3, 4] = some [2, 0xC, 6, 0, 0] := by decide +kernel

theorem test_blockCodesAway : laneW (afterW 0x332EAE5280500000 0 blockW) 23 [0, 1, 2, 3] = some [2, 0xD, 7, 0] := by decide +kernel

theorem test_blockDecoded :
    laneW (afterW 0x33342CAA80000000 0 blockW) 22 [0, 1, 2, 3] = some [0x3F800000, 0xC0000000, 0x40800000, 0] := by decide +kernel

/-- Chapter 11's online softmax: K = 3, x = 5.3, a sum of 1.5. -/
def softW : State :=
  devW { warpW with
    v := [(20, lanesOf fun _ => 3), (21, lanesOf fun _ => 0x40A9999A), (23, lanesOf fun _ => 0xFFFFFFFD), (24, lanesOf fun _ => 0x3FC00000)] }

theorem test_exponentMax :
    (match exec (.vexpmax { aF with d := 22, a := 20, b := 21 }) softW with
     | .next t => laneW t.curWarp 22 [0, 31] | _ => none) = some [6, 6] := by decide +kernel

theorem test_exponentScale :
    (match exec (.vldexp { aF with d := 24, a := 24, b := 23 }) softW with
     | .next t => laneW t.curWarp 24 [0, 31] | _ => none) = some [0x3E400000, 0x3E400000] := by decide +kernel

/-- R262: division by zero, and the most negative value by −1. -/
theorem test_divisionCorners :
    let go (i : FmtA → Instr) (x y : Word) : Option Word :=
      match exec (i { a0 with dt := .i32, d := 1, a := 2, b := 3 }) (devW ((warpW.setS 2 x).setS 3 y)) with
      | .next t => scalarW t.curWarp 1
      | _ => none
    go .div 5 0 = some 0xFFFFFFFFFFFFFFFF ∧ go .rem 5 0 = some 5 ∧ go .div 0x80000000 0xFFFFFFFF = some 0xFFFFFFFF80000000 ∧
    go .rem 0x80000000 0xFFFFFFFF = some 0 ∧ go .div 0xFFFFFFF9 2 = some 0xFFFFFFFFFFFFFFFD := by decide +kernel

/-- The first step of chapter 10's divergence, with its text at 0x1000: both sides recorded, lanes 0 to 19 on the other side. -/
theorem test_divergence :
    let s : State :=
      { devW { warpW with v := [(3, lanesOf fun l => BitVec.ofInt 32 ((l : Int) - 20))] } with
        cores := [(0, { Core.init 0 with tlb := [placeTlb] })]
        mem := memWriteN (memWriteN [] 0x1010 (natBytes 8 0xFC40000000000000)) 0x1040 (natBytes 8 0xFC80000000000000) }
    (afterW 0x2242068000000007 0 s).map (fun w => (w.em, w.getS 4, w.getS 5, w.pc)) =
      some (0xFFF00000, 0x000FFFFFFFFFFFFF, 0x1040, 0x1010) := by decide +kernel

/-- Chapter 9's band sum: 1 + 2^−24 + 2^−60 rounds to odd at 40 bits, and then up in FP32. -/
theorem test_bandSumStaysOdd :
    kstepCell .rne 1 1 0 (fun k => if k = 0 then .fin false 1 0 else if k = 1 then .fin false 1 (-24) else
      if k = 2 then .fin false 1 (-60) else .fin false 0 0) 0 = 0x3F800001 := by decide +kernel

/-- Chapter 15's fragment from its fifth row: lpnot of column 0 into column 2, then the NOR of columns 2 and 3 into column 4. -/
def planeW : LPlane :=
  let on (p : LPlane) (x : Nat × Nat) : LPlane := p.setCell false x.1 x.2 true
  [(2, 0), (3, 0), (1, 1), (3, 1), (0, 2), (1, 2), (2, 2), (3, 2), (0, 3), (2, 3), (0, 4), (1, 4), (2, 4), (3, 4)].foldl on .init

def columnW (p : LPlane) (c : Nat) : List Bool := (countFrom 0 4).map fun r => p.cell false r c

theorem test_planeNot :
    let p := planeW.apply (.gate 1 false 0 0 0 0 2) 0xF
    columnW p 2 = [true, true, false, false] ∧ columnW p 3 = columnW planeW 3 ∧
    p.count (lineKey true 2) = 1 ∧ p.count (lineKey false 3) = 1 ∧ p.count (lineKey false 4) = 0 := by decide +kernel

theorem test_planeNor :
    let q := [(2, 2), (3, 2)].foldl (fun p (x : Nat × Nat) => p.setCell false x.1 x.2 false) planeW
    columnW q 3 = [true, false, true, false] ∧ columnW (q.apply (.gate 2 false 0 2 3 0 4) 0xF) 4 = [false, false, false, true] := by
  decide +kernel

/-- trap 7 (R454): the handler at tvec in system mode, the cause of R448, the shadow bank in s56 to s63. -/
theorem test_trapEntry :
    let s : State :=
      { devW ({ warpW with shadow := .replicate 8 5 }.setS 60 9) with
        cores := [(0, { Core.init 0 with tlb := [placeTlb] })]
        ctxs := [(0, { Ctx.init with tvec := 0x1000 })]
        mem := memWriteN [] 0x1000 (natBytes 8 0xFC40000000000000) }
    (afterW 0xD000000000000007 0 s).map (fun (w : Warp) => (w.sys, [w.pc, w.fcause &&& 0xFF, w.fpc, w.getS 60, w.shadow.toList.getD 4 0])) =
      some (true, [0x1000, 4, 0x1008, 5, 9]) := by decide +kernel


/-! ## Witnesses: for each statement, states and operands that meet the premises of its clauses -/

/-- A warp of context 0 on core 0, and a device whose warp in turn it is. -/
def wA : Warp := { Warp.fresh 0 0 0xFFFFFFFF with ipc := 0x1008, pc := 0x1010 }
def sA (w : Warp) : State := { State.reset with warps := [(0, w)], boot := .init 0 }

/-- A device whose core 0 has the first page mapped, with a clause header at 0x1000 and 0x1010 and its warp in turn at 0x1008. -/
def headerWord : Nat := 0xFCC0216D00000000
def sP (w : Warp) : State :=
  { sA w with
    cores := [(0, { Core.init 0 with tlb := [placeTlb] })]
    mem := memWriteN (memWriteN [] 0x1000 (natBytes 8 headerWord)) 0x1010 (natBytes 8 headerWord) }

/-- The statements on instructions that cannot fault: some warp is in turn, here with the lowest and the highest register. -/
theorem witness_turn :
    (sA wA).curWarp = some wA ∧ aN.dt.isInt = true ∧ a0.dt.isInt = true ∧ aF.dt.is64 = false ∧ aB.dt = .b32 ∧
    srcT { aF with imm16 := 8 } = some .f32 ∧ wA.em.getLsbD 0 = true ∧ wA.em ≠ 0 ∧ ({ wA with em := 0 } : Warp).em = 0 := by decide +kernel

theorem witness_CoreWordsRoundTrip :
    (Instr.add { a0 with d := 63, a := 63, b := 63 }).wf = true ∧
    (match shapeOf (.add { a0 with d := 63, a := 63, b := 63 }) with | .a .. | .m .. | .e .. | .br .. | .g .. => True | _ => False) ∧
    (Instr.region a8).wf = true ∧ (Instr.ldG { m0 with ofs := 0xFFFF }).wf = true ∧ (Instr.bra { b0 with ofs := 0xFFFFFFFF }).wf = true ∧
    (Instr.cmac3 eM).wf = true := ⟨by decide, trivial, by decide, by decide, by decide, by decide⟩

theorem witness_OtherWordsRoundTrip :
    (Instr.kread { a0 with dt := .f32, d := 0, a := 3, b := 7 }).wf = true ∧
    (match shapeOf (.kread { a0 with dt := .f32, d := 0, a := 3, b := 7 }) with | .ka .. | .km .. | .kbr .. => True | _ => False) ∧
    (Instr.clauseHeader { h0 with len := 15, fa := 11, fb := 11, fbv := true }).wf = true := ⟨by decide, trivial, by decide⟩

/-- A core word placed for the next step, and a header: the premises of the step's first two clauses. -/
theorem witness_StepRunsTheInstruction :
    (let s := State.reset.withFetchWord 64 0x2021060000000
     let u : State := { s with agenda := [] }
     s.agenda = [.issue 0] ∧ s.running = true ∧
     ∃ w slot, pick u 0 = some (0, w, slot) ∧ w.clause.left ≠ 0 ∧ fetchWord u w.who w.pc = .ok (u, 0x2021060000000) ∧
       longOf 0x2021060000000 = false ∧ (match decodeCore 0x2021060000000 0 w.clause.left w.clause.first with | .ok i => s.ordHolds 0 i | .error _ => true) = false ∧
       (s.core 0).hasSlot (vectorUnit 0x2021060000000) = true) ∧
    (let s := State.reset.withFetchWord 64 0xFCC0216D00000000
     let u : State := { s with agenda := [] }
     s.agenda = [.issue 0] ∧ s.running = true ∧
     ∃ w slot, pick u 0 = some (0, w, slot) ∧ w.clause.left = 0 ∧ fetchWord u w.who w.pc = .ok (u, 0xFCC0216D00000000) ∧
       (decodeHeader 0xFCC0216D00000000).isOk = true) :=
  ⟨⟨by decide +kernel, by decide +kernel, _, _, rfl, by decide +kernel, rfl, rfl, by decide +kernel, by decide +kernel⟩,
   by decide +kernel, by decide +kernel, _, _, rfl, by decide +kernel, rfl, by decide +kernel⟩

/-- A Kiosk's word placed, an event on the agenda, and nothing on it with a warp ready. -/
theorem witness_StepRunsTheInstruction_others :
    let s := State.reset.withFetchWord 64 0xBA00000000000000
    let e : State := { State.reset with agenda := [.event .powerLoss {}] }
    let d : State := { State.reset.withFetchWord 64 0x2021060000000 with agenda := [] }
    s.agenda = [.kiosk 0] ∧ s.supply.off = false ∧ s.frozen = false ∧ (s.kiosk 0).run.isSome = true ∧
    ((s.kiosk 0).run.map fun r => (r.prog.drop r.pc).length) = some 1 ∧
    (decodeKiosk 0xBA00000000000000 0 1).isSome = true ∧ (s.kiosk 0).full = false ∧
    ownedByAgent .powerLoss = false ∧ dieEvent .powerLoss = false ∧ e.running = true ∧ e.admitsEvent .powerLoss = true ∧
    d.running = true ∧ firstAccepted d (stopEvents d) = none ∧ issueDue d = some (.issue 0) := by decide +kernel

/-- mtsr: a good and a bad value of nmode, a spilled window, the special registers that the statement names. -/
theorem witness_RegisterMoves :
    ({ aN with imm16 := 2 } : FmtA).imm16 = 2 ∧ nmodeOk 0x55555555 = true ∧ nmodeOk 0x6 = false ∧ wA.lo = 0 ∧
    ({ wA with lo := 1 } : Warp).lo ≠ 0 ∧ (0x80 : Word).extractLsb' 0 7 = 0 ∧ (1 : Word).extractLsb' 0 7 ≠ 0 := by decide +kernel

/-- Lanes for a block scale: a NaN, a magnitude that an exponent holds, one that only the largest does, and one that none holds, with
saturation and without. -/
def scaleW (x : W32) (nmode : W32) : Warp := { wA with v := [(4, lanesOf fun _ => x)], nmode := nmode }

theorem witness_VectorSupport :
    f32At (scaleW 0x7FC00000 0) 4 0 0 = .nan ∧ (sA (scaleW 0 0)).curWarp = some (scaleW 0 0) ∧
    f32At (scaleW 0x3F800000 0) 4 0 0 ≠ .nan ∧
    f32At (scaleW 0x4F800000 0) 4 0 0 ≠ .nan ∧ f32At (scaleW 0x50000000 0) 4 0 0 ≠ .nan ∧
    satOf (scaleW 0 0).nmode .q4 = false ∧ satOf (scaleW 0 0xFFFFFFFF).nmode .q4 = true := by decide +kernel

/-- The largest code of the element type 0 is 7: 2^32 takes the exponent 62, 2^33 none, which is 63, or 62 under saturation (R293). -/
theorem test_blockScaleLimits :
    let scale (x nmode : W32) : Option W32 :=
      match exec (.vq4scl { aF with d := 2, a := 4 }) (sA (scaleW x nmode)) with
      | .next t => (t.warp? 0).map fun v => laneGet (v.vAt 2) 0
      | _ => none
    scale 0x4F800000 0 = some 62 ∧ scale 0x50000000 0 = some 63 ∧ scale 0x50000000 0xFFFFFFFF = some 62 := by decide +kernel

theorem witness_CrossLane :
    let w : Warp := { wA with em := 0x80000000 }
    (sA w).curWarp = some w ∧ w.em.getLsbD 31 = true ∧ (∀ k, k < 31 → w.em.getLsbD k = false) ∧
    a0.dt = .i32 ∧ a0.imm16.getLsbD 0 = false := by decide +kernel

/-- Division by zero, the most negative dividend by −1 in 8 bits, and another quotient. -/
theorem witness_DivisionCorners :
    let f : FmtA := { a0 with dt := .i8 }
    let w := (wA.setS 4 0x80).setS 6 0xFF
    f.dt.isInt = true ∧ numberOf f.dt (wA.getS f.a) = 0 ∧ numberOf f.dt (scalarB wA f) = 0 ∧ f.dt.signed = true ∧
    numberOf f.dt (w.getS f.a) = -(2 ^ (f.dt.width - 1)) ∧ numberOf f.dt (scalarB w f) = -1 := by decide +kernel

/-- A header with its flags clear and one that must wait; a region with nothing owed; a waitf whose flag is not clear; an
exit that leaves lanes, and one that leaves none, in both modes. -/
theorem witness_HeadersAndRegions :
    let h : Hdr := { h0 with wait := 8 }
    let w : Warp := wA.setFlag 3 1
    let f : FmtA := { a8 with imm16 := 8 }
    (Instr.clauseHeader h).wf = true ∧ (wA.unflClear && wA.maskClear h.wait) = true ∧ (w.unflClear && w.maskClear h.wait) = false ∧
    w.maskClear (f.imm16.extractLsb' 0 12) = false ∧ wA.maskClear (f.imm16.extractLsb' 0 12) = true ∧ wA.unflClear = true ∧
    (wA.pend.all fun p => p.ready) = true ∧ ({ wA with em := 1 } : Warp).lm &&& ~~~(1 : W32) ≠ 0 ∧
    wA.lm &&& ~~~wA.em = 0 ∧ wA.det = false ∧ ({ wA with det := true } : Warp).det = true := by decide +kernel

/-- Targets: a header that can be branched to, and a word that is none; both senses of a condition; both senses of join; a
call and a ret within the window, and a ret below it. -/
theorem witness_BranchesAndCalls :
    let s := sP wA
    let up : FmtBR := { b0 with ofs := 1, cc := 1 }
    let w : Warp := { wA with winbase := 40 }
    targetOk s wA.who (wA.ipc + 8 * up.ofs.signExtend 64) = true ∧ targetOk s wA.who (wA.ipc + 8 * (2 : BitVec 32).signExtend 64) = false ∧
    compareI (ccOf 0) (wA.getS 0).toInt 0 = true ∧ compareI (ccOf 1) (wA.getS 0).toInt 0 = false ∧
    (wA.getS 0).extractLsb' 32 32 = (0 : W32) ∧ ((wA.setS 0 0x100000001).getS 0).extractLsb' 32 32 ≠ (0 : W32) ∧
    targetOk s wA.who (((wA.setS 0 0x100000001).setS 1 0x1010).getS (0 + 1)) = true ∧
    wA.winbase + 8 * up.cc.toNat + 48 ≤ wA.lo + wA.budget ∧
    8 * (((w.setS 0 0x1015).getS 0).toNat % 8) = 40 ∧ targetOk s w.who (((w.setS 0 0x1015).getS 0) &&& ~~~7) = true ∧
    w.lo ≤ w.winbase - 40 ∧ wA.winbase < 40 ∧ s.curWarp = some wA := by decide +kernel

/-- A call that spills its eight lowest positions to a mapped page, in both modes; one whose spill passes the area; one whose area
is not mapped; a ret that fills them again. -/
theorem witness_SpillsAndFills :
    let w : Warp := { wA with budget := 48, spillbase := 0x1800, spilllen := 1024 }
    let d : Warp := { wA with budget := 48, winbase := 8, lo := 8, spillbase := 0x1800, spilllen := 1024 }
    let f : FmtBR := { b0 with ofs := 1, cc := 1 }
    let vas := (List.range 8).map fun i => w.spillbase + BitVec.ofNat 64 ((0 + i) * 128)
    let l : List Xlat := (List.range 8).map fun i => { va := 0x1800 + BitVec.ofNat 64 (i * 128), pa := 0x1800 + i * 128, kind := .cached, len := 128 }
    w.lo + w.budget < w.winbase + 8 * f.cc.toNat + 48 ∧ (w.lo + 8) * 128 ≤ w.spilllen.toNat ∧ (1023 : Word).toNat < (w.lo + 8) * 128 ∧
    linePlaces (sP w) w .store vas = .ok (sP w, l) ∧ guardIssue (sP w) w (vas.map fun a => Rng.flat a 128) = .ok (sP w) ∧
    (∀ x ∈ l, x.kind = .cached ∧ x.pa % 128 = 0) ∧ Memory.wf (sP w).mem = true ∧
    l.Pairwise (fun x y => x.pa + 128 ≤ y.pa ∨ y.pa + 128 ≤ x.pa) ∧ (∀ x ∈ l, x.kind ≠ .reg) ∧ (sP w).ordbuf = [] ∧
    (linePlaces (sP w) w .store [0x5000]).isOk = false ∧ targetOk (sP w) w.who (w.ipc + 8 * f.ofs.signExtend 64) = true ∧
    8 * (((d.setS 0 0x1011).getS 0).toNat % 8) = 8 ∧ 8 ≤ d.winbase ∧ d.winbase - 8 < d.lo ∧
    targetOk (sP d) d.who (((d.setS 0 0x1011).getS 0) &&& ~~~7) = true ∧ linePlaces (sP d) d .load vas = .ok (sP d, l) ∧
    ((sP d).core d.core).l1 = [] := by decide +kernel

/-- A counter at and below the value waited for; a dropped number; both modes. -/
theorem witness_TimelineWaits :
    let f : FmtE := { eZ with a := 1, q := 10 }
    let w := wA.setS 1 1
    let d : State := (sA w).setTl 0 0 { TlSet.init with issued := TlSet.init.issued.set 0 1, dropped := [(0, 1)] }
    (wA.getS f.a + f.imm20.signExtend 64).toNat ≤ (((sA wA).tl 0 0).doneOf f.q.toNat).toNat ∧
    (((sA w).tl 0 0).doneOf 0).toNat < (w.getS 1).toNat ∧ (sA w).droppedAt w 0 1 = false ∧ d.droppedAt w 0 1 = true ∧
    (d.tl 0 0).doneOf 0 = 0 := by decide +kernel

/-- Pages of HBM5, of the capacity tier and of core 0's scratchpad, mapped for core 0. -/
def capTlb : Tlb := { placeTlb with vbase := 0x2000, pbase := capBase, ty := 1 }
def spTlb : Tlb := { placeTlb with vbase := 0x3000, pbase := spBase, ty := 3 }
def sQ (w : Warp) : State := { sA w with cores := [(0, { Core.init 0 with tlb := [placeTlb, capTlb, spTlb] })] }
/-- A warp of one lane whose s8 holds an address. -/
def wQ (va : Word) : Warp := { wA with em := 1 }.setS 8 va

/-- A checked lane. -/
def lnQ (lane : Nat) (va : Word) (pa : Nat) (kind : LocKind) (data data2 : List Byte) : LaneAcc :=
  { lane := lane, va := va, pa := pa, kind := kind, data := data, data2 := data2, ticket := 0 }
def zero4 : List Byte := [0, 0, 0, 0]

/-- A lane admitted and free at the end of its page; one with no active lane; one misaligned; one at an absent scratchpad
line; one at a line with an uncorrectable error. -/
theorem witness_AccessOutcomes :
    (let w := wQ 0x1FFC
     let l := [lnQ 0 0x1FFC 0x1FFC .cached [] []]
     Admitted (sQ w) w m0 .load 4 (sQ w) l ∧ Free (sQ w) w (accessOf w m0 .load 4 (sQ w) l) ∧ InMemory (sQ w) l) ∧
    ({ wQ 0 with em := 0 } : Warp).em = 0 ∧
    checkLanes (sQ (wQ 0x1001)) (laneCheck (wQ 0x1001) m0 .load 4) (lanesIn (wQ 0x1001).em) =
      .error (Trap.addr Cause.alignment 0 0x1001) ∧
    (let w : Warp := { wQ 0x3000 with sys := true }
     let s : State := { sQ w with cores := [(0, { Core.init 0 with tlb := [spTlb], absent := [(0, 1)] })] }
     let l := [lnQ 0 0x3000 spBase .scratch [] []]
     Admitted s w m0 .load 4 s l ∧ s.anyAbsent (accessOf w m0 .load 4 s l) = true) ∧
    (let w := wQ 0x1100
     let s : State := { sQ w with poison := [lineOf 0x1100] }
     let l := [lnQ 0 0x1100 0x1100 .cached [] []]
     Admitted s w m0 .load 4 s l ∧ s.anyAbsent (accessOf w m0 .load 4 s l) = false ∧
       noRoute s (accessOf w m0 .load 4 s l) = false ∧
       (lanesError s w.core w.det (accessOf w m0 .load 4 s l) l).isOk = false) := by
  unfold Admitted Free InMemory; decide +kernel

/-- A store by two lanes that name one place, with memory in its form; one held in a deterministic launch; a home load. -/
theorem witness_LoadsAndStores :
    (let w : Warp := { wQ 0x1100 with em := 3 }
     let l := [lnQ 0 0x1100 0x1100 .cached zero4 [], lnQ 1 0x1100 0x1100 .cached zero4 []]
     Admitted (sQ w) w m0 .store 4 (sQ w) l ∧ Free (sQ w) w (accessOf w m0 .store 4 (sQ w) l) ∧ InMemory (sQ w) l ∧
       Undisturbed (sQ w) l ∧ Memory.wf (sQ w).mem = true ∧ l.Pairwise (SameOrApart 4)) ∧
    (let w : Warp := { wQ 0x1100 with det := true }
     let l := [lnQ 0 0x1100 0x1100 .cached zero4 []]
     Admitted (sQ w) w m0 .store 4 (sQ w) l ∧ Free (sQ w) w (accessOf w m0 .store 4 (sQ w) l) ∧ w.det = true) ∧
    ({ m0 with scope := .quad, ord := .acq } : FmtM).scope.ge .quad = true ∧ acquires .acq .quad = true := by
  unfold Admitted Free InMemory SameOrApart Undisturbed; decide +kernel

/-- A core-scope load of memory that no cache holds yet. -/
theorem witness_loadsUncached :
    let w := wQ 0x1100
    let l := [lnQ 0 0x1100 0x1100 .cached [] []]
    Admitted (sQ w) w m0 .load 4 (sQ w) l ∧ Free (sQ w) w (accessOf w m0 .load 4 (sQ w) l) ∧ w.det = false ∧ InMemory (sQ w) l ∧
      ((sQ w).core w.core).l1 = [] ∧ ((sQ w).core w.core).cc = [] ∧ ∀ x ∈ l, x.pa % 128 + 4 ≤ 128 := by
  unfold Admitted Free InMemory; decide +kernel

/-- THCFG, a place of another device and one of this device's own aperture, each mapped for a warp in system mode, with one lane
that names it. -/
theorem witness_DevicePlaces :
    let tlb (base : Nat) (ty : BitVec 2) : Tlb := { placeTlb with vbase := 0x4000, pbase := base, ty := ty }
    let w : Warp := { wQ 0x4000 with sys := true }
    let s (base : Nat) (ty : BitVec 2) : State :=
      { sA w with cores := [(0, { Core.init 0 with tlb := [tlb base ty] })], devnum := 0x1003, reachable := [5], inbound := [(0, 7)] }
    let l (pa : Nat) (kind : LocKind) (data : List Byte) : LaneAcc := lnQ 0 0x4000 pa kind data []
    (∀ p ∈ [(regBase + 0x400D0000, 3, LocKind.reg), (2 ^ 51 + 5 * 2 ^ 39 + 0x1000, 2, .peer), (2 ^ 51 + 3 * 2 ^ 39 + 0x1000, 2, .peer)],
      (Admitted (s p.1 p.2.1) w m0 .load 4 (s p.1 p.2.1) [l p.1 p.2.2 []] ∧
        Free (s p.1 p.2.1) w (accessOf w m0 .load 4 (s p.1 p.2.1) [l p.1 p.2.2 []])) ∧
      Admitted (s p.1 p.2.1) w m0 .store 4 (s p.1 p.2.1) [l p.1 p.2.2 zero4] ∧
        Free (s p.1 p.2.1) w (accessOf w m0 .store 4 (s p.1 p.2.1) [l p.1 p.2.2 zero4]) ∧
        Undisturbed (s p.1 p.2.1) [l p.1 p.2.2 zero4]) ∧
    w.det = false ∧ peerRoute (s 0 0) (2 ^ 51 + 5 * 2 ^ 39 + 0x1000) .store = .remote ∧
    peerRoute (s 0 0) (2 ^ 51 + 3 * 2 ^ 39 + 0x1000) .store = .local 0x1000 ∧ Memory.wf (s 0 0).mem = true ∧ zero4.length = 4 := by
  unfold Admitted Free Undisturbed; decide +kernel

/-- Two lanes of a relaxed load, the first in a line that the L1 holds, the second in one that it does not. -/
theorem witness_WaveSplits :
    let w : Warp := { wQ 0x1100 with em := 3, v := [(0, lanesOf fun l => BitVec.ofNat 32 (128 * l))] }
    let s : State := { sQ w with cores := [(0, { (sQ w).core 0 with l1 := [(lineOf 0x1100, List.replicate 128 0)] })] }
    let f : FmtM := { m0 with voff := true }
    let l := [lnQ 0 0x1100 0x1100 .cached [] [], lnQ 1 0x1180 0x1180 .cached [] []]
    Admitted s w f .load 4 s l ∧ Free s w (accessOf w f .load 4 s l) ∧ w.det = false ∧ f.ord = .relaxed ∧
      f.scope.ge .quad = false ∧ f.nosplit = false ∧ w.split = none ∧ (∀ x ∈ l, x.kind ≠ .const) ∧
      (∃ x ∈ l, x.kind = .cached ∧ (copyGet (s.core w.core).l1 (lineOf x.pa)).isSome = true) ∧
      ∃ x ∈ l, x.kind = .cached ∧ (copyGet (s.core w.core).l1 (lineOf x.pa)).isSome = false := by
  unfold Admitted Free; decide +kernel

/-- The rejoin points of R98: headers by their WAIT masks, lane-wise instructions by their modifiers, loads by ORD. -/
theorem test_rejoinPoints :
    rejoins (some 3) (.clauseHeader { h0 with wait := 8 }) = true ∧ rejoins (some 3) (.clauseHeader { h0 with wait := 0xFF7 }) = false ∧
    rejoins none (.clauseHeader { h0 with wait := 0xFFF }) = false ∧ rejoins (some 3) (.vaddFloat aF) = false ∧
    rejoins (some 3) (.vaddFloat { aF with modA := 0x202 }) = true ∧ rejoins (some 3) (.vcvt aF) = false ∧
    rejoins (some 3) (.vrcp aF) = false ∧ rejoins (some 3) (.ldG m0) = false ∧ rejoins (some 3) (.ldG { m0 with ord := .acq }) = true ∧
    rejoins (some 3) (.stG m0) = true ∧ rejoins (some 3) (.add a0) = true ∧ rejoins (some 3) (.vredadd aF) = true := by decide

/-- A compare-exchange of one lane, where the old value equals the expected one. -/
theorem witness_Atomics :
    (Instr.atomCas, AccKind.atom .cas, ownBytes) ∈ atomics ∧
    (let w := wQ 0x1100
     let l := [lnQ 0 0x1100 0x1100 .cached zero4 zero4]
     Admitted (sQ w) w m0 (.atom .cas) (ownBytes m0) (sQ w) l ∧ 0 < ownBytes m0 ∧
       Free (sQ w) w (accessOf w m0 (.atom .cas) (ownBytes m0) (sQ w) l) ∧ InMemory (sQ w) l ∧ Undisturbed (sQ w) l ∧ Memory.wf (sQ w).mem = true ∧
       l.Pairwise (fun x y => x.pa + ownBytes m0 ≤ y.pa ∨ y.pa + ownBytes m0 ≤ x.pa)) :=
  ⟨by simp [atomics], by unfold Admitted Free InMemory Undisturbed; decide +kernel⟩

/-- An ordered atomic's lane at a slice, with its ticket at, above and below NEXT; a full slice; a refused lane to send again. -/
def lanO (t : Word) : LaneAcc := { lane := 0, va := 0x1108, pa := 0x1108, kind := .cached, data := [1, 0, 0, 0], data2 := [], ticket := t }
def accO (t : Word) : Access :=
  { kind := .atomo .add, dt := .i32, size := 4, scope := .device, ord := .relaxed, d := 4, lanes := [lanO t], ipc := 0, tok := 1 }
def bufO (t : Word) (arrived : Bool) : OrdBuf :=
  { slice := homeSlice 0x1108, warp := 0, acc := accO t, lane := lanO t, arrived := arrived, refused := none }

theorem witness_OrderedAtomics :
    let w := wQ 0x1108
    let f : FmtM := { m0 with dt := .i32, scope := .device }
    (Admitted (sQ w) w f (.atomo .add) (ownBytes f) (sQ w) [{ lanO 0 with data := zero4 }] ∧
      Free (sQ w) w (accessOf w f (.atomo .add) (ownBytes f) (sQ w) [{ lanO 0 with data := zero4 }])) ∧
    (let s : State := { sA w with ordbuf := [bufO 1 false] }
     s.ordbuf[s.ev.x]? = some (bufO 1 false) ∧ (bufO 1 false).refused = none ∧ (bufO 1 false).lane.kind = .cached ∧
       s.badAt .cached (lanO 1).pa = false ∧ Memory.wf s.mem = true ∧ ∀ x ∈ s.ordbuf, x.arrived = false) ∧
    (63 ≤ ((bufO 1 false :: List.replicate 63 (bufO 2 true)).filter fun x => x.arrived && x.slice == homeSlice (lanO 1).pa).length ∧
      ∀ x ∈ bufO 1 false :: List.replicate 63 (bufO 2 true), x.arrived = true → lineOf x.lane.pa = lineOf (lanO 1).pa →
        x.lane.ticket.toNat ≠ 0) ∧
    (let r : OrdBuf := { bufO 1 false with refused := some 0 }
     let s : State := { sA w with nexts := [(homeSlice 0x1108, 1)], ordbuf := [r, bufO 1 true] }
     s.warp? s.ev.x = some w ∧ s.advances w.ctx .warps = true ∧
       ∃ o ∈ s.ordbuf, o.warp = s.ev.x ∧ o.refused ≠ none ∧ (o.refused.map fun n => decide (n < s.nextsOf o.slice)) = some true) ∧
    (∀ a ∈ [0x110A, 0x1104], ({ sQ w with ordbuf := [bufO 1 true] } : State).ownHits 0 .load 4 [lnQ 0 (BitVec.ofNat 64 a) a .cached [] []] = true) := by
  unfold Admitted Free; decide +kernel

/-- A lane in turn, and one buffered with the next ticket; a stale lane. -/
theorem witness_OrderedAtomics_turns :
    (let s : State := { sA wA with ordbuf := [bufO 0 false, bufO 1 true] }
     s.ordbuf[s.ev.x]? = some (bufO 0 false) ∧ Memory.wf s.mem = true ∧ s.ordbuf.Nodup ∧ OrderedAt s (lineOf 0x1108) (bufO 0 false) ∧
       (bufO 0 false).lane.ticket.toNat = bytesNat (memReadN s.mem (lineOf 0x1108 * 128) 8) ∧ bufO 1 true ∈ s.ordbuf ∧
       (bufO 1 true).slice = homeSlice (bufO 0 false).lane.pa ∧ OrderedAt s (lineOf 0x1108) (bufO 1 true) ∧
       (bufO 1 true).lane.ticket.toNat = 1 ∧ ∀ b ∈ s.ordbuf, b.arrived = true → b ∈ [bufO 1 true]) ∧
    (let o := bufO 0x8000000000000000 false
     let s : State := { sA wA with ordbuf := [o] }
     OrderedAt s (lineOf 0x1108) o ∧
       2 ^ 63 ≤ (o.lane.ticket.toNat + 2 ^ 64 - bytesNat (memReadN s.mem (lineOf 0x1108 * 128) 8)) % 2 ^ 64) := by
  unfold OrderedAt; decide +kernel

/-- A lane in turn adds 1 to its word, and the lane that waits with the next ticket adds another 1 (R167). -/
theorem test_orderedTurn :
    (match exec .atomoLaneArrive { sA wA with ordbuf := [bufO 0 false, bufO 1 true] } with
     | .next t => some (memReadN t.mem 0x1108 4, memReadN t.mem 0x1100 2, t.ordbuf.length)
     | _ => none) = some ([2, 0, 0, 0], [2, 0], 0) := by decide +kernel

/-- A release store that an ordered lane of its warp keeps back, and one that none does; a counter's
release, kept back and due. -/
theorem witness_Releases :
    let w := wQ 0x1180
    let f : FmtM := { m0 with scope := .device, ord := .rel }
    -- the line of the ordered lane is another one: a store to its NEXT has to wait (R152)
    let s : State := { sQ w with ordbuf := [bufO 1 true], nextId := 7 }
    let l := [lnQ 0 0x1180 0x1180 .cached zero4 []]
    let a := accessOf w f .store 4 s l
    (Admitted s w f .store 4 s l ∧ w.det = false ∧ s.anyAbsent a = false ∧ noRoute s a = false ∧
      (lanesError s w.core w.det a l).isOk = true ∧ s.defers s.cur a = true ∧ s.gated s.cur s.nextId = true ∧
      ({ s with ordbuf := [] } : State).defers s.cur a = false ∧ ({ s with ordbuf := [] } : State).gated s.cur s.nextId = false) ∧
    (let x : State := { s with ordbuf := [], rels := [{ warp := 0, tok := 7, op := .acc a }, { warp := 0, tok := 8, op := .tladv 15 1 }]
                               ev := { nums := [0] } }
     let y : State := { x with rels := x.rels.eraseIdx 0 }
     x.gated 0 7 = false ∧ x.gated 0 8 = true ∧ y.gated 0 8 = false ∧ x.warp? 0 = some w ∧ y.anyAbsent a = false ∧ noRoute y a = false ∧
       (lanesError y w.core w.det a a.lanes).isOk = true ∧ InMemory y a.lanes ∧ Undisturbed y a.lanes ∧ Memory.wf x.mem = true ∧
       a.lanes.Pairwise (SameOrApart a.size) ∧ ∀ l ∈ a.lanes, l.data.length = a.size) := by
  unfold Admitted InMemory Undisturbed SameOrApart; decide +kernel

/-- A launch, an arrival and a push that were kept as releases, each due. -/
theorem witness_Releases_kept :
    let r : LaunchRec := { entry := 0, gx := 1, gy := 1, gz := 1, shape := 0, det := false, persist := false, phased := false, threads := 32
                           scratch := 0, accT := 0, regs := 64, carry := 0, bpc := 1, splen := 0, param := 0, cbase := 0, clen := 0, spill := 0, roles := [] }
    let c : Cmd := { body := .glaunch r, d := 1, ipc := 0, tok := 7 }
    let k : Cluster := { grid := 0, cx := 0, cy := 0, cz := 0, rank := 0, cores := [0], admitted := true, released := false, attempt := 0
                         backoff := none, bars := [] }
    ∀ op ∈ [RelOp.cmd c, .arrive 0 4 5 0, .push 0 0x10000000001 5],
      let s : State := { sA { wA with wait := .ordered } with
        rels := [{ warp := 0, tok := 7, op := op }], clusters := [(0, k)], ev := { nums := [0] } }
      s.ev.nums = [0] ∧ (s.rels[0]?).isSome = true ∧ s.gated 0 7 = false ∧ (s.warp? 0).isSome = true ∧
      (match accept (State.wake { s with rels := [] } 0) 0 wA c with | .ok .. => true | _ => false) = true ∧
      ((State.wake { s with rels := [] } 0).barArrive 0 wA 0 4).isOk = true ∧
      (match exec .heldAccessPerform s with | .next t => t.rels.isEmpty && ((t.warp? 0).map fun w => w.wait) == some .run | _ => false) = true := by
  decide +kernel

/-- A device of a number that knows no peer in service. -/
def sNR : State := { sQ wA with devnum := 0x1003 }

/-- Whatever devices the fabric reaches, one of them to which no port in service leads is a peer with no route. -/
theorem witness_NoRoute (h : fabric.contains 5 = true) :
    noRoute sNR (accessOf wA m0 .store 4 (sQ wA) [lnQ 0 0 (2 ^ 51 + 5 * 2 ^ 39) .peer zero4 []]) = true := by
  have hr : peerRoute sNR (2 ^ 51 + 5 * 2 ^ 39) .store = .none := if_pos h
  unfold noRoute
  exact List.any_eq_true.mpr ⟨_, List.mem_singleton_self _, by
    change (true && (peerRoute sNR (2 ^ 51 + 5 * 2 ^ 39) .store == .none)) = true
    rw [hr]; rfl⟩

/-- A ready flagged result, a held access, a warp that waits for a place. -/
theorem witness_ResultsAndMemoryWaits :
    let p : Pend := { tok := 1, flag := some 11, ready := true, writes := [.v 4 1 lanesZero] }
    let w : Warp := { wQ 0x1100 with pend := [p] }
    let h : Warp := { wQ 0x1108 with wait := .held (accO 0) }
    w.pend[(sA w).ev.y]? = some p ∧ p.ready = true ∧ p.flag = some 11 ∧ (sA h).warp? 0 = some h ∧
    h.wait = .held (accO 0) ∧ (sA h).ev.nums = [] ∧ (sA h).anyAbsent (accO 0) = false ∧
    (startAccess (sA h) 0 { h with wait := .run } (accO 0)).isOk = true ∧
    ({ w with wait := .present [0x1000] 0x1000 false } : Warp).wait = .present [0x1000] 0x1000 false ∧
    (∀ x ∈ [0x1000], (sA w).placeFree x = true) := by decide +kernel

/-- waitv at a mapped word, where the comparison holds and where it does not; at an address that fails its check; a wait
evaluated again after 4,096 cycles. -/
theorem witness_MemoryWaits :
    let w := wQ 0x1100
    let f : FmtM := { m0 with dt := .n32, d := 1 }
    resolve (sQ w) w.who .load (w.getS f.b + ofsM f) (ownBytes f) true = .ok (sQ w, 0x1100, .cached) ∧
    (sQ w).poison.contains (lineOf 0x1100) = false ∧
    compareBits .eq .n32 0 ((w.getS f.d).toNat % 2 ^ 32) = true ∧ compareBits .ne .n32 0 ((w.getS f.d).toNat % 2 ^ 32) = false ∧
    (sQ w).absentAt spBase = 0 ∧ copyGet (sQ w).l2dirty (lineOf 0x1100) = none ∧ w.det = false ∧
    (sQ w).ownBars 0 .cached 0x1100 4 = false ∧ ({ sQ w with ordbuf := [bufO 1 true] } : State).ownBars 0 .cached 0x1108 4 = true ∧
    ({ w with det := true } : Warp).det = true ∧
    (resolve (sQ w) w.who .load 0x1101 (ownBytes f) true).isOk = false ∧ 4096 ≤ ((4096 : Word) - 0).toNat := by decide +kernel

/-- fence with and without an acquire; wback of a capacity-tier lane, and of one that fails its check. -/
theorem witness_FencesAndHints :
    acquires .acqrel .system = true ∧ acquires .rel .system = false ∧ releasesAt .rel .quad = true ∧ releasesAt .acq .quad = false ∧
    wA.det = false ∧ ({ wA with det := true } : Warp).det = true ∧ (sQ wA).poison.contains (lineOf (capBase + 0x80)) = false ∧
    checkLanes (sQ (wQ 0x2080)) (wbackLane (wQ 0x2080) m0) (lanesIn (wQ 0x2080).em) =
      .ok (sQ (wQ 0x2080), [lnQ 0 0x2080 (capBase + 0x80) .cap [] []]) ∧
    (checkLanes (sQ (wQ 0xFFF)) (wbackLane (wQ 0xFFF) m0) (lanesIn (wQ 0xFFF).em)).isOk = false := by decide +kernel

/-- A warp that names a destination, a source and a count for copies and gathers (s2, s3, s4). -/
def wC (dst src n : Word) : Warp := { ((wA.setS 2 dst).setS 3 src).setS 4 n with em := 1 }
def sC (dst src n : Word) : State := sQ (wC dst src n)

/-- Copies of 8 bytes: rows that translate, one that does not, ranges that meet; a length out of limits; copy2d within and out
of its limits; copykb in both modes; a gather of one element, misaligned and aligned; room, no room and a clash. -/
theorem witness_TransfersIssue :
    (let w := wC 0x1100 0x1200 8
     (moveRows (sC 0x1100 0x1200 8) w.who { elem := false, kb := false } (rowsOf 0x1100 0x1200 8 1 0 0)).isOk = true ∧
     (copyRng 0x1100 8 1 0).meets (copyRng 0x1200 8 1 0) = false ∧ (copyRng 0x1100 8 1 0).meets (copyRng 0x1104 8 1 0) = true ∧
     (moveRows (sC 0x1100 0x5000 8) w.who { elem := false, kb := false } (rowsOf 0x1100 0x5000 8 1 0 0)).isOk = false ∧
     (match moveRows (sC 0x1100 0x1200 128) w.who { elem := false, kb := true } (rowsOf 0x1100 0x1200 128 1 0 0) with
      | .ok (u, p) => (kbDiesOf p).any u.dieBusy
      | .error _ => true) = true ∧
     w.sys = false ∧ ({ w with sys := true } : Warp).sys = true ∧
     hasRoom (sC 0x1100 0x1200 8) 0 w (.copy 0 false [] [copyRng 0x1100 8 1 0]) = true ∧
     (sC 0x1100 0x1200 8).guardHits 0 0 (CmdBody.guarded (.copy 0 false [] [copyRng 0x1100 8 1 0])) = []) ∧
    2 ^ 32 < (wC 0 0 0x100000001).getS 4 ∧ ((wC 0 0 0x100000000).getS 4).toNat ≤ 2 ^ 32 ∧
    ((wC 0 0 0x000100100000).getS 4).toNat % 2 ^ 32 ≤ 2 ^ 20 ∧
    (let o : MemOp := { seq := 0, ctx := 0, warp := 0, ipc := 0, tok := 0, tl := 1, num := 1, gather := false, kb := false, pieces := [], dst := [copyRng 0x1100 8 1 0]
                        err := false, kbDies := [], dead := [] }
     let s : State := { sC 0x1100 0x1200 8 with cores := [(0, { Core.init 0 with ops := List.replicate 48 o })] }
     hasRoom s 0 wA (.copy 0 false [] []) = false ∧ Clashes s wA (.copy 0 false [] [copyRng 0x1107 8 1 0]) = true ∧
       Clashes s wA (.copy 0 false [] [copyRng 0x1108 8 1 0]) = false) ∧
    (let f : FmtE := { e0 with imm20 := 0x20001 }
     2 ^ (f.imm20.toNat / 65536) = 4 ∧ (0x1102 : Word).toNat % 4 ≠ 0 ∧ (0x1104 : Word).toNat % 4 = 0 ∧
       (match gatherIndices (sC 0x1104 0x1200 0x1300) (wC 0x1104 0x1200 0x1300) 0x1200 1 with
        | .ok (u, idx) =>
          (moveRows u wA.who { elem := true, kb := false } [(0, 0x1300 + BitVec.ofNat 64 (idx.getD 0 0 * 4), 0x1104, 4)]).isOk
        | .error _ => false) = true ∧
       (moveRows (sC 0 0 0) wA.who { elem := true, kb := false } [(0, 0x5000, 0x1104, 4)]).isOk = false) := by
  decide +kernel

/-- An operation of one piece, its number the next to complete. -/
def opC (gather : Bool) : MemOp :=
  { seq := 0, ctx := 0, warp := 0, ipc := 0, tok := 0, tl := if gather then 4 else 0, num := 1, gather := gather, kb := false
    pieces := [{ src := 0x1200, skind := .cached, dst := 0x1100, dkind := .cached, len := 8 }], dst := [], err := false, kbDies := [], dead := [] }
def sO (gather : Bool) : State :=
  { sA wA with cores := [(0, { Core.init 0 with ops := [opC gather] })], ev := { z := 0x1100 / 128 } }

/-- A copy into core 0's scratchpad, whose line awaits two writes. -/
theorem witness_CopiesComplete_scratch :
    let p : Piece := { src := 0x1200, skind := .cached, dst := spBase, dkind := .scratch, len := 8 }
    let o : MemOp := { opC false with pieces := [p] }
    let s : State := { sA wA with cores := [(0, { Core.init 0 with ops := [o], absent := [(0, 2)] })], ev := { z := lineOf spBase } }
    s.movingOp s.ev.x s.ev.y = some o ∧ o.mayDeliver s.ev.z = true ∧ s.pieceReady o p = true ∧ o.dead.contains (spCoreLine p.dst) = false ∧
    (match exec .trackedWriteDeliver s with
     | .next t => some (tgetD (t.core 0).absent 0 0)
     | _ => none) = some 1 := by decide +kernel

theorem witness_CopiesComplete :
    ∀ g ∈ [false, true], let s := sO g
      s.movingOp s.ev.x s.ev.y = some (opC g) ∧ (opC g).mayDeliver s.ev.z = true ∧ ((opC g).pieces.filter fun p => lineOf p.dst = s.ev.z) ≠ [] ∧
      (∀ p ∈ (opC g).pieces, s.pieceReady (opC g) p = true ∧ p.dkind ≠ .scratch ∧ p.skind ≠ .reg ∧ p.dkind ≠ .reg ∧
        p.skind ≠ .peer ∧ p.dkind ≠ .peer) ∧
      (s.tl 0 0).early = [] ∧ (s.tl 0 0).doneOf (opC g).tl = BitVec.ofNat 64 (opC g).num - 1 ∧ Memory.wf s.mem = true ∧
      s.poison = [] ∧
      (s.core s.ev.x).gc = [] ∧ (∀ p ∈ (opC g).pieces, (p.skind = .cached ∨ p.skind = .cap) ∧ p.src % 128 + p.len ≤ 128) ∧
      (opC g).pieces.Pairwise (fun p q => p.dst + p.len ≤ q.dst ∨ q.dst + q.len ≤ p.dst) ∧
      (∀ p ∈ (opC g).pieces, p.skind ≠ .uncached ∧ p.dkind ≠ .uncached) ∧ (∀ p ∈ (opC g).pieces, ∀ q ∈ (opC g).pieces, p.src + p.len ≤ q.dst ∨ q.dst + q.len ≤ p.src) := by
  decide +kernel

/-- Both modes; ranges at their limits and beyond; an invalidation with nothing translated; a started and a waiting walk. -/
theorem witness_TranslationAndInvalidation :
    (let page (a b c : Nat) : Prop := a ≤ 255 ∧ b % 4096 = 0 ∧ c % 4096 = 0 ∧ b + c ≤ 2 ^ 56
     page 255 (2 ^ 56 - 4096) 4096 ∧ ¬ page 256 0 0 ∧ ¬ page 0 (2 ^ 56) 4096) ∧
    (let range (b c : Nat) : Prop := b % 4096 = 0 ∧ c % 4096 = 0 ∧ 2 ^ 64 - 2 ^ 56 ≤ b ∧ b + c ≤ 2 ^ 64
     range (2 ^ 64 - 4096) 4096 ∧ ¬ range 0 4096) ∧
    (let i : Inval := { warp := 0, scope := .ctx 0, before := none, untagged := false }
     let s (x : Inval) : State := { sA wA with invals := [x] }
     (s i).invals[(s i).ev.x]? = some i ∧ i.before = none ∧ (∃ x ∈ (s i).invals, x.warp = (s i).cur) ∧
       (∀ x ∈ (sA wA).invals, x.warp ≠ (sA wA).cur) ∧
       (s { i with before := some 1 }).translated { i with before := some 1 } 1 = false) ∧
    (let d (b : Bool) : Die := { Die.init 0 with walks := [{ core := 0, ctx := 0, va := 0, root := 0, started := b, fill := true }] }
     let s (b : Bool) : State := { sA wA with dies := [(0, d b)] }
     (((s true).die 0).walks[(s true).ev.y]?.map fun x => x.started) = some true ∧
       ((s false).die 0).running < 512 ∧ (((s false).die 0).walks.find? fun x => !x.started).isSome = true) := by
  decide +kernel

/-- A cluster whose barrier has no arrival, or one that counts to another number; the last arrival; a phase past and to come. -/
def cluB (x : Bar) : Cluster :=
  { grid := 0, cx := 0, cy := 0, cz := 0, rank := 0, cores := [0], admitted := true, released := false, attempt := 0, backoff := none
    bars := [(0, x)] }

theorem witness_Barriers :
    let s (x : Bar) : State := { sA wA with clusters := [(0, cluB x)] }
    let one : Bar := { arrived := 1, who := [5], expect := 4, ph := 7 }
    tget (s one).clusters wA.cluster = some (cluB one) ∧ (cluB one).bar 0 = one ∧ one.arrived ≠ 0 ∧ one.expect ≠ 5 ∧ one.expect = 4 ∧
    ¬ (0 < 4 ∧ 4 ≤ one.arrived + 1) ∧ (0 < 2 ∧ 2 ≤ one.arrived + 1) ∧ Bar.init.arrived = 0 ∧ one.ph ≠ BitVec.allOnes 64 ∧
    (∀ p ∈ (s one).warps, p.2.cluster = wA.cluster → p.2.status ≠ .exited → p.1 ∈ [(s one).cur]) ∧
    wA.getS 2 < one.ph ∧ ¬ (wA.setS 2 7).getS 2 < one.ph ∧ (s one).unperformed (s one).cur = false ∧
    ({ s one with ordbuf := [bufO 1 true] } : State).unperformed 0 = true := by
  decide +kernel

/-- A descriptor of an all-reduce of one f32 element over two ranks. -/
def collB (src dst : Nat) : List Byte :=
  natBytes 8 src ++ natBytes 8 dst ++ natBytes 4 1 ++ [0, 8, 0, 0] ++ natBytes 4 2 ++ natBytes 12 0 ++ natBytes 8 9 ++ natBytes 80 0

/-- The descriptor within its limits, its ranges apart or meeting; out of its limits. -/
theorem witness_CollectivesIssue :
    let w := wA.setS 2 0x1100
    let s (b : List Byte) : State := { sQ w with mem := memWriteN [] 0x1100 b }
    (readIssue (s (collB 0x1200 0x1204)) w 0x1100 128 128).isOk = true ∧
    collOk (parseColl w (collB 0x1200 0x1204)) (collB 0x1200 0x1204) = true ∧
    collOk (parseColl w (collB 0 0x1204)) (collB 0 0x1204) = false ∧
    (match collRange (sQ w) w.who .load 0x1200 4 with
     | .ok (u, _) => (collRange u w.who .store 0x1204 4).isOk
     | .error _ => false) = true ∧
    (Rng.flat 0x1200 4).meets (Rng.flat 0x1204 4) = false ∧ (Rng.flat 0x1200 8).meets (Rng.flat 0x1204 4) = true := by
  decide +kernel

/-- A command alone in its group, before and after its match. -/
def cmdC : CollCmd :=
  { ctx := 0, warp := 0, tok := 0, core := 0, num := 1, seqNo := 0, op := 0, fmt := .f32, rnd := 0, count := 1, npart := 1, rank := 0, root := 0, group := 0
    sq := 0, src := [], srcVa := 0, dst := [], dstVa := 0, dead := [], remote := none }

theorem witness_CollectivesComplete :
    let s : State := { sA wA with colls := [cmdC] }
    let m : State := { s with matched := [(0, 0)] }
    (s.collOf s.ev.v s.ev.g).head? = some cmdC ∧ cmdC.npart ≤ (s.collOf s.ev.v s.ev.g).length ∧ (s.ev.v, s.ev.g) ∉ s.matched ∧
    (m.ev.v, m.ev.g) ∈ m.matched ∧ m.collOf m.ev.v m.ev.g ≠ [] ∧
    (∀ c ∈ m.collOf m.ev.v m.ev.g, m.advances c.ctx .collective = true ∧ m.gated c.warp c.tok = false ∧ m.owedIn c.seqNo c.src = false ∧
      ∀ x ∈ c.dst, x.kind ≠ .reg ∧ x.kind ≠ .peer) ∧
    collAgree [cmdC, cmdC] = false := by
  decide +kernel

/-- Two commands of one group that agree, a local one with the next number of tl9 and another device's with its bytes; the local one's
destination is its source's four bytes' place. -/
theorem witness_CollectiveValues :
    let x (pa : Nat) : Xlat := { va := BitVec.ofNat 64 pa, pa := pa, kind := .cached, len := 4 }
    let c : CollCmd := { cmdC with npart := 2, src := [x 0x1100], srcVa := 0x1100, dst := [x 0x1200], dstVa := 0x1200 }
    let d : CollCmd := { c with rank := 1, src := [], dst := [], remote := some [0, 0, 0x80, 0x3F] }
    let s : State := { sA wA with colls := [c, d], matched := [(0, 0)], mem := memWriteN [] 0x1100 [0, 0, 0, 0x40] }
    let l := s.collOf s.ev.v s.ev.g
    (s.ev.v, s.ev.g) ∈ s.matched ∧ l = [c, d] ∧ collAgree l = true ∧ s.poison = [] ∧ Memory.wf s.mem = true ∧ d.remote.isSome = true ∧
    (s.advances c.ctx .collective = true ∧ s.gated c.warp c.tok = false ∧ s.owedIn c.seqNo c.src = false) ∧
    (∀ c ∈ l, ∀ x ∈ c.src ++ c.dst, x.kind = .cached ∨ x.kind = .cap ∨ x.kind = .scratch) ∧
    (l.flatMap fun c => c.dst).Pairwise (fun x y => x.pa + x.len ≤ y.pa ∨ y.pa + y.len ≤ x.pa) ∧ c.remote = none ∧
    (∀ y ∈ l, y.remote = none → y.ctx = c.ctx → y.core = c.core → y = c) ∧ c.dst ≠ [] ∧
    ((c.dst.map Xlat.len).sum = ((collDelivers s l c).flatMap (natBytes c.elem)).length) ∧ collDelivers s l c = [0x40400000] ∧
    ((s.tl 0 0).early = [] ∧ 0 < c.num ∧ (s.tl 0 0).doneOf 9 = BitVec.ofNat 64 c.num - 1) := by
  decide +kernel

/-- A refused command of each engine, with room. -/
theorem witness_RefusedCommands :
    ∀ b ∈ [CmdBody.copy 0 false [] [], .krun KRun.fresh, .cube (.zero 1) 0 0xF [], .plane (.stat false 1), .tmode 0],
      let c : Cmd := { body := b, d := 1, ipc := 0, tok := 1 }
      let w : Warp := { wA with wait := .refused c }
      let s : State := { sA w with lpown := [(0, 0x100)] }
      s.warp? s.ev.x = some w ∧ Clashes s w b = false ∧ b.kbDies.any s.dieBusy = false ∧
      tmodeOk s 0 w 0 = true ∧ s.ownsPlane w = true ∧ wearTrap s 0 w (.stat false 1) = none ∧ hasRoom s s.ev.x w b = true ∧
      s.guardHits w.ctx w.core b.guarded = [] ∧ (sA w).ownsPlane w = false ∧ hasRoom (sA w) (sA w).ev.x w b = true := by
  decide +kernel

/-- A warp that waits at a copy which met another queue's, while that is incomplete and after it. -/
theorem witness_OverlapCheck :
    let o : MemOp := { seq := 0, ctx := 0, warp := 0, ipc := 0, tok := 0, tl := 1, num := 1, gather := false, kb := false, pieces := []
                       dst := [copyRng 0x1100 8 1 0], err := false, kbDies := [], dead := [] }
    let w : Warp := { wA with wait := .overlap 0 [copyRng 0x1107 8 1 0] }
    let s (l : List MemOp) : State := { sA w with cores := [(0, { Core.init 0 with ops := l })] }
    (s [o]).warp? 0 = some w ∧ copyClash ((s [o]).core w.core) w.ctx 0 [copyRng 0x1107 8 1 0] = true ∧
      copyClash ((s []).core w.core) w.ctx 0 [copyRng 0x1107 8 1 0] = false := by
  decide +kernel
/-- A Kiosk descriptor: one program word at 0x1200, one stripe of source, parameters at 0x1400, no destination, record at 0x1300. -/
def runB : List Byte :=
  natBytes 8 0x1200 ++ natBytes 4 1 ++ natBytes 4 0 ++ natBytes 8 0x200000 ++ natBytes 8 32768 ++ natBytes 8 0x1400 ++ natBytes 8 0x1800
    ++ natBytes 8 0 ++ natBytes 8 0x1300 ++ natBytes 64 0
def srcTlb : Tlb := { capTlb with vbase := 0x200000, size := 0x200000 }

/-- A descriptor within its limits whose ranges translate, and one that is out of them; numbers queued, running, done and
never issued. -/
theorem witness_KioskLaunchAndStatus :
    (let w := wA.setS 2 0x1100
     let s : State := { sA w with cores := [(0, { Core.init 0 with tlb := [placeTlb, srcTlb] })], mem := memWriteN [] 0x1100 runB }
     (readIssue s w 0x1100 128 128).isOk = true ∧ runOk runB = true ∧ runOk (natBytes 128 0) = false ∧
       (runRange s w.who .load 0x1200 8 fun _ => true).isOk = true ∧
       (runRange s w.who .load 0x200000 32768 sourceOk).isOk = true ∧ (runRange s w.who .load 0x1400 1024 fun _ => true).isOk = true ∧
       (runRange s w.who .store 0x1800 0 memoryPlaces).isOk = true ∧ (runRange s w.who .store 0x1300 32 memoryPlaces).isOk = true ∧
       (resolveRange s w.who .load 0x1100 128).isOk = true) ∧
    (let t : TlSet := { TlSet.init with issued := TlSet.init.issued.set 8 3, done := TlSet.init.done.set 8 1 }
     let r (n : Nat) : KRun := { KRun.fresh with num := n }
     let k : Kiosk := { Kiosk.init with run := some (KState.fresh (r 2) []), queue := [r 3] }
     let n : Word := 2
     n ≠ 0 ∧ n ≤ t.issuedOf 8 ∧ t.doneOf 8 < n ∧ (1 : Word) ≤ t.doneOf 8 ∧ t.issuedOf 8 < 4 ∧ (8, 2) ∉ t.dropped ∧
       k.queue.findIdx? (fun r => r.named 0 0 3) = some 0 ∧ k.queue.findIdx? (fun r => r.named 0 0 2) = none ∧
       (k.run.map fun r => r.run.named 0 0 2) = some true) := by
  decide +kernel

/-- A run in a Kiosk, its record in memory, its program one exit word. -/
def kioskExitWord : Word := 0x2803000000000000
def krA : KState :=
  { KState.fresh { KRun.fresh with recd := [{ va := 0x1300, pa := 0x1300, kind := .cached, len := 32 }], recVa := 0x1300, num := 1, slen := 32768
                                   dlen := 2048, dst := [{ va := 0x1800, pa := 0x1800, kind := .cached, len := 2048 }], dstVa := 0x1800 }
      [kioskExitWord] with pc := 1 }
def sK (r : KState) : State := { sA wA with kiosks := [(0, { Kiosk.init with run := some r })] }

/-- Its record in one place, its number the next; a branch to the start of a word and past the program; a taken and an untaken
condition; a pc within and past the program. -/
theorem witness_KioskArithmetic :
    let s := sK krA
    (s.kiosk s.kcur).run = some krA ∧ (∀ x ∈ krA.run.recd, x.kind ≠ .reg) ∧ (s.tl 0 0).early = [] ∧
    (s.tl 0 0).doneOf 8 = BitVec.ofNat 64 krA.run.num - 1 ∧ krA.run.recd = [{ va := krA.run.recVa, pa := 0x1300, kind := .cached, len := 32 }] ∧
    (s.kiosk s.kcur).waiting = [] ∧ Memory.wf s.mem = true ∧ aF.d.toNat < 4 ∧
    (0 ≤ (krA.pc : Int) - 1 + 0 ∧ ((krA.pc : Int) - 1 + 0).toNat ∈ runStarts krA.prog.length 0 krA.prog) ∧
    ((krA.pc : Int) - 1 + 1).toNat ∉ runStarts krA.prog.length 0 krA.prog ∧
    compareI (ccOf 0) (krA.getS 0).toInt 0 = true ∧ compareI (ccOf 1) (krA.getS 0).toInt 0 = false ∧
    ({ krA with pc := 0 } : KState).pc < krA.prog.length ∧ krA.prog.length ≤ krA.pc := by
  decide +kernel

/-- Mask stacks empty, full and between; offsets negative, misaligned, past the end and at the last place; a stripe in and out
of the source. -/
theorem witness_KioskLanes :
    let m : Vector W32 16 := krA.masks
    krA.mstack = [] ∧ ({ krA with mstack := [m, m, m, m] } : KState).mstack.length = 4 ∧ krA.mstack.length ≠ 4 ∧
    (-4 : Int) < 0 ∧ (2 : Int) % 4 ≠ 0 ∧ (krA.run.dlen : Int) < 4 + 512 * 4 ∧ ¬ ((krA.run.dlen : Int) < 0 + 512 * 4) ∧
    krA.run.dstVa.toNat + krA.run.dlen < 2 ^ 64 ∧ krA.run.dst = [{ va := krA.run.dstVa, pa := 0x1800, kind := .cached, len := 2048 }] ∧
    (krA.getS 0).toNat < krA.run.slen / 32768 ∧ krA.run.slen / 32768 ≤ 1 ∧ (sK krA).poison = [] := by
  decide +kernel

/-- A saved and a queued run on a free Kiosk; a run with an open row, an access to it and to another, and postponed refreshes. -/
theorem witness_KioskEvents :
    (let s (k : Kiosk) : State := { sA wA with kiosks := [(0, k)] }
     let saved : Kiosk := { Kiosk.init with saved := [krA] }
     let queued : Kiosk := { Kiosk.init with queue := [krA.run] }
     let rows : Kiosk := { Kiosk.init with run := some krA, openRow := [(0, 0)], waiting := [(0, none)] }
     ((s saved).kiosk 0).run = none ∧ saved.saved.findIdx? (fun r => (s saved).advances r.run.ctx .kiosk) = some 0 ∧
       queued.queue.findIdx? (fun r => (s queued).advances r.ctx .kiosk) = some 0 ∧
       (s queued).owedIn krA.run.seq (krA.run.prog ++ krA.run.param ++ krA.run.desc) = false ∧
       (s queued).gated krA.run.warp krA.run.tok = false ∧ queued.run = none ∧
       (∀ r ∈ queued.saved, (s queued).advances r.run.ctx .kiosk = false) ∧ rows.openRow ≠ [] ∧ rows.waiting ≠ [] ∧
       tget rows.openRow (bankOf 0) = some 0 ∧ 0 = rowOf 0 ∧ bankOf 0x8000 = bankOf 0 ∧ 0 ≠ rowOf 0x8000 ∧ krA.paused = false) ∧
    ∃ p ∈ [((0 : Nat), 255)], Config.allow.toNat ≤ p.2 :=
  ⟨by decide +kernel, _, .head _, Nat.le_of_lt_succ Config.allow.isLt⟩

/-- A bf16 load of 32 rows at 0x2000. -/
def eB : FmtE := { e0 with imm20 := 0xA0020 }
def loadRows : List (Word × Nat) := (countFrom 0 32).map fun i => (0x2000 + BitVec.ofNat 64 (i * 64), 64)

/-- A load within its limits whose rows translate, from memory an operand may lie in; rows that do not translate; operands in
uncached memory; a stride and a source out of limits; a q4 load; a scale plane. -/
theorem witness_CubeLoads :
    let w := wC 0x2000 64 0x2800
    lFmt eB = some .bf16 ∧ lK eB = 32 ∧ lFmt { eB with imm20 := 0x80020 } ≠ lFmt eB ∧ lWS { eB with imm20 := 0xA4020 } = true ∧
    ((w.getS 3).toNat < 2 ^ 20 ∧ (w.getS 3).toNat % 2 = 0 ∧ (w.getS 2).toNat % 2 = 0) ∧ (0x2001 : Word).toNat % 2 ≠ 0 ∧
    (match planesAt (sC 0x2000 64 0x2800) w.who [(2, 0x2000, loadRows), (1, 0x2800, [(0x2800, 32)])] with
     | .ok (_, xl) => (xl.all fun x => sourceFault w.who x == none) && hasRoom (sC 0x2000 64 0) 0 w (.cube (.ldb 0 .bf16 32 0x2000 64 none) 0 0xF xl)
     | .error _ => false) = true ∧
    (match planesAt (sC 0x5000 64 0x2800) w.who [(2, 0x5000, [(0x5000, 64)])] with | .ok _ => false | .error _ => true) = true ∧
    (match planesAt ({ sC 0x4000 64 0 with cores := [(0, { Core.init 0 with tlb := [{ placeTlb with vbase := 0x4000, ty := 3 }] })] })
        w.who [(2, 0x4000, [(0x4000, 64)])] with
     | .ok (_, xl) => xl.any fun x => (sourceFault w.who x).isSome
     | .error _ => false) = true := by
  decide +kernel

/-- A set that holds a bf16 plane of 32 rows, so that a contraction over four bands is legal; an absent set. -/
def planeB : Plane := { fmt := .bf16, k := 32, elems := List.replicate 1024 0x3F80, scales := [] }
def sM (w : Warp) (b : Option Plane) : State :=
  { sA w with cores := [(0, { Core.init 0 with tlb := [placeTlb, capTlb], owner := some 0, array := { ArrayState.init with set0 := { StSet.absent with b := b } } })] }
def eC : FmtE := { e0 with long := true, imm64 := 0x00400000A0000000 }

theorem witness_CubeContractions :
    let w := wC 0x2000 0 0
    mFA eC = some .bf16 ∧ mSet eC = 0 ∧ mNT eC = 1 ∧ mAstr eC = 64 ∧
    shapeOk w.ashape .none .bf16 .bf16 (setAhead (sM w (some planeB)) w 0) = true ∧
    shapeOk w.ashape .none .bf16 .bf16 (setAhead (sM w none) w 0) = false ∧
    (match planesAt (sM w (some planeB)) w.who [(2, 0x2000, loadRows)] with
     | .ok (_, xl) => xl.all fun x => sourceFault w.who x == none
     | .error _ => false) = true := by
  decide +kernel

/-- A refused contraction whose set holds a plane that fits it, and one whose set another warp has left without one (R340). -/
theorem witness_RefusedContraction :
    let b : CmdBody := .cube (.mac .none 0 .bf16 .bf16 0x2000 0 64 0 none true 0 1) 0 wA.ashape []
    let c : Cmd := { body := b, d := 1, ipc := 0, tok := 1 }
    let w : Warp := { wA with wait := .refused c }
    (sM w (some planeB)).warp? 0 = some w ∧ hasRoom (sM w (some planeB)) 0 w b = true ∧
    shapeOk wA.ashape .none .bf16 .bf16 (setAhead (sM w (some planeB)) w 0) = true ∧
    (sM w (some planeB)).guardHits w.ctx w.core b.guarded = [] ∧ Clashes (sM w (some planeB)) w b = false ∧
    (match cubePlaces (sM w (some planeB)) w.who (planesOf (sM w (some planeB)) w .none 0 .bf16 .bf16 0x2000 0 64 0 none 1) with
     | .ok (u, yl) => (yl.map Xlat.len).sum == bytesOf (planesOf (sM w (some planeB)) w .none 0 .bf16 .bf16 0x2000 0 64 0 none 1)
         && decide ((u.core w.core).cq.length < 16)
     | _ => false) = true ∧
    bytesOf (planesOf (sM w (some planeB)) w .none 0 .bf16 .bf16 0x2000 0 64 0 none 1) = 2048 ∧
    (match cubePlaces (sM w (some planeB)) w.who (planesOf (sM w (some planeB)) w .none 0 .bf16 .bf16 0x5000 0 64 0 none 1) with
     | .error (.trap _) => true
     | _ => false) = true ∧
    hasRoom (sM w none) 0 w b = true ∧ shapeOk wA.ashape .none .bf16 .bf16 (setAhead (sM w none) w 0) = false := by
  decide +kernel

/-- A grid that holds one tile per block. -/
def gridA : Grid :=
  { ctx := 0, inst := 1, depth := 1, parent := none, retired := false, round := 0, committing := false
    recd := { entry := 0, gx := 1, gy := 1, gz := 1, shape := 0, det := false, persist := false, phased := false, threads := 32
              scratch := 0, accT := 1, regs := 64, carry := 0, bpc := 1, splen := 0, param := 0, cbase := 0, clen := 0
              spill := 0, roles := [] } }
def sG (w : Warp) : State := { sA w with grids := [(0, gridA)], blocks := [(0, { cluster := 0, rank := 0, sbase := [(0, 0)], abase := [(0, 0)], phase := 0, nextPhase := false, parked := false, freed := false })] }

/-- A tile within the block's allocation and one beyond it, with a place; shapes that are legal and not; log indices at their
limit and beyond. -/
theorem witness_CubeTileCommands :
    let w := wA.setS 2 0
    (((w.grid? (sG w)).map fun g => g.recd.accT).getD 0 = 1) ∧
    (match windowPlace (sG w) w.who .store accWindow 4096 with | .ok _ => true | .error _ => false) = true ∧
    (match windowPlace (sA w) w.who .store accWindow 4096 with | .ok _ => true | .error _ => false) = false ∧
    ((0x4F : W32).toNat < 128 ∧ (0x4F : W32).toNat / 16 ≤ 4 ∧ onesIn 4 (0x4F : Word) = 4) ∧ onesIn 4 (0x7 : Word) = 3 ∧
    ¬ (0x5F : W32).toNat / 16 ≤ 4 ∧ (15 : Word) ≤ 15 ∧ (15 : Word) < 16 := by
  decide +kernel

/-- A queued entry. -/
def entC (seq prio wait : Nat) (cmd : CubeCmd) (st : CubeSt) : CubeEnt :=
  { seq := seq, ctx := 0, warp := 0, num := seq, cmd := cmd, prio := prio, wait := wait, since := 0, born := BitVec.ofNat 64 seq, st := st, step := 0, ashape := 0xF
    xl := [{ va := 0x2000, pa := capBase, kind := .cap, len := 4096 }], sc := [], tok := 1 }
def sE (l : List CubeEnt) : State :=
  { sM wA (some planeB) with cores := [(0, { (sM wA (some planeB)).core 0 with cq := l })], ev := { unit := .tile } }

/-- Of two entries the higher; of equals the older; one raised by waiting; an entry for an array that another context holds while
none runs. -/
theorem witness_MatrixDispatch :
    let lo := entC 1 0 0 (.zero 1) .queued
    let hi := entC 2 3 0 (.zero 2) .queued
    let aged := entC 3 0 (9 * 4096) (.zero 4) .queued
    (sE [lo, hi]).takeEnt 0 .tile = some hi ∧ (sE [lo, entC 2 0 0 (.zero 2) .queued]).takeEnt 0 .tile = some lo ∧
    (sE [lo, hi, aged]).takeEnt 0 .tile = some aged ∧ (sE [lo, entC 2 3 0 (.zero 1) .queued]).takeEnt 0 .tile = some lo ∧
    (∀ y ∈ [lo, hi], ∀ z ∈ [lo, hi], y.seq ≤ z.seq → y.born ≤ z.born) ∧
    lo.wait / 4096 < (lo.wait + ((4096 : Word) - lo.since).toNat) / 4096 ∧
    (∀ x ∈ [lo, hi], x.cmd.unit = (sE []).ev.unit → x.st ≠ .running) ∧ ((sE [lo]).core 0).owner = some lo.ctx ∧
    ((sE [lo]).core 0).cq[(sE [lo]).ev.y]? = some lo ∧ lo.waiting = true ∧ ((sE [lo]).core 0).paused = false ∧
    (sE [lo]).gated lo.warp lo.tok = false := by
  decide +kernel

/-- A running contraction whose lines are present; entries of each unit that can retire; bands powered, unpowered and unused. -/
theorem witness_CubeWork :
    let mac : CubeCmd := .mac .none 0 .bf16 .bf16 0x2000 0 64 0 none true 0 1
    let e := entC 1 0 0 mac .running
    let s : State := { sE [e] with ev := { y := 0 } }
    (s.core 0).cq.find? (fun e => e.cmd.unit = .compute && e.st == .running) = some e ∧ kstepReady s 0 e = true ∧
    (macShape e .none .bf16 .bf16 (((s.core 0).arrayOf 0).set 0)).steps = 1 ∧
    (∀ x ∈ [entC 1 0 0 mac .done, entC 1 0 0 (.zero 1) .running, entC 1 0 0 (.ldk 0 .bf16 32 0x2000) .running],
      let t : State := { sE [x] with ev := { y := 0 } }
      (t.core 0).cq[t.ev.y]? = some x ∧ canRetire t x = true ∧ t.advances 0 .cube = true ∧ (∀ y ∈ x.xl, y.kind ≠ .reg)) ∧
    (let x : CubeEnt := { entC 1 0 0 (.drain 0 0 false) .running with xl := [{ va := accWindow, pa := 0x1000, kind := .scratch, len := 4096 }] }
     let t : State := { sE [x] with ev := { y := 0 } }
     (t.core 0).cq[t.ev.y]? = some x ∧ canRetire t x = true ∧ x.step < 31 ∧ (∀ y ∈ x.xl, y.kind ≠ .reg) ∧ Memory.wf t.mem = true) ∧
    (let x := entC 2 3 0 (.mac .none 1 .bf16 .bf16 0x2000 0 64 0 none true 1 1) .queued
     let t : State := { sE [e, x] with cores := [(0, { (sE [e, x]).core 0 with bands := 0 })], ev := { y := 0 } }
     kstepReady t 0 e = false ∧ t.bestEnt 0 .compute = some x ∧ e.level t.clock < x.level t.clock ∧
       shareTile e.cmd x.cmd = false ∧ shareSet e.cmd x.cmd = false) ∧
    (s.core 0).bands.getLsbD 0 = true ∧ (Core.init 0).cq = [] ∧ ({ Core.init 0 with bands := 0xE } : Core).bands.getLsbD 0 = false ∧
    (TlSet.init.early = [] ∧ TlSet.init.doneOf 5 = BitVec.ofNat 64 1 - 1) := by
  decide +kernel

/-- A running contraction and loads that can retire, whose operands lie in memory that the tile path reads afresh; a shifted row
whose warp is there. -/
theorem witness_CubeValues :
    let mac : CubeCmd := .mac .none 0 .bf16 .bf16 0x2000 0 64 0 none true 0 1
    let s (e : CubeEnt) : State := { sE [e] with ev := { y := 0 } }
    (let e := entC 1 0 0 mac .running
     ((s e).core 0).cq.find? (fun e => e.cmd.unit = .compute && e.st == .running) = some e ∧ kstepReady (s e) 0 e = true ∧ Plain (s e) 0 e ∧
       (((s e).core 0).arrayOf e.ctx).set 0 = { StSet.absent with b := some planeB } ∧ (DT.bf16 : DT) ≠ .q4) ∧
    (∀ c ∈ [CubeCmd.ldb 0 .bf16 32 0x2000 64 none, .ldb 0 .bf16 32 0x2000 64 (some 0x2C00), .ldb 0 .q4 32 0x2000 64 none, .ldg 0 .bf16 32 0x2000 64,
        .ldk 1 .f32 32 0x2000],
      let e := entC 1 0 0 c .running
      ((s e).core 0).cq[(s e).ev.y]? = some e ∧ canRetire (s e) e = true ∧ (s e).advances 0 .cube = true ∧ Plain (s e) 0 e) ∧
    (let e := { entC 1 0 0 (.shift 1 31 true 0xFFFFFFFF 40) .running with xl := [] }
     ((s e).core 0).cq[(s e).ev.y]? = some e ∧ canRetire (s e) e = true ∧ (s e).warp? e.warp = some wA) := by
  unfold Plain; decide +kernel

/-- A context that holds core 0's plane. -/
def sL (w : Warp) : State := { sQ w with lpown := [(0, 0x100)] }
def wornPlane : LPlane := { LPlane.init with bud := [(lineKey true 9, 0)] }

/-- The plane held and not; worn and not; lines at their limit and beyond; a budget of 32 bits and beyond; a line of memory for a
selection register. -/
theorem witness_PlaneIssue :
    let w := wQ 0x2000
    let c : PlaneCmd := .gate 2 false 0 0 0 0 9
    let v := w.setSel 0 1
    (sL w).ownsPlane w = true ∧ (sQ w).ownsPlane w = false ∧ wearTrap (sL w) 0 w c = none ∧ g0.sel.toNat = 0 ∧ g0.out.toNat = 9 ∧
    (wearTrap ({ sL v with planes := [(0, wornPlane)] }) 0 v c).isSome = true ∧ hasRoom (sL w) 0 w (.plane c) = true ∧
    (w.setS 2 1023).getS 2 = 1023 ∧ 1023 < ((w.setS 2 1024).getS 2).toNat ∧ ((w.setS 2 0xFFFFFFFF).getS 2).toNat < 2 ^ 32 ∧
    2 ^ 32 ≤ ((w.setS 2 0x100000000).getS 2).toNat ∧
    (match resolve (sL w) w.who .load 0x2000 128 true with
     | .ok (u, pa, k) => k != .peer && (wearTrap u 0 w (.selM 0 pa k)).isNone
     | .error _ => false) = true := by
  decide +kernel

/-- Wear: the output line past its budget; a crossing line past it, the lowest of two; none; nothing selected; an entry that raises no
counter (R402). -/
theorem witness_PlaneWearCheck :
    let v := wA.setSel 0 0x12
    let s (bud : List (Nat × W32)) : State := { sL v with planes := [(0, { LPlane.init with bud := bud })] }
    let g : PlaneCmd := .gate 2 false 0 0 0 0 9
    let fault (n : Word) : Option Trap := some { cause := Cause.planeWear, faddr := n }
    v.selAt 0 ≠ 0 ∧ (v.selAt 0).getLsbD 1 = true ∧ (v.selAt 0).getLsbD 4 = true ∧ wA.selAt 0 = 0 ∧
    wearTrap (s [(lineKey true 9, 0)]) 0 v g = fault (1024 + 9) ∧ wearTrap (s [(lineKey false 1, 0), (lineKey false 4, 0)]) 0 v g = fault 1 ∧
    wearTrap (s []) 0 v g = none ∧ wearTrap (sL wA) 0 wA g = none ∧ wearTrap (s [(lineKey true 9, 0)]) 0 v (.stat false 3) = none ∧
    wearTrap (s [(lineKey true 3, 0)]) 0 v (.wrv true 3 1 lanesZero) = fault (1024 + 3) ∧
    wearTrap (s [(lineKey false 5, 0)]) 0 v (.wrv true 3 1 lanesZero) = fault 5 := by decide +kernel

/-- An entry of each kind that answers, at the head of its queue; the word that lpcnt delivers (R412). -/
theorem witness_PlaneResults :
    let e (c : PlaneCmd) : PlaneEnt := { seq := 1, ctx := 0, warp := 0, num := 1, cmd := c, tok := 1 }
    let w : Warp := { wA with pend := [{ tok := 1, flag := none, ready := false, writes := [] }] }
    let s (c : PlaneCmd) : State := { sL w with cores := [(0, { Core.init 0 with pq := [e c] })]
                                                planes := [(0, { LPlane.init with cnt := [(lineKey false 7, 3)], bud := [(lineKey false 7, 9)] })] }
    (∀ c ∈ [PlaneCmd.rdv false 7 0xFFFFFFFF 4, .cnt false 7 5, .stat false 5, .stat true 5, .statIss 5],
      (s c).planeHead (s c).ev.x = some (e c) ∧ planeWaits (s c) (e c) = false ∧ (s c).warp? (e c).warp = some w) ∧
    (match exec .planeEntryPerform (s (.cnt false 7 5)) with | .next t => (t.warp? 0).map fun v => v.getS 5 | _ => none) =
      some 0x900000003 := by decide +kernel

/-- A plane whose maps are the identity keeps its lines apart and in; two selected lines; an entry at the head. -/
theorem witness_Planes : LPlane.init.mapsApart ∧ LPlane.init.mapsIn ∧
    (0 : Nat) < 1024 ∧ (1023 : Nat) < 1024 ∧ (9 : Nat) ≠ 0 ∧
    (3 : BitVec 1024).getLsbD 0 = true ∧ 2 ≤ ((List.range 1024).filter fun x => (3 : BitVec 1024).getLsbD x).length ∧
    ((List.range 1024).filter fun x => (1 : BitVec 1024).getLsbD x).length < 2 := by
  refine ⟨fun c x y _ _ h => ?_, fun c x h => ?_, by decide +kernel, by decide +kernel, by decide +kernel, by decide +kernel, by decide +kernel⟩ <;>
    cases c <;> simpa [LPlane.line, LPlane.init, tgetD, tget] using h

/-- The wear of a gate over one line counts below its budget; an entry of each kind at the head of the queue, its number next. -/
theorem witness_PlaneWearAndOrder :
    ∀ c ∈ [PlaneCmd.gate 2 false 0 0 0 0 9, .init true 3 1023, .selV 1 5, .stat true 3],
      let e : PlaneEnt := { seq := 1, ctx := 0, warp := 0, num := 1, cmd := c, tok := 1 }
      let s : State := { sL wA with cores := [(0, { Core.init 0 with pq := [e] })] }
      s.planeHead s.ev.x = some e ∧ planeWaits s e = false ∧ s.warp? e.warp = some wA ∧ (s.tl 0 0).early = [] ∧
        (s.tl 0 0).doneOf 7 = BitVec.ofNat 64 e.num - 1 := by
  decide +kernel
/-- The descriptor of a node of one row of four f32 elements at an address. -/
def nodeB (home op : Nat) : List Byte :=
  natBytes 8 home ++ natBytes 4 0 ++ natBytes 2 1 ++ natBytes 2 4 ++ [8, BitVec.ofNat 8 op, 0, 0] ++ natBytes 108 0
/-- A LEAF (handle 256) and a pending EWISE over it (handle 257), both in the capacity tier. -/
def leafN : Node :=
  { idx := 0, gen := 1, made := .leaf, kind := .leaf, desc := parseNode (nodeB 0x2200 0), inputs := [], dropped := false
    dropNew := false, slot := 0, ashape := 0xF, pc := 0, regctr := 0, ord := 0, ranges := 1 }
def ewiseN : Node := { leafN with idx := 1, made := .ewise, kind := .ewise, desc := parseNode (nodeB 0x2280 8), inputs := [0], ord := 1, ranges := 0 }
def wN (a b : Word) : Warp :=
  { (wA.setS 2 a).setS 3 b with perg := { Perg.init with nodes := [leafN, ewiseN], created := 2 }, tmode := { TMode.init with nq := 8, rq := 8, ecnt := 4 } }
def sN (w : Warp) (b : List Byte) : State := { sQ w with mem := memWriteN [] 0x1100 b }

/-- A LEAF and an EWISE whose checks pass, with room; a descriptor out of its limits, a misaligned home, a handle that names
nothing and one too many. -/
theorem witness_NodesCreated :
    let w := wN 0x1100 256
    let s := sN w (nodeB 0x2300 8)
    (readIssue s w 0x1100 128 128).isOk = true ∧ fieldB (nodeB 0x2300 8) 0 8 = 0x2300 ∧ (nodeB 0x2300 8).length = 128 ∧
    descOk .ewise (nodeB 0x2300 8) = true ∧ descOk .leaf (nodeB 0x2300 8) = false ∧ descOk .leaf (nodeB 0x2300 0) = true ∧
    (∀ k ∈ [NodeKind.leaf, .ewise], placeFault s w.who (k == .leaf) 4 (parseNode (nodeB 0x2300 8)).home = none) ∧
    (placeFault s w.who false 4 (parseNode (nodeB 0x2302 8)).home).isSome = true ∧
    ((inputHandles w .ewise e0).take 1).map w.perg.find = [leafN].map some ∧ (∀ h ∈ (inputHandles w .ewise e0).drop 1, h = 0) ∧
    w.perg.find 999 = none ∧ ((wN 0 0x10000000100).getS 3).toNat / 2 ^ 32 ≠ 0 ∧
    inputsFault w .ewise (parseNode (nodeB 0x2300 8)) [leafN] = none ∧ w.perg.freeIdx w.tmode.nq = some 2 ∧
    w.perg.used + (sourceRanges .leaf (parseNode (nodeB 0x2300 0))).length ≤ w.tmode.rq := by
  decide +kernel

/-- The shape of the others: descriptors that each kind takes. -/
theorem witness_NodesCreated_kinds :
    let d (k : Nat) : List Byte := (nodeB 0x2300 0).take 0x28 ++ natBytes 4 k ++ natBytes 84 0
    descOk .rowred ((d 4).take 0xE ++ natBytes 2 1 ++ (d 4).drop 0x10) = true ∧ descOk .contract (d 32) = true ∧
    descOk .map (d 0) = true ∧ descOk .cast (d 0) = true := by
  decide +kernel

/-- A tstore's evaluation that ends, in both modes: a force of the pending node that stores its four elements at 0x2400. -/
theorem witness_Demands_store :
    let x : Rect := { r0 := 0, c0 := 0, rows := 1, cols := 4 }
    ∀ det ∈ [false, true], let w : Warp := { wN 257 0x4000100000000 with det := det }
      (match storePlaces (sN w []) w 4 0x2400 16 x with
       | .ok (_, xl) =>
         let v : Warp := { w with wait := .eval (.store 1 0 0 1 4 0x2400 16 xl 5) (if det then 0 else 1) 1 0 []
                                  pend := [{ tok := 1, flag := none, ready := false, writes := [] }] }
         let s := sN v []
         s.warp? 0 == some v && s.advances 0 .pergola && !s.gated 0 1 && v.perg.byIdx 1 == some ewiseN && !s.owedIn 0 xl
           && xl.all (fun y => y.kind != .peer)
           && (match demandWrites (s.logApart v) 0 v (if det then 0 else 1) 0 ewiseN x (fun tiles => storeRows tiles ewiseN x 0x2400 16 xl) with
               | .ok (u, ws) => (u.warp? 0).isSome && ws.length == 2 && ws.all fun y => y.kind == .cap
               | .error _ => false)
           && (match exec .pergolaEvalComplete s with
               | .next t => (t.tl 0 0).doneOf 6 == (if det then 0 else 1) && ((t.warp? 0).map fun v => v.held.isEmpty) == some (!det)
               | _ => false)
       | .error _ => false) = true := by
  decide +kernel

/-- A rectangle in and out of a node; a LEAF and a pending node whose home no other node depends on; strides; a destination; a
demand whose evaluation ends. -/
theorem witness_Demands :
    let w := wN 257 0x4000100000000
    let s := sN w []
    let x : Rect := { r0 := 0, c0 := 0, rows := 1, cols := 4 }
    w.perg.find 257 = some ewiseN ∧ w.perg.find 256 = some leafN ∧ w.perg.find 0 = none ∧
    ((w.getS 3).toNat / 2 ^ 32 % 2 ^ 16 = 1 ∧ (w.getS 3).toNat / 2 ^ 48 = 4 ∧ 4 ≤ ewiseN.desc.cols ∧ 1 ≤ ewiseN.desc.rows) ∧
    (match guardIssue s w [homeRng ewiseN.desc (x.grid ewiseN.desc)] with | .ok t => t == s | .error _ => false) = true ∧
    ewiseN.desc.fmt ≠ .q4 ∧ elemSize ewiseN.desc.fmt = 4 ∧
    (match storePlaces s w 4 0x2400 16 x with
     | .ok (u, _) => (match guardIssue u w [homeRng ewiseN.desc (x.grid ewiseN.desc), { base := 0x2400, row := 16, stride := 16, rows := 1 }] with
        | .ok t => t == u
        | .error _ => false)
     | .error _ => false) = true ∧
    (let v : Warp := { w with wait := .eval (.force 1 0 0 1 4 5) 1 1 0 [] }
     (sN v []).warp? 0 = some v ∧ (sN v []).advances 0 .pergola = true ∧ (sN v []).gated 0 1 = false ∧ v.perg.byIdx 1 = some ewiseN ∧ v.det = false ∧
     (match demandWrites (sN v []) 0 v 1 0 ewiseN x (fun _ => []) with
      | .ok (u, ws) => (u.warp? 0).isSome && ws.all fun y => y.kind != .reg && y.kind != .peer && y.kind != .uncached
      | .error _ => false) = true) := by
  decide +kernel

/-- Quotas that fit, that do not while another warp holds the table, and that are out of limits; nodes live and dropped; a LEAF
whose new home is in memory. -/
theorem witness_NodeTables :
    let w := { wN 256 0 with perg := Perg.init }
    let v : Warp := wN 256 0
    let big : Warp := { v with tmode := { TMode.init with nq := 256 } }
    (tmodeOk (sN w []) 0 w 8 = true ∧ (sN w []).quotaFits 0 0 (parseTmode 8) = true ∧ tmodeOk (sN w []) 0 w 0x200 = false) ∧
    ({ sN w [] with warps := [(0, w), (1, big)] } : State).quotaFits 0 0 (parseTmode 8) = false ∧
    v.perg.find 256 = some leafN ∧ leafN.dropped = false ∧ leafN.kind = .leaf ∧ v.getS 2 = 256 ∧ v.perg.find 300 = none ∧
    (match rangePlaces (sN v []) v .load 4 leafN.desc.home with
     | .ok (u, x) => (match rangePlaces u v .store 4 { leafN.desc.home with base := 0x2400 } with
        | .ok (u', y) => (u'.absentIn (x ++ y)).isEmpty && !u'.poisonIn x && y.all fun z => z.kind != .reg
        | .error _ => false)
     | .error _ => false) = true := by
  decide +kernel

/-- A pending contraction that a demand needs: its tile needs an entry of the matrix queue, which has room; its entry dispatched, with
its bands powered. -/
theorem witness_Demands_queue :
    let n : Node := { ewiseN with made := .contract, kind := .contract, desc := parseNode ((nodeB 0x2280 0).take 0x28 ++ natBytes 4 32 ++ natBytes 84 0) }
    let w : Warp := { wN 257 0 with perg := { Perg.init with nodes := [leafN, n], created := 2 }, wait := .eval (.force 1 0 0 1 4 5) 1 1 0 [] }
    let x : Rect := { r0 := 0, c0 := 0, rows := 1, cols := 4 }
    let s := sN w []
    s.warp? s.ev.x = some w ∧ s.advances w.ctx .pergola = true ∧ s.gated s.ev.x 1 = false ∧ w.perg.byIdx 1 = some n ∧
    (match demandWrites s s.ev.x w 1 0 n x (fun _ => []) with
     | .error (_, .entry k a) => k == s.ev.x && a == n.ashape
     | _ => false) = true ∧
    (∀ e ∈ (s.core w.core).cq, e.isEval 0 = false) ∧ (s.core w.core).cq.length < 16 ∧
    (let e : CubeEnt := { s.evalEntry 0 w 0xF with st := .running }
     let u : State := { s with cores := [(0, { s.core 0 with cq := [e], bands := 0xF })] }
     (u.core w.core).cq.find? (fun e => e.isEval u.ev.x) = some e ∧ e.ashape.extractLsb' 0 4 &&& ~~~(u.core w.core).bands = 0 ∧
       (u.core w.core).paused = false) := by
  decide +kernel

/-- An evaluation of an EWISE over a LEAF, its reads from memory that no cache holds; a tile of every kind that evaluates, over inputs
whose elements are sound; two inputs; a MAP's place inside its input and beyond it; a NaN and a scaled cast. -/
theorem witness_EvaluationValues :
    let n (k : NodeKind) (op : Nat) (ins : List Nat) : Node := { ewiseN with kind := k, made := k, desc := parseNode (nodeB 0x2280 op), inputs := ins }
    let w : Warp := wN 257 0
    let s := sN w []
    let x := evalFor 0 0 w false 0 1
    let rect : Rect := { r0 := 0, c0 := 0, rows := 1, cols := 4 }
    (match evaluate x s w ewiseN rect with | .ok (_, l) => l.length == 2 | .error _ => false) = true ∧
    neededTiles leafN.desc (((needsOf w.perg ewiseN rect).filter fun y => y.1 = leafN.idx).map Prod.snd) = [(0, 0)] ∧
    (match operandRange s x.who .load true 0x2200 16 with
     | .ok (u, l) => (x.waits u l).isEmpty && u.poison.isEmpty && (u.core 0).tc.isEmpty && l.all fun y => y.kind == .cap
     | .error _ => false) = true ∧ x.held = [] ∧ x.over leafN = [] ∧
    (match evalTile x w.perg leafN { s := s, tiles := [] } (0, 0) with
     | .ok env => env.tiles.length == 1 && (elemBad env.tiles ewiseN leafN 0 3).isNone &&
         [n .ewise 15 [0], n .ewise 2 [0, 0], n .rowred 0 [0], n .rowred 1 [0], n .map 0 [0], n .cast 0 [0], n .contract 0 [0, 0]].all
           fun m => (match evalTile x w.perg m env (0, 0) with | .ok e => e.tiles.length == 2 | .error _ => false)
     | .error _ => false) = true ∧
    ((n .ewise 0 [0, 0]).inputs[1]?).bind w.perg.byIdx = some leafN ∧ (ewiseN.inputs[1]?).bind w.perg.byIdx = none ∧
    (match demandWrites s 0 { w with wait := .eval (.force 1 0 0 1 4 5) 1 1 0 [] } 1 0 ewiseN rect (fun _ => []) with
     | .ok (_, ws) => ws.length == 1 && ws.all fun y => y.kind == .cap
     | .error _ => false) = true := by
  decide +kernel
/-- A launch record of one cluster of one block of that many threads. -/
def recB (threads : Nat) : List Byte :=
  natBytes 8 0 ++ natBytes 2 1 ++ natBytes 2 1 ++ natBytes 2 1 ++ [0, 0] ++ natBytes 2 threads ++ natBytes 2 0 ++ natBytes 2 0
    ++ natBytes 2 64 ++ [0, 1] ++ natBytes 102 0

/-- A record within its limits and one without threads; depths at the limit; a block's first warp and another; both modes; an
instance that has retired, one that has not, one that was never created. -/
theorem witness_Launches :
    let w := wA.setS 2 0x1100
    let s : State := { sA w with mem := memWriteN [] 0x1100 (recB 32), cores := [(0, { Core.init 0 with tlb := [placeTlb] })] }
    let g (r : Bool) : State := { s with grids := [(0, { gridA with retired := r, depth := 10 })], ctxs := [(0, { Ctx.init with grids := 1 })] }
    (readIssue s w 0x1100 128 128).isOk = true ∧ recordOk (recB 32) = true ∧ recordOk (recB 0) = false ∧ w.depth s < 10 ∧
    10 ≤ w.depth (g true) ∧ w.wid = 0 ∧ s.unretired 0 < 4096 ∧ ((g true).ctx 0).grids = 1 ∧
    s.unperformed s.cur = false ∧ ({ s with rels := [{ warp := 0, tok := 1, op := .tladv 15 1 }] } : State).unperformed 0 = true ∧
    (match readIssue { s with rels := [{ warp := 0, tok := 1, op := .tladv 15 1 }] } w 0x1100 128 128 with | .ok _ => true | _ => false) = true ∧
    (∃ p ∈ (g true).grids, p.2.ctx = 0 ∧ p.2.inst = 1 ∧ p.2.retired = true) ∧
    ¬ (∃ p ∈ (g false).grids, p.2.ctx = 0 ∧ p.2.inst = 1 ∧ p.2.retired = true) := by
  decide +kernel

/-- A phased record carried in a scratchpad slot. -/
def gridP (r : LaunchRec) : Grid := { gridA with recd := r }
def sH (r : LaunchRec) (w : Warp) : State := { sG w with grids := [(0, gridP r)] }

/-- No record, one that is not phased, a window that a call moved; a phased one in both modes, with its lines present; a persistent
grid with and without a request. -/
theorem witness_PhasesAndYields :
    let r : LaunchRec := { gridA.recd with phased := true, carry := 2, scratch := 1 }
    let p : LaunchRec := { gridA.recd with persist := true }
    wA.recd (sA wA) = none ∧ wA.recd (sH gridA.recd wA) = some gridA.recd ∧ gridA.recd.phased = false ∧
    wA.recd (sH r wA) = some r ∧ wA.winbase = 0 ∧ ({ wA with winbase := 8 } : Warp).winbase ≠ 0 ∧ wA.allReady = true ∧
    guardIssue (sH r wA) wA [recordRng (sH r wA) wA r] = .ok (sH r wA) ∧ recordAbsent (sH r wA) wA r = [] ∧
    Memory.wf (sH r wA).mem = true ∧
    (((wA.recd (sH p wA)).map fun r => r.persist).getD false &&
      (({ sH p wA with cores := [(0, { Core.init 0 with migreq := true })] } : State).core 0).migreq) = true ∧
    (((wA.recd (sH p wA)).map fun r => r.persist).getD false && ((sH p wA).core 0).migreq) = false := by
  decide +kernel

/-- A deque granted and not; a value without an instance; with room and full; an entry live, all cancelled. -/
theorem witness_TaskDeques :
    let e : Word := 0x10000000001
    let s (l : List Word) (c : List Nat) : State :=
      { sA wA with quads := [(0, { deques := if l.isEmpty then [] else [(0, l)], pushes := [], tlb := [], qvf := Qvf.init 0, tqcfg := [(0, 0x100)] })]
                   ctxs := [(0, { Ctx.init with cancels := c })] }
    (s [] []).unperformed 0 = false ∧ ({ s [] [] with ordbuf := [bufO 1 true] } : State).unperformed 0 = true ∧
    (s [] []).ownsDeque wA 0 = true ∧ (sA wA).ownsDeque wA 0 = false ∧ (0 : Word).toNat < 2 ^ 40 ∧ 2 ^ 40 ≤ e.toNat ∧
    ((s [e] []).deque 0 0).length < 256 ∧ 256 ≤ ((s (List.replicate 256 e) []).deque 0 0).length ∧
    (((s [e] []).deque 0 0).find? fun e => !((s [e] []).ctx 0).cancels.contains (e.toNat / 2 ^ 40)) = some e ∧
    (((s [e] [1]).deque 0 0).find? fun e => !((s [e] [1]).ctx 0).cancels.contains (e.toNat / 2 ^ 40)) = none := by
  decide +kernel

/-- A full deque to which a warp of a higher core has pushed in the cycle; a waiting pop, its quad's clock at a cycle. -/
theorem witness_TaskDeques_cycle :
    let e : Word := 0x10000000001
    let p : Push := { q := 0, core := 1, wid := 0, warp := 1, d := 5 }
    let q : Quad := { deques := [(0, List.replicate 256 e)], pushes := [p], tlb := [], qvf := Qvf.init 0, tqcfg := [(0, 0x100)] }
    let v : Warp := { wA with wait := .tqpop 0 0 5 1 }
    let s : State := { sA v with quads := [(0, q)] }
    256 ≤ (s.deque 0 0).length ∧ (wA.core < p.core ∨ (wA.core = p.core ∧ wA.wid < p.wid)) ∧
    (∀ r ∈ (s.quad 0).pushes, r.q = 0 → r ≠ p → coreWidLt r.core r.wid p.core p.wid = true) ∧
    s.warp? 0 = some v ∧ v.status = .live ∧ v.det = false ∧ (s.quad 0).qvf.ticks = true := by
  decide +kernel

/-- An instance that can be named and one that cannot; a table with room, full, and full with the instance in it; a cancel that
every deque has still to apply. -/
theorem witness_Cancels :
    let full : Ctx := { Ctx.init with cancels := (List.range 16).map (· + 1) }
    let w : Warp := { wA with wait := .cancel false 3 }
    let s : State := { sA w with ctxs := [(0, { Ctx.init with pendCancel := [(0, false, 3)] })] }
    (1 ≤ (5 : Word).toNat ∧ (5 : Word).toNat < 2 ^ 24) ∧ ¬ 1 ≤ (0 : Word).toNat ∧ ¬ (0x1000000 : Word).toNat < 2 ^ 24 ∧
    Ctx.init.cancelTable.length < 16 ∧ ¬ full.cancelTable.length < 16 ∧ 16 ∈ full.cancelTable ∧ 17 ∉ full.cancelTable ∧
    (s.ctx s.ev.x).pendCancel = [(0, false, 3)] ∧ s.warp? 0 = some w := by
  decide +kernel

/-- Each kind of wait, over and not over. -/
theorem witness_WaitsEnd :
    let s (x : Wait) : State := { sA { wA with wait := x } with clusters := [(0, cluB { Bar.init with ph := 7 })], grids := [(0, { gridA with retired := true })] }
    let w (x : Wait) : Warp := { wA with wait := x }
    (∀ x ∈ [Wait.waitt 0 0, .bar 0 6, .gwait 1, .migpt, .tlbisync, .yield], (s x).warp? (s x).ev.x = some (w x)) ∧
    wA.status = .live ∧ wA.qend = false ∧ 0 ≤ ((s (.waitt 0 0)).tl 0 0).doneOf 0 ∧ ¬ 1 ≤ ((s (.waitt 0 1)).tl 0 0).doneOf 0 ∧
    (({ s (.waitt 0 1) with tls := [] } : State).setTl 0 0 { TlSet.init with issued := TlSet.init.issued.set 0 1, dropped := [(0, 1)] }).droppedAt wA 0 1 = true ∧
    6 < (s (.bar 0 6)).barPhase wA 0 ∧ (s (.gwait 1)).instRetired 0 1 = true ∧ ((s .migpt).core 0).migreq = false ∧
    (s .tlbisync).invalidating 0 = false ∧
    (∀ p ∈ (s .yield).warps, p.1 ≠ 0 → p.2.core = 0 → p.2.ready = false ∨ (s .yield).barred p.1 p.2 = true) ∧
    ({ sA wA with ordbuf := [{ bufO 1 true with refused := some 0 }] } : State).barred 0 wA = true ∧
    (let t : State := { s (.tqpop 0 0 5 1) with quads := [(0, { deques := [(0, [0x10000000001])], pushes := [], tlb := [], qvf := Qvf.init 0, tqcfg := [] })] }
     (t.warp? 0 = some (w (.tqpop 0 0 5 1))) ∧ t.deque 0 0 = [0x10000000001] ∧ ((t.ctx 0).cancels.contains ((0x10000000001 : Word).toNat / 2 ^ 40)) = false) := by
  decide +kernel

/-- A held access whose lines are all on the device, so that a wait for a route is over. -/
theorem witness_WaitsEnd_route :
    let a : Access := { accO 0 with lanes := [] }
    let w : Warp := { wA with wait := .peer a }
    (sA w).warp? (sA w).ev.x = some w ∧ noRoute (sA w) a = false ∧ (startAccess (sA w) 0 { w with wait := .run } a).isOk = true := by
  decide +kernel

/-- A deterministic round whose one warp has ended its quantum with nothing held; a block whose next phase is due. -/
theorem witness_RoundsAndPhases :
    let r : LaunchRec := { gridA.recd with det := true }
    let w : Warp := { wA with det := true, qend := true }
    let s : State := sH r w
    tget s.grids s.ev.x = some (gridP r) ∧ commitDue s s.ev.x (gridP r) = true ∧ (gridP r).committing = false ∧
    (commitAll (s.rewindTables s.ev.x) (detOrder s s.ev.x)).2 = false ∧ (s.warps.map Prod.fst).Nodup ∧
    (∀ p ∈ s.warps, p.2.held = [] ∧ p.2.status = .live ∧ p.2.wait = .run ∧ p.2.grid = s.ev.x ∧ p.2.base = none) ∧ (∀ b ∈ s.blocks, b.2.nextPhase = false) ∧
    (let q : LaunchRec := { gridA.recd with phased := true }
     let u := sH q { wA with status := .phaseWait }
     let t : State := { u with clusters := [(0, cluB Bar.init)], blocks := u.blocks.map fun p => (p.1, { p.2 with nextPhase := true }) }
     (tget t.blocks t.ev.x).isSome = true ∧ t.detBlock t.ev.x = false ∧ (dispatchPhase t t.ev.x).isSome = true) := by
  decide +kernel

/-- A round that holds part way, at a store to a line that is absent; a launch that holds so. -/
theorem witness_RoundsAndPhases_hold :
    let a : Access := { kind := .store, dt := .b32, size := 4, scope := .core, ord := .relaxed, d := 0
                        lanes := [lnQ 0 0x3000 spBase .scratch zero4 []], ipc := 0, tok := 1 }
    let w : Warp := { wA with det := true, qend := true, held := [.acc a] }
    let r : LaunchRec := { gridA.recd with det := true }
    let s : State := { sH r w with cores := [(0, { Core.init 0 with absent := [(0, 1)] })] }
    commitDue s 0 (gridP r) = true ∧ (commitAll (s.rewindTables 0) (detOrder s 0)).2 = true ∧ (gridP r).committing = false ∧
    (let t : State := { s with grids := [(0, { gridP r with committing := true })] }
     ((w.grid? t).map fun g => g.committing) = some true) := by
  decide +kernel

/-- Entries of a commit: a copy that meets one outstanding, met now and met again past the cycle; an atomic at a line with an error, whose
fault ends its warp's entries but keeps the bytes of a conversion. -/
theorem witness_RoundsAndPhases_entries :
    let c : Cmd := { body := .copy 0 false [] [copyRng 0x1107 8 1 0], d := 1, ipc := 0, tok := 1 }
    let o : MemOp := { seq := 0, ctx := 0, warp := 0, ipc := 0, tok := 0, tl := 1, num := 1, gather := false, kb := false, pieces := []
                       dst := [copyRng 0x1100 8 1 0], err := false, kbDies := [], dead := [] }
    let a : Access := { kind := .atom .add, dt := .n32, size := 4, scope := .core, ord := .relaxed, d := 0
                        lanes := [lnQ 0 0x1100 0x1100 .cached zero4 []], ipc := 0, tok := 1 }
    let conv : HeldOp := .mat [{ kind := .cached, pa := 0x1200, data := [7] }] [] [] none true 0 (some (256, none))
    let w (l : List HeldOp) : Warp := { wA with det := true, held := l }
    let s (l : List HeldOp) : State := { sQ (w l) with cores := [(0, { (sQ wA).core 0 with ops := [o] })], poison := [lineOf 0x1100] }
    (clashOf (s []) (w []) c.body).isSome = true ∧
    (match accept (s []) 0 (w []) c with | .halt (.wait (.overlap ..)) => true | _ => false) = true ∧
    (match applyHeld (s [.cmd c]) 0 (w [.cmd c]) (.cmd c) with | .later (.overlap _ false) => true | _ => false) = true ∧
    ((((s [.overlap c false]).overlapCheck 0).warp? 0).map fun w => w.held) = some [.overlap c true] ∧
    (let l := [HeldOp.acc a, .acc a, conv]
     match applyHeld (s l) 0 (w l) (.acc a) with
     | .fail u t => (match commitFault u 0 (.acc a) [.acc a, conv] t with
        | some v => v.mem == (s l).mem && ((v.warp? 0).map fun w => w.held) == some [conv]
        | none => false)
     | _ => false) = true ∧
    (let p : Perg := { Perg.init with nodes := [leafN] }
     let x : Warp := { w [] with base := some (p, TMode.init) }
     ((({ s [] with warps := [(0, x)] } : State).rewindTables 0).warp? 0).map (fun v => v.perg) = some p ∧ x.grid = 0) := by
  decide +kernel

/-- Held entries: a store and an atomic that apply, whose result the warp owes; a store that an absent line holds; a command accepted
and one whose queue is full; a deque with room. -/
theorem witness_EntryApplies :
    let acc (k : AccKind) (pa : Nat) (x : LocKind) : Access :=
      { kind := k, dt := .n32, size := 4, scope := .core, ord := .relaxed, d := 0, lanes := [lnQ 0 0x1100 pa x zero4 []], ipc := 0, tok := 1 }
    let w : Warp := { wA with det := true, pend := [{ tok := 1, flag := none, ready := false, writes := [] }] }
    let s (h : HeldOp) : State := { sQ { w with held := [h] } with cores := [(0, { (sQ wA).core 0 with absent := [(0, 1)] })] }
    let st := acc .store 0x1100 .cached
    let away := acc .store spBase .scratch
    let c : Cmd := { body := .copy 0 false [] [], d := 1, ipc := 0, tok := 1 }
    let o : MemOp := { seq := 0, ctx := 0, warp := 0, ipc := 0, tok := 0, tl := 0, num := 1, gather := false, kb := false, pieces := [], dst := []
                       err := false, kbDies := [], dead := [] }
    ((s (.acc st)).warp? 0).map (fun w => w.held) = some [.acc st] ∧
    (∀ a ∈ [st, acc (.atom .add) 0x1100 .cached], (s (.acc a)).guardHits 0 0 (writeRngs a.kind a.size a.lanes) = [] ∧
      (s (.acc a)).anyAbsent a = false ∧ noRoute (s (.acc a)) a = false ∧ (lanesError (s (.acc a)) 0 true a a.lanes).isOk = true) ∧
    (s (.acc away)).anyAbsent away = true ∧ (s (.acc away)).guardHits 0 0 (writeRngs away.kind away.size away.lanes) = [] ∧
    (match accept (s (.cmd c)) 0 w c with | .ok .. => true | _ => false) = true ∧
    (match accept { s (.cmd c) with cores := [(0, { Core.init 0 with ops := List.replicate 48 o })] } 0 w c with | .full => true | _ => false) = true ∧
    ((s .pfence).deque (quadOf w.core) 0).length < 256 := by
  decide +kernel

/-- A grid of one cluster that has not been admitted, and one that backs off; a block that may be parked, and one parked that fits
again; launches accepted; a user queue with a unit. -/
theorem witness_AdmissionAndQueues :
    let r : LaunchRec := { gridA.recd with accT := 0 }
    let s : State := { sH r wA with blocks := [], warps := [] }
    tget s.grids s.ev.y = some (gridP r) ∧ (gridP r).retired = false ∧ s.ev.z < r.clusters ∧ s.ev.x < 4 ∧
    (s.clusterOf 0 0 (gridP r)).2.admitted = false ∧ s.advances 0 .warps = true ∧ (s.clusterOf 0 0 (gridP r)).2.backoff = none ∧
    (placeOnDie s 0 0 0 (gridP r)).isSome = true ∧
    (let u : State := s.backOff 0 0 0 (gridP r)
     let t : State := { u with clock := 0xFFFFFFFF }
     ∃ n, (t.clusterOf 0 0 (gridP r)).2.backoff = some n) := by
  refine ⟨by decide +kernel, by decide +kernel, by decide +kernel, by decide +kernel, by decide +kernel, by decide +kernel,
    by decide +kernel, by decide +kernel, _, rfl⟩

/-- A cluster that finds no place, at its first attempt and once its back-off has passed, and one that then finds one; warps and blocks
older than the cluster's. -/
theorem witness_AdmissionAndQueues_refused :
    let g (n : Nat) : Grid := gridP { gridA.recd with accT := 0, scratch := n }
    let s (n : Nat) : State := { sH (g n).recd wA with blocks := [], nextId := 1 }
    let q (s : State) (n : Nat) : Nat × Cluster := s.clusterOf 0 0 (g n)
    let t (n : Nat) : State := { (s n).setCluster (q (s n) n).1 { (q (s n) n).2 with attempt := 1, backoff := some 5 } with clock := 5, nextId := 2 }
    placeOnDie (s 60000) 0 0 0 (g 60000) = none ∧ ((s 60000).clusterOf 0 0 (g 60000)).2.backoff = none ∧
    (∀ p ∈ (s 1).warps, p.1 < (s 1).nextId) ∧ (∀ p ∈ (s 1).blocks, p.1 < (s 1).nextId) ∧ (placeOnDie (s 1) 0 0 0 (g 1)).isSome = true ∧
    ∀ n ∈ [1, 60000], let r := q (t n) n
      let v := (t n).setCluster r.1 { r.2 with backoff := none }
      r.2.backoff = some 5 ∧ 5 ≤ (t n).clock.toNat ∧ tget (t n).grids 0 = some (g n) ∧ r.2.admitted = false ∧
        v.clusterOf 0 0 (g n) = (r.1, { r.2 with backoff := none }) ∧ ((placeOnDie v 0 0 0 (g n)).isSome = true ↔ n = 1) := by
  decide +kernel

theorem witness_AdmissionAndQueues_parking :
    let w : Warp := { wA with wait := .waitt 0 1 }
    let c : Cluster := cluB Bar.init
    let s : State := { sG w with clusters := [(0, c)], dies := [(0, { Die.init 0 with parkcfg := 1 })] }
    let b : Block := { cluster := 0, rank := 0, sbase := [(0, 0)], abase := [(0, 0)], phase := 0, nextPhase := false, parked := false, freed := false }
    let v : Warp := { wA with status := .parked, wait := .waitt 0 0 }
    let p : State := { s with warps := [(0, v)], blocks := [(0, { b with parked := true })] }
    tget s.blocks s.ev.x = some b ∧ s.homeOf b = some (c, gridA) ∧
    s.blocksOf 0 = [(0, b)] ∧ mayPark s 0 b gridA = true ∧
    (let e : State := { s with warps := [(0, w), (1, { wA with block := 1, status := .exited })], blocks := [(0, b), (1, { b with rank := 1 })] }
     e.blocksOf 0 = [(0, b), (1, { b with rank := 1 })] ∧ mayPark e 0 b gridA = true ∧ e.blockDone 1 = true) ∧
    s.parkUsed 0 + sumNat ([(0, b)].map fun q => s.parkBytes q.1 q.2 gridA.recd) ≤ (s.die 0).parkcfg.toNat % 4096 * 2 ^ 20 ∧
    tget p.blocks 0 = some { b with parked := true } ∧ p.homeOf { b with parked := true } = some (c, gridA) ∧
    (∃ q ∈ p.warps, q.2.cluster = 0 ∧ q.2.status = .parked ∧ waitOver p q.1 q.2 = true) ∧ p.advances 0 .warps = true ∧
    (match reserveSlots p 0 c.cores with
     | some u => ((u.blocksOf 0).foldl (fun a q => a.bind fun s => s.unpark q.1 gridA.recd) (some u)).isSome
     | none => false) = true := by
  decide +kernel

/-- Memory of an allocation that moves, no other byte moving to or from there. -/
theorem witness_AdmissionAndQueues_moved :
    let l : List Move := [{ lo := 0x100, len := 2, dest := 0x200 }]
    Memory.wf (memWriteN [] 0x100 [1, 2]) = true ∧ movedTo l 0x100 ≠ 0x100 ∧ movedTo l 0x300 = 0x300 ∧
    (∀ c ∈ memWriteN [] 0x100 [1, 2], c.1 = movedTo l 0x100 → movedTo l c.1 ≠ c.1) := by
  decide +kernel

theorem witness_AdmissionAndQueues_queues :
    let s : State := { sA wA with boot := { Boot.init 0 with ready := true }, uq := [(0, { Uq.init with mapped := true, pend := 1 })] }
    s.boot.ready = true ∧ s.unretired 0 < 4096 ∧ (s.uqOf s.ev.x).mapped = true ∧ (s.uqOf s.ev.x).pend ≠ 0 ∧
    (readRecord { sQ wA with dies := [(0, Die.init 0)] } 0 0x1100).2 = none ∧
    (let u := s.uqOf s.ev.x
     let a := u.qaddr.toNat
     let rd := memWord s (a + 0x10)
     let v := s.putWord (a + 0x10) ((rd + 1) % 2 ^ 64)
     Memory.wf s.mem = true ∧
       (submitGrid v u.ctx.toNat (BitVec.ofNat 64 (memWord s (memWord s a + rd % max (mem32 s (a + 0xC)) 1 * 8)))).1.mem = v.mem) := by
  decide +kernel

/-- A user-mode warp whose context's vector names a clause header. -/
def sV (w : Warp) : State := { sP w with ctxs := [(0, { Ctx.init with tvec := 0x1000 })] }

/-- A handler to enter; system mode, no vector, a vector at no header; a result owed. -/
theorem witness_TrapEntry :
    HasHandler (sV wA) wA ∧ ¬ HasHandler (sP wA) wA ∧ ¬ HasHandler (sV { wA with sys := true }) { wA with sys := true } ∧
    wA.allReady = true ∧ ({ wA with pend := [{ tok := 1, flag := none, ready := false, writes := [] }] } : Warp).allReady = false := by
  refine ⟨⟨rfl, by decide +kernel, by decide +kernel, fun x h => ?_⟩, fun h => ?_, fun h => absurd h.1 (by decide), by decide +kernel, by decide +kernel⟩
  · have e : handlerWord (sV wA) wA = some (BitVec.ofNat 64 headerWord) := by decide +kernel
    rw [e] at h; cases h; decide +kernel
  · exact absurd h.2.1 (by decide +kernel)

theorem witness_TrapInstructions :
    (sV wA).curWarp = some wA ∧ ((sV wA).ctx 0).dbg = false ∧ wA.wait = .run ∧
    (({ sV wA with ctxs := [(0, { Ctx.init with dbg := true })] } : State).ctx 0).dbg = true ∧ HasHandler (sV wA) wA :=
  ⟨by decide +kernel, by decide +kernel, by decide +kernel, by decide +kernel, witness_TrapEntry.1⟩

/-- Both modes; a target that is a header and one that is not; a vector aligned and not. -/
theorem witness_ReturnAndSystemRegisters :
    let w : Warp := { wA with sys := true }
    let f : FmtBR := { b0 with s := 4 }
    wA.sys = false ∧ w.sys = true ∧ (sV (w.setS 4 0x1010)).curWarp = some (w.setS 4 0x1010) ∧
    targetOk (sV (w.setS 4 0x1010)) { w.who with sys := false } ((w.setS 4 0x1010).getS f.s) = true ∧
    targetOk (sV (w.setS 4 0x1018)) { w.who with sys := false } ((w.setS 4 0x1018).getS f.s) = false ∧
    (0x1001 : Word).toNat % 8 ≠ 0 ∧ (0x1008 : Word).toNat % 8 = 0 ∧ w.allReady = true ∧
    ({ w with pend := [{ tok := 1, flag := none, ready := false, writes := [] }] } : Warp).allReady = false := by
  decide +kernel

/-- An area aligned and not, its lines in memory and apart; entered for a pre-emption and not. -/
theorem witness_SaveAreas :
    let w : Warp := { wA with sys := true, budget := 1 }.setS 4 0x1100
    let s := sV w
    s.curWarp = some w ∧ w.sys = true ∧ w.allReady = true ∧ areaFault s w .store 0x1100 = none ∧ areaFault s w .load 0x1100 = none ∧
    (areaFault s w .store 0x1101).isSome = true ∧ w.det = false ∧ classCheck true 0x1101 (128 * 17) = .ok .user ∧
    (0x1101 : Word).toNat % 128 ≠ 0 ∧ (match classCheck true 0x0100000000000001 (128 * 17) with | .error _ => true | _ => false) = true ∧
    (match linePlaces s w.deliver .store (areaLines w.deliver 0x1100) with
     | .ok (u, l) => (l.all fun x => x.kind == .cached && x.len == 128 && x.pa % 128 == 0) && Memory.wf u.mem && u.ordbuf.isEmpty &&
        decide (l.Pairwise fun x y => x.pa ≠ y.pa) &&
        (match guardIssue (u.setWarp s.cur w.deliver) w.deliver [Rng.flat 0x1100 (0x800 + 128 * w.budget)] with
         | .ok t => t == u.setWarp s.cur w.deliver
         | .error _ => false)
     | .error _ => false) = true ∧
    (match linePlaces s w.deliver .load (areaLines w.deliver 0x1100) with
     | .ok (u, l) => (u.core 0).l1.isEmpty && l.all fun x => x.kind == .cached && x.len == 128 && x.pa % 128 == 0
     | .error _ => false) = true ∧
    ({ w with pend := [{ tok := 1, flag := none, ready := false, writes := [] }] } : Warp).allReady = false ∧ w.wait = .run ∧
    w.tstat.getLsbD 1 = false ∧ ({ w with tstat := 2 } : Warp).tstat.getLsbD 1 = true := by
  decide +kernel

/-- Contexts that hold work and none, done and asked to stop; a class at its point; resident and not; a slice with another grid
waiting; a warp at a header under CO; a slot word in and out of its limits. -/
theorem witness_ContextControl :
    let s (x : Ctx) : State := { sV wA with ctxs := [(0, { x with tvec := 0x1000 })] }
    (({ Ctx.init with done := true } : Ctx).done = true ∧ ({ Ctx.init with preq := true } : Ctx).preq = true) ∧
    (s Ctx.init).classesOf 0 ≠ 0 ∧ State.reset.classesOf 0 = 0 ∧ (s Ctx.init).frozen = false ∧
    ({ s Ctx.init with bvctl := 8 } : State).frozen = true ∧ Memory.wf (s Ctx.init).mem = true ∧
    (let t : State := s { Ctx.init with preq := true, acks := 1 }
     (t.ctx 0).acks.getLsbD (ackIndex .warps) = true ∧ mayStop t 0 .warps = true) ∧
    (let t : State := { s { Ctx.init with preq := true, acks := 1 } with
       cores := [(0, { Core.init 0 with cq := [entC 1 0 0 (.zero 1) .queued], pq := [{ seq := 1, ctx := 0, warp := 0, num := 1, cmd := .stat false 3, tok := 9 }] })]
       kiosks := [(0, { Kiosk.init with queue := [krA.run] })], colls := [cmdC] }
     mayStop t 0 .warps = true ∧ (∃ p ∈ t.cores, ∃ e ∈ p.2.cq, e.ctx = 0) ∧ (∃ p ∈ t.cores, ∃ e ∈ p.2.pq, e.ctx = 0) ∧
       (∃ p ∈ t.kiosks, ∃ r ∈ p.2.runs, r.ctx = 0) ∧ ∃ y ∈ t.colls, y.ctx = 0) ∧
    ((s { Ctx.init with res := true }).ctx 0).res = true ∧ ((s Ctx.init).ctx 0).res = false ∧
    (let t : State := { s { Ctx.init with res := true, slice := 5 } with grids := [(0, { gridA with ctx := 1 })] }
     (t.ctx 0).res = true ∧ (t.ctx 0).slice ≠ 0 ∧
       (∃ p ∈ t.warps, p.2.ctx = 0 ∧ p.2.status ≠ .exited ∧ t.wanted 0 p.2.core = true)) ∧
    (let t : State := s { Ctx.init with preq := true, acks := 1, kill := true }
     (t.ctx 0).kill = true ∧ mayStop t 0 .warps = true) ∧
    (wA.status = .live ∧ wA.wait = .run ∧ wA.qend = false ∧ (sV wA).owedWarp wA = false) ∧
    ({ valid := true, weight := 1, next := some 2, ctx := 0, pass := 0 } : Slot).next = some 2 ∧
    (let t : State := s { Ctx.init with preq := true, co := true }
     t.warp? t.ev.x = some wA ∧ (t.ctx wA.ctx).preq = true ∧ (t.ctx wA.ctx).co = true ∧ wA.clause.left = 0 ∧ wA.preacked = false ∧
       (t.ctx wA.ctx).tvec = 0x1000 ∧ handlerWord t wA = some (BitVec.ofNat 64 headerWord)) ∧
    (0x10105 : Word).extractLsb' 17 47 = 0 ∧ (0x10105 : Word).extractLsb' 12 4 = 0 ∧ (0x20000 : Word).extractLsb' 17 47 ≠ 0 ∧
    (0x1000 : Word).extractLsb' 12 4 ≠ 0 := by
  decide +kernel

/-- Units within and out of limits; a queue mapped, unmapped, and one that can be mapped; a core that migrates. -/
theorem witness_QueuesAndMigration :
    let s (m : Bool) : State := { sA wA with uq := [(0, { Uq.init with mapped := m })] }
    ((s true).uqOf 0).mapped = true ∧ ((s false).uqOf 0).mapped = false ∧ ((s true).uqOf 0).pend.toNat + 65535 ≤ 65535 ∧
    Memory.wf (s false).mem = true ∧ (1 : Word).getLsbD 0 = true ∧ (0 : Word).getLsbD 0 = false ∧ (1 : Word).extractLsb' 32 32 = 0 ∧
    uqOk { s false with mem := memWriteN [] 0xC [16, 0, 0, 0] } 0 = true ∧ (1 : Word).extractLsb' 1 7 = 0 ∧
    (0 : Word).extractLsb' 8 8 = ((s true).uqOf 0).ctx ∧
    (let w : Warp := { wA with wait := .migpt }
     let t : State := { sA w with cores := [(0, { Core.init 0 with migreq := true })], ev := { y := 33 } }
     (t.core t.ev.x).migreq = true ∧ (∀ p ∈ t.warps, p.2.core = t.ev.x → p.2.status = .exited ∨ atMigrationPoint t p.1 p.2 = true) ∧
       (∃ p ∈ t.warps, p.2.core = t.ev.x ∧ honoursMigration p.2 = true) ∧ mayTake t t.ev.x t.ev.y = true ∧
       (t.core t.ev.x).moving = false) ∧
    (let t : State := { sA wA with cores := [(0, { Core.init 0 with moving := true, migreq := true, target := 33 })], ev := { y := 33 } }
     (t.core t.ev.x).moving = true ∧ (t.core t.ev.x).migreq = true ∧ (t.core t.ev.x).target.toNat = t.ev.y ∧ (t.core t.ev.x).still = true ∧
       ((t.planeAt (t.physOf t.ev.x)).cells.map Prod.fst).Nodup) := by
  decide +kernel

/-- The lines of a fresh plane are lines of it, and apart. -/
theorem witness_QueuesAndMigration_lines (col : Bool) (i j : Nat) (h : i < 1024) :
    LPlane.init.line col i < 1024 ∧ (LPlane.init.line col i = LPlane.init.line col j → i = j) := by
  cases col <;> exact ⟨h, id⟩
/-- A kernel running and none; a shift pending across a frame boundary; a slot's end; roots in and out of limits; an inbound entry and
a register. -/
theorem witness_RefreshAndRegisters :
    let s : State := { sA wA with warps := [] }
    (sA wA).kernelOn 0 = true ∧ s.kernelOn 0 = false ∧
    (let t : State := { s with dies := [(0, { Die.init 0 with shiftPend := some (5, 0x7FFF) })], clock := 0x8000 }
     (t.die t.ev.x).shiftPend = some (5, 0x7FFF) ∧ (0x7FFF : Word) ≠ t.clock ∧ t.clock.toNat % 2 ^ 15 = 0 ∧ t.clock.toNat % 512 = 0) ∧
    (let ok (v : Word) : Prop := v.extractLsb' 52 12 = 0 ∧ v.extractLsb' 1 11 = 0 ∧ regionOf (v.toNat / 4096 * 4096) = .hbm
     ok 0x2000001 ∧ ¬ ok 0x10000000000000 ∧ ¬ ok 2 ∧ ¬ ok 0x040000000000) ∧
    (let ok (v : Word) : Prop := v.extractLsb' 52 12 = 0 ∧ v.extractLsb' 3 27 = 0
     ok 7 ∧ ¬ ok 8) ∧
    (let r : Nat := 0x400D0000
     regionOf (regBase + r) = .regs ∧ regAt r = some (.thcfg, 0, 4)) := by
  decide +kernel

/-- A request for the settled target and for another; one during a change; the last group and one with others to come; a quad held and not; a droop and its end; a cadence to step down. -/
theorem witness_FrequencyChanges :
    let s (h : Hbm) : State := { sA wA with hbm := [(0, h)] }
    let mid : Hbm := { Hbm.init with cur := some (0, 1), todo := [1, 2, 3], target := 1 }
    (s Hbm.init).hbmOf 0 = Hbm.init ∧ (0 : BitVec 2) = Hbm.init.target ∧ Hbm.init.pend = 0 ∧ ¬ (1 : BitVec 2) = Hbm.init.target ∧
    Hbm.init.cur = none ∧ ((s mid).hbmOf 0).cur = some (0, 1) ∧ mid.pend ≠ 0 ∧ mid.todo = 1 :: [2, 3] ∧ ({ mid with todo := [] } : Hbm).todo = [] ∧
    (sA wA).quadHeld 0 = false ∧ ({ sA wA with sens := [((sA wA).physOf 1, { Sens.init with throt := true })] } : State).quadHeld 0 = true ∧
    (let q : Quad := { deques := [], pushes := [], tlb := [], tqcfg := [], qvf := { Qvf.init 0 with target := 20, ramp := true } }
     let t : State := { sA wA with quads := [(0, q)] }
     (t.quad t.ev.x).qvf.ramp = true ∧ (t.quad t.ev.x).qvf.target.toNat < (t.quad t.ev.x).qvf.curf.toNat) ∧
    (sA wA).supply.off = false ∧ (sA wA).supply.droop = false ∧
    (let t : State := { sA wA with supply := { State.reset.supply with droop := true } }
     t.supply.droop = true) ∧
    (1 : BitVec 5).toNat < (({ sA wA with cores := [(0, { Core.init 0 with cad := 16 })] } : State).core 0).cad.toNat := by
  decide +kernel

/-- QVF in and out of its ranges. -/
theorem witness_FrequencyChanges_qvf :
    let ok (v : Word) : Prop := v.extractLsb' 48 16 = 0 ∧ v.extractLsb' 21 5 = 0 ∧ v.extractLsb' 13 3 = 0 ∧ v.extractLsb' 5 3 = 0 ∧
      4 ≤ (v.extractLsb' 0 5).toNat ∧ (v.extractLsb' 0 5).toNat ≤ 28 ∧ 4 ≤ (v.extractLsb' 8 5).toNat ∧ (v.extractLsb' 8 5).toNat ≤ 28 ∧
      1 ≤ (v.extractLsb' 16 5).toNat ∧ (v.extractLsb' 16 5).toNat ≤ 16
    ok 0x10041C ∧ ok 0x011C04 ∧ ¬ ok 0x010E03 ∧ ¬ ok 0x110E1C ∧ ¬ ok 0x010E1D := by
  decide +kernel

/-- A ramp upwards meets its voltage or does not: the levels are the part's, so only their order is asked of it. -/
theorem witness_FrequencyChanges_up :
    let q : Quad := { deques := [], pushes := [], tlb := [], tqcfg := [], qvf := { Qvf.init 255 with curf := 4, ramp := true } }
    let t : State := { sA wA with quads := [(0, q)] }
    (t.quad t.ev.x).qvf.curf.toNat < (t.quad t.ev.x).qvf.target.toNat ∧ (Config.volts 28).toNat ≤ (t.quad t.ev.x).qvf.curv.toNat :=
  ⟨by decide +kernel, Nat.le_of_lt_succ (Config.volts 28).isLt⟩

/-- A device with a number whose inbound table admits peers to the first GiB. -/
def sD : State := { sA wA with devnum := 0x1003, inbound := [(0, 7)] }
def reqOf (op : OutOp) (n : Nat) : OutReq := { op := op, addr := 0x1100, bytes := List.replicate n 1 }

/-- Pieces of each kind in limits, admitted and not; a host piece at memory and at a register. -/
theorem witness_AccessesFromOutside :
    (∀ p ∈ [(OutOp.load, 8), (.store, 128), (.atom .add .i32, 4), (.atom .xchg .n64, 8), (.atom .fadd .f32, 4)], (1 ≤ (reqOf p.1 p.2).bytes.length ∧
      (reqOf p.1 p.2).addr % 128 + (reqOf p.1 p.2).bytes.length ≤ 128 ∧ inboundPa sD 0x1100 (outNeed p.1) = some 0x1100)) ∧
    (DT.i32 ∈ atomTypes .add ∧ (reqOf (.atom .add .i32) 4).bytes.length = 4 ∧ 0x1100 % 4 = 0) ∧
    (DT.n64 ∈ atomTypes .cas ∧ ({ reqOf (.atom .cas .n64) 8 with bytes2 := zero4 ++ zero4 } : OutReq).bytes2.length = 8) ∧ Memory.wf sD.mem = true ∧ sD.frozen = false ∧ sD.devnum.getLsbD 12 = true ∧
    (sA wA).devnum.getLsbD 12 = false ∧ inboundPa sD 0x40001100 .load = none ∧ lineOf 0x1100 ∉ sD.poison ∧
    regionOf 0x1100 = .hbm ∧ regionOf (regBase + 0x400D0000) = .regs ∧ regCheck (regBase + 0x400D0000) 4 .load = .ok () := by
  decide +kernel

/-- Ports in each state; a flit in sequence, out of it, and one that fails its check. -/
theorem witness_AccessesFromOutside_links :
    let s (p : Port) : State := { sD with ports := [(0, p)] }
    let up : Port := { Port.init with st := .up, nextSeq := 4 }
    Port.init.st = .down ∧ Port.init.dis = false ∧ (s up).portOf 0 = up ∧ up.st = .up ∧ up.nextSeq ≠ 5 ∧
    ({ Port.init with st := .train, fails := 2 } : Port).st = .train ∧ 2 ≤ ({ Port.init with st := .train, fails := 2 } : Port).fails ∧
    ({ Port.init with st := .disabled, dis := true } : Port).dis = true ∧
    (let t : State := { s up with agenda := [.send 0 3 [reqOf .load 8]] }
     t.supply.off = false ∧ t.frozen = false ∧ up.sent.length < 512 ∧
       (∀ m ∈ countFrom 1 15, ∀ f ∈ (t.portOf m).sent, f.flow ≠ 3)) ∧
    (∀ r ∈ [reqOf .load 8, reqOf .store 128], 1 ≤ r.bytes.length ∧ r.addr % 128 + r.bytes.length ≤ 128) ∧
    sumNat ([reqOf .store 128, reqOf .store 112].map OutReq.carried) ≤ 240 ∧
    ¬ sumNat ([reqOf .store 128, reqOf .store 113].map OutReq.carried) ≤ 240 ∧
    (let f : Sent := { seq := 3, flow := 3, payload := [], replayed := true }
     ({ up with sent := [f] } : Port).sent ≠ [] ∧ f.replayed = true) := by
  decide +kernel

theorem witness_AccessesFromOutside_payload : Payload [reqOf .store 112, reqOf .load 8] ∧ ¬ Payload [reqOf .store 128, reqOf .store 113] := by
  refine ⟨⟨fun r h => ?_, by decide⟩, fun h => absurd h.2 (by decide)⟩
  rcases List.mem_cons.1 h with rfl | h
  · exact ⟨by decide, by decide, nofun⟩
  · cases List.mem_singleton.1 h; exact ⟨by decide, by decide, nofun⟩

/-- A waitv whose word lies at a peer with no route (witness_NoRoute gives the device), its other results arrived. -/
theorem witness_AccessesFromOutside_waitv :
    let r : WaitvRec := { cc := .eq, dt := .n32, size := 4, cmp := 0, va := 0x4000, pa := 2 ^ 51 + 5 * 2 ^ 39, kind := .peer, ord := .relaxed
                          scope := .device, last := 0, ipc := 0 }
    let w : Warp := { wA with wait := .waitv r }
    (sA w).ev.nums = [] ∧ (sA w).warp? (sA w).ev.x = some w ∧ w.allReady = true ∧ r.kind = .peer := by
  decide +kernel

/-- An access that finds no route: which devices the fabric reaches is the part's, so one is asked for. -/
theorem witness_AccessesFromOutside_route (d : Nat) (hd : d < 4096) (hf : fabric.contains d = true) (h3 : d ≠ 3) :
    let l := lnQ 0 0x4000 (d * 2 ^ 39) .peer [] []
    let a : Access := { accO 0 with kind := .load, lanes := [l] }
    sD.ev.nums = [] ∧ ({ wA with wait := .peer a } : Warp).wait = .peer a ∧ noRoute sD a = true := by
  refine ⟨by decide, rfl, ?_⟩
  have p : peerRoute sD (d * 2 ^ 39) .load = .none := by
    unfold peerRoute
    have h : d * 2 ^ 39 / 2 ^ 39 % 4096 = d := by rw [Nat.mul_div_cancel _ (by decide), Nat.mod_eq_of_lt hd]
    have m : (sD.devnum.extractLsb' 0 12).toNat = 3 := by decide
    have n : (!sD.devnum.getLsbD 12) = false := by decide
    have r : sD.reachable.contains d = false := by rw [show sD.reachable = [] from rfl]; rfl
    simp only [h, m, n, r, hf, if_neg h3]; rfl
  show (LocKind.peer == .peer && peerRoute sD (d * 2 ^ 39) .load == .none || false) = true
  rw [p]; rfl

/-- A tstore's evaluation whose destination finds no route, its other results arrived. -/
theorem witness_AccessesFromOutside_demand (d : Nat) (hd : d < 4096) (hf : fabric.contains d = true) (h3 : d ≠ 3) :
    let xl : List Xlat := [{ va := 0x4000, pa := d * 2 ^ 39, kind := .peer, len := 16 }]
    let w : Warp := { wA with wait := .eval (.store 1 0 0 1 4 0x4000 16 xl 5) 1 1 0 [] }
    ({ sD with warps := [(0, w)] } : State).ev.nums = [] ∧ ({ sD with warps := [(0, w)] } : State).warp? 0 = some w ∧ w.det = false ∧
      sD.peerIn .store .none xl = true ∧ ({ w.forget 1 with wait := .run } : Warp).allReady = true := by
  refine ⟨rfl, rfl, rfl, ?_, rfl⟩
  have p : peerRoute sD (d * 2 ^ 39) .store = .none := by
    unfold peerRoute
    have h : d * 2 ^ 39 / 2 ^ 39 % 4096 = d := by rw [Nat.mul_div_cancel _ (by decide), Nat.mod_eq_of_lt hd]
    have m : (sD.devnum.extractLsb' 0 12).toNat = 3 := by decide
    have n : (!sD.devnum.getLsbD 12) = false := by decide
    have r : sD.reachable.contains d = false := by rw [show sD.reachable = [] from rfl]; rfl
    simp only [h, m, n, r, hf, if_neg h3]; rfl
  show (LocKind.peer == .peer && peerRoute sD (d * 2 ^ 39) .store == .none || false) = true
  rw [p]; rfl

/-- A core too hot, its rails on. -/
theorem witness_PowerAndSensors_hot :
    (sA wA).supply.rails = false ∧ (∀ r ∈ ([{ phys := 0, t0 := 149, t1 := 149, current := [1, 2, 3, 4], cfault := 1 }] : Sample), r.phys < 136) := by
  decide +kernel

/-- Power on, held up and off; the first boot stage; the contexts that were asked done; a sample of one core. -/
theorem witness_PowerAndSensors :
    let s (h o : Bool) (l : List Nat) : State := { sA wA with supply := { droop := false, holdup := h, off := o, rails := false, stopped := l }, ctxs := [(3, { Ctx.init with done := true })] }
    (s false false []).supply.holdup = false ∧ (s true false [3]).supply.holdup = true ∧
    (∀ c ∈ (s true false [3]).supply.stopped, ((s true false [3]).ctx c).preq = false) ∧
    ((({ s true false [3] with ctxs := [(3, { Ctx.init with res := true })] } : State)).ctx 3).res = true ∧
    (({ s true false [3] with supply := { (s true false [3]).supply with rails := true } } : State)).supply.rails = true ∧
    (s true false [3]).frozen = false ∧ (s false true []).supply.off = true ∧
    ((s true false [3]).ctx 3).res = false ∧ (∀ p ∈ (s true false []).cores, (s true false []).planeHead p.1 ≠ none → (s true false []).physOf p.1 ≠ 0) ∧
    10000 < 10001 ∧ (s false false []).boot.stage = 0 ∧
    (∀ r ∈ ([{ phys := 135, t0 := 40, t1 := 41, current := [], cfault := 0 }] : Sample), r.phys < 136) := by
  decide +kernel

/-- An image that is not newer than the part's version; a slot to fall back to and none; recovery; a self-test with every core sound,
and one with three faults on the second die. Whether a signature holds is the part's, so the clauses that ask it are not met here: of
any image, those for a sound one or those for the other are. -/
theorem witness_BootAndFreeze :
    let s (b : Boot) : State := { sA wA with boot := b }
    let sound (l : List Nat) (d : Nat) : List Nat := (List.range 34).filter fun p => !l.contains (d * 34 + p)
    (s (.init 5)).supply.off = false ∧ ¬ ((s (.init 5)).boot.svn.toNat ≤ 4) ∧ (s (.init 5)).boot.svn.toNat ≤ 5 ∧
    (s (.init 5)).boot.recovery = false ∧ (s (.init 5)).boot.stage.toNat < 2 ∧ (s (.init 5)).boot.slot = false ∧
    ({ Boot.init 5 with slot := true } : Boot).slot = true ∧ ({ Boot.init 5 with recovery := true } : Boot).recovery = true ∧
    ({ Boot.init 5 with stage := 2 } : Boot).stage = 2 ∧ (∀ d, d < 4 → 32 ≤ (sound [] d).length) ∧
    (sound [34, 35, 67] 1).length < 32 ∧ 32 ≤ (sound [34, 35, 67] 0).length ∧
    (let t : State := s { Boot.init 5 with stage := 3 }
     t.boot.stage = 3 ∧ t.boot.stext = false ∧ ({ t.boot with stext := true } : Boot).stext = true ∧
       (∀ n ∈ countFrom 0 16, (t.portOf n).st ≠ .train) ∧ (({ t with ports := [(15, { Port.init with st := .train })] } : State).portOf 15).st = .train) ∧
    (Boot.init 5).shocks = [] ∧ ({ Boot.init 5 with shocks := [10001] } : Boot).shocks ≠ [] ∧ ((sA wA).core 0).phys = BitVec.ofNat 6 (0 % 32) ∧
    (let t (k d : Bool) : State := { sA wA with ctxs := [(0, { Ctx.init with kill := k, done := d })], bvctl := 8 }
     (∀ p ∈ (t true false).ctxs, p.2.kill = false ∨ p.2.done = false) ∧ (∀ p ∈ (t true false).warps, p.2.status ≠ .stopped ∧ p.2.status ≠ .halted) ∧
       (tget ({ t false false with ctxs := [(0, { Ctx.init with res := true })] } : State).ctxs 0).map (fun x => x.res && !x.preq) = some true ∧ ((t true true).ctx 0).kill = true ∧ ((t true true).ctx 0).done = true) ∧
    (let t : State := { sA wA with bvctl := 8, agenda := [.issue 0] }
     t.frozen = true ∧ t.agenda = .issue 0 :: [] ∧ dieEvent .waitResume = true) := by
  decide +kernel

theorem witness_MemoryReadsBack :
    Memory.wf [] = true ∧ Memory.wf (memWriteN [] 127 [1, 0, 2]) = true ∧ (126 < 127 ∨ 127 + 3 ≤ 126) ∧ (130 < 127 ∨ 127 + 3 ≤ 130) := by
  decide +kernel

/-- An instruction of each group that completes. -/
theorem witness_RegisterOnlyFrame :
    ∀ i ∈ [Instr.add a0, .vaddInt a0, .vany { aB with d := 3 }],
      (match exec i (sA wA) with | .next _ => true | _ => false) = true := by
  decide +kernel

theorem witness_StepKeepsMemory :
    Memory.wf State.reset.mem = true ∧ Memory.wf State.reset.peerMem = true ∧
    (match step (State.reset.withFetchWord 64 0x2021060000000) with | .next _ => true | _ => false) = true := by
  decide +kernel

/-! ## FormsComplete: the premises of each clause met, and the form completed there -/

def answers (i : Instr) (s : State) : Bool := match exec i s with | .next _ => true | _ => false
/-- Whether a warp's instruction goes on where it stands. -/
def goes (i : Instr) (s : State) : Bool :=
  match exec i s, s.curWarp with
  | .next t, some w =>
    (match t.warp? s.cur with | some v => v.pc == w.pc && v.sys == w.sys && v.fcause == w.fcause && v.em == w.em | none => false)
  | _, _ => false
/-- Whether a command joins its engine under the next number of a counter. -/
def joinsAt (k : Nat) (i : Instr) (s : State) : Bool :=
  match exec i s, s.curWarp with
  | .next t, some w => (t.tl w.ctx w.core).issuedOf k == (s.tl w.ctx w.core).issuedOf k + 1
  | _, _ => false

theorem witness_FormsComplete_register :
    (sA wA).curWarp = some wA ∧ scalarOnly.all (fun g => goes (g aN) (sA wA)) = true ∧ crossOnly.all (fun g => goes (g aB) (sA wA)) = true ∧
    ([.vaddFloat, .vmad, .vunpk, .vq4scl, .vfrexp, .vldexp, .vexpmax, .vcvt, .vpack] : List (FmtA → Instr)).all (fun g => goes (g aF) (sA wA)) = true ∧
    (wA.setS 4 0x55555555).getS 4 = 0x55555555 ∧ nmodeOk 0x55555555 = true ∧
    goes (.mtsr { aN with imm16 := 2 }) (sA (wA.setS 4 0x55555555)) = true ∧ goes (.mtsr { aN with imm16 := 0xF }) (sA wA) = true ∧
    goes (.mtsr { aN with imm16 := 0x20 }) (sA (wA.setS 4 0x80)) = true ∧ goes (.mtsr { aN with imm16 := 0x21 }) (sA wA) = true := by
  decide +kernel

/-- The premises of these accesses are those met at LoadsAndStores, Atomics and OrderedAtomics. -/
theorem witness_FormsComplete_memory :
    let w : Warp := { wQ 0x1108 with sys := true }
    (∀ p ∈ plainAccesses ++ atomics, goes (p.1 { m0 with dt := .i32, scope := .device }) (sQ (wQ 0x1100)) = true) ∧
    (∀ p ∈ orderedAtomics, goes (p.1 { m0 with dt := .i32, scope := .device }) (sQ (wQ 0x1108)) = true) ∧
    (∀ i ∈ [Instr.fence m0, .pfence m0, .pref m0, .wback m0], goes i (sQ (wQ 0x1100)) = true) ∧
    (let s : State := { sA w with clusters := [(0, cluB Bar.init)] }
     ∀ i ∈ [Instr.tlbiPg { eZ with a := 9, b := 9, c := 9 }, .tlbiCtx { eZ with a := 9 }, .tlbiSys eZ, .tlbiAll eZ, .tlbisync eZ, .barWait eZ,
       .barArrive eZ, .barSync eZ], goes i s = true) ∧
    goes (.tlbiSr { eZ with b := 9, c := 10 }) (sA ((w.setS 9 0xFFFFFFFFFFFFF000).setS 10 0x1000)) = true := by
  decide +kernel

theorem witness_FormsComplete_moves :
    joinsAt 0 (.copy e0) (sC 0x1100 0x1200 8) = true ∧ joinsAt 0 (.copy2d e0) (sC 0x1100 0x1200 0x100000008) = true ∧
    joinsAt 0 (.copykb e0) (let s := sC 0x1100 0x1200 0; { s with warps := [(0, { wC 0x1100 0x1200 0 with sys := true })] }) = true ∧
    joinsAt 4 (.gather { e0 with imm20 := 0x20001 }) (sC 0x1104 0x1200 0x1300) = true ∧
    (let w := wA.setS 2 0x1100
     joinsAt 8 (.krun e0) { sA w with cores := [(0, { Core.init 0 with tlb := [placeTlb, srcTlb] })], mem := memWriteN [] 0x1100 runB } = true ∧
     joinsAt 9 (.coll e0) { sQ w with mem := memWriteN [] 0x1100 (collB 0x1200 0x1204) } = true) ∧
    goes (.krd e0) (sA wA) = true ∧ goes (.ceclr eZ) (sA wA) = true ∧ goes (.celog { eZ with a := 9 }) (sA wA) = true ∧
    goes (.cshape { eZ with a := 9 }) (sA (wA.setS 9 0x4F)) = true := by
  decide +kernel

theorem witness_FormsComplete_cubeAndPlanes :
    joinsAt 5 (.cldb eB) (sC 0x2000 64 0) = true ∧ joinsAt 5 (.cldg eB) (sC 0x2000 64 0) = true ∧ joinsAt 5 (.cldk eB) (sC 0x2000 64 0) = true ∧
    joinsAt 5 (.cmac eC) (sM (wC 0x2000 0 0) (some planeB)) = true ∧ joinsAt 5 (.cshift eZ) (sA wA) = true ∧
    joinsAt 5 (.czero eZ) (sA wA) = true ∧ joinsAt 5 (.cdrain eZ) (sG wA) = true ∧
    (let w := wQ 0x2000
     (sL w).ownsPlane w = true ∧ wearTrap (sL w) 0 w (.stat false 2) = none ∧
     (∀ i ∈ [Instr.lpnor g0, .lpnortri g0, .lpnot g0, .lpinit g0], joinsAt 7 i (sL w) = true) ∧
     (∀ i ∈ ([.lprdv, .lpwrv, .lpcnt, .lpbudget, .lpremap, .lpselVector, .lpstat, .lpstatClr, .lpstatIss] : List (FmtA → Instr)),
       joinsAt 7 (i { aB with a := 3 }) (sL w) = true) ∧
     joinsAt 7 (.lpselMemory { aB with a := 8 }) (sL w) = true) := by
  decide +kernel

/-- A contraction in the orientation ij + gk: gate planes of the same shape. -/
theorem witness_FormsComplete_cmac3 :
    let f : FmtE := { eM with a := 2, b := 3 }
    let g : State := { sM (wC 0x2000 0x2000 0) (some planeB) with cores := [(0, { (sM wA (some planeB)).core 0 with array :=
      { ArrayState.init with set0 := { StSet.absent with b := some planeB, g := some planeB, kv := some planeB } } })] }
    (∀ ori ∈ [Ori.kj, .k], shapeOk wA.ashape ori .bf16 .bf16 (setAhead g (wC 0x2000 0x2000 0) 0) = true) ∧
    joinsAt 5 (.cmac3 f) g = true := by
  decide +kernel

theorem witness_FormsComplete_kiosk :
    let one : KState := { krA with mstack := [krA.masks] }
    let run (i : Instr) (r : KState) : Bool :=
      match exec i (sK r) with
      | .next t => (match (t.kiosk (sK r).kcur).run with | some q => q.retired == r.retired + 1 | none => false)
      | _ => false
    (sK one).kiosk (sK one).kcur = { Kiosk.init with run := some one } ∧
    ([.kpush, .kelse, .kpop, .kread, .kioskAdd, .kioskSub, .kioskSetc, .kioskMovi, .kioskVmov] : List (FmtA → Instr)).all
      (fun g => run (g { aF with a := 1, b := 2 }) one) = true ∧
    run (.kioskBra { b0 with ofs := 0 }) one = true ∧ run (.kioskBrs { b0 with cc := 1 }) one = true ∧
    answers (.kioskExit a0) (sK one) = true ∧ answers .kioskIllegalInstruction (sK one) = true := by
  decide +kernel

theorem witness_FormsComplete_tiles :
    goes (.tewise { e0 with c := 0 }) (sN (wN 0x1100 256) (nodeB 0x2300 8)) = true ∧ goes (.tleaf { e0 with b := 0, c := 0 }) (sN (wN 0x1100 0) (nodeB 0x2300 0)) = true ∧
    goes (.tdrop e0) (sN (wN 256 0) []) = true ∧ goes (.tquery e0) (sN (wN 256 0) []) = true ∧
    goes (.tmode e0) (sN { wN 8 0 with perg := Perg.init } []) = true ∧
    goes (.tforce e0) (sN (wN 257 0x4000100000000) []) = true ∧ goes (.tforce e0) (sN (wN 256 0x4000100000000) []) = true ∧
    goes (.tstore { e0 with imm64 := 16 }) (sN ((wN 257 0x4000100000000).setS 4 0x2400) []) = true ∧
    goes (.tsnap e0) (sN (wN 256 0x2400) []) = true := by
  decide +kernel

theorem witness_FormsComplete_system :
    let w := wA.setS 2 0x1100
    let s : State := { sA w with mem := memWriteN [] 0x1100 (recB 32), cores := [(0, { Core.init 0 with tlb := [placeTlb] })] }
    let y : Warp := { wA with sys := true, budget := 1, tstat := 2 }.setS 4 0x1100
    goes (.glaunch e0) s = true ∧ goes (.gwait e0) { sA (wA.setS 2 1) with ctxs := [(0, { Ctx.init with grids := 1 })] } = true ∧
    (∀ i ∈ [Instr.migpt eZ, .ginst eZ, .yield eZ], goes i (sA wA) = true) ∧ goes (.cancel e0) (sA (wA.setS 2 5)) = true ∧
    goes (.cancelClr e0) (sA (wA.setS 2 5)) = true ∧
    (let d : State := { sA (wA.setS 2 0x10000000001) with quads := [(0, { deques := [], pushes := [], tlb := [], qvf := Qvf.init 0, tqcfg := [(0, 0x100)] })] }
     ∀ i ∈ [Instr.tqpush e0, .tqpop e0, .tqpopNw e0, .tqsteal e0], goes i d = true) ∧
    (∀ i ∈ [Instr.trap b0, .brk b0, .illegalInstruction 5, .instructionFetchFault { cause := 0x20, detail := 0, faddr := 0 }],
      (match exec i (sV wA) with
       | .next t => ((t.warp? 0).map fun v => v.sys && v.pc == 0x1000) == some true
       | _ => false) = true) ∧
    answers (.phend eZ) (let r : LaunchRec := { gridA.recd with phased := true, carry := 2, scratch := 1 }; sH r wA) = true ∧
    (∀ i ∈ [Instr.mfsys { aN with a := 0, b := 0 }, .mtsys { aN with imm16 := 1 }, .ctxsave a0, .ctxrest a0], goes i (sV y) = true) ∧
    answers (.tret { b0 with s := 4 }) (sV (y.setS 4 0x1010)) = true ∧ answers (.preack a8) (sV y) = true := by
  decide +kernel

/-- The premises of these events are those met at ResultsAndMemoryWaits, CopiesComplete, MatrixDispatch, CubeWork and the others. -/
theorem witness_FormsComplete_work :
    let p : Pend := { tok := 1, flag := some 11, ready := true, writes := [.v 4 1 lanesZero] }
    let h : Warp := { wQ 0x1108 with wait := .held (accO 0) }
    answers .resultArrive (sA { wQ 0x1100 with pend := [p] }) = true ∧ answers .heldAccessPerform (sA h) = true ∧
    answers .heldAccessPerform { sA wA with rels := [{ warp := 0, tok := 1, op := .acc { accO 0 with kind := .store } }], ev := { nums := [0] } } = true ∧
    answers .atomoLaneArrive { sA wA with ordbuf := [bufO 1 false] } = true ∧
    answers .atomoRetry { sA wA with nexts := [(homeSlice 0x1108, 1)], ordbuf := [{ bufO 1 false with refused := some 0 }] } = true ∧
    answers .trackedWriteDeliver (sO false) = true ∧ answers .copyComplete (sO false) = true ∧ answers .gatherComplete (sO true) = true ∧
    answers .invalidationComplete { sA wA with invals := [{ warp := 0, scope := .ctx 0, before := none, untagged := false }] } = true ∧
    (let d (b : Bool) : Die := { Die.init 0 with walks := [{ core := 0, ctx := 0, va := 0, root := 0, started := b, fill := true }] }
     answers .walkComplete { sA wA with dies := [(0, d true)] } = true ∧ answers .walkQueuedStart { sA wA with dies := [(0, d false)] } = true) ∧
    answers .collectiveMatch { sA wA with colls := [cmdC] } = true ∧
    answers .collectiveComplete { sA wA with colls := [cmdC], matched := [(0, 0)] } = true ∧
    (let s (k : Kiosk) : State := { sA wA with kiosks := [(0, k)] }
     let rows : Kiosk := { Kiosk.init with run := some krA, openRow := [(0, 0)], waiting := [(0, none)] }
     answers .kioskRunStart (s { Kiosk.init with queue := [krA.run] }) = true ∧ answers .kioskRowLimit (s rows) = true ∧
       answers .kioskAccessWaitTimeout (s rows) = true ∧ answers .kioskOpenRowAccess (s rows) = true) ∧
    answers .matrixDispatch (sE [entC 1 0 0 (.zero 1) .queued]) = true ∧
    answers .matrixPriorityAge { sE [entC 1 0 0 (.zero 1) .queued] with clock := 4096 } = true ∧
    answers .cubeKstepBoundary (sE [entC 1 0 0 (.mac .none 0 .bf16 .bf16 0x2000 0 64 0 none true 0 1) .running]) = true ∧
    answers .cubeRetire (sE [entC 1 0 0 (.zero 1) .running]) = true ∧ answers .bandPowerOff (sA wA) = true ∧
    answers .bandPowerUp { sA wA with cores := [(0, { Core.init 0 with bands := 0 })] } = true ∧
    answers .planeEntryPerform { sL wA with cores := [(0, { Core.init 0 with pq := [{ seq := 1, ctx := 0, warp := 0, num := 1, cmd := .stat true 3, tok := 1 }] })] } = true ∧
    answers .pergolaEvalComplete (sN { wN 257 0 with wait := .eval (.force 1 0 0 1 4 5) 1 1 0 [] } []) = true ∧
    answers .waitResume { sA { wA with wait := .bar 0 6 } with clusters := [(0, cluB { Bar.init with ph := 7 })] } = true ∧
    answers .yieldExpire { sA { wA with wait := .yield } with clock := 64 } = true ∧
    answers .planeQueueRetry (sL { wA with wait := .refused { body := .plane (.stat false 1), d := 1, ipc := 0, tok := 1 } }) = true := by
  decide +kernel

/-- A refresh that falls due in a run completes whatever the allowance is, and with no run. -/
theorem witness_FormsComplete_refresh (k : Kiosk) :
    answers .bankRefreshDue { sA wA with kiosks := [(0, k)] } = true := by
  obtain ⟨t, h⟩ : ∃ t, exec .bankRefreshDue { sA wA with kiosks := [(0, k)] } = .next t := by
    simp only [exec, execBankRefreshDue]
    split
    · exact ⟨_, rfl⟩
    · split
      · exact ⟨_, rfl⟩
      · split <;> exact ⟨_, rfl⟩
  simp [answers, h]

theorem witness_FormsComplete_waitv :
    let r : WaitvRec := { va := 0x1100, pa := 0x1100, kind := .cached, size := 4, cc := .eq, dt := .n32, cmp := 1, ord := .relaxed
                          scope := .core, last := 0, ipc := 0x1008 }
    let s : State := { sQ { wQ 0x1100 with wait := .waitv r } with clock := 4096 }
    answers .waitvEvaluate s = true ∧ answers .waitvPeriodicEval s = true := by
  decide +kernel

theorem witness_FormsComplete_scheduling :
    let q : LaunchRec := { gridA.recd with accT := 0 }
    let s : State := { sH q wA with blocks := [], warps := [] }
    let c (x : Ctx) : State := { sV wA with ctxs := [(0, { x with tvec := 0x1000 })] }
    answers .roundCommit (sH { gridA.recd with det := true } { wA with det := true, qend := true }) = true ∧
    answers .cancelComplete { sA wA with ctxs := [(0, { Ctx.init with pendCancel := [(0, false, 3)] })] } = true ∧
    answers .admitAttempt s = true ∧ answers .admitBackoffExpire { s.setCluster 0 { cluB Bar.init with admitted := false, backoff := some 9 } with clock := 10 } = true ∧
    (let b : State := { sA wA with boot := { Boot.init 0 with ready := true }, uq := [(0, { Uq.init with mapped := true, pend := 1 })] }
     answers .gridSubmit b = true ∧ answers .uqConsumeUnit b = true) ∧
    (∀ i ∈ [Instr.doorbellNotify, .ctxslotWrite, .ctxctlPreq, .ctxctlResume, .ctxctlKill, .uqUnmap], answers i (sA wA) = true) ∧
    answers .uqMap { sA wA with ev := { v := 1 } } = true ∧
    answers .preemptClassStop (c { Ctx.init with preq := true, acks := 1 }) = true ∧
    answers .coopPreemptEntry (c { Ctx.init with preq := true, co := true }) = true ∧
    answers .preackTimeout (c { Ctx.init with preq := true, co := true }) = true ∧
    answers .sliceExpire { c { Ctx.init with res := true, slice := 5 } with grids := [(0, { gridA with ctx := 1 })] } = true ∧
    answers .migration { sA wA with cores := [(0, { Core.init 0 with moving := true, migreq := true, target := 33 })], ev := { y := 33 } } = true ∧
    answers .migrationLapse { sA wA with cores := [(0, { Core.init 0 with migreq := true })] } = true := by
  decide +kernel

theorem witness_FormsComplete_blocks :
    let c : Cluster := cluB Bar.init
    let s : State := { sG { wA with wait := .waitt 0 1 } with clusters := [(0, c)], dies := [(0, { Die.init 0 with parkcfg := 1 })] }
    let b : Block := { cluster := 0, rank := 0, sbase := [(0, 0)], abase := [(0, 0)], phase := 0, nextPhase := false, parked := true, freed := false }
    let q : LaunchRec := { gridA.recd with phased := true }
    let u := sH q { wA with status := .phaseWait }
    answers .parkBlock s = true ∧
    answers .unparkBlock { s with warps := [(0, { wA with status := .parked, wait := .waitt 0 0 })], blocks := [(0, b)] } = true ∧
    answers .phaseDispatch { u with clusters := [(0, c)], blocks := u.blocks.map fun p => (p.1, { p.2 with nextPhase := true }) } = true := by
  decide +kernel

theorem witness_FormsComplete_device :
    let port (p : Port) : State := { sD with ports := [(0, p)] }
    let up : Port := { Port.init with st := .up }
    let supply (d h o : Bool) : State := { sA wA with supply := { droop := d, holdup := h, off := o, rails := false, stopped := [] } }
    let boot (b : Boot) : State := { sA wA with boot := b }
    (∀ i ∈ [Instr.wsrefWrite, .hbmreqWrite, .rootWrite, .bvctlFreeze, .jtagFreeze, .bvctlThaw, .wsRefreshSlot, .inboundEntryWrite,
       .fabricNumberAssign, .qvfWrite, .peerPortDisable, .linkTrainStart, .droopDetect, .powerLoss, .powerOnReset, .sensorSample],
      answers i (sA wA) = true) ∧
    answers .wsRefreshShiftApply { sA wA with dies := [(0, { Die.init 0 with shiftPend := some (5, 0x7FFF) })], clock := 0x8000 } = true ∧
    answers .hbmGroupRetrainDone { sA wA with hbm := [(0, { Hbm.init with cur := some (0, 1), todo := [1, 2, 3], target := 1 })] } = true ∧
    answers .hostAccess { sD with ev := { req := reqOf .load 8 } } = true ∧ answers .peerAccessArrive { sD with ev := { req := reqOf .load 8 } } = true ∧
    answers .flitReceive { port up with ev := { flit := { seq := 0, ack := 0, flow := 0, crcOk := true, payload := [] } } } = true ∧
    answers .linkRetrainEnter (port up) = true ∧ answers .linkTrainResult (port { Port.init with st := .train }) = true ∧
    answers .peerPortEnable (port { Port.init with dis := true }) = true ∧
    answers .droopEnd (supply true false false) = true ∧ answers .powerHoldupExpire (supply false true false) = true ∧
    answers .powerRecover (supply false true false) = true ∧ answers .shockRecord (supply false false true) = true ∧
    answers .cadenceStep { sA wA with cores := [(0, { Core.init 0 with cad := 16 })] } = true ∧
    answers .selfTest (boot { Boot.init 5 with stage := 2 }) = true ∧ answers .selfTest (boot { Boot.init 5 with stage := 3 }) = true ∧
    answers .belvedereReadout { sA wA with bvctl := 8 } = true ∧
    answers .registerWrite { sA wA with ev := { v := BitVec.ofNat 64 (regBase + 0x400D0000), x := 4, g := 95 } } = true ∧
    (Boot.init 5).recovery = false ∧ (Boot.init 5).stage.toNat < 2 ∧ ({ Boot.init 5 with recovery := true } : Boot).recovery = true ∧
    (let q : Quad := { deques := [], pushes := [], tlb := [], tqcfg := [], qvf := { Qvf.init 0 with target := 20, ramp := true } }
     (({ sA wA with quads := [(0, q)] } : State).quad 0).qvf.ramp = true) := by
  decide +kernel

end Sys2Proof.Machine
end

section
/-! SUPPORT. Scalar words and numbers: that the model's reading and writing of an operand under an integer type are the
extension and the cut of R260; what div, rem, mov and movi write; the fields that a Format A entry leaves unused. -/

namespace Sys2Proof

theorem DT.width_pos (t : DT) : 0 < t.width := by cases t <;> decide

theorem DT.width_le (t : DT) : t.width ≤ 64 := by cases t <;> decide

end Sys2Proof

namespace Sys2Proof.Machine

open Sys2Proof

/-! ## Words cut to a width -/

/-- The low bits of a wide word that holds an integer hold it in the smaller width. -/
theorem setWidth_ofInt_of_le {w v : Nat} (h : w ≤ v) (n : Int) : (BitVec.ofInt v n).setWidth w = BitVec.ofInt w n := by
  have hd : ((2 ^ w : Nat) : Int) ∣ (2 ^ v : Nat) := Int.natCast_dvd_natCast.mpr (Nat.pow_dvd_pow 2 h)
  apply BitVec.eq_of_toNat_eq
  rw [BitVec.toNat_setWidth, BitVec.toNat_ofInt, BitVec.toNat_ofInt, ← Int.toNat_natCast (2 ^ w),
    ← Int.toNat_emod (Int.emod_nonneg _ (by positivity)) (by positivity), Int.emod_emod_of_dvd n hd, Int.toNat_natCast]

theorem signedW_toNat {w : Nat} (hw : 0 < w) (x : BitVec w) : signedW w x.toNat = x.toInt := by
  have hp : 2 * 2 ^ (w - 1) = 2 ^ w := mul_pow_sub_one hw.ne' 2
  rw [signedW, BitVec.toInt_eq_toNat_cond, ← hp]
  split
  · rw [if_neg (by omega), hp]; norm_cast
  · rw [if_pos (by omega)]

theorem lowW_eq (w : Nat) (v : Word) : lowW w v = (v.setWidth w).toNat := (BitVec.toNat_setWidth ..).symm

/-! ## Operands and results of an integer type (R260) -/

theorem readInt_eq_numberOf (t : DT) (v : Word) : readInt t v = numberOf t v := by
  rw [readInt, numberOf, widen, lowW_eq, signedW_toNat t.width_pos]
  split
  · rw [BitVec.toInt_signExtend_of_le t.width_le]
  · rw [BitVec.toNat_setWidth_of_le t.width_le]

theorem extendInt_eq_wordOf (t : DT) (n : Int) : extendInt t n = wordOf t n := by
  have hn : (n % 2 ^ t.width).toNat = (BitVec.ofInt t.width n).toNat := by simp
  rw [extendInt, wordOf, widen, setWidth_ofInt_of_le t.width_le]
  simp only [hn, signedW_toNat t.width_pos]
  split
  · rfl
  · rw [BitVec.ofInt_natCast, BitVec.ofNat_toNat]

theorem setWidth_widen (t : DT) (v : Word) : (widen t v).setWidth t.width = v.setWidth t.width := by
  rw [widen]
  split
  · rw [BitVec.signExtend, setWidth_ofInt_of_le t.width_le, BitVec.ofInt_toInt]
  · rw [BitVec.setWidth_setWidth_of_le _ t.width_le, BitVec.setWidth_eq]

theorem widen_widen (t : DT) (v : Word) : widen t (widen t v) = widen t v := by
  rw [widen, setWidth_widen]; rfl

theorem wordOf_numberOf (t : DT) (v : Word) : wordOf t (numberOf t v) = widen t v := by
  have hv : BitVec.ofInt 64 (numberOf t v) = widen t v := by
    rw [numberOf]
    split <;> simp
  rw [wordOf, hv, widen_widen]

/-- Only an integer's residue modulo the type's span is written. -/
theorem wordOf_congr (t : DT) {n m : Int} (h : n ≡ m [ZMOD 2 ^ t.width]) : wordOf t n = wordOf t m := by
  rw [← extendInt_eq_wordOf, ← extendInt_eq_wordOf, extendInt, extendInt, h]

theorem wordOf_span_sub_one (t : DT) : wordOf t (2 ^ t.width - 1) = widen t (BitVec.allOnes 64) := by
  have h : (2 ^ t.width - 1 : Int) ≡ -1 [ZMOD 2 ^ t.width] := Int.modEq_iff_dvd.mpr ⟨-1, by ring⟩
  rw [wordOf_congr t h]
  rfl

theorem wordOf_half_span (t : DT) : wordOf t (2 ^ (t.width - 1)) = wordOf t (-2 ^ (t.width - 1)) := by
  have hp : (2 : Int) * 2 ^ (t.width - 1) = 2 ^ t.width := mul_pow_sub_one t.width_pos.ne' 2
  exact wordOf_congr t (Int.modEq_iff_dvd.mpr ⟨-1, by rw [← hp]; ring⟩)

theorem wordOf_zero (t : DT) : wordOf t 0 = 0 := by simp [wordOf, widen, BitVec.signExtend]

/-! ## Quotient and remainder (R262) -/

theorem divI_zero (w : Nat) (x : Int) : divI w x 0 = 2 ^ w - 1 := if_pos rfl

theorem remI_zero (x : Int) : remI x 0 = x := if_pos rfl

theorem divI_of_ne_zero (w : Nat) (x : Int) {y : Int} (h : y ≠ 0) : divI w x y = x.tdiv y := if_neg h

theorem remI_of_ne_zero (x : Int) {y : Int} (h : y ≠ 0) : remI x y = x.tmod y := by
  rw [remI, if_neg h, Int.tmod_def]

theorem natAbs_tmod_lt (x : Int) {y : Int} (h : y ≠ 0) : (x.tmod y).natAbs < y.natAbs := by
  rw [Int.natAbs_tmod]
  exact Nat.mod_lt _ (Int.natAbs_pos.mpr h)

/-- The remainder of a quotient rounded toward zero has the sign of the dividend, where it is not 0. -/
theorem tmod_pos_iff (x y : Int) (h : x.tmod y ≠ 0) : 0 < x.tmod y ↔ 0 < x := by
  have hs : (x.tmod y).sign = x.sign := by
    rw [Int.sign_tmod, if_neg fun hd => h (Int.tmod_eq_zero_of_dvd hd)]
  rw [← Int.sign_eq_one_iff_pos, hs, Int.sign_eq_one_iff_pos]

/-! ## What the instructions write (R260, R262, R264) -/

/-- The one effect of majors 0x00 and 0x01. -/
theorem scalarInt_eq {s : State} {w : Warp} (h : s.curWarp = some w) (f : FmtA) (op : Int → Int → Int) :
    scalarInt s f op =
      .next (putS s w f (wordOf f.dt (op (numberOf f.dt (w.getS f.a)) (numberOf f.dt (scalarB w f))))) := by
  simp only [scalarInt, onWarp_of h, putS, readInt_eq_numberOf, extendInt_eq_wordOf]

theorem div_writes : Writes .div fun _ w f =>
    wordOf f.dt (divI f.dt.width (numberOf f.dt (w.getS f.a)) (numberOf f.dt (scalarB w f))) :=
  fun _ _ f h => scalarInt_eq h f _

theorem rem_writes : Writes .rem fun _ w f =>
    wordOf f.dt (remI (numberOf f.dt (w.getS f.a)) (numberOf f.dt (scalarB w f))) :=
  fun _ _ f h => scalarInt_eq h f _

theorem extendInt_readInt (t : DT) (v : Word) : extendInt t (readInt t v) = widen t v := by
  rw [extendInt_eq_wordOf, readInt_eq_numberOf, wordOf_numberOf]

theorem mov_writes : Writes .mov fun _ w f => widen f.dt (w.getS f.a) := by
  intro s w f h
  show execMov f s = .next (putS s w f _)
  rw [execMov, onWarp_of h, extendInt_readInt, putS]

theorem movi_writes : Writes .movi fun _ _ f => widen f.dt (immA f) := by
  intro s w f h
  show execMovi f s = .next (putS s w f _)
  rw [execMovi, onWarp_of h, extendInt_readInt, putS]

/-! ## Fields that an entry of Format A leaves unused or fixes (R208) -/

theorem bad5A_of_wf {i : Instr} {major fn : Nat} {sp : SpecA} {f : FmtA} (hs : shapeOf i = .a major fn sp f)
    (h : i.wf = true) : bad5A sp f {} = false := by
  rw [← Bool.not_eq_true]
  intro hb
  simp [Instr.wf, wellFormed, violation, hs, violA, firstFail, hb] at h

/-- Step 5 of R220 on the operand fields: A and B are zero where the entry does not use them, and I is as it says. -/
theorem operands_of_bad5A {sp : SpecA} {f : FmtA} (h : bad5A sp f {} = false) :
    (sp.a = .none → f.a = 0) ∧ (sp.b = .none → f.b = 0) ∧ (sp.imm = .never → f.i = false) ∧ (sp.imm = .req → f.i = true) := by
  simp only [bad5A, Bool.or_eq_false_iff, and_assoc] at h
  obtain ⟨-, hI, hnI, -, ha, hb, -⟩ := h
  refine ⟨fun e => ?_, fun e => ?_, fun e => ?_, fun e => ?_⟩
  · simpa [e] using ha
  · simpa [e] using hb
  · simpa [e] using hI
  · simpa [e] using hnI

end Sys2Proof.Machine

section

open Sys2Proof Sys2Proof.Machine

/-- Settles O12: div and rem write the model's quotient and remainder, and both corners are the words the rule names, by
their residues. -/
theorem divisionCorners : Obligations.DivisionCorners := by
  intro s w f hw _ x y
  have hdiv : Ends (.div f) s (putS s w f (wordOf f.dt (divI f.dt.width x y))) := div_writes s w f hw
  have hrem : Ends (.rem f) s (putS s w f (wordOf f.dt (remI x y))) := rem_writes s w f hw
  refine ⟨fun hy => ?_, fun _ hx hy => ?_, fun hy => ?_⟩
  · rw [hy, divI_zero, wordOf_span_sub_one] at hdiv
    rw [hy, remI_zero] at hrem
    exact ⟨hdiv, hrem⟩
  · have hq : wordOf f.dt (x.tdiv (-1)) = wordOf f.dt x := by simp [hx, wordOf_half_span]
    have hr : wordOf f.dt (x.tmod (-1)) = 0 := by simp [wordOf_zero]
    rw [hy, divI_of_ne_zero _ _ (by decide), hq] at hdiv
    rw [hy, remI_of_ne_zero _ (by decide), hr] at hrem
    exact ⟨hdiv, hrem⟩
  · rw [divI_of_ne_zero _ _ hy] at hdiv
    rw [remI_of_ne_zero _ hy] at hrem
    exact ⟨x.tdiv y, x.tmod y, (Int.tdiv_mul_add_tmod x y).symm, natAbs_tmod_lt x hy,
      or_iff_not_imp_left.mpr (tmod_pos_iff x y), hdiv, hrem⟩

/-- Settles O13: an operand read and extended again is the operand widened, and step 5 of R220 fixes I, A and B. -/
theorem movesAtEveryWidth : Obligations.MovesAtEveryWidth := by
  refine ⟨mov_writes, movi_writes, fun f h => ?_, fun f h => ?_⟩
  · obtain ⟨-, hb, hi, -⟩ := operands_of_bad5A (bad5A_of_wf rfl h)
    exact ⟨hb rfl, hi rfl⟩
  · obtain ⟨ha, -, -, hi⟩ := operands_of_bad5A (bad5A_of_wf rfl h)
    exact ⟨hi rfl, ha rfl⟩

end
end

section
/-! SUPPORT. A pool's map entries rotated: what a run of settings leaves in a table, and that the lines of the rotated axis are
the old ones behind the cyclic permutation of the pool (R403). -/

namespace Sys2Proof.Machine

open Sys2Proof

/-! ## A table after a run of settings -/

section

variable {α : Type} (key : Nat → Nat) (val : Nat → α) {x i : Nat} {l : List Nat}

theorem tgetD_foldl_tset_of_forall_ne (m : AMap α) (d : α) (h : ∀ j ∈ l, x ≠ key j) :
    tgetD (l.foldl (fun m j => tset m (key j) (val j)) m) x d = tgetD m x d := by
  induction l generalizing m with
  | nil => rfl
  | cons j r ih =>
    rw [List.foldl_cons, ih _ fun k hk => h k (List.mem_cons_of_mem j hk), tgetD_tset_ne _ _ _ (h j List.mem_cons_self)]

/-- A key that only one place of the run sets keeps what that place sets. -/
theorem tgetD_foldl_tset_of_mem (m : AMap α) (d : α) (hkey : ∀ j ∈ l, key i = key j → i = j) (hi : i ∈ l) :
    tgetD (l.foldl (fun m j => tset m (key j) (val j)) m) (key i) d = val i := by
  induction l generalizing m with
  | nil => cases hi
  | cons j r ih =>
    rw [List.foldl_cons]
    by_cases hr : i ∈ r
    · exact ih _ (fun k hk => hkey k (List.mem_cons_of_mem j hk)) hr
    · obtain rfl : i = j := (List.mem_cons.1 hi).resolve_right hr
      have hne : ∀ k ∈ r, key i ≠ key k := fun k hk e => hr (hkey k (List.mem_cons_of_mem i hk) e ▸ hk)
      rw [tgetD_foldl_tset_of_forall_ne key val _ d hne, tgetD_tset_self]

end

/-! ## The selected lines -/

theorem countFrom_eq_range' (a n : Nat) : countFrom a n = List.range' a n := by
  induction n generalizing a with
  | zero => rfl
  | succ n ih => rw [countFrom, ih, List.range'_succ]

theorem countFrom_zero (n : Nat) : countFrom 0 n = List.range n := by
  rw [countFrom_eq_range', List.range_eq_range']

theorem selected_eq_filter_range (sel : BitVec 1024) : selected sel = (List.range 1024).filter fun x => sel.getLsbD x := by
  rw [selected, countFrom_zero]

theorem selected_nodup (sel : BitVec 1024) : (selected sel).Nodup := by
  rw [selected_eq_filter_range]
  exact List.nodup_range.filter _

theorem lt_of_mem_selected {sel : BitVec 1024} {x : Nat} (h : x ∈ selected sel) : x < 1024 := by
  rw [selected_eq_filter_range] at h
  exact List.mem_range.1 (List.mem_filter.1 h).1

/-! ## The rotation (R403) -/

namespace LPlane

variable (p : LPlane) (col : Bool) {pool : List Nat}

@[simp] theorem apply_remap (sel : BitVec 1024) (i : Nat) : p.apply (.remap col i) sel = p.rotate col (selected sel) := rfl

theorem rotate_of_short (h : pool.length < 2) : p.rotate col pool = p := if_pos h

/-- The rotated axis' map: the old one with the pool's entries set in turn. -/
theorem rotate_line_eq_foldl (h : ¬ pool.length < 2) (x : Nat) :
    (p.rotate col pool).line col x =
      tgetD ((countFrom 0 pool.length).foldl (fun m i =>
        tset m (pool.getD i 0) ((pool.map (p.line col)).getD ((i + 1) % pool.length) 0)) (if col then p.colmap else p.rowmap)) x x := by
  rw [rotate, if_neg h]
  cases col <;> rfl

/-- The rotation in one equation: a line of the pool takes the old physical line of its successor in the pool's cycle, and a
line outside it, which the cycle fixes, its own. -/
theorem rotate_line (hp : pool.Nodup) (x : Nat) : (p.rotate col pool).line col x = p.line col (pool.formPerm x) := by
  by_cases hn : pool.length < 2
  · rw [rotate_of_short p col hn, (List.formPerm_eq_one_iff pool hp).2 (by omega), Equiv.Perm.one_apply]
  rw [rotate_line_eq_foldl p col hn, countFrom_zero]
  by_cases hx : x ∈ pool
  · obtain ⟨i, hi, rfl⟩ := List.getElem_of_mem hx
    have hkey : ∀ j ∈ List.range pool.length, pool.getD i 0 = pool.getD j 0 → i = j := fun j hj e => by
      have hj := List.mem_range.1 hj
      rwa [List.getD_eq_getElem _ _ hi, List.getD_eq_getElem _ _ hj, hp.getElem_inj_iff] at e
    have hmod : (i + 1) % pool.length < pool.length := Nat.mod_lt _ (by omega)
    have hset := tgetD_foldl_tset_of_mem (fun j => pool.getD j 0)
      (fun j => (pool.map (p.line col)).getD ((j + 1) % pool.length) 0) (if col then p.colmap else p.rowmap) pool[i]
      hkey (List.mem_range.2 hi)
    rw [List.formPerm_apply_getElem pool hp i hi]
    simpa [hi, hmod] using hset
  · have hne : ∀ j ∈ List.range pool.length, x ≠ pool.getD j 0 := fun j hj e => by
      rw [List.getD_eq_getElem _ _ (List.mem_range.1 hj)] at e
      exact hx (e ▸ List.getElem_mem _)
    rw [tgetD_foldl_tset_of_forall_ne _ _ _ _ hne, List.formPerm_apply_of_notMem hx, line]

/-- No cell is written, no counter or budget changes, and the other axis keeps its map. -/
theorem rotate_frame (pool : List Nat) :
    (p.rotate col pool).cells = p.cells ∧ (p.rotate col pool).cnt = p.cnt ∧ (p.rotate col pool).bud = p.bud ∧
      ∀ x, (p.rotate col pool).line (!col) x = p.line (!col) x := by
  rw [rotate]
  split
  · exact ⟨rfl, rfl, rfl, fun _ => rfl⟩
  · cases col <;> exact ⟨rfl, rfl, rfl, fun _ => rfl⟩

theorem rotate_line_getD (hp : pool.Nodup) {i : Nat} (hi : i < pool.length) :
    (p.rotate col pool).line col (pool.getD i 0) = p.line col (pool.getD ((i + 1) % pool.length) 0) := by
  have hmod : (i + 1) % pool.length < pool.length := Nat.mod_lt _ (by omega)
  rw [rotate_line p col hp, List.getD_eq_getElem _ _ hi, List.formPerm_apply_getElem pool hp i hi, List.getD_eq_getElem _ _ hmod]

/-- A cell is read through the two lines that cross at it. -/
theorem cell_congr {p q : LPlane} {col : Bool} {x x' y : Nat} (hcells : q.cells = p.cells)
    (hline : q.line col x = p.line col x') (hcross : q.line (!col) y = p.line (!col) y) :
    q.cell col x y = p.cell col x' y := by
  have hkey : q.key col x y = p.key col x' y := by
    cases col <;> simp_all [key]
  rw [cell, cell, hkey, hcells]

/-- The cycle of a pool of lines is one-to-one on the lines, so the rotated axis stays apart. -/
theorem rotate_mapsApart (hp : pool.Nodup) (hlt : ∀ x ∈ pool, x < 1024) (h : p.mapsApart) : (p.rotate col pool).mapsApart := by
  have hcycle : ∀ x, x < 1024 → pool.formPerm x < 1024 := fun x hx => by
    by_cases hm : x ∈ pool
    · exact hlt _ (List.formPerm_apply_mem_of_mem hm)
    · rwa [List.formPerm_apply_of_notMem hm]
  intro c x y hx hy e
  obtain rfl | rfl : c = col ∨ c = !col := by cases c <;> cases col <;> simp
  · rw [rotate_line p c hp, rotate_line p c hp] at e
    exact pool.formPerm.injective (h c _ _ (hcycle x hx) (hcycle y hy) e)
  · obtain ⟨-, -, -, hcross⟩ := p.rotate_frame col pool
    rw [hcross, hcross] at e
    exact h _ _ _ hx hy e

end LPlane

end Sys2Proof.Machine

section

open Sys2Proof Sys2Proof.Machine

/-- Settles O37: the new map is the old one behind the cyclic permutation of the pool. -/
theorem planeRemap : Obligations.PlaneRemap := by
  intro p sel col
  rw [← selected_eq_filter_range, LPlane.apply_remap]
  have hp := selected_nodup sel
  obtain ⟨hcells, hcnt, hbud, hcross⟩ := p.rotate_frame col (selected sel)
  refine ⟨fun _ i hi => p.rotate_line_getD col hp hi, p.rotate_of_short col, fun x hx => ?_, hcross, fun _ i y hi => ?_,
    hcells, hcnt, hbud, p.rotate_mapsApart col hp fun _ => lt_of_mem_selected⟩
  · rw [p.rotate_line col hp, List.formPerm_apply_of_notMem hx]
  · exact LPlane.cell_congr hcells (p.rotate_line_getD col hp hi) (hcross y)

end
end
